-- ==== Sys2Proof/Word.lean ====
section
/-! DEFINITION. The words of lz77_match_finder (00_scope.md R10, R11): bytes of host memory and of a
stream, 64-bit register words, and the decoder state ST that tells how an op-code byte is read. -/

namespace Sys2Proof

/-- A byte of host memory or of a stream (R10). -/
abbrev Byte := BitVec 8

/-- A host-visible register as the host reads and writes it: a whole 64-bit word (10_state.md R31). -/
abbrev Word := BitVec 64

/-- The decoder state ST (10_state.md R47): `start` before the first stream instruction, `st0` after a
match whose S field was 0, `st1` to `st3` after that many literals, `st4` after a run of 4 or more. -/
inductive DecState where
  | start | st0 | st1 | st2 | st3 | st4
deriving DecidableEq, Repr

end Sys2Proof
end

