-- ==== Sys2Proof/Config.lean ====
section
/-! DEFINITION. The parameters of 00_scope.md R7: the constants of this hardware, the platform's two
parameters (XLEN and dma_ok) as plain data, and the free values of what the spec leaves open. -/

namespace Sys2Proof

namespace Config

/-- XLEN's value unless the platform says otherwise (R7). -/
def xlenDefault : Nat := 64

/-- T_ENTRIES (R7): entries of the scratch table. -/
def tEntries : Nat := 16384

/-- HASH_MUL (R7). -/
def hashMul : BitVec 32 := 0x1824429D#32

/-- BLOCK_MAX (R7): the largest block the encoder scans with one table. -/
def blockMax : Nat := 49152

/-- TAIL_RESERVE (R7): bytes at a block's end that are not scanned. -/
def tailReserve : Nat := 20

/-- MIN_MATCH (R7): the shortest match the encoder finds. -/
def minMatch : Nat := 4

/-- M2_MAX_LEN (R7). -/
def m2MaxLen : Nat := 8

/-- M3_MAX_LEN (R7). -/
def m3MaxLen : Nat := 33

/-- M4_MAX_LEN (R7). -/
def m4MaxLen : Nat := 9

/-- M2_MAX_OFFSET (R7). -/
def m2MaxOffset : Nat := 2048

/-- M3_MAX_OFFSET (R7). -/
def m3MaxOffset : Nat := 16384

/-- M4_MAX_OFFSET (R7): the window. -/
def m4MaxOffset : Nat := 49151

/-- ADLER_BASE (R7, 45_checksum.md R352). -/
def adlerBase : Nat := 65521

/-- BOUND(n) (R7): the worst-case compressed size of `n` source bytes. -/
def bound (n : Nat) : Nat := n + n / 16 + 64 + 3

/-- DESIGN CHOICE (log 8). The free values: draw number `k` of a byte the spec calls unspecified
(60_exceptions.md R405, 70_reset_and_hazards.md R451, 20_memory.md R90). It has no body, so no
proof can see a value of it. -/
opaque freeByte : Nat → Byte

/-- DESIGN CHOICE (log 26). The free memory: draw number `k` of all that host memory may hold after a run that
60_exceptions.md R407 or R408 leaves without a result. It has no body. -/
opaque freeCells : Nat → List (Nat × Byte)

end Config

/-- The platform's parameters (R7): XLEN, which ADDR_W equals, and dma_ok as the list of the address
ranges `[lo, hi)` the block may NOT access. No step changes them (10_state.md R51). -/
structure Platform where
  xlen  : Nat
  noDma : List (Nat × Nat)
deriving DecidableEq, Repr

/-- dma_ok (20_memory.md R87) as the platform gives it. -/
def Platform.dmaOk (p : Platform) (a : Nat) : Bool :=
  !p.noDma.any fun r => decide (r.1 ≤ a) && decide (a < r.2)

/-- XLEN is at least 32 (92_eei_decisions.md D2) and at most the registers' 64 bits (10_state.md R31). -/
def Platform.wf (p : Platform) : Bool := decide (32 ≤ p.xlen) && decide (p.xlen ≤ 64)

end Sys2Proof
end

