-- ==== Sys2Proof/Syntax.lean ====
section
/-! DEFINITION. The instructions of spec/opcode_table.json on both levels (00_scope.md R2): the sixteen
command codes and the nine stream instructions, with the operands of 30_encoding.md R134. -/

namespace Sys2Proof

/-- One constructor per row of the opcode table. A command carries CMD.STRICT (30_encoding.md R111). A
stream instruction carries the operands its header encodes: `n` literals, or `len`, `dist` and the S
field `s` (R121 to R127). The literal bytes that follow a header are not operands (log 18). -/
inductive Instr where
  | noCommand       (strict : Bool)
  | init            (strict : Bool)
  | compress        (strict : Bool)
  | decompress      (strict : Bool)
  | decompressSafe  (strict : Bool)
  | checksum        (strict : Bool)
  | reserved6       (strict : Bool)
  | reserved7       (strict : Bool)
  | reserved8       (strict : Bool)
  | reserved9       (strict : Bool)
  | reserved10      (strict : Bool)
  | reserved11      (strict : Bool)
  | reserved12      (strict : Bool)
  | reserved13      (strict : Bool)
  | reserved14      (strict : Bool)
  | reserved15      (strict : Bool)
  | litFirst        (n : Nat)
  | litRun          (n : Nat)
  | m1n             (dist s : Nat)
  | m1f             (dist s : Nat)
  | m2s             (len dist s : Nat)
  | m2l             (len dist s : Nat)
  | m3              (len dist s : Nat)
  | m4              (len dist s : Nat)
  | eos             (len s : Nat)
deriving DecidableEq, Repr

end Sys2Proof
end

