-- ==== Sys2Proof/WellFormed.lean ====
section
/-! DEFINITION. Which instructions exist: the operand ranges of 30_encoding.md R121 to R127, the length
that the extension guard of 43_stream_opcodes.md R270 lets pass, and the decoder states at which a
stream instruction can be read (30_encoding.md R120). -/

namespace Sys2Proof

/-- How many 00 bytes the extension of a length `v` past `base` has (30_encoding.md R116). -/
def extZeros (base v : Nat) : Nat := (v - base - 1) / 255

/-- The extension guard of R270: after each 00 byte the accumulated 255s stay at most `2^XLEN - 511`. -/
def extFits (xlen base v : Nat) : Bool := decide (255 * extZeros base v ≤ 2 ^ xlen - 511)

/-- The operand ranges of an instruction. Every command is well-formed (R111). -/
def Instr.wf (xlen : Nat) : Instr → Bool
  | .noCommand _ => true
  | .init _ => true
  | .compress _ => true
  | .decompress _ => true
  | .decompressSafe _ => true
  | .checksum _ => true
  | .reserved6 _ => true
  | .reserved7 _ => true
  | .reserved8 _ => true
  | .reserved9 _ => true
  | .reserved10 _ => true
  | .reserved11 _ => true
  | .reserved12 _ => true
  | .reserved13 _ => true
  | .reserved14 _ => true
  | .reserved15 _ => true
  | .litFirst n => decide (1 ≤ n) && decide (n ≤ 238)
  | .litRun n => decide (4 ≤ n) && extFits xlen 18 n
  | .m1n d s => decide (1 ≤ d) && decide (d ≤ 1024) && decide (s < 4)
  | .m1f d s => decide (2049 ≤ d) && decide (d ≤ 3072) && decide (s < 4)
  | .m2s l d s => decide (3 ≤ l) && decide (l ≤ 4) && decide (1 ≤ d) && decide (d ≤ 2048) && decide (s < 4)
  | .m2l l d s => decide (5 ≤ l) && decide (l ≤ 8) && decide (1 ≤ d) && decide (d ≤ 2048) && decide (s < 4)
  | .m3 l d s => decide (3 ≤ l) && extFits xlen 33 l && decide (1 ≤ d) && decide (d ≤ 16384) && decide (s < 4)
  | .m4 l d s =>
      decide (3 ≤ l) && extFits xlen 9 l && decide (16385 ≤ d) && decide (d ≤ 49151) && decide (s < 4)
  | .eos l s => decide (3 ≤ l) && extFits xlen 9 l && decide (s < 4)

/-- The length field of an M4 or EOS: 0 when the length is extended (R116, w = 3, k = 2). -/
def m4LenField (len : Nat) : Nat := if len ≤ 9 then len - 2 else 0

/-- The decoder states at which R120 reads a stream instruction. At START an M4 or EOS has op-code byte
0x10 or 0x11. A command is read from CMD, at any decoder state. -/
def Instr.admits (st : DecState) : Instr → Bool
  | .noCommand _ => true
  | .init _ => true
  | .compress _ => true
  | .decompress _ => true
  | .decompressSafe _ => true
  | .checksum _ => true
  | .reserved6 _ => true
  | .reserved7 _ => true
  | .reserved8 _ => true
  | .reserved9 _ => true
  | .reserved10 _ => true
  | .reserved11 _ => true
  | .reserved12 _ => true
  | .reserved13 _ => true
  | .reserved14 _ => true
  | .reserved15 _ => true
  | .litFirst _ => decide (st = .start)
  | .litRun _ => decide (st = .start) || decide (st = .st0)
  | .m1n _ _ => decide (st = .st1) || decide (st = .st2) || decide (st = .st3)
  | .m1f _ _ => decide (st = .st4)
  | .m2s _ _ _ => decide (st ≠ .start)
  | .m2l _ _ _ => decide (st ≠ .start)
  | .m3 _ _ _ => decide (st ≠ .start)
  | .m4 l d _ => decide (st ≠ .start) || (decide (d < 32768) && decide (m4LenField l ≤ 1))
  | .eos l _ => decide (st ≠ .start) || decide (m4LenField l ≤ 1)

/-- Whether an instruction is a command (first level of R2) and not a stream instruction. -/
def Instr.isCommand : Instr → Bool
  | .noCommand _ => true
  | .init _ => true
  | .compress _ => true
  | .decompress _ => true
  | .decompressSafe _ => true
  | .checksum _ => true
  | .reserved6 _ => true
  | .reserved7 _ => true
  | .reserved8 _ => true
  | .reserved9 _ => true
  | .reserved10 _ => true
  | .reserved11 _ => true
  | .reserved12 _ => true
  | .reserved13 _ => true
  | .reserved14 _ => true
  | .reserved15 _ => true
  | .litFirst _ => false
  | .litRun _ => false
  | .m1n _ _ => false
  | .m1f _ _ => false
  | .m2s _ _ _ => false
  | .m2l _ _ _ => false
  | .m3 _ _ _ => false
  | .m4 _ _ _ => false
  | .eos _ _ => false

end Sys2Proof
end

