-- ==== Sys2Proof/Decode.lean ====
section
/-! DEFINITION. Decoding and encoding on both levels: the command word of CMD (30_encoding.md R110, R111)
and the header of a stream instruction (R115 to R127), total on any word and any bytes. A header is the
op-code byte, its length extension and its fixed operand bytes; the literal bytes after it are copied by
the instruction's meaning (log 18). -/

namespace Sys2Proof

/-- Why a header cannot be read: the bytes end inside it (43_stream_opcodes.md R271), or the extension
guard of R270 fires in a literal run or in a match. -/
inductive DecodeError where
  | cut | longLiteral | longMatch
deriving DecidableEq, Repr

/-- What the hardware reads an instruction from: a command word, or the bytes of a stream. -/
inductive Code where
  | command (w : Word)
  | stream (bytes : List Byte)
deriving DecidableEq, Repr

/-- The classes of the op-code byte (R120). M4 and EOS are one class until the distance is read. -/
inductive Format where
  | litFirst | litRun | m1n | m1f | m2s | m2l | m3 | m4OrEos
deriving DecidableEq, Repr

/-- CMD.OP of a word written to CMD (R110). -/
def cmdOpOf (w : Word) : BitVec 4 := w.extractLsb' 0 4

/-- CMD.STRICT of a word written to CMD (R111). -/
def cmdStrictOf (w : Word) : Bool := w.getLsbD 8

/-- R110: the command an OP code names. -/
def commandOf (op : BitVec 4) (strict : Bool) : Instr :=
  match op.toNat with
  | 0 => .noCommand strict
  | 1 => .init strict
  | 2 => .compress strict
  | 3 => .decompress strict
  | 4 => .decompressSafe strict
  | 5 => .checksum strict
  | 6 => .reserved6 strict
  | 7 => .reserved7 strict
  | 8 => .reserved8 strict
  | 9 => .reserved9 strict
  | 10 => .reserved10 strict
  | 11 => .reserved11 strict
  | 12 => .reserved12 strict
  | 13 => .reserved13 strict
  | 14 => .reserved14 strict
  | _ => .reserved15 strict

/-- R111: every word written to CMD is one of the rows of R110; its other bits are ignored. -/
def decodeCommand (w : Word) : Instr := commandOf (cmdOpOf w) (cmdStrictOf w)

/-- R120, the table of op-code byte against decoder state. -/
def selectFormat (st : DecState) (b : Nat) : Format :=
  if st = .start ∧ 18 ≤ b then .litFirst
  else if b < 16 then
    match st with
    | .start | .st0 => .litRun
    | .st1 | .st2 | .st3 => .m1n
    | .st4 => .m1f
  else if b < 32 then .m4OrEos
  else if b < 64 then .m3
  else if b < 128 then .m2s
  else .m2l

/-- R116 and R270: read a length extension. `base` is `k + (2^w - 1)`, `acc` the accumulated 255s and
`used` the extension bytes read so far. The answer is the length, the bytes read and the bytes left. R270's
example contradicts its pseudocode and R116 (DEDUCED, log 21): the pseudocode is followed. -/
def decodeExt (xlen base : Nat) (tooLong : DecodeError) :
    Nat → Nat → List Byte → Except DecodeError (Nat × Nat × List Byte)
  | _, _, [] => .error .cut
  | acc, used, x :: rest =>
    if x.toNat ≠ 0 then .ok (base + acc + x.toNat, used + 1, rest)
    else if 2 ^ xlen - 511 < acc + 255 then .error tooLong
    else decodeExt xlen base tooLong (acc + 255) (used + 1) rest

/-- R116: a length field `field` with bias `k` and all-extended base `base`. -/
def decodeLen (xlen k base field : Nat) (tooLong : DecodeError) (rest : List Byte) :
    Except DecodeError (Nat × Nat × List Byte) :=
  if field ≠ 0 then .ok (field + k, 0, rest) else decodeExt xlen base tooLong 0 0 rest

/-- R124: the field D of the two distance bytes. -/
def distField (d0 d1 : Byte) : Nat := d0.toNat / 4 + d1.toNat * 64

/-- R124: an M3 whose length is read, from its two distance bytes. -/
def decodeM3Tail (len used : Nat) : List Byte → Except DecodeError (Instr × Nat)
  | d0 :: d1 :: _ => .ok (.m3 len (distField d0 d1 + 1) (d0.toNat % 4), used + 3)
  | _ => .error .cut

/-- R124 and R127: an M4 or EOS whose length is read. `h` is bit 3 of the op-code byte. -/
def decodeM4Tail (len h used : Nat) : List Byte → Except DecodeError (Instr × Nat)
  | d0 :: d1 :: _ =>
    if h = 0 ∧ distField d0 d1 = 0 then .ok (.eos len (d0.toNat % 4), used + 3)
    else .ok (.m4 len (16384 + h * 16384 + distField d0 d1) (d0.toNat % 4), used + 3)
  | _ => .error .cut

/-- R121 to R123: the formats whose operands are the op-code byte and at most one more byte `H`. -/
def decodeTwo (f : Nat → Instr) : List Byte → Except DecodeError (Instr × Nat)
  | h :: _ => .ok (f h.toNat, 2)
  | [] => .error .cut

/-- The header at the head of `bytes` in decoder state `st` (R115 to R127): the instruction and the
number of bytes its header takes. -/
def decodeStream (xlen : Nat) (st : DecState) : List Byte → Except DecodeError (Instr × Nat)
  | [] => .error .cut
  | x :: rest =>
    let b := x.toNat
    match selectFormat st b with
    | .litFirst => .ok (.litFirst (b - 17), 1)
    | .litRun =>
      match decodeLen xlen 3 18 (b % 16) .longLiteral rest with
      | .ok (n, used, _) => .ok (.litRun n, used + 1)
      | .error e => .error e
    | .m1n => decodeTwo (fun h => .m1n (h * 4 + b / 4 + 1) (b % 4)) rest
    | .m1f => decodeTwo (fun h => .m1f (h * 4 + b / 4 + 2049) (b % 4)) rest
    | .m2s => decodeTwo (fun h => .m2s (b / 32 + 1) (h * 8 + b / 4 % 8 + 1) (b % 4)) rest
    | .m2l => decodeTwo (fun h => .m2l (b / 32 + 1) (h * 8 + b / 4 % 8 + 1) (b % 4)) rest
    | .m3 =>
      match decodeLen xlen 2 33 (b % 32) .longMatch rest with
      | .ok (len, used, rest') => decodeM3Tail len used rest'
      | .error e => .error e
    | .m4OrEos =>
      match decodeLen xlen 2 9 (b % 8) .longMatch rest with
      | .ok (len, used, rest') => decodeM4Tail len (b / 8 % 2) used rest'
      | .error e => .error e

/-- Decoding on both levels: the instruction and the bytes its header takes (8 for CMD, a 64-bit word). -/
def decode (xlen : Nat) (st : DecState) : Code → Except DecodeError (Instr × Nat)
  | .command w => .ok (decodeCommand w, 8)
  | .stream bytes => decodeStream xlen st bytes

/-! ### The encoder, from the same tables -/

/-- A byte of value `n` mod 256. -/
def byteOf (n : Nat) : Byte := BitVec.ofNat 8 n

/-- R116: the extension that adds `r >= 1` to the base, with the fewest 00 bytes. -/
def extBytes (r : Nat) : List Byte :=
  List.replicate ((r - 1) / 255) (byteOf 0) ++ [byteOf (r - 255 * ((r - 1) / 255))]

/-- R116: the length field of `v` with bias `k`: 0 when `v` lies past `base`. -/
def lenField (k base v : Nat) : Nat := if v ≤ base then v - k else 0

/-- R116: the extension of `v`: none up to `base`. -/
def lenExt (base v : Nat) : List Byte := if v ≤ base then [] else extBytes (v - base)

/-- R124: the two distance bytes of a field D and an S field. -/
def distBytes (d s : Nat) : List Byte := [byteOf (d % 64 * 4 + s), byteOf (d / 64)]

/-- R110: the word whose OP is `op` and whose STRICT is `strict`, every reserved bit 0. -/
def commandWord (op : BitVec 4) (strict : Bool) : Word :=
  op.setWidth 64 ||| (if strict then 0x100#64 else 0#64)

/-- R122: the two bytes of an M1N or M1F whose distance lies `d` past the class's least. -/
def m1Bytes (d s : Nat) : List Byte := [byteOf (d % 4 * 4 + s), byteOf (d / 4)]

/-- R123: the two bytes of an M2S or M2L. -/
def m2Header (len dist s : Nat) : List Byte :=
  [byteOf ((len - 1) * 32 + (dist - 1) % 8 * 4 + s), byteOf ((dist - 1) / 8)]

/-- R124, R127: the header of an M4-shaped instruction whose distance is `16384 + d`. -/
def m4Header (len d s : Nat) : List Byte :=
  byteOf (16 + d / 16384 * 8 + lenField 2 9 len) :: (lenExt 9 len ++ distBytes (d % 16384) s)

/-- The canonical code of an instruction: its command word, or the bytes of its header (R110, R117). -/
def encode : Instr → Code
  | .noCommand t => .command (commandWord 0 t)
  | .init t => .command (commandWord 1 t)
  | .compress t => .command (commandWord 2 t)
  | .decompress t => .command (commandWord 3 t)
  | .decompressSafe t => .command (commandWord 4 t)
  | .checksum t => .command (commandWord 5 t)
  | .reserved6 t => .command (commandWord 6 t)
  | .reserved7 t => .command (commandWord 7 t)
  | .reserved8 t => .command (commandWord 8 t)
  | .reserved9 t => .command (commandWord 9 t)
  | .reserved10 t => .command (commandWord 10 t)
  | .reserved11 t => .command (commandWord 11 t)
  | .reserved12 t => .command (commandWord 12 t)
  | .reserved13 t => .command (commandWord 13 t)
  | .reserved14 t => .command (commandWord 14 t)
  | .reserved15 t => .command (commandWord 15 t)
  | .litFirst n => .stream [byteOf (n + 17)]
  | .litRun n => .stream (byteOf (lenField 3 18 n) :: lenExt 18 n)
  | .m1n d s => .stream (m1Bytes (d - 1) s)
  | .m1f d s => .stream (m1Bytes (d - 2049) s)
  | .m2s l d s => .stream (m2Header l d s)
  | .m2l l d s => .stream (m2Header l d s)
  | .m3 l d s => .stream (byteOf (32 + lenField 2 33 l) :: (lenExt 33 l ++ distBytes (d - 1) s))
  | .m4 l d s => .stream (m4Header l (d - 16384) s)
  | .eos l s => .stream (m4Header l 0 s)

/-- The bytes of a code: a command word is 8 bytes, least significant first; a stream is its bytes. -/
def Code.size : Code → Nat
  | .command _ => 8
  | .stream bytes => bytes.length

/-- The literal bytes that follow a header in the stream (30_encoding.md R131). -/
def Instr.literals : Instr → Nat
  | .noCommand _ => 0
  | .init _ => 0
  | .compress _ => 0
  | .decompress _ => 0
  | .decompressSafe _ => 0
  | .checksum _ => 0
  | .reserved6 _ => 0
  | .reserved7 _ => 0
  | .reserved8 _ => 0
  | .reserved9 _ => 0
  | .reserved10 _ => 0
  | .reserved11 _ => 0
  | .reserved12 _ => 0
  | .reserved13 _ => 0
  | .reserved14 _ => 0
  | .reserved15 _ => 0
  | .litFirst n => n
  | .litRun n => n
  | .m1n _ s => s
  | .m1f _ s => s
  | .m2s _ _ s => s
  | .m2l _ _ s => s
  | .m3 _ _ s => s
  | .m4 _ _ s => s
  | .eos _ _ => 0

/-! ### The opcode table's numbering of words -/

/-- DESIGN CHOICE (log 17). A table word is read as a stream instruction when the table gives its row one
byte and that byte is at least 16, and as a command word otherwise: the one-byte words below 16 name a
command and a stream instruction alike, and (nbits, w) does not tell which. -/
def tableIsStream (nbits w : Nat) : Bool := decide (nbits ≤ 8) && decide (16 ≤ w % 256)

/-- DESIGN CHOICE (log 17). The bytes of a table word's stream instruction: its op-code byte, then operand
bytes of 00; only where the length field is 0 does the extension's last byte, which cannot be 00 (R116),
come first, as 01. -/
def tableBytes (w : Nat) : List Byte :=
  let b := w % 256
  let ext := if b < 32 then b % 8 == 0 else b < 64 && b % 32 == 0
  byteOf b :: ((if ext then [byteOf 1] else []) ++ [byteOf 0, byteOf 0])

/-- The decoder's answer for a word of spec/opcode_table.json. A stream row is read at decoder state 0. -/
def decodeTableWord (nbits w : Nat) : Option Instr :=
  if tableIsStream nbits w then
    match decodeStream Config.xlenDefault .st0 (tableBytes w) with
    | .ok (i, _) => some i
    | .error _ => none
  else some (decodeCommand (BitVec.ofNat 64 w))

end Sys2Proof
end

