-- ==== Sys2Proof/Machine/State.lean ====
section
/-! DEFINITION. The state of lz77_match_finder as plain data (10_state.md): the host-visible registers,
the argument snapshot, the working registers of the five units, the scratch table, host memory, the two
fault marks, the platform's parameters, what the host has observed of past commands, the pending commands of
other blocks, and the accesses still to come from outside. -/

namespace Sys2Proof.Machine

/-- The status names of 60_exceptions.md R400. `notCompressible`, `invalidAlignment` and `internalError`
are never raised; they keep the enumeration complete. -/
inductive Status where
  | ok | error | outOfMemory | notCompressible | inputOverrun | outputOverrun | lookbehindOverrun
  | eofNotFound | inputNotConsumed | notYetImplemented | invalidArgument | invalidAlignment
  | outputNotConsumed | internalError
deriving DecidableEq, Repr

/-- Why the machine stops. -/
inductive Fault where
  /-- Raised by every step but a reset from a state whose HOST_RACE mark is set (60_exceptions.md R407). Safe:
  the spec gives such a run no result. -/
  | hostRace
  /-- Raised by every step but a reset from a state whose UNDEFINED mark is set (60_exceptions.md R408). Safe:
  the spec gives such a run no result. -/
  | undefinedRun
  /-- Raised by an event that accesses a host address outside `2^ADDR_W` (20_memory.md R80: there is no
  such byte). Safe: no access of the spec names one. -/
  | noSuchAddress
  /-- Raised by an access of another block that has no pending command, or outside that command's buffers
  (20_memory.md R82: no command makes it; of an UNDEFINED one R408 says nothing). Safe (log 20). -/
  | strayPeerAccess
deriving DecidableEq, Repr

/-- Why the machine has no meaning for what it is given. -/
inductive Refusal where
  /-- An instruction with no meaning yet; no arm of exec raises it. Safe. -/
  | notModelled (mnemonic : String)
  /-- Raised by a register access that is not a whole 64-bit word at an offset of the register block that
  is a multiple of 8 (10_state.md R32: "the model refuses them"). Safe. -/
  | registerAccess
deriving DecidableEq, Repr

/-- The argument snapshot taken at issue (10_state.md R43). -/
structure Snapshot where
  srcBase : Word
  srcN    : Word
  dstBase : Word
  dstN    : Word
  seedV   : BitVec 32
  strictV : Bool
  opv     : BitVec 4
deriving DecidableEq, Repr

/-- What an agent outside the block does (10_state.md R30, 20_memory.md R90, R96). `width` is in bits and
`offset` in bytes from the base of the register block (10_state.md R31). -/
inductive HostEvent where
  /-- The host writes a register. -/
  | regWrite (offset width : Nat) (v : Word)
  /-- The host reads a register. -/
  | regRead (offset width : Nat)
  /-- The host writes a byte of host memory. -/
  | memWrite (a : Nat) (v : Byte)
  /-- The host reads a byte of host memory. -/
  | memRead (a : Nat)
  /-- The host waits: the block moves if it has a pending command (70_reset_and_hazards.md R462). -/
  | wait
  /-- The platform resets the block (70_reset_and_hazards.md R450, R451). -/
  | reset
  /-- A command is issued in block `k` (20_memory.md R96, 60_exceptions.md R417). -/
  | peerIssue (k : Nat) (c : Snapshot)
  /-- The pending command of block `k` writes a byte (20_memory.md R96). -/
  | peerWrite (k a : Nat) (v : Byte)
  /-- The pending command of block `k` reads a byte (20_memory.md R96). -/
  | peerRead (k a : Nat)
  /-- The pending command of block `k` completes, or that block is reset (60_exceptions.md R403). -/
  | peerDone (k : Nat)
deriving DecidableEq, Repr

/-- The host-visible registers (10_state.md R31 to R39), by field. Their other bits hold nothing. -/
structure Regs where
  cmdOp     : BitVec 4
  cmdStrict : Bool
  code      : BitVec 32
  busy      : Bool
  initDone  : Bool
  srcAddr   : Word
  srcLen    : Word
  dstAddr   : Word
  dstLen    : Word
  seed      : BitVec 32
  outLen    : Word
  cksum     : BitVec 32
deriving DecidableEq, Repr

/-- The encoder's working registers (10_state.md R44): BASE, L, BL, TI, P, II, OPOS and E. -/
structure EncRegs where
  base : Nat
  l    : Nat
  bl   : Nat
  ti   : Nat
  p    : Nat
  ii   : Int
  opos : Nat
  e    : Nat
deriving DecidableEq, Repr

/-- The match finder's outputs (10_state.md R45): CAND, MLEN and MOFF. -/
structure MfRegs where
  cand : Nat
  mlen : Nat
  moff : Nat
deriving DecidableEq, Repr

/-- The decoder's registers (10_state.md R46 to R48): IP, OP and ST. -/
structure DecRegs where
  ip : Nat
  op : Nat
  st : DecState
deriving DecidableEq, Repr

/-- The checksum accumulators (10_state.md R49). -/
structure CksRegs where
  s1 : BitVec 16
  s2 : BitVec 16
deriving DecidableEq, Repr

/-- What the host has observed (20_memory.md R92, 70_reset_and_hazards.md R456, R457). `unseen` holds the
commands with buffers that ended since the host last read STATUS with BUSY = 0, the last one first;
`resultsSeen` says that no completion followed that read, and `cksumSeen` that none of CHECKSUM, the one command with
a CKSUM of its own (40_commands.md R175), did (log 25). -/
structure HostView where
  unseen      : List Snapshot
  resultsSeen : Bool
  cksumSeen   : Bool
deriving DecidableEq, Repr

/-- Host memory (10_state.md R50): the bytes that differ from what an unlisted byte reads as, by rising
address. -/
abbrev Memory := List Host.Cell

/-- The scratch table T (10_state.md R40): the entries that are not 0, by rising bucket. -/
abbrev Table := List (Nat × BitVec 16)

/-- Everything the spec gives the block, with host memory; what it says of the host and of other blocks:
`view` (what the host has observed) and `peers` (the pending commands of other blocks, by block, 20_memory.md
R96); and the model's own fields: `decoding` (the block is inside the loop of 44_decompressors.md R312,
log 1), `draws` (how many free values were drawn, log 8), `inbox` (what the outside does next, log 6) and
`hostRead` (what the host's last read returned, log 7). `regs.busy` is STATUS.BUSY and PENDING at once
(10_state.md R41). -/
structure State where
  regs          : Regs
  snap          : Snapshot
  enc           : EncRegs
  mf            : MfRegs
  dec           : DecRegs
  cks           : CksRegs
  table         : Table
  mem           : Memory
  decoding      : Bool
  hostRace      : Bool
  undefinedMark : Bool
  view          : HostView
  peers         : List (Nat × Snapshot)
  draws         : Nat
  inbox         : List HostEvent
  hostRead      : Word
  platform      : Platform
deriving DecidableEq, Repr

/-- The registers after reset (70_reset_and_hazards.md R450). -/
def Regs.reset : Regs where
  cmdOp := 0
  cmdStrict := true
  code := 0
  busy := false
  initDone := false
  srcAddr := 0
  srcLen := 0
  dstAddr := 0
  dstLen := 0
  seed := 1
  outLen := 0
  cksum := 0

/-- The machine right after reset (70_reset_and_hazards.md R450). DESIGN CHOICE (log 5): what R450 calls
unspecified is 0, and ST is START. Host memory lists nothing (log 4); no command has ended yet, and no other
block has one pending (logs 25, 20). -/
def State.reset : State where
  regs := Regs.reset
  snap := { srcBase := 0, srcN := 0, dstBase := 0, dstN := 0, seedV := 0, strictV := false, opv := 0 }
  enc := { base := 0, l := 0, bl := 0, ti := 0, p := 0, ii := 0, opos := 0, e := 0 }
  mf := { cand := 0, mlen := 0, moff := 0 }
  dec := { ip := 0, op := 0, st := .start }
  cks := { s1 := 0, s2 := 0 }
  table := []
  mem := []
  decoding := false
  hostRace := false
  undefinedMark := false
  view := { unseen := [], resultsSeen := true, cksumSeen := true }
  peers := []
  draws := 0
  inbox := []
  hostRead := 0
  platform := { xlen := Config.xlenDefault, noDma := [] }

end Sys2Proof.Machine
end

