-- ==== Sys2Proof/Machine/Flags.lean ====
section
/-! DEFINITION. The flag-like values of the block: the numbers of the status codes (60_exceptions.md R400),
the words CMD, STATUS, SEED and CKSUM as the host reads them (10_state.md R32 to R39), and the decoder state
ST after an instruction (43_stream_opcodes.md R280, R281, R288). -/

namespace Sys2Proof.Machine

/-- R400: the number of a status, in 32-bit two's complement. -/
def Status.code : Status → BitVec 32
  | .ok => 0
  | .error => BitVec.ofInt 32 (-1)
  | .outOfMemory => BitVec.ofInt 32 (-2)
  | .notCompressible => BitVec.ofInt 32 (-3)
  | .inputOverrun => BitVec.ofInt 32 (-4)
  | .outputOverrun => BitVec.ofInt 32 (-5)
  | .lookbehindOverrun => BitVec.ofInt 32 (-6)
  | .eofNotFound => BitVec.ofInt 32 (-7)
  | .inputNotConsumed => BitVec.ofInt 32 (-8)
  | .notYetImplemented => BitVec.ofInt 32 (-9)
  | .invalidArgument => BitVec.ofInt 32 (-10)
  | .invalidAlignment => BitVec.ofInt 32 (-11)
  | .outputNotConsumed => BitVec.ofInt 32 (-12)
  | .internalError => BitVec.ofInt 32 (-99)

/-- 10_state.md R41: PENDING, which equals STATUS.BUSY. -/
def State.pending (s : State) : Bool := s.regs.busy

/-- One bit at place `k` of a 64-bit word. -/
def bitAt (k : Nat) (b : Bool) : Word := if b then 1#64 <<< k else 0#64

/-- 10_state.md R33: CMD as the host reads it. -/
def Regs.cmdWord (r : Regs) : Word := r.cmdOp.setWidth 64 ||| bitAt 8 r.cmdStrict

/-- 10_state.md R34: STATUS as the host reads it. -/
def Regs.statusWord (r : Regs) : Word :=
  r.code.setWidth 64 ||| bitAt 32 r.busy ||| bitAt 33 r.initDone

/-- R280 and R288: ST after `n` literals, or after a match whose S field is `n`. -/
def stAfter : Nat → DecState
  | 0 => .st0
  | 1 => .st1
  | 2 => .st2
  | 3 => .st3
  | _ => .st4

end Sys2Proof.Machine
end

