-- ==== Sys2Proof/Machine/Ops.lean ====
section
/-! DEFINITION. The operations every meaning is built from: sparse storage in canonical form (host memory
and the scratch table), the block's one-byte accesses to host memory (20_memory.md R83, R87), and how a
command ends: completion, an error before and after its first access, and the UNDEFINED mark
(60_exceptions.md R402, R403, R405, R408). The block has no trap (R410): an error IS a completion. -/

namespace Sys2Proof.Machine

/-! ### Sparse storage -/

/-- What an unlisted entry reads as: 0. For T that is a cleared entry (41_match_finder.md R200). For host
memory it is a DESIGN CHOICE (log 4). -/
def unlisted (w : Nat) : BitVec w := 0#w

/-- The value at key `a`. -/
def sparseRead {w : Nat} : List (Nat × BitVec w) → Nat → BitVec w
  | [], _ => unlisted w
  | (k, v) :: m, a => if a = k then v else sparseRead m a

/-- Put `v` in front, unless it is what an unlisted entry reads as. -/
def sparseCons {w : Nat} (a : Nat) (v : BitVec w) (m : List (Nat × BitVec w)) : List (Nat × BitVec w) :=
  if v = unlisted w then m else (a, v) :: m

/-- Store `v` at key `a`, keeping the keys rising and no entry unlisted. -/
def sparseWrite {w : Nat} : List (Nat × BitVec w) → Nat → BitVec w → List (Nat × BitVec w)
  | [], a, v => sparseCons a v []
  | (k, x) :: m, a, v =>
    if a < k then sparseCons a v ((k, x) :: m)
    else if a = k then sparseCons a v m
    else (k, x) :: sparseWrite m a v

/-- The canonical form: keys rise strictly and no entry equals what an unlisted one reads as. -/
def sparseWf {w : Nat} : List (Nat × BitVec w) → Bool
  | [] => true
  | (k, v) :: m => decide (v ≠ unlisted w) && m.all (fun c => decide (k < c.1)) && sparseWf m

/-- The byte at host address `a`. -/
def Memory.read (m : Memory) (a : Nat) : Byte := sparseRead m a

/-- Host memory with byte `v` at address `a`. -/
def Memory.write (m : Memory) (a : Nat) (v : Byte) : Memory := sparseWrite m a v

/-- Host memory is in its canonical form. -/
def Memory.wf (m : Memory) : Bool := sparseWf m

/-- Entry `h` of the scratch table. -/
def Table.read (t : Table) (h : Nat) : BitVec 16 := sparseRead t h

/-- The scratch table with `v` in entry `h`. -/
def Table.write (t : Table) (h : Nat) (v : BitVec 16) : Table := sparseWrite t h v

/-- The scratch table is in its canonical form and lists only its 16384 entries. -/
def Table.wf (t : Table) : Bool := sparseWf t && t.all fun c => decide (c.1 < Config.tEntries)

/-- `n` bytes from address `a` on become free values, from draw number `k` on (log 8). -/
def Memory.havoc : Nat → Nat → Nat → Memory → Memory
  | 0, _, _, m => m
  | n + 1, a, k, m => Memory.havoc n (a + 1) (k + 1) (m.write a (Config.freeByte k))

/-- A memory that holds the bytes of `cells` with addresses below `2^xlen`, a later one over an earlier one. Every
memory in canonical form is one of these. -/
def Memory.ofCells (xlen : Nat) : List (Nat × Byte) → Memory
  | [] => []
  | (a, v) :: cells => if a < 2 ^ xlen then (ofCells xlen cells).write a v else ofCells xlen cells

/-! ### How a command's action ends -/

/-- How a command stops before its end: with a status (60_exceptions.md R402), or in the UNDEFINED outcome
of DEC_U (R408). -/
inductive Stop where
  | status (c : Status)
  | undefined
deriving DecidableEq, Repr

/-- The answer of one action of a command: it goes on with a value, or the command stops. -/
inductive Res (α : Type) where
  | ok (a : α) (s : State)
  | stop (r : Stop) (s : State)
deriving DecidableEq, Repr

/-- Then: the next action runs only if this one goes on (R402: "No later action of the command runs"). -/
def Res.andThen {α β : Type} (r : Res α) (f : α → State → Res β) : Res β :=
  match r with
  | .ok a s => f a s
  | .stop e s => .stop e s

/-- 60_exceptions.md R402: `raise Status(c)`. -/
def raise {α : Type} (c : Status) (s : State) : Res α := .stop (.status c) s

/-! ### One-byte accesses of the block -/

/-- Host address `a` names a byte (20_memory.md R80). -/
def State.hasByte (s : State) (a : Nat) : Bool := decide (a < 2 ^ s.platform.xlen)

/-- The block may access address `a` (20_memory.md R87). An address that names no byte is not accessible
(log 3). -/
def State.dmaOk (s : State) (a : Nat) : Bool := s.hasByte a && s.platform.dmaOk a

/-- MemRead(a, 1) (00_scope.md R11) with its bus error (20_memory.md R87). -/
def memRead (a : Nat) (s : State) : Res Byte :=
  if s.dmaOk a then .ok (s.mem.read a) s else raise .error s

/-- MemWrite(a, 1, v) (00_scope.md R11) with its bus error (20_memory.md R87). -/
def memWrite (a : Nat) (v : Byte) (s : State) : Res Unit :=
  if s.dmaOk a then .ok () { s with mem := s.mem.write a v } else raise .error s

/-! ### Completion -/

/-- The command code of COMPRESS, DECOMPRESS or DECOMPRESS_SAFE (30_encoding.md R110): the commands with an
output buffer (40_commands.md R163, R175). -/
def hasOutput (op : BitVec 4) : Bool := op == 2#4 || op == 3#4 || op == 4#4

/-- The commands with an input buffer (40_commands.md R163, R175): those of `hasOutput`, and CHECKSUM. -/
def hasInput (op : BitVec 4) : Bool := hasOutput op || op == 5#4

/-- The host has yet to observe the end of command `c`: until then `c`'s buffers, if it has any, stay hazardous
(70_reset_and_hazards.md R456). -/
def HostView.keepOpen (c : Snapshot) (v : HostView) : HostView :=
  if hasInput c.opv then { v with unseen := c :: v.unseen } else v

/-- A completion of `c` that the host has not observed (20_memory.md R92 (b), (c), 70_reset_and_hazards.md
R457). Every command has a CODE and an OUT_LEN, and CHECKSUM alone a CKSUM (40_commands.md R175). -/
def HostView.complete (c : Snapshot) (v : HostView) : HostView :=
  { v.keepOpen c with resultsSeen := false, cksumSeen := v.cksumSeen && c.opv != 5#4 }

/-- 60_exceptions.md R403: completion with status `c`. `outLen` is OUT_LEN_RESULT and `cks` is
CKSUM_RESULT. -/
def State.complete (c : Status) (outLen : Nat) (cks : BitVec 32) (s : State) : State :=
  { s with
    decoding := false
    view := s.view.complete s.snap
    regs := { s.regs with
      code := c.code
      outLen := if c = .ok ∧ hasOutput s.snap.opv then BitVec.ofNat 64 outLen else 0
      cksum := if c = .ok ∧ s.snap.opv = 5#4 then cks else s.regs.cksum
      initDone := if c = .ok ∧ s.snap.opv = 1#4 then true else s.regs.initDone
      busy := false } }

/-- `finish(OK)` (60_exceptions.md R402) with OUT_LEN_RESULT `outLen`. -/
def State.finishOk (outLen : Nat) (s : State) : State := s.complete .ok outLen s.regs.cksum

/-- How many bytes of the output buffer exist: all `DST_N`, but none past `2^ADDR_W` (20_memory.md R80). -/
def State.outCount (s : State) : Nat :=
  min s.snap.dstN.toNat (2 ^ s.platform.xlen - s.snap.dstBase.toNat)

/-- Every byte of the command's output buffer, if it has one, becomes a free value (60_exceptions.md
R405 (b), 70_reset_and_hazards.md R451). -/
def State.havocOutput (s : State) : State :=
  if hasOutput s.snap.opv then
    { s with
      mem := Memory.havoc s.outCount s.snap.dstBase.toNat s.draws s.mem
      draws := s.draws + s.outCount }
  else s

/-- An error raised before any memory access (60_exceptions.md R405 (a)): the output buffer is unchanged. -/
def State.raiseEarly (c : Status) (s : State) : State := s.complete c 0 s.regs.cksum

/-- Any other error (60_exceptions.md R405 (b)): every byte of the output buffer is unspecified. -/
def State.raiseLate (c : Status) (s : State) : State := s.havocOutput.raiseEarly c

/-- 60_exceptions.md R408: the command stops in the fault state UNDEFINED and sets no register. -/
def State.markUndefined (s : State) : State := { s with undefinedMark := true, decoding := false }

/-- The state a stopped command leaves. -/
def State.endStop (r : Stop) (s : State) : State :=
  match r with
  | .status c => s.raiseLate c
  | .undefined => s.markUndefined

/-- The end of a command's actions: `f` completes those that ran to the end. -/
def Res.finish {α : Type} (r : Res α) (f : α → State → State) : State :=
  match r with
  | .ok a s => f a s
  | .stop e s => s.endStop e

end Sys2Proof.Machine
end

