-- ==== Sys2Proof/Machine/Operands.lean ====
section
/-! DEFINITION. Where a command's operands come from: the operand latch and the argument checks
(10_state.md R43, 40_commands.md R163), and the buffer bytes In, Out, SetOut and LE32 (00_scope.md R11). -/

namespace Sys2Proof.Machine

/-- The command a perform step runs is the one its operands name: OPV and STRICT_V (10_state.md R43). At a
step they hold these values already (log 19). -/
def State.latch (op : BitVec 4) (strict : Bool) (s : State) : State :=
  { s with snap := { s.snap with opv := op, strictV := strict } }

/-- 40_commands.md R163, check_range: `base + n`, computed exactly, stays within `2^ADDR_W`. -/
def rangeOk (xlen base n : Nat) : Bool := decide (base + n ≤ 2 ^ xlen)

/-- 40_commands.md R163: the two ranges share a byte. -/
def overlaps (srcBase srcN dstBase dstN : Nat) : Bool :=
  decide (0 < srcN) && decide (0 < dstN) && decide (srcBase < dstBase + dstN) &&
    decide (dstBase < srcBase + srcN)

/-- 40_commands.md R163 for the input buffer. -/
def State.inputOk (s : State) : Bool :=
  rangeOk s.platform.xlen s.snap.srcBase.toNat s.snap.srcN.toNat

/-- 40_commands.md R163 for a command with both buffers. -/
def State.argsOk (s : State) : Bool :=
  s.inputOk && rangeOk s.platform.xlen s.snap.dstBase.toNat s.snap.dstN.toNat &&
    !overlaps s.snap.srcBase.toNat s.snap.srcN.toNat s.snap.dstBase.toNat s.snap.dstN.toNat

/-- The host address of In(i). -/
def State.inAddr (s : State) (i : Nat) : Nat := s.snap.srcBase.toNat + i

/-- The host address of Out(j). -/
def State.outAddr (s : State) (j : Nat) : Nat := s.snap.dstBase.toNat + j

/-- In(i) (00_scope.md R11). -/
def inByte (i : Nat) (s : State) : Res Byte := memRead (s.inAddr i) s

/-- Out(j) (00_scope.md R11). -/
def outByte (j : Nat) (s : State) : Res Byte := memRead (s.outAddr j) s

/-- SetOut(j, v) (00_scope.md R11). -/
def setOut (j : Nat) (v : Byte) (s : State) : Res Unit := memWrite (s.outAddr j) v s

/-- LE32(i) (00_scope.md R11, 20_memory.md R84): four bytes, the least significant first, read in the
order of their indices (log 11). -/
def le32 (i : Nat) (s : State) : Res (BitVec 32) :=
  (inByte i s).andThen fun b0 s =>
  (inByte (i + 1) s).andThen fun b1 s =>
  (inByte (i + 2) s).andThen fun b2 s =>
  (inByte (i + 3) s).andThen fun b3 s =>
  .ok (b3 ++ b2 ++ b1 ++ b0) s

/-- The bytes In(i), In(i+1), … of the input buffer, at most `n`, up to the first that `dma_ok` excludes. -/
def State.inBytes (s : State) : Nat → Nat → List Byte
  | 0, _ => []
  | n + 1, i =>
    if s.dmaOk (s.inAddr i) then s.mem.read (s.inAddr i) :: s.inBytes n (i + 1) else []

/-- The byte lies in the input range of command `c` (20_memory.md R81, R90). -/
def Snapshot.inInput (c : Snapshot) (a : Nat) : Bool :=
  hasInput c.opv && decide (c.srcBase.toNat ≤ a) && decide (a < c.srcBase.toNat + c.srcN.toNat)

/-- The byte lies in the output range of command `c` (20_memory.md R81, R90). -/
def Snapshot.inOutput (c : Snapshot) (a : Nat) : Bool :=
  hasOutput c.opv && decide (c.dstBase.toNat ≤ a) && decide (a < c.dstBase.toNat + c.dstN.toNat)

/-- The byte lies in a buffer of command `c`. -/
def Snapshot.inBuffers (c : Snapshot) (a : Nat) : Bool := c.inInput a || c.inOutput a

/-- The output range of `c` shares a byte with a buffer of `d`. -/
def Snapshot.writesInto (c d : Snapshot) : Bool :=
  hasOutput c.opv &&
    (hasInput d.opv && overlaps c.dstBase.toNat c.dstN.toNat d.srcBase.toNat d.srcN.toNat ||
      hasOutput d.opv && overlaps c.dstBase.toNat c.dstN.toNat d.dstBase.toNat d.dstN.toNat)

/-- 20_memory.md R96: one of two commands pending in two blocks writes a byte that the other reads or writes. -/
def Snapshot.conflicts (c d : Snapshot) : Bool := c.writesInto d || d.writesInto c

end Sys2Proof.Machine
end

