-- ==== Sys2Proof/Machine/Checksum.lean ====
section
/-! DEFINITION. CHECKSUM and its unit CKS (45_checksum.md). -/

namespace Sys2Proof.Machine

/-- 45_checksum.md R350, one byte: S1 takes the byte, then S2 takes the new S1, both mod ADLER_BASE. -/
def CksRegs.step (c : CksRegs) (b : Byte) : CksRegs :=
  let s1 := (c.s1.toNat + b.toNat) % Config.adlerBase
  { s1 := BitVec.ofNat 16 s1, s2 := BitVec.ofNat 16 ((c.s2.toNat + s1) % Config.adlerBase) }

/-- 45_checksum.md R350: the seed's low half seeds S1, its high half S2. -/
def CksRegs.ofSeed (seed : BitVec 32) : CksRegs :=
  { s1 := seed.extractLsb' 0 16, s2 := seed.extractLsb' 16 16 }

/-- 45_checksum.md R350: S2 packed above S1. -/
def CksRegs.pack (c : CksRegs) : BitVec 32 := c.s2 ++ c.s1

/-- 45_checksum.md R350: `n` byte steps from index `i` on, in order. -/
def checksumLoop : Nat → Nat → State → Res Unit
  | 0, _, s => .ok () s
  | n + 1, i, s =>
    (inByte i s).andThen fun b s => checksumLoop n (i + 1) { s with cks := s.cks.step b }

/-- The perform step of CHECKSUM (45_checksum.md R350, R353). An empty buffer gives the seed itself. -/
def performChecksum (s : State) : State :=
  if !s.inputOk then s.raiseEarly .invalidArgument
  else if s.snap.srcN.toNat = 0 then s.complete .ok 0 s.snap.seedV
  else
    (checksumLoop s.snap.srcN.toNat 0 { s with cks := CksRegs.ofSeed s.snap.seedV }).finish
      fun _ s => s.complete .ok 0 s.cks.pack

/-- CHECKSUM (45_checksum.md R350). -/
def execChecksum (strict : Bool) (s : State) : Host.Outcome State Fault Refusal :=
  .next (performChecksum (s.latch 5#4 strict))

end Sys2Proof.Machine
end

