-- ==== Sys2Proof/Machine/MatchFinder.lean ====
section
/-! DEFINITION. The match finder MF (41_match_finder.md): the internal operations of COMPRESS on the
scratch table. Positions are relative to the block at BASE. -/

namespace Sys2Proof.Machine

/-- 41_match_finder.md R200, MF_CLEAR: every bucket holds position 0. -/
def mfClear (s : State) : State := { s with table := [] }

/-- 41_match_finder.md R201, MF_HASH: the top 14 bits of the 32-bit product of the key and HASH_MUL. -/
def mfHash (dv : BitVec 32) : Nat := ((dv * Config.hashMul) >>> 18).toNat

/-- 41_match_finder.md R202, MF_PROBE: CAND <- T[h], then T[h] <- P. -/
def mfProbe (h : Nat) (s : State) : State :=
  { s with
    mf := { s.mf with cand := (s.table.read h).toNat }
    table := s.table.write h (BitVec.ofNat 16 s.enc.p) }

/-- 41_match_finder.md R203, MF_VERIFY: whether the 4 bytes at CAND are the key `dv`. -/
def mfVerify (dv : BitVec 32) (s : State) : Res Bool :=
  (le32 (s.enc.base + s.mf.cand) s).andThen fun cv s => .ok (cv == dv) s

/-- Whether the bytes at P + j and CAND + j agree; P's is read first (log 11). -/
def mfSame (j : Nat) (s : State) : Res Bool :=
  (inByte (s.enc.base + s.enc.p + j) s).andThen fun x s =>
  (inByte (s.enc.base + s.mf.cand + j) s).andThen fun y s => .ok (x == y) s

/-- 41_match_finder.md R204, the loop of MF_LENGTH. `fuel` bounds its passes (log 15). -/
def mfExtend : Nat → State → Res Unit
  | 0, s => .ok () s
  | fuel + 1, s =>
    let s := { s with mf := { s.mf with mlen := s.mf.mlen + 1 } }
    if s.enc.e ≤ s.enc.p + s.mf.mlen then .ok () s
    else (mfSame s.mf.mlen s).andThen fun same s => if same then mfExtend fuel s else .ok () s

/-- 41_match_finder.md R204, MF_LENGTH: MLEN from 4 on, then MOFF <- P - CAND. -/
def mfLength (s : State) : Res Unit :=
  let s := { s with mf := { s.mf with mlen := Config.minMatch } }
  ((mfSame Config.minMatch s).andThen fun same s =>
    if same then mfExtend (s.enc.e + 1) s else .ok () s).andThen fun _ s =>
  .ok () { s with mf := { s.mf with moff := s.enc.p - s.mf.cand } }

/-- 42_compressor.md R233, the probe at P: whether it gives a match. -/
def probe (s : State) : Res Bool :=
  (le32 (s.enc.base + s.enc.p) s).andThen fun dv s => mfVerify dv (mfProbe (mfHash dv) s)

end Sys2Proof.Machine
end

