-- ==== Sys2Proof/Machine/Compressor.lean ====
section
/-! DEFINITION. COMPRESS and the encoder ENC (42_compressor.md): the deterministic LZO1X-1 parse and the
bytes it emits. -/

namespace Sys2Proof.Machine

/-! ### Emission -/

/-- 42_compressor.md R246, Emit: the capacity check, then the byte. -/
def emit (v : Byte) (s : State) : Res Unit :=
  if s.snap.dstN.toNat ≤ s.enc.opos then raise .outOfMemory s
  else (setOut s.enc.opos v s).andThen fun _ s =>
    .ok () { s with enc := { s.enc with opos := s.enc.opos + 1 } }

/-- Emit each byte in order. -/
def emitBytes : List Byte → State → Res Unit
  | [], s => .ok () s
  | b :: bs, s => (emit b s).andThen fun _ s => emitBytes bs s

/-- `for i in 0 .. t-1: Emit(In(src + i))` (R240, R244): each byte is read, then emitted (log 11). -/
def emitLits : Nat → Nat → State → Res Unit
  | 0, _, s => .ok () s
  | t + 1, src, s =>
    (inByte src s).andThen fun b s => (emit b s).andThen fun _ s => emitLits t (src + 1) s

/-- R240, R244: `Out(OPOS-2) <- Out(OPOS-2) | t`, the S field of the last match. -/
def backPatch (t : Nat) (s : State) : Res Unit :=
  (outByte (s.enc.opos - 2) s).andThen fun b s => setOut (s.enc.opos - 2) (b ||| byteOf t) s

/-- R240, R244: the header of a LIT_RUN of `t` literals: short up to 18, else extended by `t - 18`. -/
def litRunHeader (t : Nat) : List Byte :=
  if t ≤ 18 then [byteOf (t - 3)] else byteOf 0 :: extBytes (t - 18)

/-- 42_compressor.md R240, ENC_LIT. -/
def encLit (src t : Nat) (s : State) : Res Unit :=
  if t = 0 then .ok () s
  else ((if t ≤ 3 then backPatch t s else emitBytes (litRunHeader t) s).andThen fun _ s =>
    emitLits t src s)

/-- 42_compressor.md R242: the bytes of an M2 with S = 0. -/
def encM2 (len dist : Nat) : List Byte :=
  [byteOf ((len - 1) * 32 ||| ((dist - 1) % 8 * 4)), byteOf ((dist - 1) / 8)]

/-- R243: the two distance bytes of M3 and M4, with S = 0. -/
def encDist (d : Nat) : List Byte := [byteOf (d * 4), byteOf (d / 64)]

/-- 42_compressor.md R243: the bytes of an M3 with S = 0. -/
def encM3 (len dist : Nat) : List Byte :=
  (if len ≤ Config.m3MaxLen then [byteOf (0x20 ||| (len - 2))]
    else byteOf 0x20 :: extBytes (len - Config.m3MaxLen)) ++ encDist (dist - 1)

/-- 42_compressor.md R243: the bytes of an M4 with S = 0; bit 14 of `dist - 16384` moves to bit 3. -/
def encM4 (len dist : Nat) : List Byte :=
  let d := dist - 16384
  let hb := (d >>> 11) &&& 8
  (if len ≤ Config.m4MaxLen then [byteOf (0x10 ||| hb ||| (len - 2))]
    else byteOf (0x10 ||| hb) :: extBytes (len - Config.m4MaxLen)) ++ encDist d

/-- 42_compressor.md R241: the bytes of a match, by class. -/
def matchBytes (len dist : Nat) : List Byte :=
  if len ≤ Config.m2MaxLen ∧ dist ≤ Config.m2MaxOffset then encM2 len dist
  else if dist ≤ Config.m3MaxOffset then encM3 len dist
  else encM4 len dist

/-- 42_compressor.md R241, ENC_MATCH. -/
def encMatch (len dist : Nat) (s : State) : Res Unit := emitBytes (matchBytes len dist) s

/-- 42_compressor.md R244, ENC_TAIL: the last `t` source bytes as literals. -/
def encTail (t : Nat) (s : State) : Res Unit :=
  if t = 0 then .ok () s
  else ((if s.enc.opos = 0 ∧ t ≤ 238 then emitBytes [byteOf (17 + t)] s
    else if t ≤ 3 then backPatch t s
    else emitBytes (litRunHeader t) s).andThen fun _ s =>
      emitLits t (s.snap.srcN.toNat - t) s)

/-- 42_compressor.md R245, ENC_EOS: the canonical EOS. -/
def encEos (s : State) : Res Unit := emitBytes [byteOf 0x11, byteOf 0x00, byteOf 0x00] s

/-! ### Scanning a block -/

/-- 42_compressor.md R232, the skip step: P <- P + 1 + ((P - II) >> 5). -/
def skipStep (s : State) : State :=
  { s with enc := { s.enc with p := s.enc.p + 1 + ((s.enc.p : Int) - s.enc.ii).toNat / 32 } }

/-- 42_compressor.md R234, a match at P: the pending literals with the carried ones, the match's length,
the new P and II, and the match. -/
def emitMatch (s : State) : Res Unit :=
  let s := { s with enc := { s.enc with ii := s.enc.ii - s.enc.ti, ti := 0 } }
  (encLit ((s.enc.base : Int) + s.enc.ii).toNat ((s.enc.p : Int) - s.enc.ii).toNat s).andThen fun _ s =>
  (mfLength s).andThen fun _ s =>
  encMatch s.mf.mlen s.mf.moff
    { s with enc := { s.enc with p := s.enc.p + s.mf.mlen, ii := ((s.enc.p + s.mf.mlen : Nat) : Int) } }

/-- 42_compressor.md R232, the scan loop. `fuel` bounds its passes (log 15). -/
def scanLoop : Nat → Bool → State → Res Unit
  | 0, _, s => .ok () s
  | fuel + 1, skip, s =>
    let s := if skip then skipStep s else s
    if s.enc.e ≤ s.enc.p then .ok () s
    else (probe s).andThen fun hit s =>
      if hit then (emitMatch s).andThen fun _ s => scanLoop fuel false s else scanLoop fuel true s

/-- 42_compressor.md R232: the registers at the start of a block's scan. -/
def startBlock (s : State) : State :=
  let s := mfClear s
  { s with enc := { s.enc with
      e := s.enc.bl - Config.tailReserve
      ii := 0
      p := if s.enc.ti < 4 then 4 - s.enc.ti else 0 } }

/-- 42_compressor.md R232 and R235, ENC_BLOCK; the caller's `TI <- ENC_BLOCK()` (R230) is its last action. -/
def encBlock (s : State) : Res Unit :=
  (scanLoop (s.enc.bl + 1) true (startBlock s)).andThen fun _ s =>
  .ok () { s with enc := { s.enc with ti := ((s.enc.bl : Int) - (s.enc.ii - s.enc.ti)).toNat } }

/-- 42_compressor.md R230 and R231: `while L > 20`, one block a pass. `fuel` bounds its passes (log 15). -/
def blockLoop : Nat → State → Res Unit
  | 0, s => .ok () s
  | fuel + 1, s =>
    if s.enc.l ≤ Config.tailReserve then .ok () s
    else
      (encBlock { s with enc := { s.enc with bl := min s.enc.l Config.blockMax } }).andThen fun _ s =>
      blockLoop fuel
        { s with enc := { s.enc with base := s.enc.base + s.enc.bl, l := s.enc.l - s.enc.bl } }

/-! ### The command -/

/-- 42_compressor.md R230: OPOS <- 0, BASE <- 0, L <- SRC_N, TI <- 0. -/
def startCompress (s : State) : State :=
  { s with enc := { s.enc with opos := 0, base := 0, l := s.snap.srcN.toNat, ti := 0 } }

/-- 42_compressor.md R230: the blocks, the tail and EOS. -/
def compressStream (s : State) : Res Unit :=
  (blockLoop s.snap.srcN.toNat (startCompress s)).andThen fun _ s =>
  (encTail (s.enc.ti + s.enc.l) s).andThen fun _ s => encEos s

/-- The perform step of COMPRESS (42_compressor.md R230, 40_commands.md R172, R163). -/
def performCompress (s : State) : State :=
  if !s.regs.initDone then s.raiseEarly .error
  else if !s.argsOk then s.raiseEarly .invalidArgument
  else (compressStream s).finish fun _ s => s.finishOk s.enc.opos

/-- COMPRESS (42_compressor.md R230). -/
def execCompress (strict : Bool) (s : State) : Host.Outcome State Fault Refusal :=
  .next (performCompress (s.latch 2#4 strict))

end Sys2Proof.Machine
end

