-- ==== Sys2Proof/Machine/Control.lean ====
section
/-! DEFINITION. The commands that touch no memory: NONE, INIT and the reserved codes (40_commands.md R164,
R165, R170 to R173). -/

namespace Sys2Proof.Machine

/-- 40_commands.md R164: the CMD write of NONE stores OP = 0 and STRICT and issues nothing. It is a host
write, so it is ignored while BUSY = 1 (R161). -/
def execNoCommand (strict : Bool) (s : State) : Host.Outcome State Fault Refusal :=
  if s.regs.busy then .next s
  else .next { s with regs := { s.regs with cmdOp := 0, cmdStrict := strict } }

/-- 40_commands.md R170: the self-check passes, INIT_DONE <- 1, finish(OK). -/
def execInit (strict : Bool) (s : State) : Host.Outcome State Fault Refusal :=
  let s := s.latch 1#4 strict
  .next ({ s with regs := { s.regs with initDone := true } }.finishOk 0)

/-- 40_commands.md R165: the perform step of a reserved code is `raise Status(NotYetImplemented)`. -/
def performReserved (op : BitVec 4) (strict : Bool) (s : State) : State :=
  (s.latch op strict).raiseEarly .notYetImplemented

/-- RESERVED_6 (40_commands.md R165). -/
def execReserved6 (strict : Bool) (s : State) : Host.Outcome State Fault Refusal :=
  .next (performReserved 6#4 strict s)

/-- RESERVED_7 (40_commands.md R165). -/
def execReserved7 (strict : Bool) (s : State) : Host.Outcome State Fault Refusal :=
  .next (performReserved 7#4 strict s)

/-- RESERVED_8 (40_commands.md R165). -/
def execReserved8 (strict : Bool) (s : State) : Host.Outcome State Fault Refusal :=
  .next (performReserved 8#4 strict s)

/-- RESERVED_9 (40_commands.md R165). -/
def execReserved9 (strict : Bool) (s : State) : Host.Outcome State Fault Refusal :=
  .next (performReserved 9#4 strict s)

/-- RESERVED_10 (40_commands.md R165). -/
def execReserved10 (strict : Bool) (s : State) : Host.Outcome State Fault Refusal :=
  .next (performReserved 10#4 strict s)

/-- RESERVED_11 (40_commands.md R165). -/
def execReserved11 (strict : Bool) (s : State) : Host.Outcome State Fault Refusal :=
  .next (performReserved 11#4 strict s)

/-- RESERVED_12 (40_commands.md R165). -/
def execReserved12 (strict : Bool) (s : State) : Host.Outcome State Fault Refusal :=
  .next (performReserved 12#4 strict s)

/-- RESERVED_13 (40_commands.md R165). -/
def execReserved13 (strict : Bool) (s : State) : Host.Outcome State Fault Refusal :=
  .next (performReserved 13#4 strict s)

/-- RESERVED_14 (40_commands.md R165). -/
def execReserved14 (strict : Bool) (s : State) : Host.Outcome State Fault Refusal :=
  .next (performReserved 14#4 strict s)

/-- RESERVED_15 (40_commands.md R165). -/
def execReserved15 (strict : Bool) (s : State) : Host.Outcome State Fault Refusal :=
  .next (performReserved 15#4 strict s)

end Sys2Proof.Machine
end

