-- ==== Sys2Proof/Machine/Stream.lean ====
section
/-! DEFINITION. The stream instructions (43_stream_opcodes.md): the copies, the mode split of a failed
check, the final checks (44_decompressors.md R315), and one meaning per instruction. A meaning starts
when the header is read: IP stands just past it. -/

namespace Sys2Proof.Machine

/-- The two modes of the decoder (43_stream_opcodes.md): DEC_U and DEC_S. -/
inductive Mode where
  | unchecked | safe
deriving DecidableEq, Repr

/-- DEC_U runs DECOMPRESS and DEC_S runs DECOMPRESS_SAFE (44_decompressors.md R310, R311); OPV tells
which command runs (log 1). -/
def State.mode (s : State) : Mode := if s.snap.opv = 3#4 then .unchecked else .safe

/-- 43_stream_opcodes.md R276, Fail(code): a status in DEC_S, UNDEFINED in DEC_U. -/
def failStop (m : Mode) (c : Status) : Stop :=
  match m with
  | .safe => .status c
  | .unchecked => .undefined

/-- 43_stream_opcodes.md R276. -/
def fail {α : Type} (c : Status) (s : State) : Res α := .stop (failStop s.mode c) s

/-- R274, the loop of CopyMatch: byte by byte, in increasing order. -/
def copyMatchLoop : Nat → Nat → State → Res Unit
  | 0, _, s => .ok () s
  | n + 1, dist, s =>
    (outByte (s.dec.op - dist) s).andThen fun b s =>
    (setOut s.dec.op b s).andThen fun _ s =>
    copyMatchLoop n dist { s with dec := { s.dec with op := s.dec.op + 1 } }

/-- 43_stream_opcodes.md R273 and R274, CopyMatch. -/
def copyMatch (len dist : Nat) (s : State) : Res Unit :=
  if s.dec.op < dist then fail .lookbehindOverrun s
  else if s.snap.dstN.toNat - s.dec.op < len then fail .outputOverrun s
  else copyMatchLoop len dist s

/-- R275, the loop of CopyLit. -/
def copyLitLoop : Nat → State → Res Unit
  | 0, s => .ok () s
  | n + 1, s =>
    (inByte s.dec.ip s).andThen fun b s =>
    (setOut s.dec.op b s).andThen fun _ s =>
    copyLitLoop n { s with dec := { s.dec with op := s.dec.op + 1, ip := s.dec.ip + 1 } }

/-- 43_stream_opcodes.md R275, CopyLit: the output check comes before the input check. -/
def copyLit (n : Nat) (s : State) : Res Unit :=
  if s.snap.dstN.toNat - s.dec.op < n then fail .outputOverrun s
  else if s.snap.srcN.toNat - s.dec.ip < n then fail .inputOverrun s
  else copyLitLoop n s

/-- ST <- st. -/
def State.setSt (st : DecState) (s : State) : State := { s with dec := { s.dec with st := st } }

/-- 43_stream_opcodes.md R288, Trail(S). -/
def trail (n : Nat) (s : State) : Res Unit :=
  if 0 < n then (copyLit n s).andThen fun _ s => .ok () (s.setSt (stAfter n)) else .ok () (s.setSt .st0)

/-- The actions every match ends with (R282 to R287): CopyMatch, then Trail. -/
def matchActions (len dist n : Nat) (s : State) : Res Unit :=
  (copyMatch len dist s).andThen fun _ s => trail n s

/-- 44_decompressors.md R315, the final checks, in order. -/
def finalChecks (s : State) : State :=
  if s.dec.ip < s.snap.srcN.toNat ∧ s.snap.strictV then s.raiseLate .inputNotConsumed
  else if s.dec.op < s.snap.dstN.toNat then s.raiseLate .outputNotConsumed
  else s.finishOk s.dec.op

/-- The state after a stream instruction other than EOS: the loop of R312 goes on, or the command ends. -/
def afterStream (r : Res Unit) : State := r.finish fun _ s => s

/-- 43_stream_opcodes.md R280. -/
def runLitFirst (n : Nat) (s : State) : State :=
  afterStream ((copyLit n s).andThen fun _ s => .ok () (s.setSt (stAfter n)))

/-- 43_stream_opcodes.md R281. -/
def runLitRun (n : Nat) (s : State) : State :=
  afterStream ((copyLit n s).andThen fun _ s => .ok () (s.setSt .st4))

/-- 43_stream_opcodes.md R282: a match of length 2. -/
def runM1n (dist n : Nat) (s : State) : State := afterStream (matchActions 2 dist n s)

/-- 43_stream_opcodes.md R283: a match of length 3. -/
def runM1f (dist n : Nat) (s : State) : State := afterStream (matchActions 3 dist n s)

/-- 43_stream_opcodes.md R284. -/
def runM2s (len dist n : Nat) (s : State) : State := afterStream (matchActions len dist n s)

/-- 43_stream_opcodes.md R285. -/
def runM2l (len dist n : Nat) (s : State) : State := afterStream (matchActions len dist n s)

/-- 43_stream_opcodes.md R286. -/
def runM3 (len dist n : Nat) (s : State) : State := afterStream (matchActions len dist n s)

/-- 43_stream_opcodes.md R287. -/
def runM4 (len dist n : Nat) (s : State) : State := afterStream (matchActions len dist n s)

/-- 43_stream_opcodes.md R289: the length field and S are ignored; the final checks run. -/
def runEos (_len _n : Nat) (s : State) : State := finalChecks s

/-- LIT_FIRST (R280). -/
def execLitFirst (n : Nat) (s : State) : Host.Outcome State Fault Refusal := .next (runLitFirst n s)

/-- LIT_RUN (R281). -/
def execLitRun (n : Nat) (s : State) : Host.Outcome State Fault Refusal := .next (runLitRun n s)

/-- M1N (R282). -/
def execM1n (dist n : Nat) (s : State) : Host.Outcome State Fault Refusal := .next (runM1n dist n s)

/-- M1F (R283). -/
def execM1f (dist n : Nat) (s : State) : Host.Outcome State Fault Refusal := .next (runM1f dist n s)

/-- M2S (R284). -/
def execM2s (len dist n : Nat) (s : State) : Host.Outcome State Fault Refusal :=
  .next (runM2s len dist n s)

/-- M2L (R285). -/
def execM2l (len dist n : Nat) (s : State) : Host.Outcome State Fault Refusal :=
  .next (runM2l len dist n s)

/-- M3 (R286). -/
def execM3 (len dist n : Nat) (s : State) : Host.Outcome State Fault Refusal :=
  .next (runM3 len dist n s)

/-- M4 (R287). -/
def execM4 (len dist n : Nat) (s : State) : Host.Outcome State Fault Refusal :=
  .next (runM4 len dist n s)

/-- EOS (R289). -/
def execEos (len n : Nat) (s : State) : Host.Outcome State Fault Refusal := .next (runEos len n s)

end Sys2Proof.Machine
end

