-- ==== Sys2Proof/Machine/Decoder.lean ====
section
/-! DEFINITION. The decode loop and the commands DECOMPRESS and DECOMPRESS_SAFE (44_decompressors.md): the
fetch of one stream instruction (43_stream_opcodes.md R270 to R272), one pass of the loop, and the loop. -/

namespace Sys2Proof.Machine

/-- What the fetch of a stream instruction gives: the instruction and the bytes of its header, or the way
the decode ends. -/
inductive Fetched where
  | header (i : Instr) (n : Nat)
  | stop (r : Stop)
deriving DecidableEq, Repr

/-- The bytes the decoder can read from IP on: to the end of the input, or to the first byte `dma_ok`
excludes. -/
def State.streamBytes (s : State) : List Byte := s.inBytes (s.snap.srcN.toNat - s.dec.ip) s.dec.ip

/-- The end of a decode whose header cannot be read. A header cut short is InputOverrun at the end of the
input (R271) and a bus error at a byte `dma_ok` excludes (20_memory.md R87). The guard of R270 reports
InputOverrun for a literal run and OutputOverrun for a match. -/
def headerStop (e : DecodeError) (s : State) : Stop :=
  match e with
  | .cut =>
    if s.streamBytes.length = s.snap.srcN.toNat - s.dec.ip then failStop s.mode .inputOverrun
    else .status .error
  | .longLiteral => failStop s.mode .inputOverrun
  | .longMatch => failStop s.mode .outputOverrun

/-- R272, FetchOp, and the reads of the header (R271, R270): input that ends at the instruction boundary is
EOFNotFound. -/
def fetchStream (s : State) : Fetched :=
  if s.snap.srcN.toNat ≤ s.dec.ip then .stop (failStop s.mode .eofNotFound)
  else
    match decodeStream s.platform.xlen s.dec.st s.streamBytes with
    | .ok (i, n) => .header i n
    | .error e => .stop (headerStop e s)

/-- IP moves past a header of `n` bytes (10_state.md R46). -/
def State.advanceIp (n : Nat) (s : State) : State := { s with dec := { s.dec with ip := s.dec.ip + n } }

/-- The stream instruction's meaning, for the loop of R312. A command is no stream instruction: decoding a
stream never gives one. -/
def runStream (i : Instr) (s : State) : State :=
  match i with
  | .litFirst n => runLitFirst n s
  | .litRun n => runLitRun n s
  | .m1n dist n => runM1n dist n s
  | .m1f dist n => runM1f dist n s
  | .m2s len dist n => runM2s len dist n s
  | .m2l len dist n => runM2l len dist n s
  | .m3 len dist n => runM3 len dist n s
  | .m4 len dist n => runM4 len dist n s
  | .eos len n => runEos len n s
  | .noCommand _ | .init _ | .compress _ | .decompress _ | .decompressSafe _ | .checksum _
  | .reserved6 _ | .reserved7 _ | .reserved8 _ | .reserved9 _ | .reserved10 _ | .reserved11 _
  | .reserved12 _ | .reserved13 _ | .reserved14 _ | .reserved15 _ => s

/-- 44_decompressors.md R312, one pass of the loop. When the header cannot be read IP stays at the op-code byte
(DESIGN CHOICE, log 16: the rules leave it past the bytes read, and nothing shows it). -/
def streamStep (s : State) : State :=
  match fetchStream s with
  | .header i n => runStream i (s.advanceIp n)
  | .stop r => s.endStop r

/-- 44_decompressors.md R312, the loop: passes run until the decode ends. `fuel` bounds them (log 15). -/
def decodeLoop : Nat → State → State
  | 0, s => s
  | fuel + 1, s => if s.decoding then decodeLoop fuel (streamStep s) else s

/-- 44_decompressors.md R312: IP <- 0, OP <- 0, ST <- START, and the loop begins. -/
def startDecode (s : State) : State :=
  { s with dec := { ip := 0, op := 0, st := .start }, decoding := true }

/-- The perform step of both decoders (44_decompressors.md R310, R311). Every pass reads a byte, so
`SRC_N + 1` passes end every decode. -/
def performDecode (s : State) : State :=
  if !s.argsOk then s.raiseEarly .invalidArgument
  else decodeLoop (s.snap.srcN.toNat + 1) (startDecode s)

/-- DECOMPRESS (44_decompressors.md R310). -/
def execDecompress (strict : Bool) (s : State) : Host.Outcome State Fault Refusal :=
  .next (performDecode (s.latch 3#4 strict))

/-- DECOMPRESS_SAFE (44_decompressors.md R311). -/
def execDecompressSafe (strict : Bool) (s : State) : Host.Outcome State Fault Refusal :=
  .next (performDecode (s.latch 4#4 strict))

end Sys2Proof.Machine
end

