-- ==== Sys2Proof/Machine/Dispatch.lean ====
section
/-! DEFINITION. One arm per instruction of spec/opcode_table.json. -/

namespace Sys2Proof.Machine

def exec (i : Instr) (s : State) : Host.Outcome State Fault Refusal :=
  match i with
  | .noCommand strict => Sys2Proof.Machine.execNoCommand strict s
  | .init strict => Sys2Proof.Machine.execInit strict s
  | .compress strict => Sys2Proof.Machine.execCompress strict s
  | .decompress strict => Sys2Proof.Machine.execDecompress strict s
  | .decompressSafe strict => Sys2Proof.Machine.execDecompressSafe strict s
  | .checksum strict => Sys2Proof.Machine.execChecksum strict s
  | .reserved6 strict => Sys2Proof.Machine.execReserved6 strict s
  | .reserved7 strict => Sys2Proof.Machine.execReserved7 strict s
  | .reserved8 strict => Sys2Proof.Machine.execReserved8 strict s
  | .reserved9 strict => Sys2Proof.Machine.execReserved9 strict s
  | .reserved10 strict => Sys2Proof.Machine.execReserved10 strict s
  | .reserved11 strict => Sys2Proof.Machine.execReserved11 strict s
  | .reserved12 strict => Sys2Proof.Machine.execReserved12 strict s
  | .reserved13 strict => Sys2Proof.Machine.execReserved13 strict s
  | .reserved14 strict => Sys2Proof.Machine.execReserved14 strict s
  | .reserved15 strict => Sys2Proof.Machine.execReserved15 strict s
  | .litFirst n => Sys2Proof.Machine.execLitFirst n s
  | .litRun n => Sys2Proof.Machine.execLitRun n s
  | .m1n dist n => Sys2Proof.Machine.execM1n dist n s
  | .m1f dist n => Sys2Proof.Machine.execM1f dist n s
  | .m2s len dist n => Sys2Proof.Machine.execM2s len dist n s
  | .m2l len dist n => Sys2Proof.Machine.execM2l len dist n s
  | .m3 len dist n => Sys2Proof.Machine.execM3 len dist n s
  | .m4 len dist n => Sys2Proof.Machine.execM4 len dist n s
  | .eos len n => Sys2Proof.Machine.execEos len n s

end Sys2Proof.Machine
end

