-- ==== Sys2Proof/Machine/HostPort.lean ====
section
/-! DEFINITION. The block as the outside sees it: the register map (10_state.md R31 to R39), the issue of
a command (40_commands.md R160, R161), what the host sees before and after it has observed a completion
(20_memory.md R90, R92, 70_reset_and_hazards.md R456, R457), the accesses of other blocks (20_memory.md R96)
and reset (70_reset_and_hazards.md R450, R451). -/

namespace Sys2Proof.Machine

/-- 10_state.md R31: a register of fewer than 64 bits keeps the low XLEN bits of what is written. -/
def truncX (xlen : Nat) (v : Word) : Word := BitVec.ofNat 64 (v.toNat % 2 ^ xlen)

/-- 10_state.md R32: the accesses the model admits: 64 bits wide, at a multiple of 8 up to 0xFF. -/
def accessOk (offset width : Nat) : Bool :=
  decide (width = 64) && decide (offset % 8 = 0) && decide (offset ≤ 0xFF)

/-- 10_state.md R31 and R32: the word a register reads as; a reserved offset reads 0. -/
def Regs.read (r : Regs) (offset : Nat) : Word :=
  match offset with
  | 0x00 => r.cmdWord
  | 0x08 => r.statusWord
  | 0x10 => r.srcAddr
  | 0x18 => r.srcLen
  | 0x20 => r.dstAddr
  | 0x28 => r.dstLen
  | 0x30 => r.seed.setWidth 64
  | 0x38 => r.outLen
  | 0x40 => r.cksum.setWidth 64
  | _ => 0

/-- 10_state.md R43: the snapshot of the arguments a command is issued with. -/
def Regs.snapshot (r : Regs) : Snapshot where
  srcBase := r.srcAddr
  srcN := r.srcLen
  dstBase := r.dstAddr
  dstN := r.dstLen
  seedV := r.seed
  strictV := r.cmdStrict
  opv := r.cmdOp

/-- 40_commands.md R160: OP and STRICT are stored, the arguments are copied and BUSY is set. NONE never
comes here (R164). -/
def State.issue (w : Word) (s : State) : State :=
  let r := { s.regs with cmdOp := cmdOpOf w, cmdStrict := cmdStrictOf w }
  { s with regs := { r with busy := true }, snap := r.snapshot }

/-- A host write to a register other than CMD while the block is idle (10_state.md R31 to R39): a read-only
register and a reserved offset ignore it. -/
def Regs.write (xlen : Nat) (r : Regs) (offset : Nat) (v : Word) : Regs :=
  match offset with
  | 0x10 => { r with srcAddr := truncX xlen v }
  | 0x18 => { r with srcLen := truncX xlen v }
  | 0x20 => { r with dstAddr := truncX xlen v }
  | 0x28 => { r with dstLen := truncX xlen v }
  | 0x30 => { r with seed := v.setWidth 32 }
  | _ => r

/-- Eight draws as a word (log 8). -/
def freeWord (k : Nat) : Word :=
  Config.freeByte (k + 7) ++ Config.freeByte (k + 6) ++ Config.freeByte (k + 5) ++ Config.freeByte (k + 4) ++
    Config.freeByte (k + 3) ++ Config.freeByte (k + 2) ++ Config.freeByte (k + 1) ++ Config.freeByte k

/-- 70_reset_and_hazards.md R457: some result register reads as a draw, for the host has not observed the last
completion, or not that of the last CHECKSUM, whether the block is idle or busy with a next command. -/
def State.resultsHidden (s : State) : Bool := !s.view.resultsSeen || !s.view.cksumSeen

/-- The registers as the host sees them (70_reset_and_hazards.md R457). OUT_LEN is a draw until the last completion
is observed, and so is CODE while BUSY, where 40_commands.md R161 names the previous results (log 25). CODE of an idle
block is none, for the read of STATUS that sees BUSY = 0 is itself the observation. CKSUM is a draw until the last
CHECKSUM is observed: no other command has one (10_state.md R39, 40_commands.md R175). -/
def State.shownRegs (s : State) : Regs :=
  { s.regs with
    code := if !s.view.resultsSeen && s.regs.busy then (freeWord s.draws).setWidth 32 else s.regs.code
    outLen := if s.view.resultsSeen then s.regs.outLen else truncX s.platform.xlen (freeWord s.draws)
    cksum := if s.view.cksumSeen then s.regs.cksum else (freeWord s.draws).setWidth 32 }

/-- 20_memory.md R92: a read of STATUS that sees BUSY = 0 observes every completion before it. -/
def State.viewAfterRead (offset : Nat) (s : State) : HostView :=
  if offset = 0x08 ∧ s.regs.busy = false then { unseen := [], resultsSeen := true, cksumSeen := true } else s.view

/-- A host read of a register (10_state.md R31, R32, 70_reset_and_hazards.md R457). -/
def State.hostRegRead (offset : Nat) (s : State) : State :=
  { s with
    hostRead := s.shownRegs.read offset
    draws := if s.resultsHidden then s.draws + 8 else s.draws
    view := s.viewAfterRead offset }

/-- The commands whose buffers are hazardous for the host (70_reset_and_hazards.md R456): the pending one, and
those whose end it has not observed. -/
def State.openCommands (s : State) : List Snapshot :=
  if s.regs.busy then s.snap :: s.view.unseen else s.view.unseen

/-- 20_memory.md R90 (a), (d), 70_reset_and_hazards.md R456: a host write to a byte of a hazardous buffer is a
race; any other write stores the byte. A race sets the mark and leaves the rest as it was, the byte unwritten: the
spec gives that run no result (DEDUCED, log 9). -/
def State.hostMemWrite (a : Nat) (v : Byte) (s : State) : State :=
  if s.openCommands.any fun c => c.inBuffers a then { s with hostRace := true }
  else { s with mem := s.mem.write a v }

/-- 20_memory.md R90 (b), (c), (d), R92, 70_reset_and_hazards.md R456: a host read gives any value for a byte of
a hazardous output buffer, and the byte itself elsewhere. -/
def State.hostMemRead (a : Nat) (s : State) : State :=
  if s.openCommands.any fun c => c.inOutput a then
    { s with hostRead := (Config.freeByte s.draws).setWidth 64, draws := s.draws + 1 }
  else { s with hostRead := (s.mem.read a).setWidth 64 }

/-- A command is issued in block `k`. While one is pending there the write is ignored (40_commands.md R161),
and NONE is no command (R164). -/
def State.peerIssue (k : Nat) (c : Snapshot) (s : State) : State :=
  if c.opv = 0 ∨ s.peers.any (fun p => p.1 == k) then s else { s with peers := (k, c) :: s.peers }

/-- The command of block `k` is no longer pending. -/
def State.peerDone (k : Nat) (s : State) : State :=
  { s with peers := s.peers.filter fun p => p.1 != k }

/-- The commands pending in this block and in every block but `k`, at the moment of the access: a command issued
later is not tested against it (DESIGN CHOICE, log 28). -/
def State.pendingBeside (k : Nat) (s : State) : List Snapshot :=
  let others := (s.peers.filter fun p => p.1 != k).map fun p => p.2
  if s.regs.busy then s.snap :: others else others

/-- 20_memory.md R96: block `k`'s command writes a byte; in a buffer of a command pending elsewhere it is a
race, which leaves the byte unwritten (DEDUCED, log 9). -/
def State.peerMemWrite (k a : Nat) (v : Byte) (s : State) : State :=
  if (s.pendingBeside k).any fun c => c.inBuffers a then { s with hostRace := true }
  else { s with mem := s.mem.write a v }

/-- 20_memory.md R96: block `k`'s command reads a byte; in an output buffer of a command pending elsewhere it
is a race. -/
def State.peerMemRead (k a : Nat) (s : State) : State :=
  if (s.pendingBeside k).any fun c => c.inOutput a then { s with hostRace := true } else s

/-- 20_memory.md R96: this block is about to perform its command while another block's pending command
conflicts with it. One that ended before, having made its accesses before this block's issue, is not tested
(DESIGN CHOICE, log 28). -/
def State.peerConflict (s : State) : Bool := s.peers.any fun p => s.snap.conflicts p.2

/-- A fault mark is set (10_state.md R42). -/
def State.marked (s : State) : Bool := s.hostRace || s.undefinedMark

/-- What the abandoned run leaves in host memory: any bytes in the output buffer of a pending command
(70_reset_and_hazards.md R451), any bytes at all after a run with a mark (60_exceptions.md R407, R408, log 26), and
otherwise what it holds. -/
def State.abandon (s : State) : State :=
  if s.marked then
    { s with mem := Memory.ofCells s.platform.xlen (Config.freeCells s.draws), draws := s.draws + 1 }
  else if s.regs.busy then s.havocOutput
  else s

/-- 70_reset_and_hazards.md R450 and R451, whatever the block was doing; both marks become 0 (log 26). The reset
itself writes no memory. What R450 calls unspecified takes its value of `State.reset`; the buffers the host has not
seen free yet stay hazardous (log 10). -/
def State.resetBlock (s : State) : State :=
  let t := s.abandon
  { State.reset with
    mem := t.mem
    draws := t.draws
    view := { if s.regs.busy then s.view.keepOpen s.snap else s.view with
      resultsSeen := true, cksumSeen := true }
    peers := s.peers
    inbox := s.inbox
    hostRead := s.hostRead
    platform := s.platform }

end Sys2Proof.Machine
end

