-- ==== Sys2Proof/Machine/Fetch.lean ====
section
/-! DEFINITION. What one step does: which agent moves (log 6), and, when the block moves, the instruction
it runs and the state it runs it in. Step.lean only calls it. -/

namespace Sys2Proof.Machine

/-- What a step does: run an instruction in a state, go to a state, stop with a fault, or refuse. -/
inductive Action where
  | run (i : Instr) (s : State)
  | move (s : State)
  | stop (f : Fault)
  | refuse (r : Refusal)
deriving DecidableEq, Repr

/-- 40_commands.md R162: the command the snapshot names. -/
def State.pendingCommand (s : State) : Instr := commandOf s.snap.opv s.snap.strictV

/-- The block's move at a command boundary: perform the pending command, or nothing. A command that conflicts
with one pending in another block is a race (20_memory.md R96), and stays unperformed (DEDUCED, log 9). -/
def blockTurn (s : State) : Action :=
  if s.pending then
    if s.peerConflict then .move { s with hostRace := true } else .run s.pendingCommand s
  else .move s

/-- A host write to a register (10_state.md R32, 40_commands.md R160, R161, R164). A CMD write of NONE runs
NONE; any other command is issued, and performed later. -/
def hostRegWrite (offset : Nat) (v : Word) (s : State) : Action :=
  if s.regs.busy then .move s
  else if offset = 0 then
    if cmdOpOf v = 0 then .run (decodeCommand v) s else .move (s.issue v)
  else .move { s with regs := s.regs.write s.platform.xlen offset v }

/-- An access from outside to host address `a` (20_memory.md R80). -/
def atByte (a : Nat) (s t : State) : Action := if s.hasByte a then .move t else .stop .noSuchAddress

/-- An access of block `k` to host address `a`, admitted if a command pending there has `a` in the range
`inRange` names (20_memory.md R82, R96). dma_ok (R87) binds this block only (DESIGN CHOICE, log 27). -/
def peerAccess (k a : Nat) (inRange : Snapshot → Bool) (s t : State) : Action :=
  match s.peers.lookup k with
  | none => .stop .strayPeerAccess
  | some c => if inRange c then atByte a s t else .stop .strayPeerAccess

/-- The move of an agent outside the block, in the state whose inbox no longer holds it. -/
def hostTurn (ev : HostEvent) (s : State) : Action :=
  match ev with
  | .regWrite offset width v => if accessOk offset width then hostRegWrite offset v s else .refuse .registerAccess
  | .regRead offset width =>
    if accessOk offset width then .move (s.hostRegRead offset) else .refuse .registerAccess
  | .memWrite a v => atByte a s (s.hostMemWrite a v)
  | .memRead a => atByte a s (s.hostMemRead a)
  | .wait => blockTurn s
  | .reset => .move s.resetBlock
  | .peerIssue k c => .move (s.peerIssue k c)
  | .peerWrite k a v => peerAccess k a (fun c => c.inOutput a) s (s.peerMemWrite k a v)
  | .peerRead k a => peerAccess k a (fun c => c.inBuffers a) s (s.peerMemRead k a)
  | .peerDone k => .move (s.peerDone k)

/-- The block's move inside a decode: the stream instruction at IP, or the end of the decode. -/
def streamTurn (s : State) : Action :=
  match fetchStream s with
  | .header i n => .run i (s.advanceIp n)
  | .stop r => .move (s.endStop r)

/-- A marked state is a fault state: no step of the block, the host or another block goes on from it
(10_state.md R42, 60_exceptions.md R407, R408). Only the platform's reset does, which R450 of
70_reset_and_hazards.md lets come whatever the block was doing (DEDUCED, log 26). HOST_RACE goes first (log 9). -/
def markedTurn (s : State) : Action :=
  match s.inbox with
  | .reset :: rest => .move { s with inbox := rest }.resetBlock
  | _ => .stop (if s.hostRace then .hostRace else .undefinedRun)

/-- Which agent moves (log 6): from a marked state only the platform; inside a decode the block; else the first
event of the inbox; else the block, if a command is pending. -/
def nextAction (s : State) : Action :=
  if s.marked then markedTurn s
  else if s.decoding then streamTurn s
  else
    match s.inbox with
    | ev :: rest => hostTurn ev { s with inbox := rest }
    | [] => blockTurn s

/-- The bytes `bs` stored from address `a` on. -/
def Memory.writeBytes (m : Memory) (a : Nat) : List Byte → Memory
  | [] => m
  | b :: bs => (m.write a b).writeBytes (a + 1) bs

/-- A state in which the next step runs the stream instruction at the head of `bytes`, at decoder state 0
of a DECOMPRESS_SAFE whose input is these bytes at address 0 (log 17). -/
def State.placeStream (bytes : List Byte) (s : State) : State :=
  { s with
    mem := s.mem.writeBytes 0 bytes
    snap := { s.snap with srcBase := 0, srcN := BitVec.ofNat 64 bytes.length, opv := 4#4 }
    dec := { s.dec with ip := 0, st := .st0 }
    decoding := true
    hostRace := false
    undefinedMark := false
    platform := { xlen := max s.platform.xlen 32, noDma := [] } }

/-- A state in which the next step runs the command of the word `w`: NONE as the host's next write, any
other command issued and about to be performed (log 17). -/
def State.placeCommand (w : Word) (s : State) : State :=
  let s := { s with
    decoding := false, hostRace := false, undefinedMark := false, peers := []
    regs := { s.regs with busy := false } }
  if cmdOpOf w = 0 then { s with inbox := .regWrite 0 64 w :: s.inbox }
  else { s.issue w with inbox := .wait :: s.inbox }

end Sys2Proof.Machine
end

