-- ==== Sys2Proof/Machine/Step.lean ====
section
/-! DEFINITION. One step of the machine, and the state in which the next step runs a table word. -/

namespace Sys2Proof.Machine

/-- One step: what Fetch.lean says moves, moves. -/
def step (s : State) : Host.Outcome State Fault Refusal :=
  match nextAction s with
  | .run i t => exec i t
  | .move t => .next t
  | .stop f => .fault f
  | .refuse r => .refused r

/-- `s` with the instruction of a word of spec/opcode_table.json where the next step finds it (log 17). -/
def State.withFetchWord (s : State) (nbits w : Nat) : State :=
  if tableIsStream nbits w then s.placeStream (tableBytes w)
  else s.placeCommand (BitVec.ofNat 64 w)

end Sys2Proof.Machine
end

