-- ==== Sys2Proof/Safety.lean ====
section
/-! DEFINITION. The terms claims are stated in: the invariant every step keeps, what a quiet state is, the
buffer bytes, what stays the same, and the reference meanings a command is compared with. -/

namespace Sys2Proof

/-- The length, distance and S field of a match instruction (43_stream_opcodes.md R282 to R287). -/
def Instr.matchParts : Instr → Option (Nat × Nat × Nat)
  | .m1n d s => some (2, d, s)
  | .m1f d s => some (3, d, s)
  | .m2s l d s => some (l, d, s)
  | .m2l l d s => some (l, d, s)
  | .m3 l d s => some (l, d, s)
  | .m4 l d s => some (l, d, s)
  | .litFirst _ | .litRun _ | .eos _ _
  | .noCommand _ | .init _ | .compress _ | .decompress _ | .decompressSafe _ | .checksum _
  | .reserved6 _ | .reserved7 _ | .reserved8 _ | .reserved9 _ | .reserved10 _ | .reserved11 _
  | .reserved12 _ | .reserved13 _ | .reserved14 _ | .reserved15 _ => none

/-- The literal count of LIT_FIRST and LIT_RUN (43_stream_opcodes.md R280, R281). -/
def Instr.litCount : Instr → Option Nat
  | .litFirst n => some n
  | .litRun n => some n
  | .m1n _ _ | .m1f _ _ | .m2s _ _ _ | .m2l _ _ _ | .m3 _ _ _ | .m4 _ _ _ | .eos _ _
  | .noCommand _ | .init _ | .compress _ | .decompress _ | .decompressSafe _ | .checksum _
  | .reserved6 _ | .reserved7 _ | .reserved8 _ | .reserved9 _ | .reserved10 _ | .reserved11 _
  | .reserved12 _ | .reserved13 _ | .reserved14 _ | .reserved15 _ => none

/-- The reserved commands of 40_commands.md R165 with their codes (30_encoding.md R110). -/
def Instr.reserved (strict : Bool) : List (Instr × BitVec 4) :=
  [(.reserved6 strict, 6#4), (.reserved7 strict, 7#4), (.reserved8 strict, 8#4),
    (.reserved9 strict, 9#4), (.reserved10 strict, 10#4), (.reserved11 strict, 11#4),
    (.reserved12 strict, 12#4), (.reserved13 strict, 13#4), (.reserved14 strict, 14#4),
    (.reserved15 strict, 15#4)]

end Sys2Proof

namespace Sys2Proof.Machine

/-! ### Buffers and frames -/

/-- In(i) of a state (00_scope.md R11). -/
def State.inAt (s : State) (i : Nat) : Byte := s.mem.read (s.inAddr i)

/-- Out(j) of a state (00_scope.md R11). -/
def State.outAt (s : State) (j : Nat) : Byte := s.mem.read (s.outAddr j)

/-- The block may access every byte of the input buffer (20_memory.md R87). -/
abbrev State.inputReadable (s : State) : Prop := ∀ i < s.snap.srcN.toNat, s.dmaOk (s.inAddr i) = true

/-- The block may access every byte of the output buffer (20_memory.md R87). -/
abbrev State.outputWritable (s : State) : Prop := ∀ j < s.snap.dstN.toNat, s.dmaOk (s.outAddr j) = true

/-- Every byte of host memory outside the `n` bytes from `a` on reads in `t` as in `s`. -/
def sameOutside (s t : State) (a n : Nat) : Prop :=
  ∀ b, b < a ∨ a + n ≤ b → t.mem.read b = s.mem.read b

/-- No fault mark is set and no decode is in progress: the state of a block between commands, or with a
command pending (10_state.md R41, R42). -/
abbrev State.quiet (s : State) : Prop :=
  s.hostRace = false ∧ s.undefinedMark = false ∧ s.decoding = false

/-- The status code of a 32-bit two's-complement number (60_exceptions.md R400). -/
def codeOf (n : Int) : BitVec 32 := BitVec.ofInt 32 n

/-! ### The invariant -/

/-- The codes STATUS.CODE can hold: those of R400 that some rule raises. -/
def raisedCodes : List (BitVec 32) :=
  [0, codeOf (-1), codeOf (-2), codeOf (-4), codeOf (-5), codeOf (-6), codeOf (-7), codeOf (-8),
    codeOf (-9), codeOf (-10), codeOf (-12)]

/-- What every step keeps: host memory and the scratch table are canonical and lie in their spaces
(20_memory.md R80, 10_state.md R40), STATUS.CODE holds a code that R400 lets be raised, the registers of
XLEN bits hold no more (10_state.md R31), while a command is pending the snapshot equals the registers and
names a command (10_state.md R43, 40_commands.md R164), and a decode in progress belongs to a pending
decoder and stays inside its buffers (44_decompressors.md R312, R315); the commands the host has not observed
have buffers, and each other block has at most one command pending, never NONE (40_commands.md R161, R164). -/
structure Inv (s : State) : Prop where
  platform : s.platform.wf = true
  memWf : s.mem.wf = true
  memBound : ∀ c ∈ s.mem, c.1 < 2 ^ s.platform.xlen
  tableWf : s.table.wf = true
  code : s.regs.code ∈ raisedCodes
  srcAddr : s.regs.srcAddr.toNat < 2 ^ s.platform.xlen
  srcLen : s.regs.srcLen.toNat < 2 ^ s.platform.xlen
  dstAddr : s.regs.dstAddr.toNat < 2 ^ s.platform.xlen
  dstLen : s.regs.dstLen.toNat < 2 ^ s.platform.xlen
  outLen : s.regs.outLen.toNat < 2 ^ s.platform.xlen
  snapshot : s.regs.busy = true → s.snap = s.regs.snapshot
  command : s.regs.busy = true → s.regs.cmdOp ≠ 0
  decode : s.decoding = true → s.regs.busy = true ∧ (s.snap.opv = 3#4 ∨ s.snap.opv = 4#4) ∧
    s.dec.ip ≤ s.snap.srcN.toNat ∧ s.dec.op ≤ s.snap.dstN.toNat
  unseen : ∀ c ∈ s.view.unseen, 2 ≤ c.opv.toNat ∧ c.opv.toNat ≤ 5
  peers : (s.peers.map fun p => p.1).Nodup ∧ ∀ p ∈ s.peers, p.2.opv ≠ 0

/-! ### Reference meanings -/

/-- 43_stream_opcodes.md R274 on a list: the `len` bytes a match at distance `dist` appends to `out`, the
last `dist` bytes repeated as a period. -/
def periodCopy (out : List Byte) (len dist : Nat) : List Byte :=
  (List.range len).map fun k => out.getD (out.length - dist + k % dist) 0

/-- 44_decompressors.md R312 as a relation on lists: from decoder state `st` with `out` written, the input
`inp` decodes to `fin` and leaves `rest` after EOS. It knows nothing of memory, buffers or modes. -/
inductive Expands (xlen : Nat) : DecState → List Byte → List Byte → List Byte → List Byte → Prop where
  | eos {st : DecState} {out inp : List Byte} {len s n : Nat}
      (h : decodeStream xlen st inp = .ok (.eos len s, n)) :
      Expands xlen st out inp out (inp.drop n)
  | literals {st : DecState} {out inp fin rest : List Byte} {i : Instr} {k n : Nat}
      (h : decodeStream xlen st inp = .ok (i, n)) (hk : i.litCount = some k)
      (hin : n + k ≤ inp.length)
      (next : Expands xlen (if k < 4 then stAfter k else .st4) (out ++ (inp.drop n).take k)
        (inp.drop (n + k)) fin rest) :
      Expands xlen st out inp fin rest
  | copy {st : DecState} {out inp fin rest : List Byte} {i : Instr} {len dist s n : Nat}
      (h : decodeStream xlen st inp = .ok (i, n)) (hm : i.matchParts = some (len, dist, s))
      (hd : dist ≤ out.length) (hin : n + s ≤ inp.length)
      (next : Expands xlen (stAfter s) (out ++ periodCopy out len dist ++ (inp.drop n).take s)
        (inp.drop (n + s)) fin rest) :
      Expands xlen st out inp fin rest

/-- The input buffer as a list. -/
def State.inputList (s : State) : List Byte := (List.range s.snap.srcN.toNat).map s.inAt

/-! The parse of COMPRESS on a list of source bytes, with absolute positions, no table, no output and no fuel. -/

/-- A match of the parse: the source index where it starts, its length and its distance. -/
structure Found where
  pos  : Nat
  len  : Nat
  dist : Nat
deriving DecidableEq, Repr

/-- 41_match_finder.md R201: the four bytes at `i` as a little-endian number. -/
def keyAt (src : List Byte) (i : Nat) : Nat :=
  (src.getD i 0).toNat + 2 ^ 8 * (src.getD (i + 1) 0).toNat + 2 ^ 16 * (src.getD (i + 2) 0).toNat +
    2 ^ 24 * (src.getD (i + 3) 0).toNat

/-- 41_match_finder.md R201: the bucket of the four bytes at `i`. -/
def bucketAt (src : List Byte) (i : Nat) : Nat := keyAt src i * 0x1824429D % 2 ^ 32 / 2 ^ 18

/-- 41_match_finder.md R200, R202: the candidate at `i` in the block that starts at `base`: the last position
probed in the block whose bucket is that of `i`, else the block's start. `probed` lists the last one first. -/
def candidate (src : List Byte) (base : Nat) (probed : List Nat) (i : Nat) : Nat :=
  (probed.find? fun q => bucketAt src q == bucketAt src i).getD base

/-- 41_match_finder.md R204: `n` is the length of the match of the bytes at `i` with those at `c`, with the
scan limit at `e`. -/
def IsMatchLen (src : List Byte) (i c e n : Nat) : Prop :=
  (src.getD (i + 4) 0 ≠ src.getD (c + 4) 0 ∧ n = 4) ∨
  (src.getD (i + 4) 0 = src.getD (c + 4) 0 ∧ 5 ≤ n ∧
    (∀ j, 5 ≤ j → j < n → i + j < e ∧ src.getD (i + j) 0 = src.getD (c + j) 0) ∧
    (e ≤ i + n ∨ src.getD (i + n) 0 ≠ src.getD (c + n) 0))

/-- 42_compressor.md R232, the skip step from `p` when the last match of the block (or the block) ends at `ii`. -/
def nextProbe (skip : Bool) (ii p : Nat) : Nat := if skip then p + 1 + (p - ii) / 32 else p

/-- 42_compressor.md R232 to R234: the rest of the scan of the block that starts at `base`, up to the limit
`e`, finds the matches of the list. -/
inductive Scans (src : List Byte) (base e : Nat) : Bool → Nat → Nat → List Nat → List Found → Prop where
  | limit {skip : Bool} {ii p : Nat} {probed : List Nat} (h : e ≤ nextProbe skip ii p) :
      Scans src base e skip ii p probed []
  | miss {skip : Bool} {ii p q : Nat} {probed : List Nat} {fs : List Found} (hq : q = nextProbe skip ii p)
      (he : q < e) (hk : keyAt src (candidate src base probed q) ≠ keyAt src q)
      (next : Scans src base e true ii q (q :: probed) fs) : Scans src base e skip ii p probed fs
  | hit {skip : Bool} {ii p q n : Nat} {probed : List Nat} {fs : List Found} (hq : q = nextProbe skip ii p)
      (he : q < e) (hk : keyAt src (candidate src base probed q) = keyAt src q)
      (hn : IsMatchLen src q (candidate src base probed q) e n)
      (next : Scans src base e false (q + n) (q + n) (q :: probed) fs) :
      Scans src base e skip ii p probed (⟨q, n, q - candidate src base probed q⟩ :: fs)

/-- Where the literals after the matches `fs` start, if those before them start at `lit`. -/
def litStart (lit : Nat) (fs : List Found) : Nat := (fs.getLast?.map fun f => f.pos + f.len).getD lit

/-- 42_compressor.md R230, R231: the parse of the source from `base` on, with the literals from `lit` on
pending. A block has at most 49152 bytes, and the last at most 20 bytes of the source are in none. -/
inductive Parses (src : List Byte) : Nat → Nat → List Found → Prop where
  | tail {base lit : Nat} (h : src.length - base ≤ 20) : Parses src base lit []
  | block {base lit n : Nat} {fs gs : List Found} (hl : 20 < src.length - base)
      (hn : n = min (src.length - base) 49152)
      (scan : Scans src base (base + n - 20) true base (base + (4 - (base - lit))) [] fs)
      (next : Parses src (base + n) (litStart lit fs) gs) : Parses src base lit (fs ++ gs)

/-- The bytes of a stream instruction's header. -/
def headerBytes (i : Instr) : List Byte :=
  match encode i with
  | .stream bs => bs
  | .command _ => []

/-- 42_compressor.md R240, R244: the literals from `a` to `b`, under a LIT_RUN unless an S field counts them. -/
def runBytes (src : List Byte) (a b : Nat) : List Byte :=
  (if b - a ≤ 3 then [] else headerBytes (.litRun (b - a))) ++ (src.drop a).take (b - a)

/-- 42_compressor.md R241: the instruction of a match whose S field is `s`. -/
def matchInstr (len dist s : Nat) : Instr :=
  if len ≤ 8 ∧ dist ≤ 2048 then (if len = 4 then .m2s len dist s else .m2l len dist s)
  else if dist ≤ 16384 then .m3 len dist s
  else .m4 len dist s

/-- 42_compressor.md R234, R240, R241, R244, R245: the bytes of the rest of the stream, from source index `a`
on, for the matches that are left. A match's S field counts the literals after it when they are at most 3. -/
def parsedBytes (src : List Byte) : Nat → List Found → List Byte
  | a, [] =>
    (if a = 0 ∧ 1 ≤ src.length ∧ src.length ≤ 238 then headerBytes (.litFirst src.length) ++ src
      else runBytes src a src.length) ++ headerBytes (.eos 3 0)
  | a, f :: fs =>
    let stop := match fs with | [] => src.length | g :: _ => g.pos
    let k := stop - (f.pos + f.len)
    runBytes src a f.pos ++ headerBytes (matchInstr f.len f.dist (if k ≤ 3 then k else 0)) ++
      parsedBytes src (f.pos + f.len) fs

/-- 45_checksum.md R350, one byte on the pair (S1, S2) of naturals. -/
def adlerStep (c : Nat × Nat) (b : Byte) : Nat × Nat :=
  ((c.1 + b.toNat) % 65521, (c.2 + (c.1 + b.toNat) % 65521) % 65521)

/-- What the host has observed once the command `c` has ended unobserved (70_reset_and_hazards.md R456, R457):
neither its CODE and OUT_LEN nor CHECKSUM's CKSUM, and the buffers of COMPRESS, the decoders and CHECKSUM stay hazardous. -/
def HostView.after (v : HostView) (c : Snapshot) : HostView where
  unseen := if 2 ≤ c.opv.toNat ∧ c.opv.toNat ≤ 5 then c :: v.unseen else v.unseen
  resultsSeen := false
  cksumSeen := if c.opv = 5#4 then false else v.cksumSeen

/-- The state a command leaves when it completes with code `c` and OUT_LEN `n` and changes nothing else but
the operands it ran with and what the host has observed (60_exceptions.md R403). -/
def State.ended (s : State) (op : BitVec 4) (strict : Bool) (c : Int) (n : Nat) : State :=
  { s with
    decoding := false
    snap := { s.snap with opv := op, strictV := strict }
    view := s.view.after { s.snap with opv := op, strictV := strict }
    regs := { s.regs with code := codeOf c, outLen := BitVec.ofNat 64 n, busy := false } }

/-- The outcome of a failed check (43_stream_opcodes.md R276) in a decode that starts in `s`: in DEC_U the
UNDEFINED mark and no register written (60_exceptions.md R408); in DEC_S completion with code `c` and
OUT_LEN 0 (60_exceptions.md R403). Nothing outside the output buffer changes: R405 says so of DEC_S; of the
UNDEFINED outcome R408 says nothing, and this is the model's choice (log 9). -/
def State.failed (s u : State) (c : Int) : Prop :=
  sameOutside s u s.snap.dstBase.toNat s.snap.dstN.toNat ∧
  u = { s with
    mem := u.mem, dec := u.dec, draws := u.draws, decoding := false
    undefinedMark := if s.snap.opv = 3#4 then true else s.undefinedMark
    view := if s.snap.opv = 3#4 then s.view else s.view.after s.snap
    regs := if s.snap.opv = 3#4 then s.regs
      else { s.regs with code := codeOf c, outLen := 0, busy := false } }

end Sys2Proof.Machine
end

