-- ==== Sys2Proof/Certificates/Slice0/Obligations.lean ====
section
/-! DEFINITION. The statements for the provers, in the order of OBLIGATIONS.json. Each docstring names the
rule of spec/ it formalises, or the log entry it rests on. -/

open Sys2Proof Sys2Proof.Machine

/-! ### Encoding -/

/-- 30_encoding.md R115 to R127: the encoder's words decode to the instruction, with every operand at every
value its encoding admits, and nothing after a header is read. -/
def Obligations.DecodeInvertsEncode : Prop :=
  ∀ (xlen : Nat) (st : DecState) (i : Instr) (rest : List Byte), i.wf xlen = true → i.admits st = true →
    (∀ w, encode i = .command w → decode xlen st (.command w) = .ok (i, 8)) ∧
    (∀ bs, encode i = .stream bs → decode xlen st (.stream (bs ++ rest)) = .ok (i, bs.length))

/-- 30_encoding.md R110, R111, R115 to R127: what decodes is well-formed and admitted, and its encoding is
the bytes it was read from; a command word keeps its OP and STRICT and no other bit. -/
def Obligations.EncodeInvertsDecode : Prop :=
  (∀ (xlen : Nat) (st : DecState) (bytes : List Byte) (i : Instr) (n : Nat),
    decodeStream xlen st bytes = .ok (i, n) →
      i.wf xlen = true ∧ i.admits st = true ∧ i.isCommand = false ∧ 1 ≤ n ∧ n ≤ bytes.length ∧
        encode i = .stream (bytes.take n)) ∧
  (∀ w : Word, (decodeCommand w).isCommand = true ∧ encode (decodeCommand w) = .command (w &&& 0x10F#64))

/-- 30_encoding.md R110, R117: words written out from the spec's encodings. A sanity statement. -/
def Obligations.SpecWordsDecode : Prop :=
  decodeCommand 0x000#64 = .noCommand false ∧
  decodeCommand 0x101#64 = .init true ∧
  decodeCommand 0x102#64 = .compress true ∧
  decodeCommand 0x003#64 = .decompress false ∧
  decodeCommand 0x104#64 = .decompressSafe true ∧
  decodeCommand 0x005#64 = .checksum false ∧
  decodeCommand 0x007#64 = .reserved7 false ∧
  decodeStream 64 .start [0x12#8, 0x61#8] = .ok (.litFirst 1, 1) ∧
  decodeStream 64 .start [0x00#8, 0xF3#8] = .ok (.litRun 261, 2) ∧
  decodeStream 64 .st1 [0x00#8, 0x00#8] = .ok (.m1n 1 0, 2) ∧
  decodeStream 64 .st4 [0x00#8, 0x00#8] = .ok (.m1f 2049 0, 2) ∧
  decodeStream 64 .st4 [0x6C#8, 0x00#8] = .ok (.m2s 4 4 0, 2) ∧
  decodeStream 64 .st0 [0x9C#8, 0x00#8] = .ok (.m2l 5 8 0, 2) ∧
  decodeStream 64 .st4 [0x20#8, 0x00#8, 0x00#8, 0x00#8, 0xC9#8, 0x10#8, 0x00#8] = .ok (.m3 999 5 0, 7) ∧
  decodeStream 64 .st4 [0x12#8, 0x04#8, 0x00#8] = .ok (.m4 4 16385 0, 3) ∧
  decodeStream 64 .st4 [0x11#8, 0x00#8, 0x00#8] = .ok (.eos 3 0, 3)

/-- 30_encoding.md R120, R132: every op-code byte has a meaning in every decoder state; with a nonzero byte
and two more after it, it decodes, to a header of at most 4 bytes. -/
def Obligations.EveryOpcodeByteDecodes : Prop :=
  ∀ (xlen : Nat) (st : DecState) (b x y z : Byte) (rest : List Byte), x ≠ 0 →
    ∃ i n, decodeStream xlen st (b :: x :: y :: z :: rest) = .ok (i, n) ∧ 1 ≤ n ∧ n ≤ 4

/-- 30_encoding.md R133, 42_compressor.md R240 to R245: ENC_MATCH, ENC_LIT, ENC_TAIL and ENC_EOS emit the
encodings of the stream instructions R240 and R241 name, each followed by its literals; and a count of at most
3 literals, put into the second byte from the end of a match, gives the encoding with that S. -/
def Obligations.EncoderEmitsStreamInstructions : Prop :=
  (∀ (len dist : Nat) (s : State), 4 ≤ len → 1 ≤ dist → dist ≤ 49151 →
    encode (matchInstr len dist 0) = .stream (matchBytes len dist) ∧
    encMatch len dist s = emitBytes (matchBytes len dist) s ∧
    ∀ k ≤ 3, encode (matchInstr len dist k) = .stream ((matchBytes len dist).set
      ((matchBytes len dist).length - 2)
      ((matchBytes len dist).getD ((matchBytes len dist).length - 2) 0 ||| byteOf k))) ∧
  (∀ (t src : Nat) (s : State), 4 ≤ t → ∃ bs, encode (.litRun t) = .stream bs ∧
    encLit src t s = (emitBytes bs s).andThen fun _ u => emitLits t src u) ∧
  (∀ (t : Nat) (s : State), 1 ≤ t → t ≤ 238 → s.enc.opos = 0 → ∃ bs, encode (.litFirst t) = .stream bs ∧
    encTail t s = (emitBytes bs s).andThen fun _ u => emitLits t (s.snap.srcN.toNat - t) u) ∧
  (∀ (t : Nat) (s : State), 4 ≤ t → ¬(s.enc.opos = 0 ∧ t ≤ 238) → ∃ bs, encode (.litRun t) = .stream bs ∧
    encTail t s = (emitBytes bs s).andThen fun _ u => emitLits t (s.snap.srcN.toNat - t) u) ∧
  (∀ s : State, encEos s = emitBytes [0x11#8, 0x00#8, 0x00#8] s) ∧
  encode (.eos 3 0) = .stream [0x11#8, 0x00#8, 0x00#8]

/-! ### Commands without buffers, and the host port -/

/-- 40_commands.md R164. That OUT_LEN stays too is the model's reading against 10_state.md R38 (log 24), and so
is NONE as an instruction run while BUSY, a write that R161 ignores (log 19). -/
def Obligations.NoneStoresStrict : Prop :=
  (∀ (t : Bool) (s : State), s.regs.busy = false →
    exec (.noCommand t) s = .next { s with regs := { s.regs with cmdOp := 0, cmdStrict := t } }) ∧
  (∀ (t : Bool) (s : State), s.regs.busy = true → exec (.noCommand t) s = .next s) ∧
  (∀ (s : State) (v : Word) (rest : List HostEvent), s.quiet → s.regs.busy = false →
    s.inbox = .regWrite 0 64 v :: rest → v.extractLsb' 0 4 = 0#4 →
    step s = .next { s with
      inbox := rest
      regs := { s.regs with cmdOp := 0, cmdStrict := v.getLsbD 8 } })

/-- 40_commands.md R170; the host has not observed the completion yet (70_reset_and_hazards.md R457, log 25). -/
def Obligations.InitSetsInitDone : Prop :=
  ∀ (t : Bool) (s : State),
    exec (.init t) s = .next { s with
      decoding := false
      snap := { s.snap with opv := 1#4, strictV := t }
      view := { s.view with resultsSeen := false }
      regs := { s.regs with code := 0, initDone := true, outLen := 0, busy := false } }

/-- 40_commands.md R171: a second INIT, issued and performed from the idle state an INIT left, changes no
register but CMD, which holds the word that issued it, and the snapshot of the arguments. -/
def Obligations.InitIsIdempotent : Prop :=
  (∀ (t : Bool) (s u : State), exec (.init t) s = .next u → exec (.init t) u = .next u) ∧
  (∀ (t : Bool) (s u : State) (w : Word), exec (.init t) s = .next u → u.quiet → cmdOpOf w = 1#4 →
    u.inbox = [.regWrite 0 64 w] →
    ∃ v x, step u = .next v ∧ step v = .next x ∧
      x = { u with inbox := [], snap := x.snap, regs := { u.regs with cmdOp := 1, cmdStrict := w.getLsbD 8 } })

/-- 40_commands.md R165, for each of the ten codes: what the perform step leaves, and the two steps of its
issue and its performance. -/
def Obligations.ReservedCodesNotImplemented : Prop :=
  (∀ (t : Bool) (s : State), ∀ p ∈ Instr.reserved t, exec p.1 s = .next (s.ended p.2 t (-9) 0)) ∧
  (∀ (s : State) (v : Word), s.quiet → s.regs.busy = false → s.inbox = [.regWrite 0 64 v] →
    6 ≤ (v.extractLsb' 0 4).toNat →
    ∃ t u, step s = .next t ∧ step t = .next u ∧ t.regs.busy = true ∧ u.mem = s.mem ∧
      u.regs = { s.regs with
        cmdOp := v.extractLsb' 0 4, cmdStrict := v.getLsbD 8, code := codeOf (-9), outLen := 0 })

/-- The pseudocode of 40_commands.md R160, with the argument snapshot of 10_state.md R43. That NONE leaves
OUT_LEN is the model's reading (log 24). -/
def Obligations.CommandIssue : Prop :=
  ∀ (s : State) (v : Word) (rest : List HostEvent), s.quiet → s.regs.busy = false →
    s.inbox = .regWrite 0 64 v :: rest →
    (v.extractLsb' 0 4 = 0#4 →
      step s = .next { s with
        inbox := rest, regs := { s.regs with cmdOp := 0, cmdStrict := v.getLsbD 8 } }) ∧
    (v.extractLsb' 0 4 ≠ 0#4 →
      step s = .next { s with
        inbox := rest
        regs := { s.regs with cmdOp := v.extractLsb' 0 4, cmdStrict := v.getLsbD 8, busy := true }
        snap := {
          srcBase := s.regs.srcAddr, srcN := s.regs.srcLen, dstBase := s.regs.dstAddr,
          dstN := s.regs.dstLen, seedV := s.regs.seed, strictV := v.getLsbD 8,
          opv := v.extractLsb' 0 4 } })

/-- 40_commands.md R161: while BUSY every register write is ignored, STATUS reads BUSY = 1, and CODE, OUT_LEN and
CKSUM read as the previous commands left them, CODE and OUT_LEN once the host has observed the last completion and
CKSUM once it has observed that of the last CHECKSUM; what they read as until then is in RegisterReads (70_reset_and_hazards.md R457; the model's reading of R161 beside it, log 25). The step that
issues a command leaves CODE, OUT_LEN and CKSUM as they are. -/
def Obligations.BusyWritesIgnored : Prop :=
  ∀ (s : State) (off : Nat) (v : Word) (rest : List HostEvent), s.quiet → off % 8 = 0 → off ≤ 0xFF →
    let drawn := if s.view.resultsSeen = true ∧ s.view.cksumSeen = true then s.draws else s.draws + 8
    (s.regs.busy = true →
      (s.inbox = .regWrite off 64 v :: rest → step s = .next { s with inbox := rest }) ∧
      (s.inbox = .regRead 0x08 64 :: rest → ∃ x, step s = .next { s with
        inbox := rest, hostRead := x, draws := drawn } ∧ x.getLsbD 32 = true ∧
        (s.view.resultsSeen = true → x.extractLsb' 0 32 = s.regs.code)) ∧
      (s.inbox = .regRead 0x38 64 :: rest → ∃ x, step s = .next { s with
        inbox := rest, hostRead := x, draws := drawn } ∧ (s.view.resultsSeen = true → x = s.regs.outLen)) ∧
      (s.inbox = .regRead 0x40 64 :: rest → ∃ x, step s = .next { s with
        inbox := rest, hostRead := x, draws := drawn } ∧
        (s.view.cksumSeen = true → x = s.regs.cksum.setWidth 64))) ∧
    (s.regs.busy = false → s.inbox = .regWrite 0 64 v :: rest → v.extractLsb' 0 4 ≠ 0#4 →
      ∃ t, step s = .next t ∧ t.regs.busy = true ∧ t.regs.code = s.regs.code ∧
        t.regs.outLen = s.regs.outLen ∧ t.regs.cksum = s.regs.cksum)

/-- 10_state.md R31 to R39: the value each register reads as, field by field; a reserved offset reads 0. Until
the host has read BUSY = 0 after the last completion, OUT_LEN reads as a free value, and so does CODE while a next
command is pending; CKSUM does until it has done so after the last CHECKSUM (70_reset_and_hazards.md R457, log 25); the read of STATUS that sees BUSY = 0 is the
observation, and after it every register reads as it is. Nothing else changes. -/
def Obligations.RegisterReads : Prop :=
  ∀ (s : State) (off : Nat) (rest : List HostEvent), s.quiet → off % 8 = 0 → off ≤ 0xFF →
    s.inbox = .regRead off 64 :: rest →
    let w := (freeWord s.draws).toNat
    let hidden := s.view.resultsSeen = false
    let sumHidden := s.view.cksumSeen = false
    ∃ v, step s = .next { s with
        inbox := rest
        hostRead := v
        draws := if hidden ∨ sumHidden then s.draws + 8 else s.draws
        view :=
          if off = 0x08 ∧ s.regs.busy = false then { unseen := [], resultsSeen := true, cksumSeen := true }
          else s.view } ∧
      (off = 0x00 → v.toNat = s.regs.cmdOp.toNat + (if s.regs.cmdStrict then 2 ^ 8 else 0)) ∧
      (off = 0x08 → v.toNat = (if hidden ∧ s.regs.busy = true then w % 2 ^ 32 else s.regs.code.toNat) +
        (if s.regs.busy then 2 ^ 32 else 0) + (if s.regs.initDone then 2 ^ 33 else 0)) ∧
      (off = 0x10 → v = s.regs.srcAddr) ∧ (off = 0x18 → v = s.regs.srcLen) ∧
      (off = 0x20 → v = s.regs.dstAddr) ∧ (off = 0x28 → v = s.regs.dstLen) ∧
      (off = 0x30 → v.toNat = s.regs.seed.toNat) ∧
      (off = 0x38 → v.toNat = if hidden then w % 2 ^ s.platform.xlen else s.regs.outLen.toNat) ∧
      (off = 0x40 → v.toNat = if sumHidden then w % 2 ^ 32 else s.regs.cksum.toNat) ∧
      (0x48 ≤ off → v = 0)

/-- 10_state.md R31, R32, R35 to R37: what a write to a register other than CMD stores while the block is
idle; the read-only registers and the reserved offsets ignore it. -/
def Obligations.RegisterWrites : Prop :=
  ∀ (s : State) (off : Nat) (v : Word) (rest : List HostEvent), s.quiet → s.regs.busy = false →
    s.platform.wf = true → off % 8 = 0 → 0 < off → off ≤ 0xFF →
    s.inbox = .regWrite off 64 v :: rest →
    ∃ x : Word, x.toNat = v.toNat % 2 ^ s.platform.xlen ∧
      step s = .next { s with
        inbox := rest
        regs :=
          if off = 0x10 then { s.regs with srcAddr := x }
          else if off = 0x18 then { s.regs with srcLen := x }
          else if off = 0x20 then { s.regs with dstAddr := x }
          else if off = 0x28 then { s.regs with dstLen := x }
          else if off = 0x30 then { s.regs with seed := v.extractLsb' 0 32 }
          else s.regs }

/-- 10_state.md R32: an access of another width, or at an offset that is no multiple of 8, is refused; so is one
at an offset past 0xFF, outside the register map, which is the model's choice (log 14). -/
def Obligations.OtherAccessesRefused : Prop :=
  ∀ (s : State) (off width : Nat) (v : Word) (rest : List HostEvent), s.quiet →
    (width ≠ 64 ∨ off % 8 ≠ 0 ∨ 0xFF < off) →
    (s.inbox = .regWrite off width v :: rest ∨ s.inbox = .regRead off width :: rest) →
    step s = .refused .registerAccess

/-! ### How commands end -/

/-- 40_commands.md R172. -/
def Obligations.CompressBeforeInit : Prop :=
  ∀ (t : Bool) (s : State), s.regs.initDone = false →
    exec (.compress t) s = .next (s.ended 2#4 t (-1) 0)

/-- 40_commands.md R173: the value of INIT_DONE changes nothing about these three commands. -/
def Obligations.InitDoneNotNeeded : Prop :=
  ∀ (t b : Bool) (s u : State), ∀ i ∈ [Instr.decompress t, Instr.decompressSafe t, Instr.checksum t],
    exec i s = .next u →
    exec i { s with regs := { s.regs with initDone := b } } =
      .next { u with regs := { u.regs with initDone := b } }

/-- 40_commands.md R163: the sums are exact; a rejected command changes no memory and no unit; a command
whose buffers pass never ends with InvalidArgument. -/
def Obligations.ArgumentChecks : Prop :=
  ∀ (t : Bool) (s : State),
    let bad := 2 ^ s.platform.xlen < s.snap.srcBase.toNat + s.snap.srcN.toNat ∨
      2 ^ s.platform.xlen < s.snap.dstBase.toNat + s.snap.dstN.toNat ∨
      (0 < s.snap.srcN.toNat ∧ 0 < s.snap.dstN.toNat ∧
        s.snap.srcBase.toNat < s.snap.dstBase.toNat + s.snap.dstN.toNat ∧
        s.snap.dstBase.toNat < s.snap.srcBase.toNat + s.snap.srcN.toNat)
    let badInput := 2 ^ s.platform.xlen < s.snap.srcBase.toNat + s.snap.srcN.toNat
    (bad → (s.regs.initDone = true → exec (.compress t) s = .next (s.ended 2#4 t (-10) 0)) ∧
      exec (.decompress t) s = .next (s.ended 3#4 t (-10) 0) ∧
      exec (.decompressSafe t) s = .next (s.ended 4#4 t (-10) 0)) ∧
    (badInput → exec (.checksum t) s = .next (s.ended 5#4 t (-10) 0)) ∧
    (¬bad → ∀ u, (exec (.compress t) s = .next u ∨ exec (.decompressSafe t) s = .next u ∨
      exec (.decompress t) s = .next u ∧ s.undefinedMark = false ∧ u.undefinedMark = false) →
      u.regs.code ≠ codeOf (-10)) ∧
    (¬badInput → ∀ u, exec (.checksum t) s = .next u → u.regs.code ≠ codeOf (-10))

/-- 60_exceptions.md R405, with the free values of log 8: (a) the output buffer is unchanged after an error
of the INIT check, the argument checks or a reserved code; (b) after any other error every output byte is a
draw; (c) nothing outside the output buffer changes. -/
def Obligations.OutputAfterErrors : Prop :=
  ∀ (t : Bool) (s u : State), s.mem.wf = true →
    (∀ p ∈ Instr.reserved t, exec p.1 s = .next u → u.mem = s.mem) ∧
    (∀ i ∈ [Instr.compress t, Instr.decompress t, Instr.decompressSafe t], exec i s = .next u →
      u.undefinedMark = false → u.regs.code ≠ 0 →
      ((i = .compress t ∧ s.regs.initDone = false ∨ s.argsOk = false) → u.mem = s.mem) ∧
      (¬(i = .compress t ∧ s.regs.initDone = false ∨ s.argsOk = false) →
        (∀ j < s.snap.dstN.toNat, u.outAt j = Config.freeByte (s.draws + j)) ∧
        u.draws = s.draws + s.snap.dstN.toNat) ∧
      sameOutside s u s.snap.dstBase.toNat s.snap.dstN.toNat)

/-- 60_exceptions.md R403 and R175 of 40_commands.md: which registers a completion writes. The host has not
observed it yet (70_reset_and_hazards.md R456, R457, log 25). -/
def Obligations.CompletionWritesResults : Prop :=
  ∀ (i : Instr) (s u : State), i.isCommand = true → (∀ t, i ≠ .noCommand t) → exec i s = .next u →
    u.undefinedMark = false →
    u.regs.busy = false ∧ u.decoding = false ∧ u.view = s.view.after u.snap ∧
    (u.regs.code ≠ 0 → u.regs.outLen = 0 ∧ u.regs.cksum = s.regs.cksum ∧ u.regs.initDone = s.regs.initDone) ∧
    ((∀ t, i ≠ .compress t ∧ i ≠ .decompress t ∧ i ≠ .decompressSafe t) → u.regs.outLen = 0) ∧
    ((∀ t, i ≠ .checksum t) → u.regs.cksum = s.regs.cksum) ∧
    ((∀ t, i ≠ .init t) → u.regs.initDone = s.regs.initDone) ∧
    ((∃ t, i = .init t) → u.regs.initDone = true ∧ u.regs.code = 0)

/-- 40_commands.md R174: every perform step ends: with the block idle, or, in DECOMPRESS only, UNDEFINED. -/
def Obligations.CommandsEnd : Prop :=
  ∀ (i : Instr) (s : State), i.isCommand = true → (∀ t, i ≠ .noCommand t) → s.undefinedMark = false →
    ∃ u, exec i s = .next u ∧ u.decoding = false ∧
      (u.regs.busy = false ∧ u.undefinedMark = false ∨
        (∃ t, i = .decompress t) ∧ u.undefinedMark = true ∧ u.regs = s.regs)

/-- 10_state.md R32, R51, 40_commands.md R161: no instruction writes an argument register, the host's own
fields, the other blocks or the platform; only NONE writes CMD. -/
def Obligations.InstructionsKeepHostRegisters : Prop :=
  ∀ (i : Instr) (s u : State), exec i s = .next u →
    u.regs.srcAddr = s.regs.srcAddr ∧ u.regs.srcLen = s.regs.srcLen ∧ u.regs.dstAddr = s.regs.dstAddr ∧
    u.regs.dstLen = s.regs.dstLen ∧ u.regs.seed = s.regs.seed ∧ u.inbox = s.inbox ∧
    u.hostRead = s.hostRead ∧ u.peers = s.peers ∧ u.platform = s.platform ∧ u.hostRace = s.hostRace ∧
    ((∀ t, i ≠ .noCommand t) → u.regs.cmdOp = s.regs.cmdOp ∧ u.regs.cmdStrict = s.regs.cmdStrict)

/-- 10_state.md R40, 45_checksum.md R356, 44_decompressors.md R312: each command and each stream
instruction changes the working registers of its own unit only. -/
def Obligations.UnitsAreSeparate : Prop :=
  ∀ (i : Instr) (s u : State), exec i s = .next u →
    ((∀ t, i ≠ .compress t) → u.enc = s.enc ∧ u.mf = s.mf ∧ u.table = s.table) ∧
    ((∀ t, i ≠ .checksum t) → u.cks = s.cks) ∧
    ((i.isCommand = true ∧ ∀ t, i ≠ .decompress t ∧ i ≠ .decompressSafe t) →
      u.dec = s.dec ∧ u.undefinedMark = s.undefinedMark) ∧
    ((i.isCommand = true ∧ ∀ t, i ≠ .compress t ∧ i ≠ .decompress t ∧ i ≠ .decompressSafe t) →
      u.mem = s.mem ∧ u.draws = s.draws)

/-- 20_memory.md R87: a byte that dma_ok excludes, wherever the command meets it, ends the command with Error in
either decoder mode: in a header, in the literals or the output of a literal run, in either side of a match copy
and in its S literals, in the source of CHECKSUM, in the source or the stream of COMPRESS. A header is read
inside a decode (log 1), and an address that names no byte counts as excluded (log 3). -/
def Obligations.BusErrors : Prop :=
  let ends := fun (s u : State) => u.regs.code = codeOf (-1) ∧ u.regs.busy = false ∧ u.regs.outLen = 0 ∧
    u.regs.cksum = s.regs.cksum ∧ u.undefinedMark = s.undefinedMark
  (∀ (s : State) (m : Nat), s.hostRace = false → s.undefinedMark = false → s.decoding = true →
    s.dec.ip + m < s.snap.srcN.toNat → (∀ j < m, s.dmaOk (s.inAddr (s.dec.ip + j)) = true) →
    s.dmaOk (s.inAddr (s.dec.ip + m)) = false →
    decodeStream s.platform.xlen s.dec.st ((s.inputList.drop s.dec.ip).take m) = .error .cut →
    ∃ u, step s = .next u ∧ ends s u) ∧
  (∀ (s : State) (i : Instr) (k : Nat), i.litCount = some k →
    s.dec.op + k ≤ s.snap.dstN.toNat → s.dec.ip + k ≤ s.snap.srcN.toNat →
    (∃ j < k, s.dmaOk (s.inAddr (s.dec.ip + j)) = false ∨ s.dmaOk (s.outAddr (s.dec.op + j)) = false) →
    ∃ u, exec i s = .next u ∧ ends s u) ∧
  (∀ (s : State) (i : Instr) (len dist n : Nat), i.matchParts = some (len, dist, n) → dist ≤ s.dec.op →
    s.dec.op + len ≤ s.snap.dstN.toNat →
    ((∃ j < len, s.dmaOk (s.outAddr (s.dec.op - dist + j)) = false ∨
        s.dmaOk (s.outAddr (s.dec.op + j)) = false) ∨
      s.dec.op + len + n ≤ s.snap.dstN.toNat ∧ s.dec.ip + n ≤ s.snap.srcN.toNat ∧
        ∃ j < n, s.dmaOk (s.inAddr (s.dec.ip + j)) = false ∨
          s.dmaOk (s.outAddr (s.dec.op + len + j)) = false) →
    ∃ u, exec i s = .next u ∧ ends s u) ∧
  (∀ (t : Bool) (s : State), s.inputOk = true → ¬s.inputReadable →
    ∃ u, exec (.checksum t) s = .next u ∧ ends s u) ∧
  (∀ (t : Bool) (s : State), s.regs.initDone = true → s.argsOk = true →
    s.snap.srcN.toNat + s.snap.srcN.toNat / 16 + 64 + 3 ≤ s.snap.dstN.toNat →
    ∃ u, exec (.compress t) s = .next u ∧ (ends s u ∨ u.regs.code = 0 ∧ s.inputReadable ∧
      ∀ j < u.regs.outLen.toNat, s.dmaOk (s.outAddr j) = true))

/-! ### CHECKSUM -/

/-- 45_checksum.md R350 and R353: the result, with the one-byte step `adlerStep` folded over the input, and
the two errors. Nothing but S1, S2 and the registers of completion changes. -/
def Obligations.ChecksumResult : Prop :=
  ∀ (t : Bool) (s : State),
    let fin := s.inputList.foldl adlerStep (s.snap.seedV.toNat % 2 ^ 16, s.snap.seedV.toNat / 2 ^ 16)
    (2 ^ s.platform.xlen < s.snap.srcBase.toNat + s.snap.srcN.toNat →
      exec (.checksum t) s = .next (s.ended 5#4 t (-10) 0)) ∧
    (s.snap.srcBase.toNat + s.snap.srcN.toNat ≤ 2 ^ s.platform.xlen →
      (s.snap.srcN = 0 → exec (.checksum t) s =
        .next { s.ended 5#4 t 0 0 with regs := { (s.ended 5#4 t 0 0).regs with cksum := s.snap.seedV } }) ∧
      (s.snap.srcN ≠ 0 → s.inputReadable → exec (.checksum t) s =
        .next { s.ended 5#4 t 0 0 with
          cks := { s1 := BitVec.ofNat 16 fin.1, s2 := BitVec.ofNat 16 fin.2 }
          regs := { (s.ended 5#4 t 0 0).regs with
            cksum := BitVec.ofNat 32 (fin.2 * 2 ^ 16 + fin.1) } }) ∧
      (¬s.inputReadable → ∃ c, exec (.checksum t) s = .next { s.ended 5#4 t (-1) 0 with cks := c }))

/-- 45_checksum.md R355: the closed form of both sums, and swapping two unequal bytes whose distance is no
multiple of 65521 changes the result. -/
def Obligations.ChecksumClosedForm : Prop :=
  (∀ (t : Bool) (s : State), s.inputOk = true → s.inputReadable → 0 < s.snap.srcN.toNat →
    ∃ u, exec (.checksum t) s = .next u ∧ u.regs.code = 0 ∧
      u.regs.cksum.toNat % 2 ^ 16 = (s.snap.seedV.toNat % 2 ^ 16 +
        ((List.range s.snap.srcN.toNat).map fun i => (s.inAt i).toNat).sum) % 65521 ∧
      u.regs.cksum.toNat / 2 ^ 16 = (s.snap.seedV.toNat / 2 ^ 16 +
        s.snap.srcN.toNat * (s.snap.seedV.toNat % 2 ^ 16) +
        ((List.range s.snap.srcN.toNat).map fun i => (s.snap.srcN.toNat - i) * (s.inAt i).toNat).sum) % 65521) ∧
  (∀ (t : Bool) (s s' u u' : State) (i j : Nat), s.inputOk = true → s.inputReadable →
    s'.snap = s.snap → s'.platform = s.platform → i < j → j < s.snap.srcN.toNat → (j - i) % 65521 ≠ 0 →
    s.inAt i ≠ s.inAt j → s'.inAt i = s.inAt j → s'.inAt j = s.inAt i →
    (∀ k < s.snap.srcN.toNat, k ≠ i → k ≠ j → s'.inAt k = s.inAt k) →
    exec (.checksum t) s = .next u → exec (.checksum t) s' = .next u' → u'.regs.cksum ≠ u.regs.cksum)

/-- 45_checksum.md R354: the result is a function of the bytes and the seed, and changing exactly one byte
changes it. -/
def Obligations.ChecksumDetectsOneByte : Prop :=
  ∀ (t t' : Bool) (s s' u u' : State), s.inputOk = true → s'.inputOk = true → s.inputReadable →
    s'.inputReadable → s'.snap.srcN = s.snap.srcN → s'.snap.seedV = s.snap.seedV →
    exec (.checksum t) s = .next u → exec (.checksum t') s' = .next u' →
    ((∀ k < s.snap.srcN.toNat, s'.inAt k = s.inAt k) → u'.regs.cksum = u.regs.cksum) ∧
    (∀ k < s.snap.srcN.toNat, s'.inAt k ≠ s.inAt k →
      (∀ m < s.snap.srcN.toNat, m ≠ k → s'.inAt m = s.inAt m) → u'.regs.cksum ≠ u.regs.cksum)

/-! ### COMPRESS -/

/-- 41_match_finder.md R201: the bucket of a key. -/
def Obligations.HashValue : Prop :=
  ∀ dv : BitVec 32, mfHash dv = dv.toNat * 0x1824429D % 2 ^ 32 / 2 ^ 18 ∧ mfHash dv < 16384

/-- 41_match_finder.md R202, 10_state.md R40: a probe reads its bucket, then writes P there, and leaves
every other bucket. -/
def Obligations.ProbeUpdatesItsBucket : Prop :=
  ∀ (s : State) (dv : BitVec 32), s.table.wf = true →
    (mfProbe (mfHash dv) s).mf.cand = (s.table.read (mfHash dv)).toNat ∧
    (mfProbe (mfHash dv) s).table.wf = true ∧
    (mfProbe (mfHash dv) s).table.read (mfHash dv) = BitVec.ofNat 16 s.enc.p ∧
    (∀ h, h ≠ mfHash dv → (mfProbe (mfHash dv) s).table.read h = s.table.read h) ∧
    mfProbe (mfHash dv) s =
      { s with mf := { s.mf with cand := (s.table.read (mfHash dv)).toNat },
               table := (mfProbe (mfHash dv) s).table }

/-- 41_match_finder.md R204: the closed form of MLEN, and MOFF. -/
def Obligations.MatchLengthClosedForm : Prop :=
  ∀ s : State,
    let x := fun j => s.inAt (s.enc.base + s.enc.p + j)
    let y := fun j => s.inAt (s.enc.base + s.mf.cand + j)
    s.mf.cand < s.enc.p → s.enc.p < s.enc.e →
    (∀ k, k ≤ s.enc.base + s.enc.e + 4 → s.dmaOk (s.inAddr k) = true) →
    ∃ n, mfLength s = .ok () { s with mf := { s.mf with mlen := n, moff := s.enc.p - s.mf.cand } } ∧
      (x 4 ≠ y 4 → n = 4) ∧
      (x 4 = y 4 → 5 ≤ n ∧ (s.enc.e ≤ s.enc.p + n ∨ x n ≠ y n) ∧
        ∀ j, 5 ≤ j → j < n → s.enc.p + j < s.enc.e ∧ x j = y j) ∧
      s.enc.p + n ≤ s.enc.e + 4

/-- 42_compressor.md R230, R232: the bounds on the passes of the model's loops (log 15) cut nothing off: a
block's scan that goes on ends past its limit, with a carry of at least 16 literals (R235), and the blocks
leave at most 20 bytes. -/
def Obligations.ScanRunsToItsLimit : Prop :=
  (∀ s t : State, 20 < s.enc.bl → scanLoop (s.enc.bl + 1) true (startBlock s) = .ok () t →
    t.enc.e = s.enc.bl - 20 ∧ t.enc.e ≤ t.enc.p ∧ t.enc.ii ≤ (s.enc.bl : Int) - 16) ∧
  (∀ s t : State, 20 < s.enc.bl → encBlock s = .ok () t → 16 ≤ t.enc.ti) ∧
  (∀ s t : State, blockLoop s.snap.srcN.toNat (startCompress s) = .ok () t →
    t.enc.l ≤ 20 ∧ t.enc.base + t.enc.l = s.snap.srcN.toNat)

/-- 42_compressor.md R252, with the completion of COMPRESS on a source of at most 21 bytes: the stream, byte
by byte, and its length. -/
def Obligations.CompressShortSources : Prop :=
  ∀ (t : Bool) (s : State), s.mem.wf = true → s.regs.initDone = true → s.argsOk = true →
    s.inputReadable → s.outputWritable → s.snap.srcN.toNat ≤ 21 →
    let z := (if s.snap.srcN.toNat = 0 then [] else byteOf (17 + s.snap.srcN.toNat) :: s.inputList) ++
      [0x11#8, 0x00#8, 0x00#8]
    z.length ≤ s.snap.dstN.toNat →
    ∃ u, exec (.compress t) s = .next u ∧
      u = { s.ended 2#4 t 0 z.length with mem := u.mem, enc := u.enc, table := u.table } ∧
      (∀ j < z.length, u.outAt j = z.getD j 0) ∧ sameOutside s u s.snap.dstBase.toNat z.length

/-- 42_compressor.md R249, with the completion of COMPRESS: whenever the output buffer has BOUND(n) bytes,
COMPRESS ends with OK, in at most BOUND(n) bytes. -/
def Obligations.CompressFitsBound : Prop :=
  ∀ (t : Bool) (s : State), s.regs.initDone = true → s.argsOk = true → s.inputReadable →
    s.outputWritable → s.snap.srcN.toNat + s.snap.srcN.toNat / 16 + 64 + 3 ≤ s.snap.dstN.toNat →
    ∃ u, exec (.compress t) s = .next u ∧ u.regs.code = 0 ∧ u.regs.busy = false ∧ 3 ≤ u.regs.outLen.toNat ∧
      u.regs.outLen.toNat ≤ s.snap.srcN.toNat + s.snap.srcN.toNat / 16 + 64 + 3

/-- 42_compressor.md R248, R251, 40_commands.md R175: the frame of COMPRESS that ends with OK. -/
def Obligations.CompressWritesOnlyItsStream : Prop :=
  ∀ (t : Bool) (s u : State), exec (.compress t) s = .next u → u.regs.code = 0 →
    u.regs.outLen.toNat ≤ s.snap.dstN.toNat ∧
    sameOutside s u s.snap.dstBase.toNat u.regs.outLen.toNat ∧
    u = { s.ended 2#4 t 0 u.regs.outLen.toNat with
      mem := u.mem, enc := u.enc, mf := u.mf, table := u.table }

/-- 42_compressor.md R230 to R235, R240 to R245 with 41_match_finder.md R200 to R204: whenever COMPRESS ends with
OK, the source has one parse, by the relation `Parses` on lists, and the output is the bytes of that parse. So,
by R247, equal sources give equal streams, whatever else two states hold. -/
def Obligations.CompressIsDeterministic : Prop :=
  (∀ (t : Bool) (s u : State), s.mem.wf = true → exec (.compress t) s = .next u → u.regs.code = 0 →
    ∃ fs, Parses s.inputList 0 0 fs ∧ (∀ gs, Parses s.inputList 0 0 gs → gs = fs) ∧
      u.regs.outLen.toNat = (parsedBytes s.inputList 0 fs).length ∧
      ∀ j < u.regs.outLen.toNat, u.outAt j = (parsedBytes s.inputList 0 fs).getD j 0) ∧
  (∀ (t t' : Bool) (s s' u u' : State), s.mem.wf = true → s'.mem.wf = true →
    s'.snap.srcN = s.snap.srcN → (∀ k < s.snap.srcN.toNat, s'.inAt k = s.inAt k) →
    exec (.compress t) s = .next u → exec (.compress t') s' = .next u' →
    u.regs.code = 0 → u'.regs.code = 0 →
    u'.regs.outLen = u.regs.outLen ∧ ∀ j < u.regs.outLen.toNat, u'.outAt j = u.outAt j)

/-- 42_compressor.md R246: with room for the whole stream COMPRESS ends with OK, and with any smaller output
buffer it ends with OutOfMemory exactly when the stream is longer. -/
def Obligations.OutOfMemoryExactlyWhenTooLong : Prop :=
  ∀ (t : Bool) (s u u' : State) (m : Word), exec (.compress t) s = .next u → u.regs.code = 0 →
    m.toNat ≤ s.snap.dstN.toNat →
    exec (.compress t) { s with snap := { s.snap with dstN := m } } = .next u' →
    (m.toNat < u.regs.outLen.toNat → u'.regs.code = codeOf (-2) ∧ u'.regs.outLen = 0) ∧
    (u.regs.outLen.toNat ≤ m.toNat → u'.regs.code = 0 ∧ u'.regs.outLen = u.regs.outLen ∧ u'.mem = u.mem)

/-- 42_compressor.md R250: whatever stream COMPRESS leaves, both decoders, strict or not, give the source
back from it, in any state that holds that stream as its input; DECOMPRESS is not UNDEFINED. -/
def Obligations.CompressRoundTrip : Prop :=
  ∀ (t b : Bool) (s u d : State), s.mem.wf = true → exec (.compress t) s = .next u → u.regs.code = 0 →
    d.platform.wf = true → d.mem.wf = true → d.undefinedMark = false → d.argsOk = true →
    d.inputReadable → d.outputWritable → d.snap.srcN = u.regs.outLen → d.snap.dstN = s.snap.srcN →
    (∀ j < d.snap.srcN.toNat, d.inAt j = u.outAt j) →
    ∀ i ∈ [Instr.decompressSafe b, Instr.decompress b], ∃ v, exec i d = .next v ∧ v.undefinedMark = false ∧
      v.regs.code = 0 ∧ v.regs.outLen = s.snap.srcN ∧ ∀ j < s.snap.srcN.toNat, v.outAt j = s.inAt j

/-! ### The decoders -/

/-- 44_decompressors.md R310 to R312, R315 to R317, with the completion of both decoders: what the relation
`Expands` says of the input is what they leave in the output, and nothing else changes. -/
def Obligations.DecodersExpandStream : Prop :=
  ∀ (t : Bool) (s : State) (out rest : List Byte),
    Expands s.platform.xlen .start [] s.inputList out rest → out.length = s.snap.dstN.toNat →
    (t = true → rest = []) → s.mem.wf = true → s.argsOk = true → s.inputReadable → s.outputWritable →
    ∀ p ∈ [(Instr.decompress t, 3#4), (Instr.decompressSafe t, 4#4)], ∃ u, exec p.1 s = .next u ∧
      u = { s.ended p.2 t 0 out.length with mem := u.mem, dec := u.dec } ∧
      (∀ j < out.length, u.outAt j = out.getD j 0) ∧
      sameOutside s u s.snap.dstBase.toNat s.snap.dstN.toNat

/-- 44_decompressors.md R314, 43_stream_opcodes.md R276. -/
def Obligations.SafeAndUncheckedAgree : Prop :=
  ∀ (t : Bool) (s : State), s.undefinedMark = false →
    ∃ u v, exec (.decompress t) s = .next u ∧ exec (.decompressSafe t) s = .next v ∧
      (u.undefinedMark = true ↔ v.regs.code ∈ [codeOf (-4), codeOf (-5), codeOf (-6), codeOf (-7)]) ∧
      (u.undefinedMark = false → u = { v with
        snap := { v.snap with opv := 3#4 }
        view := s.view.after { v.snap with opv := 3#4 } })

/-- 40_commands.md R162, 44_decompressors.md R312 (log 1): the one atomic step of a decoder is the run of
its stream instructions, one step each, from the start of the loop. -/
def Obligations.AtomicDecodeIsStepRun : Prop :=
  ∀ (s u : State), s.quiet → s.argsOk = true →
    (s.snap.opv = 3#4 ∧ exec (.decompress s.snap.strictV) s = .next u ∨
      s.snap.opv = 4#4 ∧ exec (.decompressSafe s.snap.strictV) s = .next u) →
    ∃ k, k ≤ s.snap.srcN.toNat + 1 ∧ core.run k (startDecode s) = .next u ∧ u.decoding = false

/-- 44_decompressors.md R315, R317, R321: which statuses a decoder ends with, and what OK means. -/
def Obligations.DecoderOkMeansWholeOutput : Prop :=
  ∀ (t : Bool) (s u : State), s.undefinedMark = false → u.undefinedMark = false →
    (exec (.decompressSafe t) s = .next u ∨ exec (.decompress t) s = .next u) →
    u.regs.code ∈ [0, codeOf (-1), codeOf (-4), codeOf (-5), codeOf (-6), codeOf (-7), codeOf (-8),
      codeOf (-10), codeOf (-12)] ∧
    (u.regs.code = 0 → u.regs.outLen = s.snap.dstN ∧ u.dec.op = s.snap.dstN.toNat ∧
      u.dec.ip ≤ s.snap.srcN.toNat ∧ (t = true → u.dec.ip = s.snap.srcN.toNat))

/-- 44_decompressors.md R318, R322, 20_memory.md R82: the frame of both decoders. -/
def Obligations.DecodersWriteOnlyOutput : Prop :=
  ∀ (t : Bool) (s u : State), u.undefinedMark = false →
    ∀ p ∈ [(Instr.decompress t, 3#4), (Instr.decompressSafe t, 4#4)], exec p.1 s = .next u →
    sameOutside s u s.snap.dstBase.toNat s.snap.dstN.toNat ∧
    (u.regs.code ≠ 0 → u.regs.outLen = 0) ∧
    u = { s with
      decoding := false
      snap := { s.snap with opv := p.2, strictV := t }
      view := s.view.after { s.snap with opv := p.2, strictV := t }
      regs := { s.regs with code := u.regs.code, outLen := u.regs.outLen, busy := false }
      dec := u.dec, mem := u.mem, draws := u.draws }

/-- 44_decompressors.md R320: cutting bytes off a stream whose EOS ends at its last byte. -/
def Obligations.TruncatedStreams : Prop :=
  ∀ (t t' : Bool) (s u : State) (m : Word), exec (.decompressSafe t) s = .next u → u.regs.code = 0 →
    u.dec.ip = s.snap.srcN.toNat → m.toNat < s.snap.srcN.toNat →
    ∃ v, exec (.decompressSafe t') { s with snap := { s.snap with srcN := m } } = .next v ∧
      (v.regs.code = codeOf (-4) ∨ v.regs.code = codeOf (-7)) ∧ v.regs.outLen = 0

/-- 44_decompressors.md R323. -/
def Obligations.EmptyAndMinimalStreams : Prop :=
  (∀ (t : Bool) (s : State), s.argsOk = true → s.snap.srcN = 0 →
    (∃ u, exec (.decompressSafe t) s = .next u ∧ u.regs.code = codeOf (-7)) ∧
    (∃ u, exec (.decompress t) s = .next u ∧ u.undefinedMark = true ∧ u.regs = s.regs)) ∧
  (∀ (t : Bool) (s : State), s.argsOk = true → s.snap.srcN = 3 → s.inputReadable →
    s.inAt 0 = 0x11#8 → s.inAt 1 = 0x00#8 → s.inAt 2 = 0x00#8 →
    ∀ i ∈ [Instr.decompress t, Instr.decompressSafe t], ∃ u, exec i s = .next u ∧ u.regs.outLen = 0 ∧
      u.regs.code = (if s.snap.dstN = 0 then 0 else codeOf (-12)))

/-! ### Stream instructions -/

/-- 43_stream_opcodes.md R280, R281, R275: what the two literal instructions leave, and their frame. -/
def Obligations.LiteralInstructionsCopy : Prop :=
  ∀ (i : Instr) (k : Nat) (s : State), i.litCount = some k → i.wf s.platform.xlen = true →
    s.mem.wf = true → s.argsOk = true →
    s.dec.op + k ≤ s.snap.dstN.toNat → s.dec.ip + k ≤ s.snap.srcN.toNat →
    (∀ j < k, s.dmaOk (s.inAddr (s.dec.ip + j)) = true) →
    (∀ j < k, s.dmaOk (s.outAddr (s.dec.op + j)) = true) →
    ∃ u, exec i s = .next u ∧
      u = { s with mem := u.mem, dec := {
        ip := s.dec.ip + k
        op := s.dec.op + k
        st := if k = 1 then .st1 else if k = 2 then .st2 else if k = 3 then .st3 else .st4 } } ∧
      (∀ j < k, u.outAt (s.dec.op + j) = s.inAt (s.dec.ip + j)) ∧
      sameOutside s u (s.outAddr s.dec.op) k

/-- 43_stream_opcodes.md R282 to R288, R274: what a match leaves, for all six instructions: the copied
bytes repeat the last `dist` bytes as a period, and the S literals follow. -/
def Obligations.MatchInstructionsCopy : Prop :=
  ∀ (i : Instr) (len dist n : Nat) (s : State), i.matchParts = some (len, dist, n) →
    i.wf s.platform.xlen = true → s.mem.wf = true → s.argsOk = true → s.inputReadable → s.outputWritable →
    dist ≤ s.dec.op → s.dec.op + len + n ≤ s.snap.dstN.toNat → s.dec.ip + n ≤ s.snap.srcN.toNat →
    ∃ u, exec i s = .next u ∧
      u = { s with mem := u.mem, dec := {
        ip := s.dec.ip + n
        op := s.dec.op + len + n
        st := if n = 0 then .st0 else if n = 1 then .st1 else if n = 2 then .st2 else .st3 } } ∧
      (∀ j < len, u.outAt (s.dec.op + j) = s.outAt (s.dec.op - dist + j % dist)) ∧
      (∀ j < n, u.outAt (s.dec.op + len + j) = s.inAt (s.dec.ip + j)) ∧
      sameOutside s u (s.outAddr s.dec.op) (len + n)

/-- 43_stream_opcodes.md R289 with the final checks of 44_decompressors.md R315, in their order. -/
def Obligations.EosFinishes : Prop :=
  ∀ (len n : Nat) (s : State), (s.snap.opv = 3#4 ∨ s.snap.opv = 4#4) →
    ∃ u, exec (.eos len n) s = .next u ∧
      u = { s with
        decoding := false, mem := u.mem, draws := u.draws, view := s.view.after s.snap
        regs := { s.regs with
          code := if s.dec.ip < s.snap.srcN.toNat ∧ s.snap.strictV = true then codeOf (-8)
            else if s.dec.op < s.snap.dstN.toNat then codeOf (-12) else 0
          outLen := if s.dec.ip < s.snap.srcN.toNat ∧ s.snap.strictV = true ∨
              s.dec.op < s.snap.dstN.toNat then 0
            else BitVec.ofNat 64 s.dec.op
          busy := false } } ∧
      (u.regs.code = 0 → u.mem = s.mem ∧ u.draws = s.draws) ∧
      sameOutside s u s.snap.dstBase.toNat s.snap.dstN.toNat

/-- 43_stream_opcodes.md R273, R274, R276, R288, 60_exceptions.md R406: the failed checks of a match, in
their order, and the failed checks of its S literals. What memory and the decoder registers hold after the
UNDEFINED outcome is the model's choice (log 9). -/
def Obligations.FailedMatchChecks : Prop :=
  ∀ (i : Instr) (len dist n : Nat) (s : State), i.matchParts = some (len, dist, n) →
    (s.snap.opv = 3#4 ∨ s.snap.opv = 4#4) →
    (s.dec.op < dist → ∃ u, exec i s = .next u ∧ s.failed u (-6)) ∧
    (dist ≤ s.dec.op → s.dec.op ≤ s.snap.dstN.toNat → s.snap.dstN.toNat < s.dec.op + len →
      ∃ u, exec i s = .next u ∧ s.failed u (-5)) ∧
    (dist ≤ s.dec.op → s.dec.op + len ≤ s.snap.dstN.toNat → s.outputWritable → 0 < n →
      s.snap.dstN.toNat < s.dec.op + len + n → ∃ u, exec i s = .next u ∧ s.failed u (-5)) ∧
    (dist ≤ s.dec.op → s.dec.op + len + n ≤ s.snap.dstN.toNat → s.outputWritable → 0 < n →
      s.dec.ip ≤ s.snap.srcN.toNat → s.snap.srcN.toNat < s.dec.ip + n →
      ∃ u, exec i s = .next u ∧ s.failed u (-4))

/-- 43_stream_opcodes.md R275, R280, R281, R276: the output check of a literal instruction comes before its
input check; a failed check moves neither pointer. What memory and the decoder registers hold after the UNDEFINED
outcome is the model's choice (log 9). -/
def Obligations.FailedLiteralChecks : Prop :=
  ∀ (i : Instr) (k : Nat) (s : State), i.litCount = some k → (s.snap.opv = 3#4 ∨ s.snap.opv = 4#4) →
    (s.dec.op ≤ s.snap.dstN.toNat → s.snap.dstN.toNat < s.dec.op + k →
      ∃ u, exec i s = .next u ∧ s.failed u (-5) ∧ u.dec = s.dec) ∧
    (s.dec.op + k ≤ s.snap.dstN.toNat → s.dec.ip ≤ s.snap.srcN.toNat → s.snap.srcN.toNat < s.dec.ip + k →
      ∃ u, exec i s = .next u ∧ s.failed u (-4) ∧ u.dec = s.dec)

/-- 43_stream_opcodes.md R270 to R272: input that ends at an instruction boundary, inside a header, and a
length extension the guard stops. That a step fetches inside a decode is the model's form of R312 (log 1); what
memory holds after the UNDEFINED outcome is its choice (log 9). -/
def Obligations.FailedFetches : Prop :=
  ∀ s : State, s.hostRace = false → s.undefinedMark = false → s.decoding = true →
    (s.snap.opv = 3#4 ∨ s.snap.opv = 4#4) → s.inputReadable →
    (s.dec.ip = s.snap.srcN.toNat → ∃ u, step s = .next u ∧ s.failed u (-7)) ∧
    (s.dec.ip < s.snap.srcN.toNat →
      let header := decodeStream s.platform.xlen s.dec.st (s.inputList.drop s.dec.ip)
      (header = .error .cut → ∃ u, step s = .next u ∧ s.failed u (-4)) ∧
      (header = .error .longLiteral → ∃ u, step s = .next u ∧ s.failed u (-4)) ∧
      (header = .error .longMatch → ∃ u, step s = .next u ∧ s.failed u (-5)))

/-! ### Steps -/

/-- 44_decompressors.md R312 (log 1): inside a decode a step runs the stream instruction the bytes at IP
decode to, with IP moved past its header. -/
def Obligations.StepRunsStreamInstruction : Prop :=
  ∀ (s : State) (i : Instr) (n : Nat), s.hostRace = false → s.undefinedMark = false →
    s.decoding = true → s.dec.ip < s.snap.srcN.toNat → s.inputReadable →
    decodeStream s.platform.xlen s.dec.st (s.inputList.drop s.dec.ip) = .ok (i, n) →
    step s = exec i { s with dec := { s.dec with ip := s.dec.ip + n } }

/-- 40_commands.md R162 (log 6): the block's step performs the pending command, when the outside has
nothing to do or waits; with no command pending it does nothing (70_reset_and_hazards.md R452). While a command
of another block is pending that shares a byte with it which one of the two may write, the step is the race of
20_memory.md R96 instead (log 20); that it leaves the command unperformed and all else as it was is the model's choice
(log 9). -/
def Obligations.StepPerformsPendingCommand : Prop :=
  ∀ (s : State) (rest : List HostEvent), s.quiet → (s.inbox = [] ∧ rest = [] ∨ s.inbox = .wait :: rest) →
    let race := ∃ p ∈ s.peers, ∃ a, s.snap.inOutput a = true ∧ p.2.inBuffers a = true ∨
      p.2.inOutput a = true ∧ s.snap.inBuffers a = true
    (s.regs.busy = true → ¬race →
      step s = exec (commandOf s.snap.opv s.snap.strictV) { s with inbox := rest }) ∧
    (s.regs.busy = true → race → step s = .next { s with inbox := rest, hostRace := true }) ∧
    (s.regs.busy = false → step s = .next { s with inbox := rest })

/-- The model's own placing of a table word (log 17): the next step runs exactly the instruction the word
decodes to. -/
def Obligations.TableWordRunsNext : Prop :=
  ∀ (s : State) (nbits w : Nat), s.mem.wf = true →
    ∃ i u, decodeTableWord nbits w = some i ∧ step (s.withFetchWord nbits w) = .next u ∧
      (i.isCommand = true →
        exec i { s.withFetchWord nbits w with inbox := s.inbox } = .next u) ∧
      (i.isCommand = false → ∃ n, decodeStream Config.xlenDefault .st0 (tableBytes w) = .ok (i, n) ∧
        exec i ((s.withFetchWord nbits w).advanceIp n) = .next u)

/-- 10_state.md R42, 60_exceptions.md R407, R408: a marked state is a fault state, from which no step goes on; that
every such step answers a fault, HOST_RACE first, is the model's choice (log 9). The platform's reset is no step of
an agent: it leaves both marks 0 (70_reset_and_hazards.md R450, log 26), and the block quiet and idle. -/
def Obligations.MarkedStatesStop : Prop :=
  ∀ s : State,
    ((∀ rest, s.inbox ≠ .reset :: rest) →
      (s.hostRace = true → step s = .fault .hostRace) ∧
      (s.hostRace = false → s.undefinedMark = true → step s = .fault .undefinedRun)) ∧
    (∀ rest, s.inbox = .reset :: rest → s.hostRace = true ∨ s.undefinedMark = true →
      ∃ u, step s = .next u ∧ u.quiet ∧ u.regs = State.reset.regs ∧ u.inbox = rest ∧ u.mem.wf = true)

/-- 20_memory.md R90, R92, 70_reset_and_hazards.md R456: the host's accesses to memory. The buffers of the pending
command, and those of the commands whose end the host has not observed, are hazardous (log 25); with none of
these every access takes its plain effect. (b) goes before (c) for a byte in both ranges, which only a command
that R163 rejects can have (log 12). An address past the top of memory stops the machine (log 3). That a race leaves
all but the mark as it was is the model's choice (log 9), and so is that an access to a byte in a buffer of another
block's pending command is a plain one (log 20). -/
def Obligations.PendingBuffers : Prop :=
  ∀ (s : State) (a : Nat) (v : Byte) (rest : List HostEvent), s.quiet → s.mem.wf = true →
    let inIn := fun c : Snapshot => c.opv ∈ [2#4, 3#4, 4#4, 5#4] ∧ c.srcBase.toNat ≤ a ∧
      a < c.srcBase.toNat + c.srcN.toNat
    let inOut := fun c : Snapshot => c.opv ∈ [2#4, 3#4, 4#4] ∧ c.dstBase.toNat ≤ a ∧
      a < c.dstBase.toNat + c.dstN.toNat
    let hazardous := fun c : Snapshot => s.regs.busy = true ∧ c = s.snap ∨ c ∈ s.view.unseen
    (2 ^ s.platform.xlen ≤ a → (s.inbox = .memWrite a v :: rest ∨ s.inbox = .memRead a :: rest) →
      step s = .fault .noSuchAddress) ∧
    (a < 2 ^ s.platform.xlen → s.inbox = .memWrite a v :: rest →
      ((∃ c, hazardous c ∧ (inIn c ∨ inOut c)) → step s = .next { s with inbox := rest, hostRace := true }) ∧
      (¬(∃ c, hazardous c ∧ (inIn c ∨ inOut c)) → ∃ t, step s = .next t ∧
        t = { s with inbox := rest, mem := t.mem } ∧ t.mem.read a = v ∧ sameOutside s t a 1)) ∧
    (a < 2 ^ s.platform.xlen → s.inbox = .memRead a :: rest →
      ((∃ c, hazardous c ∧ inOut c) → step s = .next { s with
        inbox := rest, draws := s.draws + 1, hostRead := (Config.freeByte s.draws).setWidth 64 }) ∧
      (¬(∃ c, hazardous c ∧ inOut c) →
        step s = .next { s with inbox := rest, hostRead := (s.mem.read a).setWidth 64 }))

/-- 20_memory.md R96 (log 20): the accesses of block `k`'s pending command. In a buffer of a command pending in
this block or a third one a write is a race, and so is a read in an output buffer; any other write stores its
byte, any other read changes nothing. An access outside the command's own buffers, or with none pending, is no
access of any command (R82) and stops the machine. The model's choices are that a race leaves all but the mark as it
was (log 9), that dma_ok does not bind these accesses (log 27), and that each is tested against the commands pending
at its own moment (log 28). -/
def Obligations.PeerRace : Prop :=
  ∀ (s : State) (k a : Nat) (v : Byte) (rest : List HostEvent), s.quiet → s.mem.wf = true →
    let beside := fun d : Snapshot => s.regs.busy = true ∧ d = s.snap ∨ ∃ p ∈ s.peers, p.1 ≠ k ∧ p.2 = d
    (s.inbox = .peerWrite k a v :: rest →
      ((∀ c, s.peers.lookup k = some c → c.inOutput a = false) → step s = .fault .strayPeerAccess) ∧
      (∀ c, s.peers.lookup k = some c → c.inOutput a = true →
        (2 ^ s.platform.xlen ≤ a → step s = .fault .noSuchAddress) ∧
        (a < 2 ^ s.platform.xlen →
          ((∃ d, beside d ∧ d.inBuffers a = true) → step s = .next { s with inbox := rest, hostRace := true }) ∧
          (¬(∃ d, beside d ∧ d.inBuffers a = true) → ∃ t, step s = .next t ∧
            t = { s with inbox := rest, mem := t.mem } ∧ t.mem.read a = v ∧ sameOutside s t a 1)))) ∧
    (s.inbox = .peerRead k a :: rest →
      ((∀ c, s.peers.lookup k = some c → c.inBuffers a = false) → step s = .fault .strayPeerAccess) ∧
      (∀ c, s.peers.lookup k = some c → c.inBuffers a = true →
        (2 ^ s.platform.xlen ≤ a → step s = .fault .noSuchAddress) ∧
        (a < 2 ^ s.platform.xlen →
          ((∃ d, beside d ∧ d.inOutput a = true) → step s = .next { s with inbox := rest, hostRace := true }) ∧
          (¬(∃ d, beside d ∧ d.inOutput a = true) → step s = .next { s with inbox := rest })))) ∧
    (∀ c : Snapshot, s.inbox = .peerIssue k c :: rest → ∃ t, step s = .next t ∧
      t = { s with inbox := rest, peers := t.peers } ∧
      t.peers.lookup k = (if s.peers.lookup k = none ∧ c.opv ≠ 0 then some c else s.peers.lookup k) ∧
      ∀ j, j ≠ k → t.peers.lookup j = s.peers.lookup j) ∧
    (s.inbox = .peerDone k :: rest → ∃ t, step s = .next t ∧ t = { s with inbox := rest, peers := t.peers } ∧
      t.peers.lookup k = none ∧ ∀ j, j ≠ k → t.peers.lookup j = s.peers.lookup j)

/-! ### Reset and the invariant -/

/-- 70_reset_and_hazards.md R450: the values reset gives, right after power-on and when the platform resets the
block, idle, busy or in a marked state; the reset of an unmarked idle block leaves host memory as it was. That the
registers then read as their reset values and that the buffers the host has not seen free stay hazardous is the
model's reading (logs 10, 25), and so is the reset of a marked state (log 26). A decode in progress is inside one
step of the block (log 1). -/
def Obligations.ResetValues : Prop :=
  let r : Regs := {
    cmdOp := 0, cmdStrict := true, code := 0, busy := false, initDone := false, srcAddr := 0
    srcLen := 0, dstAddr := 0, dstLen := 0, seed := 1, outLen := 0, cksum := 0 }
  (State.reset.regs = r ∧ State.reset.pending = false ∧ State.reset.hostRace = false ∧
      State.reset.undefinedMark = false ∧
      State.reset.view.resultsSeen = true ∧ State.reset.view.cksumSeen = true) ∧
    (∀ (s : State) (rest : List HostEvent), s.inbox = .reset :: rest →
      (s.decoding = false ∨ s.hostRace = true ∨ s.undefinedMark = true) →
      ∃ u, step s = .next u ∧ u.regs = r ∧ u.pending = false ∧ u.hostRace = false ∧
        u.undefinedMark = false ∧ u.decoding = false ∧ u.view.resultsSeen = true ∧
        u.view.cksumSeen = true ∧ u.peers = s.peers ∧ u.inbox = rest ∧ u.platform = s.platform ∧
        (s.quiet → s.regs.busy = false →
          u.mem = s.mem ∧ u.view = { s.view with resultsSeen := true, cksumSeen := true }))

/-- 70_reset_and_hazards.md R451: a reset while BUSY. Each byte of the pending command's output buffer is a
draw (log 8, log 10); no other byte changes, and the registers take the values of R450. The buffers of the
abandoned command stay hazardous until the host reads BUSY = 0 (log 10). -/
def Obligations.ResetWhileBusy : Prop :=
  ∀ (s : State) (rest : List HostEvent), s.quiet → s.mem.wf = true → s.inbox = .reset :: rest →
    s.regs.busy = true →
    ∃ u, step s = .next u ∧ u.regs = State.reset.regs ∧ u.quiet ∧
      u.view = { s.view.after s.snap with resultsSeen := true, cksumSeen := true } ∧ u.peers = s.peers ∧
      (s.snap.opv ∉ [2#4, 3#4, 4#4] → u.mem = s.mem) ∧
      sameOutside s u s.snap.dstBase.toNat s.snap.dstN.toNat ∧
      (s.snap.opv ∈ [2#4, 3#4, 4#4] → ∀ j < s.snap.dstN.toNat, s.snap.dstBase.toNat + j < 2 ^ s.platform.xlen →
        u.mem.read (s.snap.dstBase.toNat + j) = Config.freeByte (s.draws + j))

/-- The invariant `Inv` holds after reset. -/
def Obligations.ResetMeetsInv : Prop := Inv State.reset

/-- Every step keeps `Inv` (20_memory.md R80, 10_state.md R31, R40, R43, 60_exceptions.md R400, 40_commands.md R161). -/
def Obligations.StepKeepsInv : Prop :=
  ∀ s u : State, Inv s → step s = .next u → Inv u

/-- 70_reset_and_hazards.md R454, 10_state.md R51: what T and the working registers of the units hold before
a command has no influence on the registers and the memory it leaves. -/
def Obligations.NoStateBetweenCommands : Prop :=
  ∀ (i : Instr) (s s' u u' : State), i.isCommand = true →
    s' = { s with table := s'.table, enc := s'.enc, mf := s'.mf, cks := s'.cks, dec := s'.dec } →
    exec i s = .next u → exec i s' = .next u' → u'.regs = u.regs ∧ u'.mem = u.mem ∧
      u'.undefinedMark = u.undefinedMark ∧ u'.draws = u.draws ∧ u'.view = u.view
end

