-- ==== Sys2Proof/Laws/State.lean ====
section
/-! SUPPORT. For each named update of the state, each field after it; every lemma is true by rfl, so that no
later proof unfolds a record update. -/

namespace Sys2Proof.Machine

variable (s : State)

@[simp] theorem latch_regs (op : BitVec 4) (strict : Bool) : (State.latch op strict s).regs = s.regs := rfl
@[simp] theorem latch_snap (op : BitVec 4) (strict : Bool) :
    (State.latch op strict s).snap = { s.snap with opv := op, strictV := strict } := rfl
@[simp] theorem latch_enc (op : BitVec 4) (strict : Bool) : (State.latch op strict s).enc = s.enc := rfl
@[simp] theorem latch_mf (op : BitVec 4) (strict : Bool) : (State.latch op strict s).mf = s.mf := rfl
@[simp] theorem latch_dec (op : BitVec 4) (strict : Bool) : (State.latch op strict s).dec = s.dec := rfl
@[simp] theorem latch_cks (op : BitVec 4) (strict : Bool) : (State.latch op strict s).cks = s.cks := rfl
@[simp] theorem latch_table (op : BitVec 4) (strict : Bool) : (State.latch op strict s).table = s.table := rfl
@[simp] theorem latch_mem (op : BitVec 4) (strict : Bool) : (State.latch op strict s).mem = s.mem := rfl
@[simp] theorem latch_decoding (op : BitVec 4) (strict : Bool) : (State.latch op strict s).decoding = s.decoding := rfl
@[simp] theorem latch_hostRace (op : BitVec 4) (strict : Bool) : (State.latch op strict s).hostRace = s.hostRace := rfl
@[simp] theorem latch_undefinedMark (op : BitVec 4) (strict : Bool) : (State.latch op strict s).undefinedMark = s.undefinedMark := rfl
@[simp] theorem latch_view (op : BitVec 4) (strict : Bool) : (State.latch op strict s).view = s.view := rfl
@[simp] theorem latch_peers (op : BitVec 4) (strict : Bool) : (State.latch op strict s).peers = s.peers := rfl
@[simp] theorem latch_draws (op : BitVec 4) (strict : Bool) : (State.latch op strict s).draws = s.draws := rfl
@[simp] theorem latch_inbox (op : BitVec 4) (strict : Bool) : (State.latch op strict s).inbox = s.inbox := rfl
@[simp] theorem latch_hostRead (op : BitVec 4) (strict : Bool) : (State.latch op strict s).hostRead = s.hostRead := rfl
@[simp] theorem latch_platform (op : BitVec 4) (strict : Bool) : (State.latch op strict s).platform = s.platform := rfl

@[simp] theorem setSt_regs (st : DecState) : (State.setSt st s).regs = s.regs := rfl
@[simp] theorem setSt_snap (st : DecState) : (State.setSt st s).snap = s.snap := rfl
@[simp] theorem setSt_enc (st : DecState) : (State.setSt st s).enc = s.enc := rfl
@[simp] theorem setSt_mf (st : DecState) : (State.setSt st s).mf = s.mf := rfl
@[simp] theorem setSt_dec (st : DecState) :
    (State.setSt st s).dec = { s.dec with st := st } := rfl
@[simp] theorem setSt_cks (st : DecState) : (State.setSt st s).cks = s.cks := rfl
@[simp] theorem setSt_table (st : DecState) : (State.setSt st s).table = s.table := rfl
@[simp] theorem setSt_mem (st : DecState) : (State.setSt st s).mem = s.mem := rfl
@[simp] theorem setSt_decoding (st : DecState) : (State.setSt st s).decoding = s.decoding := rfl
@[simp] theorem setSt_hostRace (st : DecState) : (State.setSt st s).hostRace = s.hostRace := rfl
@[simp] theorem setSt_undefinedMark (st : DecState) : (State.setSt st s).undefinedMark = s.undefinedMark := rfl
@[simp] theorem setSt_view (st : DecState) : (State.setSt st s).view = s.view := rfl
@[simp] theorem setSt_peers (st : DecState) : (State.setSt st s).peers = s.peers := rfl
@[simp] theorem setSt_draws (st : DecState) : (State.setSt st s).draws = s.draws := rfl
@[simp] theorem setSt_inbox (st : DecState) : (State.setSt st s).inbox = s.inbox := rfl
@[simp] theorem setSt_hostRead (st : DecState) : (State.setSt st s).hostRead = s.hostRead := rfl
@[simp] theorem setSt_platform (st : DecState) : (State.setSt st s).platform = s.platform := rfl

@[simp] theorem advanceIp_regs (n : Nat) : (State.advanceIp n s).regs = s.regs := rfl
@[simp] theorem advanceIp_snap (n : Nat) : (State.advanceIp n s).snap = s.snap := rfl
@[simp] theorem advanceIp_enc (n : Nat) : (State.advanceIp n s).enc = s.enc := rfl
@[simp] theorem advanceIp_mf (n : Nat) : (State.advanceIp n s).mf = s.mf := rfl
@[simp] theorem advanceIp_dec (n : Nat) :
    (State.advanceIp n s).dec = { s.dec with ip := s.dec.ip + n } := rfl
@[simp] theorem advanceIp_cks (n : Nat) : (State.advanceIp n s).cks = s.cks := rfl
@[simp] theorem advanceIp_table (n : Nat) : (State.advanceIp n s).table = s.table := rfl
@[simp] theorem advanceIp_mem (n : Nat) : (State.advanceIp n s).mem = s.mem := rfl
@[simp] theorem advanceIp_decoding (n : Nat) : (State.advanceIp n s).decoding = s.decoding := rfl
@[simp] theorem advanceIp_hostRace (n : Nat) : (State.advanceIp n s).hostRace = s.hostRace := rfl
@[simp] theorem advanceIp_undefinedMark (n : Nat) : (State.advanceIp n s).undefinedMark = s.undefinedMark := rfl
@[simp] theorem advanceIp_view (n : Nat) : (State.advanceIp n s).view = s.view := rfl
@[simp] theorem advanceIp_peers (n : Nat) : (State.advanceIp n s).peers = s.peers := rfl
@[simp] theorem advanceIp_draws (n : Nat) : (State.advanceIp n s).draws = s.draws := rfl
@[simp] theorem advanceIp_inbox (n : Nat) : (State.advanceIp n s).inbox = s.inbox := rfl
@[simp] theorem advanceIp_hostRead (n : Nat) : (State.advanceIp n s).hostRead = s.hostRead := rfl
@[simp] theorem advanceIp_platform (n : Nat) : (State.advanceIp n s).platform = s.platform := rfl

@[simp] theorem markUndefined_regs : (State.markUndefined s).regs = s.regs := rfl
@[simp] theorem markUndefined_snap : (State.markUndefined s).snap = s.snap := rfl
@[simp] theorem markUndefined_enc : (State.markUndefined s).enc = s.enc := rfl
@[simp] theorem markUndefined_mf : (State.markUndefined s).mf = s.mf := rfl
@[simp] theorem markUndefined_dec : (State.markUndefined s).dec = s.dec := rfl
@[simp] theorem markUndefined_cks : (State.markUndefined s).cks = s.cks := rfl
@[simp] theorem markUndefined_table : (State.markUndefined s).table = s.table := rfl
@[simp] theorem markUndefined_mem : (State.markUndefined s).mem = s.mem := rfl
@[simp] theorem markUndefined_decoding :
    (State.markUndefined s).decoding = false := rfl
@[simp] theorem markUndefined_hostRace : (State.markUndefined s).hostRace = s.hostRace := rfl
@[simp] theorem markUndefined_undefinedMark :
    (State.markUndefined s).undefinedMark = true := rfl
@[simp] theorem markUndefined_view : (State.markUndefined s).view = s.view := rfl
@[simp] theorem markUndefined_peers : (State.markUndefined s).peers = s.peers := rfl
@[simp] theorem markUndefined_draws : (State.markUndefined s).draws = s.draws := rfl
@[simp] theorem markUndefined_inbox : (State.markUndefined s).inbox = s.inbox := rfl
@[simp] theorem markUndefined_hostRead : (State.markUndefined s).hostRead = s.hostRead := rfl
@[simp] theorem markUndefined_platform : (State.markUndefined s).platform = s.platform := rfl

@[simp] theorem startDecode_regs : (startDecode s).regs = s.regs := rfl
@[simp] theorem startDecode_snap : (startDecode s).snap = s.snap := rfl
@[simp] theorem startDecode_enc : (startDecode s).enc = s.enc := rfl
@[simp] theorem startDecode_mf : (startDecode s).mf = s.mf := rfl
@[simp] theorem startDecode_dec :
    (startDecode s).dec = { ip := 0, op := 0, st := .start } := rfl
@[simp] theorem startDecode_cks : (startDecode s).cks = s.cks := rfl
@[simp] theorem startDecode_table : (startDecode s).table = s.table := rfl
@[simp] theorem startDecode_mem : (startDecode s).mem = s.mem := rfl
@[simp] theorem startDecode_decoding :
    (startDecode s).decoding = true := rfl
@[simp] theorem startDecode_hostRace : (startDecode s).hostRace = s.hostRace := rfl
@[simp] theorem startDecode_undefinedMark : (startDecode s).undefinedMark = s.undefinedMark := rfl
@[simp] theorem startDecode_view : (startDecode s).view = s.view := rfl
@[simp] theorem startDecode_peers : (startDecode s).peers = s.peers := rfl
@[simp] theorem startDecode_draws : (startDecode s).draws = s.draws := rfl
@[simp] theorem startDecode_inbox : (startDecode s).inbox = s.inbox := rfl
@[simp] theorem startDecode_hostRead : (startDecode s).hostRead = s.hostRead := rfl
@[simp] theorem startDecode_platform : (startDecode s).platform = s.platform := rfl

@[simp] theorem startCompress_regs : (startCompress s).regs = s.regs := rfl
@[simp] theorem startCompress_snap : (startCompress s).snap = s.snap := rfl
@[simp] theorem startCompress_enc :
    (startCompress s).enc = { s.enc with opos := 0, base := 0, l := s.snap.srcN.toNat, ti := 0 } := rfl
@[simp] theorem startCompress_mf : (startCompress s).mf = s.mf := rfl
@[simp] theorem startCompress_dec : (startCompress s).dec = s.dec := rfl
@[simp] theorem startCompress_cks : (startCompress s).cks = s.cks := rfl
@[simp] theorem startCompress_table : (startCompress s).table = s.table := rfl
@[simp] theorem startCompress_mem : (startCompress s).mem = s.mem := rfl
@[simp] theorem startCompress_decoding : (startCompress s).decoding = s.decoding := rfl
@[simp] theorem startCompress_hostRace : (startCompress s).hostRace = s.hostRace := rfl
@[simp] theorem startCompress_undefinedMark : (startCompress s).undefinedMark = s.undefinedMark := rfl
@[simp] theorem startCompress_view : (startCompress s).view = s.view := rfl
@[simp] theorem startCompress_peers : (startCompress s).peers = s.peers := rfl
@[simp] theorem startCompress_draws : (startCompress s).draws = s.draws := rfl
@[simp] theorem startCompress_inbox : (startCompress s).inbox = s.inbox := rfl
@[simp] theorem startCompress_hostRead : (startCompress s).hostRead = s.hostRead := rfl
@[simp] theorem startCompress_platform : (startCompress s).platform = s.platform := rfl

@[simp] theorem mfClear_regs : (mfClear s).regs = s.regs := rfl
@[simp] theorem mfClear_snap : (mfClear s).snap = s.snap := rfl
@[simp] theorem mfClear_enc : (mfClear s).enc = s.enc := rfl
@[simp] theorem mfClear_mf : (mfClear s).mf = s.mf := rfl
@[simp] theorem mfClear_dec : (mfClear s).dec = s.dec := rfl
@[simp] theorem mfClear_cks : (mfClear s).cks = s.cks := rfl
@[simp] theorem mfClear_table :
    (mfClear s).table = [] := rfl
@[simp] theorem mfClear_mem : (mfClear s).mem = s.mem := rfl
@[simp] theorem mfClear_decoding : (mfClear s).decoding = s.decoding := rfl
@[simp] theorem mfClear_hostRace : (mfClear s).hostRace = s.hostRace := rfl
@[simp] theorem mfClear_undefinedMark : (mfClear s).undefinedMark = s.undefinedMark := rfl
@[simp] theorem mfClear_view : (mfClear s).view = s.view := rfl
@[simp] theorem mfClear_peers : (mfClear s).peers = s.peers := rfl
@[simp] theorem mfClear_draws : (mfClear s).draws = s.draws := rfl
@[simp] theorem mfClear_inbox : (mfClear s).inbox = s.inbox := rfl
@[simp] theorem mfClear_hostRead : (mfClear s).hostRead = s.hostRead := rfl
@[simp] theorem mfClear_platform : (mfClear s).platform = s.platform := rfl

@[simp] theorem mfProbe_regs (h : Nat) : (mfProbe h s).regs = s.regs := rfl
@[simp] theorem mfProbe_snap (h : Nat) : (mfProbe h s).snap = s.snap := rfl
@[simp] theorem mfProbe_enc (h : Nat) : (mfProbe h s).enc = s.enc := rfl
@[simp] theorem mfProbe_mf (h : Nat) :
    (mfProbe h s).mf = { s.mf with cand := (s.table.read h).toNat } := rfl
@[simp] theorem mfProbe_dec (h : Nat) : (mfProbe h s).dec = s.dec := rfl
@[simp] theorem mfProbe_cks (h : Nat) : (mfProbe h s).cks = s.cks := rfl
@[simp] theorem mfProbe_table (h : Nat) :
    (mfProbe h s).table = s.table.write h (BitVec.ofNat 16 s.enc.p) := rfl
@[simp] theorem mfProbe_mem (h : Nat) : (mfProbe h s).mem = s.mem := rfl
@[simp] theorem mfProbe_decoding (h : Nat) : (mfProbe h s).decoding = s.decoding := rfl
@[simp] theorem mfProbe_hostRace (h : Nat) : (mfProbe h s).hostRace = s.hostRace := rfl
@[simp] theorem mfProbe_undefinedMark (h : Nat) : (mfProbe h s).undefinedMark = s.undefinedMark := rfl
@[simp] theorem mfProbe_view (h : Nat) : (mfProbe h s).view = s.view := rfl
@[simp] theorem mfProbe_peers (h : Nat) : (mfProbe h s).peers = s.peers := rfl
@[simp] theorem mfProbe_draws (h : Nat) : (mfProbe h s).draws = s.draws := rfl
@[simp] theorem mfProbe_inbox (h : Nat) : (mfProbe h s).inbox = s.inbox := rfl
@[simp] theorem mfProbe_hostRead (h : Nat) : (mfProbe h s).hostRead = s.hostRead := rfl
@[simp] theorem mfProbe_platform (h : Nat) : (mfProbe h s).platform = s.platform := rfl

@[simp] theorem skipStep_regs : (skipStep s).regs = s.regs := rfl
@[simp] theorem skipStep_snap : (skipStep s).snap = s.snap := rfl
@[simp] theorem skipStep_enc :
    (skipStep s).enc = { s.enc with p := s.enc.p + 1 + ((s.enc.p : Int) - s.enc.ii).toNat / 32 } := rfl
@[simp] theorem skipStep_mf : (skipStep s).mf = s.mf := rfl
@[simp] theorem skipStep_dec : (skipStep s).dec = s.dec := rfl
@[simp] theorem skipStep_cks : (skipStep s).cks = s.cks := rfl
@[simp] theorem skipStep_table : (skipStep s).table = s.table := rfl
@[simp] theorem skipStep_mem : (skipStep s).mem = s.mem := rfl
@[simp] theorem skipStep_decoding : (skipStep s).decoding = s.decoding := rfl
@[simp] theorem skipStep_hostRace : (skipStep s).hostRace = s.hostRace := rfl
@[simp] theorem skipStep_undefinedMark : (skipStep s).undefinedMark = s.undefinedMark := rfl
@[simp] theorem skipStep_view : (skipStep s).view = s.view := rfl
@[simp] theorem skipStep_peers : (skipStep s).peers = s.peers := rfl
@[simp] theorem skipStep_draws : (skipStep s).draws = s.draws := rfl
@[simp] theorem skipStep_inbox : (skipStep s).inbox = s.inbox := rfl
@[simp] theorem skipStep_hostRead : (skipStep s).hostRead = s.hostRead := rfl
@[simp] theorem skipStep_platform : (skipStep s).platform = s.platform := rfl

@[simp] theorem startBlock_regs : (startBlock s).regs = s.regs := rfl
@[simp] theorem startBlock_snap : (startBlock s).snap = s.snap := rfl
@[simp] theorem startBlock_enc :
    (startBlock s).enc = { s.enc with
      e := s.enc.bl - Config.tailReserve, ii := 0, p := if s.enc.ti < 4 then 4 - s.enc.ti else 0 } := rfl
@[simp] theorem startBlock_mf : (startBlock s).mf = s.mf := rfl
@[simp] theorem startBlock_dec : (startBlock s).dec = s.dec := rfl
@[simp] theorem startBlock_cks : (startBlock s).cks = s.cks := rfl
@[simp] theorem startBlock_table :
    (startBlock s).table = [] := rfl
@[simp] theorem startBlock_mem : (startBlock s).mem = s.mem := rfl
@[simp] theorem startBlock_decoding : (startBlock s).decoding = s.decoding := rfl
@[simp] theorem startBlock_hostRace : (startBlock s).hostRace = s.hostRace := rfl
@[simp] theorem startBlock_undefinedMark : (startBlock s).undefinedMark = s.undefinedMark := rfl
@[simp] theorem startBlock_view : (startBlock s).view = s.view := rfl
@[simp] theorem startBlock_peers : (startBlock s).peers = s.peers := rfl
@[simp] theorem startBlock_draws : (startBlock s).draws = s.draws := rfl
@[simp] theorem startBlock_inbox : (startBlock s).inbox = s.inbox := rfl
@[simp] theorem startBlock_hostRead : (startBlock s).hostRead = s.hostRead := rfl
@[simp] theorem startBlock_platform : (startBlock s).platform = s.platform := rfl

@[simp] theorem complete_regs (c : Status) (n : Nat) (k : BitVec 32) :
    (State.complete c n k s).regs = { s.regs with
      code := c.code
      outLen := if c = .ok ∧ hasOutput s.snap.opv then BitVec.ofNat 64 n else 0
      cksum := if c = .ok ∧ s.snap.opv = 5#4 then k else s.regs.cksum
      initDone := if c = .ok ∧ s.snap.opv = 1#4 then true else s.regs.initDone
      busy := false } := rfl
@[simp] theorem complete_snap (c : Status) (n : Nat) (k : BitVec 32) : (State.complete c n k s).snap = s.snap := rfl
@[simp] theorem complete_enc (c : Status) (n : Nat) (k : BitVec 32) : (State.complete c n k s).enc = s.enc := rfl
@[simp] theorem complete_mf (c : Status) (n : Nat) (k : BitVec 32) : (State.complete c n k s).mf = s.mf := rfl
@[simp] theorem complete_dec (c : Status) (n : Nat) (k : BitVec 32) : (State.complete c n k s).dec = s.dec := rfl
@[simp] theorem complete_cks (c : Status) (n : Nat) (k : BitVec 32) : (State.complete c n k s).cks = s.cks := rfl
@[simp] theorem complete_table (c : Status) (n : Nat) (k : BitVec 32) : (State.complete c n k s).table = s.table := rfl
@[simp] theorem complete_mem (c : Status) (n : Nat) (k : BitVec 32) : (State.complete c n k s).mem = s.mem := rfl
@[simp] theorem complete_decoding (c : Status) (n : Nat) (k : BitVec 32) :
    (State.complete c n k s).decoding = false := rfl
@[simp] theorem complete_hostRace (c : Status) (n : Nat) (k : BitVec 32) : (State.complete c n k s).hostRace = s.hostRace := rfl
@[simp] theorem complete_undefinedMark (c : Status) (n : Nat) (k : BitVec 32) : (State.complete c n k s).undefinedMark = s.undefinedMark := rfl
@[simp] theorem complete_view (c : Status) (n : Nat) (k : BitVec 32) :
    (State.complete c n k s).view = s.view.complete s.snap := rfl
@[simp] theorem complete_peers (c : Status) (n : Nat) (k : BitVec 32) : (State.complete c n k s).peers = s.peers := rfl
@[simp] theorem complete_draws (c : Status) (n : Nat) (k : BitVec 32) : (State.complete c n k s).draws = s.draws := rfl
@[simp] theorem complete_inbox (c : Status) (n : Nat) (k : BitVec 32) : (State.complete c n k s).inbox = s.inbox := rfl
@[simp] theorem complete_hostRead (c : Status) (n : Nat) (k : BitVec 32) : (State.complete c n k s).hostRead = s.hostRead := rfl
@[simp] theorem complete_platform (c : Status) (n : Nat) (k : BitVec 32) : (State.complete c n k s).platform = s.platform := rfl

@[simp] theorem issue_regs (w : Word) :
    (State.issue w s).regs = { s.regs with cmdOp := cmdOpOf w, cmdStrict := cmdStrictOf w, busy := true } := rfl
@[simp] theorem issue_snap (w : Word) :
    (State.issue w s).snap = ({ s.regs with cmdOp := cmdOpOf w, cmdStrict := cmdStrictOf w } : Regs).snapshot := rfl
@[simp] theorem issue_enc (w : Word) : (State.issue w s).enc = s.enc := rfl
@[simp] theorem issue_mf (w : Word) : (State.issue w s).mf = s.mf := rfl
@[simp] theorem issue_dec (w : Word) : (State.issue w s).dec = s.dec := rfl
@[simp] theorem issue_cks (w : Word) : (State.issue w s).cks = s.cks := rfl
@[simp] theorem issue_table (w : Word) : (State.issue w s).table = s.table := rfl
@[simp] theorem issue_mem (w : Word) : (State.issue w s).mem = s.mem := rfl
@[simp] theorem issue_decoding (w : Word) : (State.issue w s).decoding = s.decoding := rfl
@[simp] theorem issue_hostRace (w : Word) : (State.issue w s).hostRace = s.hostRace := rfl
@[simp] theorem issue_undefinedMark (w : Word) : (State.issue w s).undefinedMark = s.undefinedMark := rfl
@[simp] theorem issue_view (w : Word) : (State.issue w s).view = s.view := rfl
@[simp] theorem issue_peers (w : Word) : (State.issue w s).peers = s.peers := rfl
@[simp] theorem issue_draws (w : Word) : (State.issue w s).draws = s.draws := rfl
@[simp] theorem issue_inbox (w : Word) : (State.issue w s).inbox = s.inbox := rfl
@[simp] theorem issue_hostRead (w : Word) : (State.issue w s).hostRead = s.hostRead := rfl
@[simp] theorem issue_platform (w : Word) : (State.issue w s).platform = s.platform := rfl

@[simp] theorem hostRegRead_regs (offset : Nat) : (State.hostRegRead offset s).regs = s.regs := rfl
@[simp] theorem hostRegRead_snap (offset : Nat) : (State.hostRegRead offset s).snap = s.snap := rfl
@[simp] theorem hostRegRead_enc (offset : Nat) : (State.hostRegRead offset s).enc = s.enc := rfl
@[simp] theorem hostRegRead_mf (offset : Nat) : (State.hostRegRead offset s).mf = s.mf := rfl
@[simp] theorem hostRegRead_dec (offset : Nat) : (State.hostRegRead offset s).dec = s.dec := rfl
@[simp] theorem hostRegRead_cks (offset : Nat) : (State.hostRegRead offset s).cks = s.cks := rfl
@[simp] theorem hostRegRead_table (offset : Nat) : (State.hostRegRead offset s).table = s.table := rfl
@[simp] theorem hostRegRead_mem (offset : Nat) : (State.hostRegRead offset s).mem = s.mem := rfl
@[simp] theorem hostRegRead_decoding (offset : Nat) : (State.hostRegRead offset s).decoding = s.decoding := rfl
@[simp] theorem hostRegRead_hostRace (offset : Nat) : (State.hostRegRead offset s).hostRace = s.hostRace := rfl
@[simp] theorem hostRegRead_undefinedMark (offset : Nat) : (State.hostRegRead offset s).undefinedMark = s.undefinedMark := rfl
@[simp] theorem hostRegRead_view (offset : Nat) :
    (State.hostRegRead offset s).view = s.viewAfterRead offset := rfl
@[simp] theorem hostRegRead_peers (offset : Nat) : (State.hostRegRead offset s).peers = s.peers := rfl
@[simp] theorem hostRegRead_draws (offset : Nat) :
    (State.hostRegRead offset s).draws = if s.resultsHidden then s.draws + 8 else s.draws := rfl
@[simp] theorem hostRegRead_inbox (offset : Nat) : (State.hostRegRead offset s).inbox = s.inbox := rfl
@[simp] theorem hostRegRead_hostRead (offset : Nat) :
    (State.hostRegRead offset s).hostRead = s.shownRegs.read offset := rfl
@[simp] theorem hostRegRead_platform (offset : Nat) : (State.hostRegRead offset s).platform = s.platform := rfl

@[simp] theorem peerDone_regs (k : Nat) : (State.peerDone k s).regs = s.regs := rfl
@[simp] theorem peerDone_snap (k : Nat) : (State.peerDone k s).snap = s.snap := rfl
@[simp] theorem peerDone_enc (k : Nat) : (State.peerDone k s).enc = s.enc := rfl
@[simp] theorem peerDone_mf (k : Nat) : (State.peerDone k s).mf = s.mf := rfl
@[simp] theorem peerDone_dec (k : Nat) : (State.peerDone k s).dec = s.dec := rfl
@[simp] theorem peerDone_cks (k : Nat) : (State.peerDone k s).cks = s.cks := rfl
@[simp] theorem peerDone_table (k : Nat) : (State.peerDone k s).table = s.table := rfl
@[simp] theorem peerDone_mem (k : Nat) : (State.peerDone k s).mem = s.mem := rfl
@[simp] theorem peerDone_decoding (k : Nat) : (State.peerDone k s).decoding = s.decoding := rfl
@[simp] theorem peerDone_hostRace (k : Nat) : (State.peerDone k s).hostRace = s.hostRace := rfl
@[simp] theorem peerDone_undefinedMark (k : Nat) : (State.peerDone k s).undefinedMark = s.undefinedMark := rfl
@[simp] theorem peerDone_view (k : Nat) : (State.peerDone k s).view = s.view := rfl
@[simp] theorem peerDone_peers (k : Nat) :
    (State.peerDone k s).peers = s.peers.filter fun p => p.1 != k := rfl
@[simp] theorem peerDone_draws (k : Nat) : (State.peerDone k s).draws = s.draws := rfl
@[simp] theorem peerDone_inbox (k : Nat) : (State.peerDone k s).inbox = s.inbox := rfl
@[simp] theorem peerDone_hostRead (k : Nat) : (State.peerDone k s).hostRead = s.hostRead := rfl
@[simp] theorem peerDone_platform (k : Nat) : (State.peerDone k s).platform = s.platform := rfl

@[simp] theorem keepOpen_resultsSeen (c : Snapshot) (v : HostView) :
    (v.keepOpen c).resultsSeen = v.resultsSeen := by unfold HostView.keepOpen; split <;> rfl

@[simp] theorem keepOpen_cksumSeen (c : Snapshot) (v : HostView) :
    (v.keepOpen c).cksumSeen = v.cksumSeen := by unfold HostView.keepOpen; split <;> rfl

@[simp] theorem keepOpen_unseen (c : Snapshot) (v : HostView) :
    (v.keepOpen c).unseen = if hasInput c.opv then c :: v.unseen else v.unseen := by
  unfold HostView.keepOpen; split <;> rfl

@[simp] theorem viewComplete_resultsSeen (c : Snapshot) (v : HostView) :
    (v.complete c).resultsSeen = false := rfl

@[simp] theorem viewComplete_cksumSeen (c : Snapshot) (v : HostView) :
    (v.complete c).cksumSeen = (v.cksumSeen && c.opv != 5#4) := rfl

@[simp] theorem viewComplete_unseen (c : Snapshot) (v : HostView) :
    (v.complete c).unseen = if hasInput c.opv then c :: v.unseen else v.unseen := keepOpen_unseen c v

@[simp] theorem finishOk_eq (n : Nat) : s.finishOk n = s.complete .ok n s.regs.cksum := rfl

@[simp] theorem raiseEarly_eq (c : Status) : s.raiseEarly c = s.complete c 0 s.regs.cksum := rfl

end Sys2Proof.Machine
end

