-- ==== Sys2Proof/Laws/Memory.lean ====
section
/-! SUPPORT. The laws of sparse storage (host memory and the scratch table): read after write, every other
key, the canonical form, equality from reads, and the free values of a havoc. -/

namespace Sys2Proof.Machine

variable {w : Nat}

@[simp] theorem sparseRead_nil (a : Nat) : sparseRead ([] : List (Nat × BitVec w)) a = unlisted w := rfl

theorem sparseRead_cons (k : Nat) (v : BitVec w) (m : List (Nat × BitVec w)) (a : Nat) :
    sparseRead ((k, v) :: m) a = if a = k then v else sparseRead m a := rfl

/-- A key below every listed key reads as unlisted. -/
theorem sparseRead_of_lt (m : List (Nat × BitVec w)) (a : Nat) (h : ∀ c ∈ m, a < c.1) :
    sparseRead m a = unlisted w := by
  induction m with
  | nil => rfl
  | cons c m ih =>
    have hc : a < c.1 := h c (by simp)
    rw [sparseRead_cons, if_neg (by omega), ih fun d hd => h d (by simp [hd])]

theorem sparseRead_sparseCons_other (m : List (Nat × BitVec w)) (a b : Nat) (v : BitVec w) (h : b ≠ a) :
    sparseRead (sparseCons a v m) b = sparseRead m b := by
  unfold sparseCons; split
  · rfl
  · rw [sparseRead_cons, if_neg h]

/-- A write leaves every other key alone. -/
theorem sparseRead_write_other (m : List (Nat × BitVec w)) (a b : Nat) (v : BitVec w) (h : b ≠ a) :
    sparseRead (sparseWrite m a v) b = sparseRead m b := by
  induction m with
  | nil => exact sparseRead_sparseCons_other [] a b v h
  | cons c m ih =>
    simp only [sparseWrite]
    split
    · exact sparseRead_sparseCons_other _ a b v h
    · split
      · next hk => rw [sparseRead_sparseCons_other _ a b v h, sparseRead_cons, if_neg (by omega)]
      · rw [sparseRead_cons, sparseRead_cons, ih]

theorem sparseWf_cons (k : Nat) (v : BitVec w) (m : List (Nat × BitVec w)) :
    sparseWf ((k, v) :: m) = true ↔ v ≠ unlisted w ∧ (∀ c ∈ m, k < c.1) ∧ sparseWf m = true := by
  simp [sparseWf, and_assoc]

theorem sparseRead_sparseCons_same (m : List (Nat × BitVec w)) (a : Nat) (v : BitVec w)
    (h : ∀ c ∈ m, a < c.1) : sparseRead (sparseCons a v m) a = v := by
  unfold sparseCons; split
  · next hv => rw [sparseRead_of_lt m a h, hv]
  · rw [sparseRead_cons, if_pos rfl]

/-- A read after a write to the same key gives the value written. -/
theorem sparseRead_write_same (m : List (Nat × BitVec w)) (a : Nat) (v : BitVec w)
    (h : sparseWf m = true) : sparseRead (sparseWrite m a v) a = v := by
  induction m with
  | nil => exact sparseRead_sparseCons_same [] a v (by simp)
  | cons c m ih =>
    obtain ⟨-, hk, hm⟩ := (sparseWf_cons c.1 c.2 m).1 h
    simp only [sparseWrite]
    split
    · next ha =>
      refine sparseRead_sparseCons_same _ a v fun d hd => ?_
      rcases List.mem_cons.1 hd with rfl | hd
      · exact ha
      · exact lt_trans ha (hk d hd)
    · split
      · next ha => subst ha; exact sparseRead_sparseCons_same m _ v hk
      · next h1 h2 => rw [sparseRead_cons, if_neg h2, ih hm]

theorem mem_sparseCons {m : List (Nat × BitVec w)} {a : Nat} {v : BitVec w} {c : Nat × BitVec w}
    (h : c ∈ sparseCons a v m) : c = (a, v) ∨ c ∈ m := by
  unfold sparseCons at h; split at h
  · exact .inr h
  · simpa using h

theorem mem_sparseWrite {m : List (Nat × BitVec w)} {a : Nat} {v : BitVec w} {c : Nat × BitVec w}
    (h : c ∈ sparseWrite m a v) : c = (a, v) ∨ c ∈ m := by
  induction m with
  | nil => exact mem_sparseCons h
  | cons d m ih =>
    simp only [sparseWrite] at h
    split at h
    · exact mem_sparseCons h
    · split at h
      · rcases mem_sparseCons h with h | h
        · exact .inl h
        · exact .inr (by simp [h])
      · rcases List.mem_cons.1 h with rfl | h
        · exact .inr (by simp)
        · rcases ih h with h | h
          · exact .inl h
          · exact .inr (by simp [h])

theorem sparseWf_sparseCons {m : List (Nat × BitVec w)} {a : Nat} {v : BitVec w}
    (h : ∀ c ∈ m, a < c.1) (hm : sparseWf m = true) : sparseWf (sparseCons a v m) = true := by
  unfold sparseCons; split
  · exact hm
  · next hv => exact (sparseWf_cons a v m).2 ⟨hv, h, hm⟩

/-- A write keeps the canonical form. -/
theorem sparseWf_write {m : List (Nat × BitVec w)} (a : Nat) (v : BitVec w) (h : sparseWf m = true) :
    sparseWf (sparseWrite m a v) = true := by
  induction m with
  | nil => exact sparseWf_sparseCons (by simp) rfl
  | cons c m ih =>
    obtain ⟨hv, hk, hm⟩ := (sparseWf_cons c.1 c.2 m).1 h
    simp only [sparseWrite]
    split
    · next ha =>
      refine sparseWf_sparseCons (fun d hd => ?_) h
      rcases List.mem_cons.1 hd with rfl | hd
      · exact ha
      · exact lt_trans ha (hk d hd)
    · split
      · next ha => subst ha; exact sparseWf_sparseCons hk hm
      · next h1 h2 =>
        refine (sparseWf_cons _ _ _).2 ⟨hv, fun d hd => ?_, ih hm⟩
        rcases mem_sparseWrite hd with rfl | hd
        · exact lt_of_le_of_ne (Nat.le_of_not_lt h1) (Ne.symm h2)
        · exact hk d hd

/-- Two canonical stores that read alike are equal: equal memories are equal data. -/
theorem sparse_ext {m n : List (Nat × BitVec w)} (hm : sparseWf m = true) (hn : sparseWf n = true)
    (h : ∀ a, sparseRead m a = sparseRead n a) : m = n := by
  induction m generalizing n with
  | nil =>
    cases n with
    | nil => rfl
    | cons d n =>
      obtain ⟨hv, -, -⟩ := (sparseWf_cons d.1 d.2 n).1 hn
      have := h d.1
      rw [sparseRead_nil, sparseRead_cons, if_pos rfl] at this
      exact absurd this.symm hv
  | cons c m ih =>
    obtain ⟨hv, hk, hm'⟩ := (sparseWf_cons c.1 c.2 m).1 hm
    cases n with
    | nil =>
      have := h c.1
      rw [sparseRead_nil, sparseRead_cons, if_pos rfl] at this
      exact absurd this hv
    | cons d n =>
      obtain ⟨hv2, hk2, hn'⟩ := (sparseWf_cons d.1 d.2 n).1 hn
      have hkey : c.1 = d.1 := by
        rcases lt_trichotomy c.1 d.1 with hlt | heq | hlt
        · have := h c.1
          rw [sparseRead_cons, if_pos rfl, sparseRead_cons, if_neg (by omega),
            sparseRead_of_lt n _ fun e he => lt_trans hlt (hk2 e he)] at this
          exact absurd this hv
        · exact heq
        · have := h d.1
          rw [sparseRead_cons, if_neg (by omega), sparseRead_cons, if_pos rfl,
            sparseRead_of_lt m _ fun e he => lt_trans hlt (hk e he)] at this
          exact absurd this.symm hv2
      have hval : c.2 = d.2 := by
        have := h c.1
        rw [sparseRead_cons, if_pos rfl, sparseRead_cons, if_pos hkey] at this
        exact this
      have hcd : c = d := Prod.ext hkey hval
      subst hcd
      congr 1
      refine ih hm' hn' fun a => ?_
      by_cases ha : a = c.1
      · subst ha
        rw [sparseRead_of_lt m _ hk, sparseRead_of_lt n _ hk2]
      · have := h a
        rwa [sparseRead_cons, if_neg ha, sparseRead_cons, if_neg ha] at this

/-! ### Host memory -/

theorem Memory.read_write_same {m : Memory} (a : Nat) (v : Byte) (h : m.wf = true) :
    (m.write a v).read a = v := sparseRead_write_same m a v h

theorem Memory.read_write_other (m : Memory) {a b : Nat} (v : Byte) (h : b ≠ a) :
    (m.write a v).read b = m.read b := sparseRead_write_other m a b v h

theorem Memory.wf_write {m : Memory} (a : Nat) (v : Byte) (h : m.wf = true) : (m.write a v).wf = true :=
  sparseWf_write a v h

theorem Memory.mem_write {m : Memory} {a : Nat} {v : Byte} {c : Nat × Byte} (h : c ∈ m.write a v) :
    c = (a, v) ∨ c ∈ m := mem_sparseWrite h

theorem Memory.ext_read {m n : Memory} (hm : m.wf = true) (hn : n.wf = true)
    (h : ∀ a, m.read a = n.read a) : m = n := sparse_ext hm hn h

/-- A havoc keeps the canonical form. -/
theorem Memory.wf_havoc {m : Memory} (n a k : Nat) (h : m.wf = true) : (havoc n a k m).wf = true := by
  induction n generalizing a k m with
  | zero => exact h
  | succ n ih => exact ih _ _ (wf_write _ _ h)

/-- A havoc leaves every byte outside its range alone. -/
theorem Memory.read_havoc_outside (m : Memory) (n a k b : Nat) (h : b < a ∨ a + n ≤ b) :
    (havoc n a k m).read b = m.read b := by
  induction n generalizing a k m with
  | zero => rfl
  | succ n ih =>
    rw [havoc, ih _ _ _ (by omega), read_write_other _ _ (by omega)]

/-- Inside its range a havoc leaves the free value of its draw. -/
theorem Memory.read_havoc_inside {m : Memory} (n a k i : Nat) (hm : m.wf = true) (h : i < n) :
    (havoc n a k m).read (a + i) = Config.freeByte (k + i) := by
  induction n generalizing a k m i with
  | zero => omega
  | succ n ih =>
    rw [havoc]
    cases i with
    | zero => rw [read_havoc_outside _ _ _ _ _ (by omega)]; exact read_write_same _ _ hm
    | succ i =>
      have := ih (a + 1) (k + 1) i (wf_write a (Config.freeByte k) hm) (by omega)
      rwa [show a + 1 + i = a + (i + 1) by omega, show k + 1 + i = k + (i + 1) by omega] at this

/-- The listed addresses after a havoc are the old ones or lie in its range. -/
theorem Memory.mem_havoc {m : Memory} {n a k : Nat} {c : Nat × Byte} (h : c ∈ havoc n a k m) :
    c ∈ m ∨ a ≤ c.1 ∧ c.1 < a + n := by
  induction n generalizing a k m with
  | zero => exact .inl h
  | succ n ih =>
    rcases ih h with h | h
    · rcases mem_write h with rfl | h
      · exact .inr (by simp)
      · exact .inl h
    · exact .inr (by omega)

/-! ### The scratch table -/

theorem Table.read_write_same {t : Table} (h : Nat) (v : BitVec 16) (ht : t.wf = true) :
    (t.write h v).read h = v := by
  simp only [wf, Bool.and_eq_true] at ht
  exact sparseRead_write_same t h v ht.1

theorem Table.read_write_other (t : Table) {h k : Nat} (v : BitVec 16) (hk : k ≠ h) :
    (t.write h v).read k = t.read k := sparseRead_write_other t h k v hk

theorem Table.wf_write {t : Table} {h : Nat} (v : BitVec 16) (hh : h < Config.tEntries)
    (ht : t.wf = true) : (t.write h v).wf = true := by
  simp only [wf, Bool.and_eq_true, List.all_eq_true, decide_eq_true_eq] at ht ⊢
  refine ⟨sparseWf_write h v ht.1, fun c hc => ?_⟩
  rcases mem_sparseWrite hc with rfl | hc
  · exact hh
  · exact ht.2 c hc

/-- MF_CLEAR (41_match_finder.md R200): every bucket reads 0. -/
@[simp] theorem Table.read_nil (h : Nat) : Table.read [] h = 0 := rfl

/-- Memory stays below a bound when a byte below it is written. -/
theorem Memory.write_bound {m : Memory} {a n : Nat} {v : Byte} (ha : a < n) (hm : ∀ c ∈ m, c.1 < n) :
    ∀ c ∈ m.write a v, c.1 < n := fun c hc => by
  rcases mem_sparseWrite hc with rfl | h
  · exact ha
  · exact hm c h

end Sys2Proof.Machine
end

