-- ==== Sys2Proof/Laws/Ops.lean ====
section
/-! SUPPORT. One lemma for each shared operation that says everything it can do when it goes on, and what a
command that stops leaves. Later proofs cite these and do not unfold the operations. -/

namespace Sys2Proof.Machine

/-! ### Sequencing -/

@[simp] theorem andThen_ok {α β : Type} (a : α) (s : State) (f : α → State → Res β) :
    (Res.ok a s).andThen f = f a s := rfl

@[simp] theorem andThen_stop {α β : Type} (e : Stop) (s : State) (f : α → State → Res β) :
    (Res.stop e s).andThen f = .stop e s := rfl

/-- A sequence goes on exactly when both its parts do. -/
theorem andThen_eq_ok {α β : Type} {r : Res α} {f : α → State → Res β} {b : β} {t : State} :
    r.andThen f = .ok b t ↔ ∃ a s, r = .ok a s ∧ f a s = .ok b t := by
  cases r <;> simp [Res.andThen]

/-- A sequence stops when its first part stops, or its first part goes on and the second stops. -/
theorem andThen_eq_stop {α β : Type} {r : Res α} {f : α → State → Res β} {e : Stop} {t : State} :
    r.andThen f = .stop e t ↔ r = .stop e t ∨ ∃ a s, r = .ok a s ∧ f a s = .stop e t := by
  cases r <;> simp [Res.andThen]

@[simp] theorem finish_ok {α : Type} (a : α) (s : State) (f : α → State → State) :
    (Res.ok a s).finish f = f a s := rfl

@[simp] theorem finish_stop {α : Type} (e : Stop) (s : State) (f : α → State → State) :
    (Res.stop e s).finish f = s.endStop e := rfl

@[simp] theorem endStop_status (c : Status) (s : State) : s.endStop (.status c) = s.raiseLate c := rfl

@[simp] theorem endStop_undefined (s : State) : s.endStop .undefined = s.markUndefined := rfl

/-! ### Accesses -/

theorem memRead_eq_ok {a : Nat} {s t : State} {b : Byte} :
    memRead a s = .ok b t ↔ s.dmaOk a = true ∧ b = s.mem.read a ∧ t = s := by
  unfold memRead raise
  split
  · next h =>
    simp only [h, true_and, Res.ok.injEq]
    exact and_congr eq_comm eq_comm
  · next h => simp [h]

theorem memRead_eq_stop {a : Nat} {s t : State} {e : Stop} :
    memRead a s = .stop e t ↔ s.dmaOk a = false ∧ e = .status .error ∧ t = s := by
  unfold memRead raise
  split
  · next h => simp [h]
  · next h =>
    simp only [h, true_and, Res.stop.injEq]
    exact and_congr eq_comm eq_comm

theorem memWrite_eq_ok {a : Nat} {v : Byte} {s t : State} {u : Unit} :
    memWrite a v s = .ok u t ↔ s.dmaOk a = true ∧ t = { s with mem := s.mem.write a v } := by
  unfold memWrite raise
  split
  · next h =>
    simp only [h, true_and, Res.ok.injEq]
    exact eq_comm
  · next h => simp [h]

theorem memWrite_eq_stop {a : Nat} {v : Byte} {s t : State} {e : Stop} :
    memWrite a v s = .stop e t ↔ s.dmaOk a = false ∧ e = .status .error ∧ t = s := by
  unfold memWrite raise
  split
  · next h => simp [h]
  · next h =>
    simp only [h, true_and, Res.stop.injEq]
    exact and_congr eq_comm eq_comm

theorem inByte_eq_ok {i : Nat} {s t : State} {b : Byte} :
    inByte i s = .ok b t ↔ s.dmaOk (s.inAddr i) = true ∧ b = s.mem.read (s.inAddr i) ∧ t = s :=
  memRead_eq_ok

theorem outByte_eq_ok {j : Nat} {s t : State} {b : Byte} :
    outByte j s = .ok b t ↔ s.dmaOk (s.outAddr j) = true ∧ b = s.mem.read (s.outAddr j) ∧ t = s :=
  memRead_eq_ok

theorem setOut_eq_ok {j : Nat} {v : Byte} {s t : State} {u : Unit} :
    setOut j v s = .ok u t ↔
      s.dmaOk (s.outAddr j) = true ∧ t = { s with mem := s.mem.write (s.outAddr j) v } :=
  memWrite_eq_ok

/-- LE32 changes nothing; its value is the four bytes, the least significant first. -/
theorem le32_eq_ok {i : Nat} {s t : State} {v : BitVec 32} (h : le32 i s = .ok v t) :
    t = s ∧ v = s.mem.read (s.inAddr (i + 3)) ++ s.mem.read (s.inAddr (i + 2)) ++
      s.mem.read (s.inAddr (i + 1)) ++ s.mem.read (s.inAddr i) := by
  simp only [le32, andThen_eq_ok, inByte_eq_ok] at h
  obtain ⟨_, _, ⟨-, rfl, rfl⟩, _, _, ⟨-, rfl, rfl⟩, _, _, ⟨-, rfl, rfl⟩, _, _, ⟨-, rfl, rfl⟩, h⟩ := h
  cases h
  exact ⟨rfl, rfl⟩

/-! ### Completion -/

@[simp] theorem havocOutput_regs (s : State) : s.havocOutput.regs = s.regs := by
  unfold State.havocOutput; split <;> rfl

@[simp] theorem havocOutput_snap (s : State) : s.havocOutput.snap = s.snap := by
  unfold State.havocOutput; split <;> rfl

/-- A havoc of the output buffer changes memory inside the buffer and the draw counter, and nothing else. -/
theorem havocOutput_shape (s : State) :
    s.havocOutput = { s with mem := s.havocOutput.mem, draws := s.havocOutput.draws } := by
  unfold State.havocOutput; split <;> rfl

theorem outCount_le (s : State) : s.outCount ≤ s.snap.dstN.toNat := Nat.min_le_left _ _

/-- 60_exceptions.md R405 (c): no byte outside the output buffer changes. -/
theorem havocOutput_read_outside (s : State) (a : Nat)
    (h : a < s.snap.dstBase.toNat ∨ s.snap.dstBase.toNat + s.snap.dstN.toNat ≤ a) :
    s.havocOutput.mem.read a = s.mem.read a := by
  unfold State.havocOutput; split
  · have := outCount_le s
    exact Memory.read_havoc_outside _ _ _ _ _ (by omega)
  · rfl

theorem havocOutput_wf {s : State} (h : s.mem.wf = true) : s.havocOutput.mem.wf = true := by
  unfold State.havocOutput; split
  · exact Memory.wf_havoc _ _ _ h
  · exact h

/-- An error after the first access: completion over the havoc of the output buffer. -/
theorem raiseLate_shape (c : Status) (s : State) :
    s.raiseLate c = { s.complete c 0 s.regs.cksum with
      mem := s.havocOutput.mem, draws := s.havocOutput.draws } := by
  unfold State.raiseLate State.raiseEarly
  rw [havocOutput_shape]; rfl

@[simp] theorem raiseLate_regs (c : Status) (s : State) :
    (s.raiseLate c).regs = (s.complete c 0 s.regs.cksum).regs := by rw [raiseLate_shape]

@[simp] theorem raiseLate_mem (c : Status) (s : State) : (s.raiseLate c).mem = s.havocOutput.mem := by
  rw [raiseLate_shape]

@[simp] theorem raiseLate_decoding (c : Status) (s : State) : (s.raiseLate c).decoding = false := rfl

/-! ### Emission of the encoder -/

/-- Emit goes on exactly when the byte fits; it writes Out(OPOS) and moves OPOS. -/
theorem emit_eq_ok {v : Byte} {s t : State} {u : Unit} :
    emit v s = .ok u t ↔ s.enc.opos < s.snap.dstN.toNat ∧ s.dmaOk (s.outAddr s.enc.opos) = true ∧
      t = { s with
        mem := s.mem.write (s.outAddr s.enc.opos) v
        enc := { s.enc with opos := s.enc.opos + 1 } } := by
  unfold emit raise
  split
  · next h => simp only [reduceCtorEq, false_iff, not_and]; omega
  · next h =>
    simp only [andThen_eq_ok, setOut_eq_ok]
    constructor
    · rintro ⟨_, _, ⟨h1, rfl⟩, h2⟩; cases h2; exact ⟨by omega, h1, rfl⟩
    · rintro ⟨-, h1, rfl⟩; exact ⟨(), _, ⟨h1, rfl⟩, rfl⟩

/-- Emitting bytes moves OPOS past them and changes memory, and nothing else. -/
theorem emitBytes_shape {bs : List Byte} {s t : State} {u : Unit} (h : emitBytes bs s = .ok u t) :
    t = { s with mem := t.mem, enc := { s.enc with opos := s.enc.opos + bs.length } } := by
  induction bs generalizing s with
  | nil => cases h; rfl
  | cons b bs ih =>
    simp only [emitBytes, andThen_eq_ok, emit_eq_ok] at h
    obtain ⟨_, _, ⟨-, -, rfl⟩, h⟩ := h
    rw [ih h]; simp [Nat.add_assoc, Nat.add_comm 1]

/-- Emitting literals moves OPOS past them and changes memory, and nothing else. -/
theorem emitLits_shape {n src : Nat} {s t : State} {u : Unit} (h : emitLits n src s = .ok u t) :
    t = { s with mem := t.mem, enc := { s.enc with opos := s.enc.opos + n } } := by
  induction n generalizing src s with
  | zero => cases h; rfl
  | succ n ih =>
    simp only [emitLits, andThen_eq_ok, inByte_eq_ok, emit_eq_ok] at h
    obtain ⟨_, _, ⟨-, rfl, rfl⟩, _, _, ⟨-, -, rfl⟩, h⟩ := h
    rw [ih h]; simp [Nat.add_assoc, Nat.add_comm 1]

/-! ### Copies of the decoder -/

/-- The loop of CopyMatch moves OP by the length and changes memory, and nothing else. -/
theorem copyMatchLoop_shape {n dist : Nat} {s t : State} {u : Unit}
    (h : copyMatchLoop n dist s = .ok u t) :
    t = { s with mem := t.mem, dec := { s.dec with op := s.dec.op + n } } := by
  induction n generalizing s with
  | zero => cases h; rfl
  | succ n ih =>
    simp only [copyMatchLoop, andThen_eq_ok, outByte_eq_ok, setOut_eq_ok] at h
    obtain ⟨_, _, ⟨-, rfl, rfl⟩, _, _, ⟨-, rfl⟩, h⟩ := h
    rw [ih h]; simp [Nat.add_assoc, Nat.add_comm 1]

/-- The loop of CopyLit moves OP and IP by the count and changes memory, and nothing else. -/
theorem copyLitLoop_shape {n : Nat} {s t : State} {u : Unit} (h : copyLitLoop n s = .ok u t) :
    t = { s with
      mem := t.mem
      dec := { s.dec with op := s.dec.op + n, ip := s.dec.ip + n } } := by
  induction n generalizing s with
  | zero => cases h; rfl
  | succ n ih =>
    simp only [copyLitLoop, andThen_eq_ok, inByte_eq_ok, setOut_eq_ok] at h
    obtain ⟨_, _, ⟨-, rfl, rfl⟩, _, _, ⟨-, rfl⟩, h⟩ := h
    rw [ih h]; simp [Nat.add_assoc, Nat.add_comm 1]

/-- CopyMatch goes on only past both its checks (43_stream_opcodes.md R274). -/
theorem copyMatch_shape {n dist : Nat} {s t : State} {u : Unit} (h : copyMatch n dist s = .ok u t) :
    dist ≤ s.dec.op ∧ n ≤ s.snap.dstN.toNat - s.dec.op ∧
      t = { s with mem := t.mem, dec := { s.dec with op := s.dec.op + n } } := by
  unfold copyMatch fail at h
  split at h
  · cases h
  · split at h
    · cases h
    · exact ⟨by omega, by omega, copyMatchLoop_shape h⟩

/-- CopyLit goes on only past both its checks (43_stream_opcodes.md R275). -/
theorem copyLit_shape {n : Nat} {s t : State} {u : Unit} (h : copyLit n s = .ok u t) :
    n ≤ s.snap.dstN.toNat - s.dec.op ∧ n ≤ s.snap.srcN.toNat - s.dec.ip ∧
      t = { s with
        mem := t.mem
        dec := { s.dec with op := s.dec.op + n, ip := s.dec.ip + n } } := by
  unfold copyLit fail at h
  split at h
  · cases h
  · split at h
    · cases h
    · exact ⟨by omega, by omega, copyLitLoop_shape h⟩

/-- Trail(S) copies S literals and sets ST to S (43_stream_opcodes.md R288). -/
theorem trail_shape {n : Nat} {s t : State} {u : Unit} (h : trail n s = .ok u t) :
    t = { s with
      mem := t.mem
      dec := { op := s.dec.op + n, ip := s.dec.ip + n, st := stAfter n } } := by
  unfold trail at h
  split at h
  · simp only [andThen_eq_ok] at h
    obtain ⟨_, _, h1, h2⟩ := h
    cases h2
    rw [(copyLit_shape h1).2.2]; rfl
  · next h0 =>
    obtain rfl : n = 0 := by omega
    cases h; rfl

/-! ### The checksum -/

/-- The checksum loop changes the accumulators, and nothing else. -/
theorem checksumLoop_shape {n i : Nat} {s t : State} {u : Unit} (h : checksumLoop n i s = .ok u t) :
    t = { s with cks := t.cks } := by
  induction n generalizing i s with
  | zero => cases h; rfl
  | succ n ih =>
    simp only [checksumLoop, andThen_eq_ok, inByte_eq_ok] at h
    obtain ⟨_, _, ⟨-, rfl, rfl⟩, h⟩ := h
    rw [ih h]

end Sys2Proof.Machine
end

