-- ==== Sys2Proof/Laws/Units.lean ====
section
/-! SUPPORT. What the operations of the match finder, the encoder, the fetch and the dispatch can do: one lemma
for each, cited in place of its definition. -/

namespace Sys2Proof.Machine

/-! ### The match finder -/

theorem mfSame_eq_ok {j : Nat} {s t : State} {b : Bool} :
    mfSame j s = .ok b t ↔
      s.dmaOk (s.inAddr (s.enc.base + s.enc.p + j)) = true ∧
      s.dmaOk (s.inAddr (s.enc.base + s.mf.cand + j)) = true ∧
      b = (s.mem.read (s.inAddr (s.enc.base + s.enc.p + j)) ==
        s.mem.read (s.inAddr (s.enc.base + s.mf.cand + j))) ∧ t = s := by
  simp only [mfSame, andThen_eq_ok, inByte_eq_ok, Res.ok.injEq]
  constructor
  · rintro ⟨_, _, ⟨h1, rfl, rfl⟩, _, _, ⟨h2, rfl, rfl⟩, rfl, rfl⟩; exact ⟨h1, h2, rfl, rfl⟩
  · rintro ⟨h1, h2, rfl, rfl⟩; exact ⟨_, _, ⟨h1, rfl, rfl⟩, _, _, ⟨h2, rfl, rfl⟩, rfl, rfl⟩

theorem mfVerify_shape {dv : BitVec 32} {s t : State} {b : Bool} (h : mfVerify dv s = .ok b t) : t = s := by
  simp only [mfVerify, andThen_eq_ok] at h
  obtain ⟨_, _, h1, h2⟩ := h
  cases h2
  exact (le32_eq_ok h1).1

/-- A probe changes CAND and T, and nothing else. -/
theorem probe_shape {s t : State} {b : Bool} (h : probe s = .ok b t) :
    t = { s with mf := { s.mf with cand := t.mf.cand }, table := t.table } := by
  simp only [probe, andThen_eq_ok] at h
  obtain ⟨_, _, h1, h2⟩ := h
  rw [mfVerify_shape h2, (le32_eq_ok h1).1]; rfl

/-- The extension loop changes MLEN, which only grows, and nothing else. -/
theorem mfExtend_shape {fuel : Nat} {s t : State} {u : Unit} (h : mfExtend fuel s = .ok u t) :
    t = { s with mf := { s.mf with mlen := t.mf.mlen } } ∧ s.mf.mlen ≤ t.mf.mlen := by
  induction fuel generalizing s with
  | zero => cases h; exact ⟨rfl, Nat.le_refl _⟩
  | succ fuel ih =>
    simp only [mfExtend] at h
    split at h
    · cases h; exact ⟨rfl, Nat.le_succ _⟩
    · simp only [andThen_eq_ok, mfSame_eq_ok] at h
      obtain ⟨_, _, ⟨-, -, -, rfl⟩, h⟩ := h
      split at h
      · obtain ⟨h1, h2⟩ := ih h
        exact ⟨h1, Nat.le_of_succ_le h2⟩
      · cases h; exact ⟨rfl, Nat.le_succ _⟩

/-- MF_LENGTH changes MLEN, which is at least 4, and MOFF, and nothing else. -/
theorem mfLength_shape {s t : State} {u : Unit} (h : mfLength s = .ok u t) :
    t = { s with mf := { s.mf with mlen := t.mf.mlen, moff := s.enc.p - s.mf.cand } } ∧ 4 ≤ t.mf.mlen := by
  simp only [mfLength, andThen_eq_ok, mfSame_eq_ok] at h
  obtain ⟨_, _, ⟨_, _, ⟨-, -, -, rfl⟩, h1⟩, h2⟩ := h
  cases h2
  split at h1
  · obtain ⟨h3, h4⟩ := mfExtend_shape h1
    exact ⟨by rw [h3], h4⟩
  · cases h1; exact ⟨rfl, Nat.le_refl _⟩

/-! ### The encoder -/

/-- The back-patch changes memory, and nothing else. -/
theorem backPatch_shape {n : Nat} {s t : State} {u : Unit} (h : backPatch n s = .ok u t) :
    t = { s with mem := t.mem } := by
  simp only [backPatch, andThen_eq_ok, outByte_eq_ok, setOut_eq_ok] at h
  obtain ⟨_, _, ⟨-, rfl, rfl⟩, -, rfl⟩ := h
  rfl

/-- ENC_LIT changes memory and OPOS, which grows by at least the literals, and nothing else. -/
theorem encLit_shape {src n : Nat} {s t : State} {u : Unit} (h : encLit src n s = .ok u t) :
    t = { s with mem := t.mem, enc := { s.enc with opos := t.enc.opos } } ∧
      s.enc.opos + n ≤ t.enc.opos := by
  unfold encLit at h
  split at h
  · next h0 => cases h; exact ⟨rfl, by omega⟩
  · simp only [andThen_eq_ok] at h
    obtain ⟨_, s1, h1, h2⟩ := h
    rw [emitLits_shape h2]
    split at h1
    · rw [backPatch_shape h1]; exact ⟨rfl, Nat.le_refl _⟩
    · rw [emitBytes_shape h1]; exact ⟨rfl, by simp only; omega⟩

/-- ENC_MATCH moves OPOS by the bytes of the match and changes memory, and nothing else. -/
theorem encMatch_shape {len dist : Nat} {s t : State} {u : Unit} (h : encMatch len dist s = .ok u t) :
    t = { s with mem := t.mem, enc := { s.enc with opos := s.enc.opos + (matchBytes len dist).length } } :=
  emitBytes_shape h

/-- A match changes memory, the encoder and match-finder registers, and nothing else; P grows by at least 4. -/
theorem emitMatch_shape {s t : State} {u : Unit} (h : emitMatch s = .ok u t) :
    t = { s with mem := t.mem, enc := t.enc, mf := t.mf } ∧ s.enc.p + 4 ≤ t.enc.p ∧
      t.enc.ii = (t.enc.p : Int) ∧ t.enc.ti = 0 ∧ t.enc.e = s.enc.e ∧ t.enc.bl = s.enc.bl := by
  simp only [emitMatch, andThen_eq_ok] at h
  obtain ⟨_, s1, h1, _, s2, h2, h3⟩ := h
  obtain ⟨e1, -⟩ := encLit_shape h1
  obtain ⟨e2, l2⟩ := mfLength_shape h2
  have hp : s2.enc.p = s.enc.p := by rw [e2, e1]
  rw [encMatch_shape h3]
  refine ⟨?_, ?_, rfl, ?_, ?_, ?_⟩
  · rw [e2, e1]
  · simp only; omega
  · rw [e2, e1]
  · rw [e2, e1]
  · rw [e2, e1]

/-! ### Fetch and dispatch -/

/-- Where every byte is accessible, the bytes read are those of the buffer. -/
theorem inBytes_of_readable {s : State} {n i : Nat} (h : ∀ j < n, s.dmaOk (s.inAddr (i + j)) = true) :
    s.inBytes n i = (List.range n).map fun j => s.mem.read (s.inAddr (i + j)) := by
  induction n generalizing i with
  | zero => rfl
  | succ n ih =>
    rw [State.inBytes, if_pos (show s.dmaOk (s.inAddr i) = true from h 0 (by omega)), List.range_succ_eq_map, List.map_cons, List.map_map,
      ih fun j hj => by simpa [Nat.add_assoc, Nat.add_comm 1] using h (j + 1) (by omega)]
    simp [Function.comp_def, Nat.add_assoc, Nat.add_comm 1]

/-- The fetch gives a header exactly when input is left and decodes. -/
theorem fetchStream_eq_header {s : State} {i : Instr} {n : Nat} :
    fetchStream s = .header i n ↔ s.dec.ip < s.snap.srcN.toNat ∧
      decodeStream s.platform.xlen s.dec.st s.streamBytes = .ok (i, n) := by
  unfold fetchStream
  split
  · simp only [reduceCtorEq, false_iff, not_and]; omega
  · next h0 =>
    have h1 : s.dec.ip < s.snap.srcN.toNat := by omega
    split <;> next h => simp [h, h1]

/-- Storing bytes keeps the canonical form. -/
theorem Memory.wf_writeBytes {m : Memory} (a : Nat) (bs : List Byte) (h : m.wf = true) :
    (m.writeBytes a bs).wf = true := by
  induction bs generalizing m a with
  | nil => exact h
  | cons b bs ih => exact ih _ (wf_write _ _ h)

/-- Every instruction answers a next state: an error is a completion (60_exceptions.md R402). -/
theorem exec_next (i : Instr) (s : State) : ∃ t, exec i s = .next t := by
  cases i with
  | noCommand strict =>
    by_cases h : s.regs.busy = true
    · exact ⟨s, by simp [exec, execNoCommand, h]⟩
    · exact ⟨_, by simp only [exec, execNoCommand, h]; rfl⟩
  | init _ | compress _ | decompress _ | decompressSafe _ | checksum _ | reserved6 _ | reserved7 _
  | reserved8 _ | reserved9 _ | reserved10 _ | reserved11 _ | reserved12 _ | reserved13 _ | reserved14 _
  | reserved15 _ | litFirst _ | litRun _ | m1n _ _ | m1f _ _ | m2s _ _ _ | m2l _ _ _ | m3 _ _ _
  | m4 _ _ _ | eos _ _ => exact ⟨_, rfl⟩

/-- A step runs the instruction its action names. -/
theorem step_run {s t : State} {i : Instr} (h : nextAction s = .run i t) : step s = exec i t := by
  simp [step, h]

/-- What a step that goes on does: it runs an instruction, or goes to a state. -/
theorem step_next {s u : State} (h : step s = .next u) :
    (∃ i t, nextAction s = .run i t ∧ exec i t = .next u) ∨ nextAction s = .move u := by
  unfold step at h
  split at h
  · next i t ha => exact .inl ⟨i, t, ha, h⟩
  · next t ha => cases h; exact .inr ha
  · cases h
  · cases h

end Sys2Proof.Machine
end

