-- ==== Sys2Proof/Laws/HostPort.lean ====
section
/-! SUPPORT. What the accesses from outside can do: one lemma for each, with the byte-wise reading of the buffer
ranges, and the host memory they leave in canonical form. -/

namespace Sys2Proof.Machine

/-! ### Ranges -/

@[simp] theorem inBuffers_eq (c : Snapshot) (a : Nat) :
    c.inBuffers a = (c.inInput a || c.inOutput a) := rfl

/-- Two ranges overlap exactly when they share a byte. -/
theorem overlaps_iff {a n b m : Nat} :
    overlaps a n b m = true ↔ ∃ x, (a ≤ x ∧ x < a + n) ∧ (b ≤ x ∧ x < b + m) := by
  simp only [overlaps, Bool.and_eq_true, decide_eq_true_eq]
  constructor
  · rintro ⟨⟨⟨h1, h2⟩, h3⟩, h4⟩
    exact ⟨max a b, by omega, by omega⟩
  · rintro ⟨x, h1, h2⟩
    omega

theorem inInput_iff {c : Snapshot} {a : Nat} : c.inInput a = true ↔ hasInput c.opv = true ∧
    c.srcBase.toNat ≤ a ∧ a < c.srcBase.toNat + c.srcN.toNat := by
  simp [Snapshot.inInput, and_assoc]

theorem inOutput_iff {c : Snapshot} {a : Nat} : c.inOutput a = true ↔ hasOutput c.opv = true ∧
    c.dstBase.toNat ≤ a ∧ a < c.dstBase.toNat + c.dstN.toNat := by
  simp [Snapshot.inOutput, and_assoc]

/-- A command writes into another one's buffers exactly when some byte lies in both. -/
theorem writesInto_iff {c d : Snapshot} :
    c.writesInto d = true ↔ ∃ a, c.inOutput a = true ∧ d.inBuffers a = true := by
  simp only [Snapshot.writesInto, inBuffers_eq, Bool.and_eq_true, Bool.or_eq_true, overlaps_iff, inInput_iff,
    inOutput_iff]
  constructor
  · rintro ⟨hc, ⟨hd, x, h1, h2⟩ | ⟨hd, x, h1, h2⟩⟩
    · exact ⟨x, ⟨hc, h1⟩, .inl ⟨hd, h2⟩⟩
    · exact ⟨x, ⟨hc, h1⟩, .inr ⟨hd, h2⟩⟩
  · rintro ⟨x, ⟨hc, h1⟩, ⟨hd, h2⟩ | ⟨hd, h2⟩⟩
    · exact ⟨hc, .inl ⟨hd, x, h1, h2⟩⟩
    · exact ⟨hc, .inr ⟨hd, x, h1, h2⟩⟩

/-- Another block conflicts with this one's command exactly when a byte that one of them may write lies in a
buffer of the other (20_memory.md R96). -/
theorem peerConflict_iff {s : State} : s.peerConflict = true ↔ ∃ p ∈ s.peers, ∃ a,
    s.snap.inOutput a = true ∧ p.2.inBuffers a = true ∨ p.2.inOutput a = true ∧ s.snap.inBuffers a = true := by
  simp only [State.peerConflict, List.any_eq_true, Snapshot.conflicts, Bool.or_eq_true, writesInto_iff,
    exists_or]

/-- The hazardous buffers are those of the pending command and of the commands the host has not observed. -/
theorem mem_openCommands {s : State} {c : Snapshot} :
    c ∈ s.openCommands ↔ s.regs.busy = true ∧ c = s.snap ∨ c ∈ s.view.unseen := by
  unfold State.openCommands
  split <;> simp_all

theorem mem_pendingBeside {s : State} {k : Nat} {d : Snapshot} :
    d ∈ s.pendingBeside k ↔ s.regs.busy = true ∧ d = s.snap ∨ ∃ p ∈ s.peers, p.1 ≠ k ∧ p.2 = d := by
  unfold State.pendingBeside
  split <;> simp_all [and_assoc]

/-! ### The pending commands of other blocks -/

/-- A block has a pending command exactly when its number is listed. -/
theorem any_key_iff_lookup (l : List (Nat × Snapshot)) (k : Nat) :
    (l.any fun p => p.1 == k) = true ↔ l.lookup k ≠ none := by
  induction l with
  | nil => simp
  | cons p l ih =>
    obtain ⟨x, c⟩ := p
    rw [List.any_cons, List.lookup_cons]
    by_cases h : k = x
    · subst h; simp
    · have h1 : (k == x) = false := by simpa using h
      have h2 : (x == k) = false := by simpa using fun e => h e.symm
      simp [h1, h2, ih]

/-- Dropping block `k` leaves every other block's command. -/
theorem lookup_filter_ne (l : List (Nat × Snapshot)) (k j : Nat) :
    (l.filter fun p => p.1 != k).lookup j = if j = k then none else l.lookup j := by
  induction l with
  | nil => simp
  | cons p l ih =>
    obtain ⟨x, c⟩ := p
    by_cases h : x = k
    · subst h
      rw [List.filter_cons_of_neg (by simp), ih, List.lookup_cons]
      by_cases hj : j = x
      · simp [hj]
      · have h1 : (j == x) = false := by simpa using hj
        simp [hj, h1]
    · rw [List.filter_cons_of_pos (by simpa using h), List.lookup_cons, List.lookup_cons, ih]
      by_cases hj : j = x
      · subst hj; simp [h]
      · have h1 : (j == x) = false := by simpa using hj
        simp [h1]

/-! ### Which agent moves -/

theorem marked_of_quiet {s : State} (hq : s.quiet) : s.marked = false := by
  simp [State.marked, hq.1, hq.2.1]

theorem marked_iff {s : State} : s.marked = true ↔ s.hostRace = true ∨ s.undefinedMark = true := by
  simp [State.marked]

/-- From a marked state the platform's reset moves, and nothing else does. -/
theorem nextAction_of_marked {s : State} (h : s.marked = true) : nextAction s = markedTurn s := by
  unfold nextAction
  rw [if_pos h]

/-- What a step that goes on from a marked state does: it is the reset. -/
theorem step_next_of_marked {s u : State} (h : s.marked = true) (hs : step s = .next u) :
    ∃ rest, s.inbox = .reset :: rest ∧ u = { s with inbox := rest }.resetBlock := by
  unfold step at hs
  rw [nextAction_of_marked h, markedTurn] at hs
  split at hs
  · next rest ha =>
    split at ha
    all_goals cases ha
  · next t ha =>
    split at ha
    · next rest hi => cases ha; cases hs; exact ⟨rest, hi, rfl⟩
    · cases ha
  · cases hs
  · cases hs

/-- From a quiet state the first event of the inbox moves. -/
theorem nextAction_of_event {s : State} {ev : HostEvent} {rest : List HostEvent} (hq : s.quiet)
    (h : s.inbox = ev :: rest) : nextAction s = hostTurn ev { s with inbox := rest } := by
  unfold nextAction
  rw [marked_of_quiet hq, hq.2.2, h]
  simp

/-- From a quiet state with an empty inbox the block moves. -/
theorem nextAction_of_empty {s : State} (hq : s.quiet) (h : s.inbox = []) : nextAction s = blockTurn s := by
  unfold nextAction
  rw [marked_of_quiet hq, hq.2.2, h]
  simp

/-! ### Accesses -/

/-- A host write is a race or stores its byte. -/
theorem hostMemWrite_cases (a : Nat) (v : Byte) (s : State) :
    ((∃ c ∈ s.openCommands, c.inBuffers a = true) ∧ s.hostMemWrite a v = { s with hostRace := true }) ∨
    ((∀ c ∈ s.openCommands, c.inBuffers a = false) ∧
      s.hostMemWrite a v = { s with mem := s.mem.write a v }) := by
  unfold State.hostMemWrite
  split
  · next h => exact .inl ⟨by simpa using h, rfl⟩
  · next h => exact .inr ⟨by simpa using h, rfl⟩

/-- A host read changes the read latch and the draw counter, and nothing else. -/
theorem hostMemRead_shape (a : Nat) (s : State) :
    s.hostMemRead a = { s with hostRead := (s.hostMemRead a).hostRead, draws := (s.hostMemRead a).draws } := by
  unfold State.hostMemRead; split <;> rfl

/-- Another block's write is a race or stores its byte. -/
theorem peerMemWrite_cases (k a : Nat) (v : Byte) (s : State) :
    ((∃ c ∈ s.pendingBeside k, c.inBuffers a = true) ∧ s.peerMemWrite k a v = { s with hostRace := true }) ∨
    ((∀ c ∈ s.pendingBeside k, c.inBuffers a = false) ∧
      s.peerMemWrite k a v = { s with mem := s.mem.write a v }) := by
  unfold State.peerMemWrite
  split
  · next h => exact .inl ⟨by simpa using h, rfl⟩
  · next h => exact .inr ⟨by simpa using h, rfl⟩

/-- Another block's read is a race or changes nothing. -/
theorem peerMemRead_cases (k a : Nat) (s : State) :
    ((∃ c ∈ s.pendingBeside k, c.inOutput a = true) ∧ s.peerMemRead k a = { s with hostRace := true }) ∨
    ((∀ c ∈ s.pendingBeside k, c.inOutput a = false) ∧ s.peerMemRead k a = s) := by
  unfold State.peerMemRead
  split
  · next h => exact .inl ⟨by simpa using h, rfl⟩
  · next h => exact .inr ⟨by simpa using h, rfl⟩

/-- The issue of a command in another block changes the list of pending commands, and nothing else. -/
theorem peerIssue_shape (k : Nat) (c : Snapshot) (s : State) :
    s.peerIssue k c = { s with peers := (s.peerIssue k c).peers } := by
  unfold State.peerIssue; split <;> rfl

theorem hostMemWrite_wf {s : State} (a : Nat) (v : Byte) (h : s.mem.wf = true) :
    (s.hostMemWrite a v).mem.wf = true := by
  rcases hostMemWrite_cases a v s with ⟨-, e⟩ | ⟨-, e⟩ <;> rw [e]
  · exact h
  · exact Memory.wf_write _ _ h

theorem peerMemWrite_wf {s : State} (k a : Nat) (v : Byte) (h : s.mem.wf = true) :
    (s.peerMemWrite k a v).mem.wf = true := by
  rcases peerMemWrite_cases k a v s with ⟨-, e⟩ | ⟨-, e⟩ <;> rw [e]
  · exact h
  · exact Memory.wf_write _ _ h

theorem Memory.wf_ofCells (xlen : Nat) (cells : List (Nat × Byte)) : (Memory.ofCells xlen cells).wf = true := by
  induction cells with
  | nil => rfl
  | cons c cells ih =>
    obtain ⟨a, v⟩ := c
    rw [Memory.ofCells]
    split
    · exact Memory.wf_write _ _ ih
    · exact ih

/-- The free memory lies in the address space (20_memory.md R80). -/
theorem Memory.ofCells_bound (xlen : Nat) (cells : List (Nat × Byte)) :
    ∀ c ∈ Memory.ofCells xlen cells, c.1 < 2 ^ xlen := by
  induction cells with
  | nil => nofun
  | cons p cells ih =>
    obtain ⟨a, v⟩ := p
    rw [Memory.ofCells]
    split
    · next h => exact Memory.write_bound h ih
    · exact ih

/-- Abandoning a run changes memory and the draw counter, and nothing else. -/
theorem abandon_shape (s : State) : s.abandon = { s with mem := s.abandon.mem, draws := s.abandon.draws } := by
  unfold State.abandon
  split
  · rfl
  · split
    · exact havocOutput_shape s
    · rfl

theorem abandon_wf {s : State} (h : s.mem.wf = true) : s.abandon.mem.wf = true := by
  unfold State.abandon
  split
  · exact Memory.wf_ofCells _ _
  · split
    · exact havocOutput_wf h
    · exact h

/-- The reset of an unmarked idle block leaves memory as it is. -/
theorem abandon_of_idle {s : State} (hm : s.marked = false) (hb : s.regs.busy = false) : s.abandon = s := by
  simp [State.abandon, hm, hb]

@[simp] theorem resetBlock_mem (s : State) : s.resetBlock.mem = s.abandon.mem := rfl

@[simp] theorem resetBlock_regs (s : State) : s.resetBlock.regs = Regs.reset := rfl

@[simp] theorem resetBlock_marked (s : State) : s.resetBlock.marked = false := rfl

theorem resetBlock_wf {s : State} (h : s.mem.wf = true) : s.resetBlock.mem.wf = true := abandon_wf h

/-! ### What the host has observed -/

/-- The model's bookkeeping of a completion is the one claims are stated in. -/
theorem viewComplete_eq_after (c : Snapshot) (v : HostView) : v.complete c = v.after c := by
  obtain ⟨_, _, _, _, _, _, op⟩ := c
  have h : hasInput op = decide (2 ≤ op.toNat ∧ op.toNat ≤ 5) := by revert op; decide
  have h5 : (op != 5#4) = if op = 5#4 then false else true := by revert op; decide
  simp only [HostView.complete, HostView.keepOpen, HostView.after, h, h5, decide_eq_true_eq]
  split <;> split <;> simp

/-- Observed or not, the host reads what is no result as it is: BUSY and INIT_DONE, and the registers the host
writes. -/
theorem shownRegs_shape (s : State) : s.shownRegs = { s.regs with
    code := s.shownRegs.code, outLen := s.shownRegs.outLen, cksum := s.shownRegs.cksum } := rfl

@[simp] theorem shownRegs_busy (s : State) : s.shownRegs.busy = s.regs.busy := rfl

@[simp] theorem shownRegs_initDone (s : State) : s.shownRegs.initDone = s.regs.initDone := rfl

/-- Once every completion is observed CODE reads as it is, BUSY or not (40_commands.md R161). -/
theorem shownRegs_code_of_seen {s : State} (h : s.view.resultsSeen = true) :
    s.shownRegs.code = s.regs.code := by simp [State.shownRegs, h]

/-- The read of STATUS that observes a completion returns its CODE (70_reset_and_hazards.md R457). -/
theorem shownRegs_code_of_idle {s : State} (h : s.regs.busy = false) : s.shownRegs.code = s.regs.code := by
  simp [State.shownRegs, h]

theorem shownRegs_outLen_of_seen {s : State} (h : s.view.resultsSeen = true) :
    s.shownRegs.outLen = s.regs.outLen := by simp [State.shownRegs, h]

/-- CKSUM reads as it is once its CHECKSUM is observed, whatever ended since (10_state.md R39). -/
theorem shownRegs_cksum_of_seen {s : State} (h : s.view.cksumSeen = true) :
    s.shownRegs.cksum = s.regs.cksum := by simp [State.shownRegs, h]

/-- Once every completion is observed the host reads the registers as they are. -/
theorem shownRegs_of_seen {s : State} (h : s.view.resultsSeen = true) (hc : s.view.cksumSeen = true) :
    s.shownRegs = s.regs := by
  rw [shownRegs_shape, shownRegs_code_of_seen h, shownRegs_outLen_of_seen h, shownRegs_cksum_of_seen hc]

end Sys2Proof.Machine
end

