-- ==== Sys2Proof/Laws/PerInstr.lean ====
section
/-! SUPPORT. The family OpcodeRow: for every instruction, the op-code that `encode` writes fits the match and
mask of its row of spec/opcode_table.json. -/

namespace Sys2Proof.Laws.OpcodeRow

/-- A command word fits its row: bits [3:0], the mask 0x00F, are the row's match. -/
def commandFits (op : BitVec 4) (c : Code) : Prop := ∃ w, c = .command w ∧ w &&& 0x00F#64 = op.setWidth 64

/-- The op-code byte of a stream header fits its row's match under its row's mask. -/
def byteFits (value mask : Byte) (c : Code) : Prop := ∃ b bs, c = .stream (b :: bs) ∧ b &&& mask = value

/-- Match and mask of the instruction's row hold of the code that `encode` gives it. -/
def Statement (i : Instr) : Prop :=
  ∀ xlen, i.wf xlen = true →
    match i with
    | .noCommand _ => commandFits 0x0 (encode i)
    | .init _ => commandFits 0x1 (encode i)
    | .compress _ => commandFits 0x2 (encode i)
    | .decompress _ => commandFits 0x3 (encode i)
    | .decompressSafe _ => commandFits 0x4 (encode i)
    | .checksum _ => commandFits 0x5 (encode i)
    | .reserved6 _ => commandFits 0x6 (encode i)
    | .reserved7 _ => commandFits 0x7 (encode i)
    | .reserved8 _ => commandFits 0x8 (encode i)
    | .reserved9 _ => commandFits 0x9 (encode i)
    | .reserved10 _ => commandFits 0xA (encode i)
    | .reserved11 _ => commandFits 0xB (encode i)
    | .reserved12 _ => commandFits 0xC (encode i)
    | .reserved13 _ => commandFits 0xD (encode i)
    | .reserved14 _ => commandFits 0xE (encode i)
    | .reserved15 _ => commandFits 0xF (encode i)
    | .litFirst _ => byteFits 0x00 0x00 (encode i)
    | .litRun _ => byteFits 0x00 0xF0 (encode i)
    | .m1n _ _ => byteFits 0x00 0xF0 (encode i)
    | .m1f _ _ => byteFits 0x00 0xF0 (encode i)
    | .m2s _ _ _ => byteFits 0x40 0xC0 (encode i)
    | .m2l _ _ _ => byteFits 0x80 0x80 (encode i)
    | .m3 _ _ _ => byteFits 0x20 0xE0 (encode i)
    | .m4 _ _ _ => byteFits 0x10 0xF0 (encode i)
    | .eos _ _ => byteFits 0x10 0xF8 (encode i)

/-- The command word of every OP and STRICT keeps OP in its low four bits. -/
theorem commandWord_fits : ∀ (op : BitVec 4) (t : Bool), commandWord op t &&& 0x00F#64 = op.setWidth 64 := by
  decide

/-- A byte of value `v + r` with `v` the match and `r` below the mask's lowest bit fits. -/
theorem fits_range {n lo hi : Nat} {value mask : Byte} (h : lo ≤ n ∧ n < hi) (hb : hi ≤ 256)
    (hall : ∀ b : Byte, lo ≤ b.toNat → b.toNat < hi → b &&& mask = value) : byteOf n &&& mask = value := by
  have hn : (byteOf n).toNat = n := by simp [byteOf]; omega
  exact hall _ (by omega) (by omega)

theorem noCommand (t : Bool) : Statement (.noCommand t) := fun _ _ => ⟨_, rfl, commandWord_fits 0 t⟩
theorem init (t : Bool) : Statement (.init t) := fun _ _ => ⟨_, rfl, commandWord_fits 1 t⟩
theorem compress (t : Bool) : Statement (.compress t) := fun _ _ => ⟨_, rfl, commandWord_fits 2 t⟩
theorem decompress (t : Bool) : Statement (.decompress t) := fun _ _ => ⟨_, rfl, commandWord_fits 3 t⟩
theorem decompressSafe (t : Bool) : Statement (.decompressSafe t) := fun _ _ => ⟨_, rfl, commandWord_fits 4 t⟩
theorem checksum (t : Bool) : Statement (.checksum t) := fun _ _ => ⟨_, rfl, commandWord_fits 5 t⟩
theorem reserved6 (t : Bool) : Statement (.reserved6 t) := fun _ _ => ⟨_, rfl, commandWord_fits 6 t⟩
theorem reserved7 (t : Bool) : Statement (.reserved7 t) := fun _ _ => ⟨_, rfl, commandWord_fits 7 t⟩
theorem reserved8 (t : Bool) : Statement (.reserved8 t) := fun _ _ => ⟨_, rfl, commandWord_fits 8 t⟩
theorem reserved9 (t : Bool) : Statement (.reserved9 t) := fun _ _ => ⟨_, rfl, commandWord_fits 9 t⟩
theorem reserved10 (t : Bool) : Statement (.reserved10 t) := fun _ _ => ⟨_, rfl, commandWord_fits 10 t⟩
theorem reserved11 (t : Bool) : Statement (.reserved11 t) := fun _ _ => ⟨_, rfl, commandWord_fits 11 t⟩
theorem reserved12 (t : Bool) : Statement (.reserved12 t) := fun _ _ => ⟨_, rfl, commandWord_fits 12 t⟩
theorem reserved13 (t : Bool) : Statement (.reserved13 t) := fun _ _ => ⟨_, rfl, commandWord_fits 13 t⟩
theorem reserved14 (t : Bool) : Statement (.reserved14 t) := fun _ _ => ⟨_, rfl, commandWord_fits 14 t⟩
theorem reserved15 (t : Bool) : Statement (.reserved15 t) := fun _ _ => ⟨_, rfl, commandWord_fits 15 t⟩

theorem litFirst (n : Nat) : Statement (.litFirst n) :=
  fun _ _ => ⟨byteOf (n + 17), [], rfl, BitVec.and_zero⟩

theorem litRun (n : Nat) : Statement (.litRun n) := fun _ h =>
  ⟨_, _, rfl, fits_range (lo := 0) (hi := 16)
    (by simp [Instr.wf] at h; unfold lenField; split <;> omega) (by omega) (by decide)⟩

theorem m1n (d s : Nat) : Statement (.m1n d s) := fun _ h =>
  ⟨_, _, rfl, fits_range (lo := 0) (hi := 16) (by simp [Instr.wf] at h; omega) (by omega) (by decide)⟩

theorem m1f (d s : Nat) : Statement (.m1f d s) := fun _ h =>
  ⟨_, _, rfl, fits_range (lo := 0) (hi := 16) (by simp [Instr.wf] at h; omega) (by omega) (by decide)⟩

theorem m2s (l d s : Nat) : Statement (.m2s l d s) := fun _ h =>
  ⟨_, _, rfl, fits_range (lo := 64) (hi := 128) (by simp [Instr.wf] at h; omega) (by omega) (by decide)⟩

theorem m2l (l d s : Nat) : Statement (.m2l l d s) := fun _ h =>
  ⟨_, _, rfl, fits_range (lo := 128) (hi := 256) (by simp [Instr.wf] at h; omega) (by omega) (by decide)⟩

theorem m3 (l d s : Nat) : Statement (.m3 l d s) := fun _ h =>
  ⟨_, _, rfl, fits_range (lo := 32) (hi := 64)
    (by simp [Instr.wf] at h; unfold lenField; split <;> omega) (by omega) (by decide)⟩

theorem m4 (l d s : Nat) : Statement (.m4 l d s) := fun _ h =>
  ⟨_, _, rfl, fits_range (lo := 16) (hi := 32)
    (by simp [Instr.wf] at h; unfold lenField; split <;> omega) (by omega) (by decide)⟩

theorem eos (l s : Nat) : Statement (.eos l s) := fun _ h =>
  ⟨_, _, rfl, fits_range (lo := 16) (hi := 24)
    (by simp [Instr.wf] at h; unfold lenField; split <;> omega) (by omega) (by decide)⟩

end Sys2Proof.Laws.OpcodeRow
end

