-- ==== Sys2Proof/Tests/Slice0.lean ====
section
/-! SUPPORT. Tests of the model on words and values of spec/ (the source stands in each docstring), and one
witness for each statement of Obligations.lean that has hypotheses. -/

namespace Sys2Proof.Tests

open Sys2Proof.Machine

/-! ### Helpers -/

/-- A pending command `op` with INIT done, its input bytes at 0x100 and an output buffer of `n` bytes at
0x200, SEED = 1 and STRICT = 1. -/
def pendingState (op : BitVec 4) (input : List Byte) (n : Nat) : State :=
  let regs := { Regs.reset with
    cmdOp := op
    busy := true
    initDone := true
    srcAddr := 0x100
    srcLen := BitVec.ofNat 64 input.length
    dstAddr := 0x200
    dstLen := BitVec.ofNat 64 n }
  { State.reset with regs := regs, snap := regs.snapshot, mem := Memory.writeBytes [] 0x100 input }

/-- A decode in progress: `out` is written, the next byte to read is `input` at `ip`, in state `st`. -/
def decodingState (op : BitVec 4) (input : List Byte) (ip : Nat) (out : List Byte) (n : Nat)
    (st : DecState) : State :=
  let s := pendingState op input n
  { s with
    mem := s.mem.writeBytes 0x200 out
    dec := { ip := ip, op := out.length, st := st }
    decoding := true }

/-- The state an outcome holds, if it holds one. -/
def afterState (o : Host.Outcome State Fault Refusal) : State :=
  match o with
  | .next s => s
  | .fault _ => State.reset
  | .refused _ => State.reset

/-- The first `n` output bytes. -/
def outList (s : State) (n : Nat) : List Byte := (List.range n).map s.outAt

/-- The state a part of a command goes on to. -/
def okState {α : Type} (r : Res α) : State :=
  match r with
  | .ok _ s => s
  | .stop _ s => s

/-- An idle block at reset about to see the event `ev`. -/
def idleState (ev : HostEvent) : State := { State.reset with inbox := [ev] }

/-- A pending DECOMPRESS_SAFE of the bytes 11 00 00 about to see the event `ev`. -/
def busyState (ev : HostEvent) : State :=
  { pendingState 4#4 [0x11, 0x00, 0x00] 2 with inbox := [ev] }

/-- The stream of one literal `61` (42_compressor.md R230). -/
def oneByteStream : List Byte := [0x12, 0x61, 0x11, 0x00, 0x00]

/-- The source of 95_test_vectors.md C15. -/
def sourceC15 : List Byte :=
  [0x61, 0x62, 0x61, 0x61, 0x62, 0x62, 0x62, 0x62, 0x62, 0x62, 0x61, 0x61, 0x62, 0x61, 0x61, 0x62,
    0x61, 0x62, 0x62, 0x62, 0x61, 0x62, 0x61, 0x62, 0x62, 0x62, 0x62, 0x61, 0x62, 0x61, 0x62, 0x62]

/-! ### WellFormed: an ill-formed term for each check -/

theorem test_wf_refuses_litFirst : (Instr.litFirst 0).wf 64 = false ∧ (Instr.litFirst 239).wf 64 = false := by
  decide

/-- `2^9 - 511 = 1`, so with XLEN = 9 the guard of R270 stops every extension with a 00 byte. -/
theorem test_wf_refuses_litRun : (Instr.litRun 3).wf 64 = false ∧ (Instr.litRun 274).wf 9 = false := by decide

theorem test_wf_refuses_m1n :
    (Instr.m1n 0 0).wf 64 = false ∧ (Instr.m1n 1025 0).wf 64 = false ∧ (Instr.m1n 1 4).wf 64 = false := by
  decide

theorem test_wf_refuses_m1f :
    (Instr.m1f 2048 0).wf 64 = false ∧ (Instr.m1f 3073 0).wf 64 = false ∧ (Instr.m1f 2049 4).wf 64 = false := by
  decide

theorem test_wf_refuses_m2s :
    (Instr.m2s 2 1 0).wf 64 = false ∧ (Instr.m2s 5 1 0).wf 64 = false ∧ (Instr.m2s 3 0 0).wf 64 = false ∧
      (Instr.m2s 3 2049 0).wf 64 = false ∧ (Instr.m2s 3 1 4).wf 64 = false := by decide

theorem test_wf_refuses_m2l :
    (Instr.m2l 4 1 0).wf 64 = false ∧ (Instr.m2l 9 1 0).wf 64 = false ∧ (Instr.m2l 5 0 0).wf 64 = false ∧
      (Instr.m2l 5 2049 0).wf 64 = false ∧ (Instr.m2l 5 1 4).wf 64 = false := by decide

theorem test_wf_refuses_m3 :
    (Instr.m3 2 1 0).wf 64 = false ∧ (Instr.m3 289 1 0).wf 9 = false ∧ (Instr.m3 3 0 0).wf 64 = false ∧
      (Instr.m3 3 16385 0).wf 64 = false ∧ (Instr.m3 3 1 4).wf 64 = false := by decide

theorem test_wf_refuses_m4 :
    (Instr.m4 2 16385 0).wf 64 = false ∧ (Instr.m4 265 16385 0).wf 9 = false ∧
      (Instr.m4 3 16384 0).wf 64 = false ∧ (Instr.m4 3 49152 0).wf 64 = false ∧
      (Instr.m4 3 16385 4).wf 64 = false := by decide

theorem test_wf_refuses_eos :
    (Instr.eos 2 0).wf 64 = false ∧ (Instr.eos 265 0).wf 9 = false ∧ (Instr.eos 3 4).wf 64 = false := by decide

/-- 30_encoding.md R120: at START a byte from 0x12 on is LIT_FIRST, and below 16 the state decides. -/
theorem test_admits_refuses :
    (Instr.litFirst 1).admits .st0 = false ∧ (Instr.litRun 4).admits .st1 = false ∧
      (Instr.m1n 1 0).admits .st0 = false ∧ (Instr.m1f 2049 0).admits .st3 = false ∧
      (Instr.m2s 3 1 0).admits .start = false ∧ (Instr.m2l 5 1 0).admits .start = false ∧
      (Instr.m3 3 1 0).admits .start = false ∧ (Instr.m4 4 16385 0).admits .start = false ∧
      (Instr.eos 4 0).admits .start = false := by decide

/-! ### Decoding: words written out from 30_encoding.md R110 and R117 -/

/-- R110: OP in bits [3:0], STRICT in bit 8. -/
theorem test_decode_commands :
    decodeCommand 0b0_0000_0000#64 = .noCommand false ∧ decodeCommand 0b1_0000_0001#64 = .init true ∧
    decodeCommand 0b1_0000_0010#64 = .compress true ∧ decodeCommand 0b0_0000_0011#64 = .decompress false ∧
    decodeCommand 0b1_0000_0100#64 = .decompressSafe true ∧ decodeCommand 0b0_0000_0101#64 = .checksum false ∧
    decodeCommand 0b0_0000_0110#64 = .reserved6 false ∧ decodeCommand 0b0_0000_0111#64 = .reserved7 false ∧
    decodeCommand 0b0_0000_1000#64 = .reserved8 false ∧ decodeCommand 0b0_0000_1001#64 = .reserved9 false ∧
    decodeCommand 0b0_0000_1010#64 = .reserved10 false ∧ decodeCommand 0b0_0000_1011#64 = .reserved11 false ∧
    decodeCommand 0b0_0000_1100#64 = .reserved12 false ∧ decodeCommand 0b0_0000_1101#64 = .reserved13 false ∧
    decodeCommand 0b1_0000_1110#64 = .reserved14 true ∧ decodeCommand 0b1_0000_1111#64 = .reserved15 true := by
  decide

/-- R111: bits [7:4] and [63:9] of CMD are ignored. -/
theorem test_decode_ignores_reserved_bits : decodeCommand 0xFFFF_FFFF_FFFF_FEF2#64 = .compress false := by
  decide

theorem test_decode_litFirst :
    decodeStream 64 .start [0b0001_0010#8] = .ok (.litFirst 1, 1) ∧
    decodeStream 64 .start [0b1111_1111#8] = .ok (.litFirst 238, 1) := by decide

/-- The short and the extended form: 18 + 255 + 255 + 217 = 745 by 30_encoding.md R116 and the pseudocode of
43_stream_opcodes.md R270, whose example gives 490 for these extension bytes (log 21). -/
theorem test_decode_litRun :
    decodeStream 64 .st0 [0b0000_0001#8] = .ok (.litRun 4, 1) ∧
    decodeStream 64 .start [0x00#8, 0x00#8, 0x00#8, 0xD9#8] = .ok (.litRun 745, 4) := by decide

/-- D = 2, S = 1, H = 3: dist = 3 * 4 + 2 + 1. -/
theorem test_decode_m1n : decodeStream 64 .st2 [0b0000_1001#8, 0b0000_0011#8] = .ok (.m1n 15 1, 2) := by decide

/-- D = 1, S = 3, H = 0xFF: dist = 255 * 4 + 1 + 2049. -/
theorem test_decode_m1f : decodeStream 64 .st4 [0b0000_0111#8, 0b1111_1111#8] = .ok (.m1f 3070 3, 2) := by decide

/-- L = 0, D = 5, S = 2, H = 1: len = 3, dist = 8 + 5 + 1. -/
theorem test_decode_m2s : decodeStream 64 .st0 [0b0101_0110#8, 0b0000_0001#8] = .ok (.m2s 3 14 2, 2) := by decide

/-- L = 3, D = 7, S = 0, H = 0xFF: len = 8, dist = 2048. -/
theorem test_decode_m2l : decodeStream 64 .st1 [0b1111_1100#8, 0b1111_1111#8] = .ok (.m2l 8 2048 0, 2) := by decide

/-- L = 1 gives 3; d0 = 0xFE, d1 = 0xFF: D = 16383, S = 2. R286: L = 0 with 01 gives 34. -/
theorem test_decode_m3 :
    decodeStream 64 .st0 [0b0010_0001#8, 0xFE#8, 0xFF#8] = .ok (.m3 3 16384 2, 3) ∧
    decodeStream 64 .st4 [0x20#8, 0x01#8, 0x00#8, 0x00#8] = .ok (.m3 34 1 0, 4) := by decide

/-- H = 1, L = 7: len = 9; D = 16383: dist = 49151; H = 1 with D = 0: dist = 32768 (R287). -/
theorem test_decode_m4 :
    decodeStream 64 .st0 [0b0001_1111#8, 0xFD#8, 0xFF#8] = .ok (.m4 9 49151 1, 3) ∧
    decodeStream 64 .st0 [0b0001_1001#8, 0x00#8, 0x00#8] = .ok (.m4 3 32768 0, 3) := by decide

/-- The canonical EOS, and one whose length is extended by 05 and whose S is 3 (R127). -/
theorem test_decode_eos :
    decodeStream 64 .start [0x11#8, 0x00#8, 0x00#8] = .ok (.eos 3 0, 3) ∧
    decodeStream 64 .st4 [0x10#8, 0x05#8, 0x03#8, 0x00#8] = .ok (.eos 14 3, 4) := by decide

/-- A header cut short, and the guard of R270 (with XLEN = 9 it stops the first 00 byte). -/
theorem test_decode_errors :
    decodeStream 64 .st0 [0x20#8, 0x01#8, 0x00#8] = .error .cut ∧
    decodeStream 9 .st0 [0x00#8, 0x00#8, 0x01#8] = .error .longLiteral ∧
    decodeStream 9 .st0 [0x20#8, 0x00#8, 0x01#8] = .error .longMatch := by decide

/-- The opcode table's own words: a command word, and an op-code byte with its operands 0 (log 17). -/
theorem test_decodeTableWord :
    decodeTableWord 64 0x102 = some (.compress true) ∧ decodeTableWord 8 0x40 = some (.m2s 3 1 0) := by decide

/-! ### One step of each instruction, on the examples of its rule -/

/-- 40_commands.md R164: writing 0x000 after reset. -/
theorem test_none :
    let s := afterState (step (idleState (.regWrite 0 64 0x000)))
    s.regs.cmdWord = 0x000 ∧ s.regs.statusWord = 0 := by decide

/-- 40_commands.md R170. -/
theorem test_init : (afterState (exec (.init true) State.reset)).regs.statusWord = 0x2_0000_0000 := by decide

/-- 42_compressor.md R230: the source 61. -/
theorem test_compress_one_byte :
    let s := afterState (exec (.compress true) (pendingState 2#4 [0x61] 68))
    s.regs.code = 0 ∧ s.regs.outLen = 5 ∧ outList s 5 = oneByteStream := by decide

/-- 95_test_vectors.md C15: matches, an S field patched back, and a literal run. -/
theorem test_compress_matches :
    let s := afterState (exec (.compress true) (pendingState 2#4 sourceC15 101))
    s.regs.outLen = 32 ∧ outList s 12 =
      [0x03, 0x61, 0x62, 0x61, 0x61, 0x62, 0x62, 0x61, 0x00, 0x61, 0x88, 0x01] := by decide

/-- 44_decompressors.md R310. -/
theorem test_decompress :
    let s := afterState (exec (.decompress true) (pendingState 3#4 oneByteStream 1))
    s.regs.code = 0 ∧ s.regs.outLen = 1 ∧ outList s 1 = [0x61] := by decide

/-- 44_decompressors.md R323: the empty stream is UNDEFINED. -/
theorem test_decompress_undefined :
    (afterState (exec (.decompress true) (pendingState 3#4 [] 0))).undefinedMark = true := by decide

/-- 44_decompressors.md R311: EOS cut short ends with InputOverrun. -/
theorem test_decompressSafe_cut :
    (afterState (exec (.decompressSafe true) (pendingState 4#4 [0x12, 0x61, 0x11, 0x00] 1))).regs.code =
      codeOf (-4) := by decide

/-- 44_decompressors.md R315, R316: trailing input, strict and not. -/
theorem test_decompressSafe_trailing :
    let s := pendingState 4#4 [0x11, 0x00, 0x00, 0xAA] 0
    (afterState (exec (.decompressSafe true) s)).regs.code = codeOf (-8) ∧
    (afterState (exec (.decompressSafe false) s)).regs.code = 0 := by decide

/-- 45_checksum.md R355: `abc` with seed 1. -/
theorem test_checksum :
    (afterState (exec (.checksum true) (pendingState 5#4 [0x61, 0x62, 0x63] 0))).regs.cksum = 0x024D0127 := by
  decide

/-- 45_checksum.md R351: the seed FFFFFFFF and one byte 00. -/
theorem test_checksum_reduces_seed :
    let s := pendingState 5#4 [0x00] 0
    (afterState (exec (.checksum true) { s with snap := { s.snap with seedV := 0xFFFFFFFF } })).regs.cksum =
      0x001C000E := by decide

/-- 40_commands.md R165, every reserved code. -/
theorem test_reserved :
    ∀ p ∈ Instr.reserved true, (afterState (exec p.1 State.reset)).regs.code = codeOf (-9) := by decide

/-- 43_stream_opcodes.md R280: 12 61 copies 61 and sets ST = 1. -/
theorem test_litFirst :
    let s := afterState (exec (.litFirst 1) (decodingState 4#4 oneByteStream 1 [] 1 .start))
    outList s 1 = [0x61] ∧ s.dec = { ip := 2, op := 1, st := .st1 } := by decide

/-- 43_stream_opcodes.md R281: a run of 5 zero bytes sets ST = 4. -/
theorem test_litRun :
    let s := afterState (exec (.litRun 5) (decodingState 4#4 [0x02, 0, 0, 0, 0, 0] 1 [] 5 .start))
    outList s 5 = [0, 0, 0, 0, 0] ∧ s.dec = { ip := 6, op := 5, st := .st4 } := by decide

/-- 43_stream_opcodes.md R282: at Out = 61, the bytes 00 00. -/
theorem test_m1n :
    let s := afterState (exec (.m1n 1 0) (decodingState 4#4 [0x00, 0x00] 2 [0x61] 9 .st1))
    outList s 3 = [0x61, 0x61, 0x61] ∧ s.dec = { ip := 2, op := 3, st := .st0 } := by decide

/-- 43_stream_opcodes.md R283: at OP = 2049 the bytes 00 00 copy Out(0), Out(1), Out(2). -/
theorem test_m1f :
    let s := decodingState 4#4 [0x00, 0x00] 2 [0x61, 0x62, 0x63] 2052 .st4
    let t := afterState (exec (.m1f 2049 0) { s with dec := { s.dec with op := 2049 } })
    [t.outAt 2049, t.outAt 2050, t.outAt 2051] = [0x61, 0x62, 0x63] ∧ t.dec.op = 2052 := by decide

/-- 43_stream_opcodes.md R284: 6C 00 copies the four previous bytes. -/
theorem test_m2s :
    let s := afterState (exec (.m2s 4 4 0) (decodingState 4#4 [0x6C, 0x00] 2 [1, 2, 3, 4] 8 .st4))
    outList s 8 = [1, 2, 3, 4, 1, 2, 3, 4] ∧ s.dec.st = .st0 := by decide

/-- 43_stream_opcodes.md R285: 9C 00 after `abcdabcd` writes `abcda`. -/
theorem test_m2l :
    let s := afterState (exec (.m2l 5 8 0) (decodingState 4#4 [0x9C, 0x00] 2
      [0x61, 0x62, 0x63, 0x64, 0x61, 0x62, 0x63, 0x64] 13 .st4))
    [s.outAt 8, s.outAt 9, s.outAt 10, s.outAt 11, s.outAt 12] = [0x61, 0x62, 0x63, 0x64, 0x61] := by decide

/-- 43_stream_opcodes.md R274: CopyMatch(5, 2) at Out = 61 62; and a literal of the S field. -/
theorem test_m3 :
    let s := afterState (exec (.m3 5 2 1) (decodingState 4#4 [0x7A] 0 [0x61, 0x62] 8 .st4))
    outList s 8 = [0x61, 0x62, 0x61, 0x62, 0x61, 0x62, 0x61, 0x7A] ∧
      s.dec = { ip := 1, op := 8, st := .st1 } := by decide

/-- 43_stream_opcodes.md R287: at OP = 16385, 12 04 00 copies Out(0) to Out(3). -/
theorem test_m4 :
    let s := decodingState 4#4 [0x12, 0x04, 0x00] 3 [0x61, 0x62, 0x63, 0x64] 16389 .st4
    let t := afterState (exec (.m4 4 16385 0) { s with dec := { s.dec with op := 16385 } })
    [t.outAt 16385, t.outAt 16388] = [0x61, 0x64] ∧ t.dec.op = 16389 := by decide

/-- 43_stream_opcodes.md R289 with 44_decompressors.md R315: OK, and OutputNotConsumed. -/
theorem test_eos :
    (afterState (exec (.eos 3 0) (decodingState 4#4 [0x11, 0, 0] 3 [] 0 .start))).regs.code = 0 ∧
    (afterState (exec (.eos 3 0) (decodingState 4#4 [0x11, 0, 0] 3 [] 1 .start))).regs.code = codeOf (-12) := by
  decide

/-- A table word is placed so that the next step runs it (log 17). -/
theorem test_withFetchWord :
    (afterState (step (State.reset.withFetchWord 64 0x101))).regs.initDone = true ∧
    (afterState (step (State.reset.withFetchWord 8 0x40))).regs.code = codeOf (-6) := by decide

/-! ### Witnesses: states and operands that meet the hypotheses of each statement -/

/-- Both sides of DecodeInvertsEncode, at the ends of the operand ranges. -/
theorem witness_DecodeInvertsEncode :
    (∀ p ∈ [(Instr.litFirst 238, DecState.start), (.litRun 18, .start), (.litRun 19, .st0), (.m1n 1024 3, .st3),
        (.m1f 3072 3, .st4), (.m2s 3 2048 3, .st0), (.m2l 8 1 0, .st1), (.m3 34 16384 3, .st2),
        (.m4 10 49151 3, .st4), (.m4 3 32767 0, .start), (.eos 9 3, .st0)],
      p.1.wf 64 = true ∧ p.1.admits p.2 = true ∧ ∃ bs, encode p.1 = .stream bs) ∧
    (Instr.checksum true).wf 64 = true ∧ (Instr.checksum true).admits .st0 = true ∧
    ∃ w, encode (.checksum true) = .command w := by
  refine ⟨?_, rfl, rfl, _, rfl⟩
  simp only [List.mem_cons, List.not_mem_nil, or_false, forall_eq_or_imp, forall_eq]
  exact ⟨⟨by decide, by decide, _, rfl⟩, ⟨by decide, by decide, _, rfl⟩, ⟨by decide, by decide, _, rfl⟩,
    ⟨by decide, by decide, _, rfl⟩, ⟨by decide, by decide, _, rfl⟩, ⟨by decide, by decide, _, rfl⟩,
    ⟨by decide, by decide, _, rfl⟩, ⟨by decide, by decide, _, rfl⟩, ⟨by decide, by decide, _, rfl⟩,
    ⟨by decide, by decide, _, rfl⟩, ⟨by decide, by decide, _, rfl⟩⟩

theorem witness_EncodeInvertsDecode :
    decodeStream 64 .st0 [0x20#8, 0x01#8, 0x00#8, 0x00#8, 0x7F#8] = .ok (.m3 34 1 0, 4) := by decide

theorem witness_EveryOpcodeByteDecodes : (0x01 : Byte) ≠ 0 := by decide

theorem witness_EncoderEmitsStreamInstructions :
    (4 ≤ 4 ∧ 1 ≤ 49151 ∧ 49151 ≤ 49151 ∧ 3 ≤ 3) ∧ 4 ≤ 4 ∧ (1 ≤ 238 ∧ 238 ≤ 238 ∧ State.reset.enc.opos = 0) ∧
    4 ≤ 239 ∧ ¬(State.reset.enc.opos = 0 ∧ 239 ≤ 238) := by decide

theorem witness_NoneStoresStrict :
    State.reset.regs.busy = false ∧ (busyState .wait).regs.busy = true ∧
    (idleState (.regWrite 0 64 0x100)).quiet ∧ (0x100 : Word).extractLsb' 0 4 = 0#4 := by decide

theorem witness_InitIsIdempotent :
    let s := { State.reset with inbox := [.regWrite 0 64 0x101] }
    let u := afterState (exec (.init true) s)
    exec (.init true) s = .next u ∧ u.quiet ∧ cmdOpOf 0x101 = 1#4 ∧ u.inbox = [.regWrite 0 64 0x101] :=
  ⟨rfl, by decide, by decide, rfl⟩

theorem witness_ReservedCodesNotImplemented :
    (.reserved6 true, 6#4) ∈ Instr.reserved true ∧
    (idleState (.regWrite 0 64 0x006)).quiet ∧ (idleState (.regWrite 0 64 0x006)).regs.busy = false ∧
    6 ≤ ((0x006 : Word).extractLsb' 0 4).toNat := by decide

theorem witness_CommandIssue :
    (idleState (.regWrite 0 64 0x102)).quiet ∧ (idleState (.regWrite 0 64 0x102)).regs.busy = false ∧
    (0x100 : Word).extractLsb' 0 4 = 0#4 ∧ (0x102 : Word).extractLsb' 0 4 ≠ 0#4 := by decide

/-- Each register access while BUSY, with the previous completion observed and not, and the issue by an idle
block. -/
theorem witness_BusyWritesIgnored :
    (busyState (.regWrite 0xF8 64 5)).quiet ∧ (busyState (.regWrite 0xF8 64 5)).regs.busy = true ∧
    (busyState (.regRead 0x08 64)).quiet ∧ (busyState (.regRead 0x38 64)).quiet ∧
    (busyState (.regRead 0x40 64)).regs.busy = true ∧ 0xF8 % 8 = 0 ∧ 0xF8 ≤ 0xFF ∧
    (∀ off ∈ [0x08, 0x38, 0x40], (busyState (.regRead off 64)).view.resultsSeen = true ∧
      (busyState (.regRead off 64)).view.cksumSeen = true ∧
      ({ busyState (.regRead off 64) with view := { unseen := [], resultsSeen := false, cksumSeen := false } } : State).quiet) ∧
    (idleState (.regWrite 0 64 0x102)).quiet ∧ (idleState (.regWrite 0 64 0x102)).regs.busy = false ∧
    (0x102 : Word).extractLsb' 0 4 ≠ 0#4 := by decide

/-- Every register, observed; and STATUS, OUT_LEN and CKSUM before the observation, idle and busy. -/
theorem witness_RegisterReads :
    (∀ off ∈ [0x00, 0x08, 0x10, 0x18, 0x20, 0x28, 0x30, 0x38, 0x40, 0x48, 0xF8],
      (idleState (.regRead off 64)).quiet ∧ off % 8 = 0 ∧ off ≤ 0xFF) ∧
    ∀ off ∈ [0x08, 0x38, 0x40], ∀ s ∈ [idleState (.regRead off 64), busyState (.regRead off 64)],
      ({ s with view := { unseen := [], resultsSeen := false, cksumSeen := false } } : State).quiet := by decide

theorem witness_RegisterWrites :
    ∀ off ∈ [0x08, 0x10, 0x18, 0x20, 0x28, 0x30, 0x38, 0x40, 0x48, 0xF8],
      (idleState (.regWrite off 64 7)).quiet ∧ (idleState (.regWrite off 64 7)).regs.busy = false ∧
      (idleState (.regWrite off 64 7)).platform.wf = true ∧ off % 8 = 0 ∧ 0 < off ∧ off ≤ 0xFF := by decide

theorem witness_OtherAccessesRefused :
    (idleState (.regWrite 0 32 7)).quiet ∧ (32 ≠ 64 ∨ 0 % 8 ≠ 0 ∨ 0xFF < 0) ∧
    (idleState (.regRead 4 64)).quiet ∧ (64 ≠ 64 ∨ 4 % 8 ≠ 0 ∨ 0xFF < 4) ∧
    (64 ≠ 64 ∨ 0x100 % 8 ≠ 0 ∨ 0xFF < 0x100) := by decide

theorem witness_CompressBeforeInit : State.reset.regs.initDone = false := rfl

theorem witness_InitDoneNotNeeded :
    let s := pendingState 4#4 oneByteStream 1
    .decompressSafe true ∈ [Instr.decompress true, .decompressSafe true, .checksum true] ∧
    exec (.decompressSafe true) s = .next (afterState (exec (.decompressSafe true) s)) := ⟨by decide, rfl⟩

/-- The three ways to be rejected (an input or output range past the top, one shared byte), and buffers that
touch the top and each other's end and pass. -/
theorem witness_ArgumentChecks :
    let s := pendingState 4#4 oneByteStream 1
    let at_ := fun (a n b m : Word) => { s with
      snap := { s.snap with srcBase := a, srcN := n, dstBase := b, dstN := m } }
    (at_ 0xFFFFFFFFFFFFFFFF 2 0 1).argsOk = false ∧ (at_ 0 1 0xFFFFFFFFFFFFFFFF 2).argsOk = false ∧
    (at_ 0 2 1 1).argsOk = false ∧ (at_ 0 1 1 1).argsOk = true ∧
    (at_ 0xFFFFFFFFFFFFFFFF 1 0 1).argsOk = true ∧ (at_ 0 0 0 1).argsOk = true ∧ s.regs.initDone = true ∧
    s.undefinedMark = false ∧ (afterState (exec (.decompress true) s)).undefinedMark = false := by decide

/-- An early error (clause a) and a late one (clauses b and c). -/
theorem witness_OutputAfterErrors :
    let early := { pendingState 4#4 oneByteStream 1 with regs := Regs.reset }
    let late := pendingState 4#4 [] 2
    (early.mem.wf = true ∧ (afterState (exec (.compress true) early)).undefinedMark = false ∧
      (afterState (exec (.compress true) early)).regs.code ≠ 0 ∧ early.regs.initDone = false) ∧
    (late.mem.wf = true ∧ (afterState (exec (.decompressSafe true) late)).undefinedMark = false ∧
      (afterState (exec (.decompressSafe true) late)).regs.code ≠ 0 ∧ late.argsOk = true) := by decide

theorem witness_CompletionWritesResults :
    let s := pendingState 4#4 oneByteStream 1
    (Instr.decompressSafe true).isCommand = true ∧ (∀ t, Instr.decompressSafe true ≠ .noCommand t) ∧
    (afterState (exec (.decompressSafe true) s)).undefinedMark = false ∧
    (afterState (exec (.reserved6 true) s)).regs.code ≠ 0 ∧
    (∀ t, Instr.init true ≠ .checksum t) ∧ (∀ t, Instr.checksum true ≠ .init t) := by decide

theorem witness_CommandsEnd :
    (Instr.decompress true).isCommand = true ∧ (∀ t, Instr.decompress true ≠ .noCommand t) ∧
    (pendingState 3#4 [] 0).undefinedMark = false := by decide

theorem witness_InstructionsKeepHostRegisters :
    exec (.litRun 5) State.reset = .next (afterState (exec (.litRun 5) State.reset)) ∧
    ∀ t, Instr.litRun 5 ≠ .noCommand t := ⟨rfl, by decide⟩

theorem witness_UnitsAreSeparate :
    exec (.checksum true) State.reset = .next (afterState (exec (.checksum true) State.reset)) ∧
    (Instr.checksum true).isCommand = true ∧ (∀ t, Instr.checksum true ≠ .compress t) ∧
    (∀ t, Instr.checksum true ≠ .compress t ∧ Instr.checksum true ≠ .decompress t ∧
      Instr.checksum true ≠ .decompressSafe t) ∧ ∀ t, Instr.init true ≠ .checksum t :=
  ⟨rfl, by decide, by decide, by decide, by decide⟩

/-- Each clause, with dma_ok false at one byte alone: the second byte of a header, the third literal in the
input and in the output, the source and the destination of a match after its first byte and its S literals, the
second byte of a checksum, and a source byte of COMPRESS. -/
theorem witness_BusErrors :
    let without := fun (s : State) (a : Nat) => { s with platform := { xlen := 64, noDma := [(a, a + 1)] } }
    (let d := without (decodingState 4#4 [0x20, 0x01, 0x00, 0x00] 0 [] 1 .st4) 0x101
     d.hostRace = false ∧ d.undefinedMark = false ∧ d.decoding = true ∧ d.dec.ip + 1 < d.snap.srcN.toNat ∧
      (∀ j < 1, d.dmaOk (d.inAddr (d.dec.ip + j)) = true) ∧ d.dmaOk (d.inAddr (d.dec.ip + 1)) = false ∧
      decodeStream d.platform.xlen d.dec.st ((d.inputList.drop d.dec.ip).take 1) = .error .cut) ∧
    (let d := decodingState 4#4 [0x01, 1, 2, 3, 4] 1 [] 4 .start
     (Instr.litRun 4).litCount = some 4 ∧ d.dec.op + 4 ≤ d.snap.dstN.toNat ∧
      d.dec.ip + 4 ≤ d.snap.srcN.toNat ∧ (without d 0x103).dmaOk (d.inAddr (d.dec.ip + 2)) = false ∧
      (without d 0x202).dmaOk (d.outAddr (d.dec.op + 2)) = false) ∧
    (let d := decodingState 4#4 [7] 0 [1, 2] 6 .st4
     (Instr.m2s 3 2 1).matchParts = some (3, 2, 1) ∧ 2 ≤ d.dec.op ∧ d.dec.op + 3 + 1 ≤ d.snap.dstN.toNat ∧
      d.dec.ip + 1 ≤ d.snap.srcN.toNat ∧ (without d 0x201).dmaOk (d.outAddr (d.dec.op - 2 + 1)) = false ∧
      (without d 0x204).dmaOk (d.outAddr (d.dec.op + 2)) = false ∧
      (without d 0x100).dmaOk (d.inAddr d.dec.ip) = false ∧
      (without d 0x205).dmaOk (d.outAddr (d.dec.op + 3)) = false) ∧
    (let e := without (pendingState 5#4 [1, 2] 0) 0x101
     e.inputOk = true ∧ ¬e.inputReadable) ∧
    (let e := without (pendingState 2#4 [1, 2] 69) 0x101
     e.regs.initDone = true ∧ e.argsOk = true ∧
      e.snap.srcN.toNat + e.snap.srcN.toNat / 16 + 64 + 3 ≤ e.snap.dstN.toNat) := by decide

/-- The four cases: a range past the top, an empty buffer, a readable one and one that is not. -/
theorem witness_ChecksumResult :
    let s := pendingState 5#4 [0x61, 0x62, 0x63] 0
    2 ^ s.platform.xlen < (0xFFFFFFFFFFFFFFFF : Word).toNat + s.snap.srcN.toNat ∧
    s.snap.srcBase.toNat + s.snap.srcN.toNat ≤ 2 ^ s.platform.xlen ∧ (pendingState 5#4 [] 0).snap.srcN = 0 ∧
    s.snap.srcN ≠ 0 ∧ s.inputReadable ∧
    ¬({ s with platform := { xlen := 64, noDma := [(0x102, 0x103)] } } : State).inputReadable := by decide

theorem witness_ChecksumClosedForm :
    let s := pendingState 5#4 [0x61, 0x62, 0x63] 0
    let s' := pendingState 5#4 [0x63, 0x62, 0x61] 0
    s.inputOk = true ∧ s.inputReadable ∧ 0 < s.snap.srcN.toNat ∧ s'.snap = s.snap ∧
    s'.platform = s.platform ∧ 2 < s.snap.srcN.toNat ∧ (2 - 0) % 65521 ≠ 0 ∧ s.inAt 0 ≠ s.inAt 2 ∧
    s'.inAt 0 = s.inAt 2 ∧ s'.inAt 2 = s.inAt 0 ∧
    (∀ k < s.snap.srcN.toNat, k ≠ 0 → k ≠ 2 → s'.inAt k = s.inAt k) := by decide

theorem witness_ChecksumDetectsOneByte :
    let s := pendingState 5#4 [0x61, 0x62, 0x63] 0
    let s' := pendingState 5#4 [0x61, 0x60, 0x63] 0
    s.inputOk = true ∧ s'.inputOk = true ∧ s.inputReadable ∧ s'.inputReadable ∧ s'.snap.srcN = s.snap.srcN ∧
    s'.snap.seedV = s.snap.seedV ∧ s'.inAt 1 ≠ s.inAt 1 ∧
    (∀ m < s.snap.srcN.toNat, m ≠ 1 → s'.inAt m = s.inAt m) := by decide

theorem witness_ProbeUpdatesItsBucket : Table.wf [(10077, 5#16)] = true := by decide

/-- P = 5 and CAND = 0 with differing and with equal bytes at offset 4. -/
theorem witness_MatchLengthClosedForm :
    let s := pendingState 2#4 (List.replicate 40 0x00) 109
    let m := { s with enc := { s.enc with p := 5, e := 20 } }
    m.mf.cand < m.enc.p ∧ m.enc.p < m.enc.e ∧
    (∀ k, k ≤ m.enc.base + m.enc.e + 4 → m.dmaOk (m.inAddr k) = true) ∧
    m.inAt (m.enc.base + m.enc.p + 4) = m.inAt (m.enc.base + m.mf.cand + 4) ∧
    (let d := { m with mem := m.mem.write 0x109 1 }
     d.inAt (d.enc.base + d.enc.p + 4) ≠ d.inAt (d.enc.base + d.mf.cand + 4)) := by decide

theorem witness_ScanRunsToItsLimit :
    let s := pendingState 2#4 (List.replicate 21 0x00) 89
    let b := { s with enc := { s.enc with bl := 21 } }
    20 < b.enc.bl ∧ scanLoop (b.enc.bl + 1) true (startBlock b) =
      .ok () (okState (scanLoop (b.enc.bl + 1) true (startBlock b))) ∧
    encBlock b = .ok () (okState (encBlock b)) ∧
    blockLoop s.snap.srcN.toNat (startCompress s) =
      .ok () (okState (blockLoop s.snap.srcN.toNat (startCompress s))) :=
  ⟨by decide, rfl, rfl, rfl⟩

/-- The empty source and the one of 21 bytes, each with an output buffer that its stream just fills. -/
theorem witness_CompressShortSources :
    (let s := pendingState 2#4 [] 3
     s.mem.wf = true ∧ s.regs.initDone = true ∧ s.argsOk = true ∧ s.inputReadable ∧ s.outputWritable ∧
      s.snap.srcN.toNat ≤ 21 ∧ 3 ≤ s.snap.dstN.toNat) ∧
    (let s := pendingState 2#4 (List.replicate 21 0x07) 25
     s.mem.wf = true ∧ s.regs.initDone = true ∧ s.argsOk = true ∧ s.inputReadable ∧ s.outputWritable ∧
      s.snap.srcN.toNat ≤ 21 ∧ 25 ≤ s.snap.dstN.toNat) := by decide

theorem witness_CompressFitsBound :
    let s := pendingState 2#4 [0x61] 68
    s.regs.initDone = true ∧ s.argsOk = true ∧ s.inputReadable ∧ s.outputWritable ∧
    s.snap.srcN.toNat + s.snap.srcN.toNat / 16 + 64 + 3 ≤ s.snap.dstN.toNat := by decide

theorem witness_CompressWritesOnlyItsStream :
    let s := pendingState 2#4 [0x61] 68
    exec (.compress true) s = .next (afterState (exec (.compress true) s)) ∧
    (afterState (exec (.compress true) s)).regs.code = 0 := ⟨rfl, by decide⟩

/-- 95_test_vectors.md C10, the parse of 40 zero bytes: the first probe, at 5, finds position 0, and the match
runs to the scan limit 20. -/
theorem parses_zeros : Parses (List.replicate 40 0) 0 0 [⟨5, 15, 5⟩] :=
  have same : ∀ j < 15, 5 + j < 20 ∧
      (List.replicate 40 (0 : Byte)).getD (5 + j) 0 = (List.replicate 40 (0 : Byte)).getD (0 + j) 0 := by decide
  .block (fs := [⟨5, 15, 5⟩]) (gs := []) (n := 40) (by decide) (by decide)
    (.hit (q := 5) (n := 15) (by decide) (by decide) (by decide)
      (.inr ⟨by decide, by decide, fun j _ h => same j h, .inl (by decide)⟩) (.limit (by decide)))
    (.tail (by decide))

/-- 95_test_vectors.md C10, the stream: LIT_RUN 5, M3 15 5, LIT_RUN 20, EOS. -/
theorem test_parsedBytes :
    parsedBytes (List.replicate 40 0) 0 [⟨5, 15, 5⟩] = [0x02] ++ List.replicate 5 0 ++
      [0x2D, 0x10, 0x00, 0x00, 0x02] ++ List.replicate 20 0 ++ [0x11, 0x00, 0x00] := by decide

/-- 95_test_vectors.md C15, the stream of its parse: a match whose S field counts the literal after it. -/
theorem test_parsedBytes_s_field :
    parsedBytes sourceC15 0 [⟨6, 4, 1⟩, ⟨11, 5, 11⟩] =
      [0x03, 0x61, 0x62, 0x61, 0x61, 0x62, 0x62, 0x61, 0x00, 0x61, 0x88, 0x01, 0x0D, 0x61, 0x62, 0x62, 0x62,
        0x61, 0x62, 0x61, 0x62, 0x62, 0x62, 0x62, 0x61, 0x62, 0x61, 0x62, 0x62, 0x11, 0x00, 0x00] := by decide

/-- Equal sources in two states that differ in everything else. -/
theorem witness_CompressIsDeterministic :
    let s := pendingState 2#4 [0x61, 0x62] 68
    let s' := { pendingState 2#4 [0x61, 0x62] 9 with table := [(3, 4#16)], draws := 7 }
    s.mem.wf = true ∧ s'.mem.wf = true ∧ s'.snap.srcN = s.snap.srcN ∧
    (∀ k < s.snap.srcN.toNat, s'.inAt k = s.inAt k) ∧
    (afterState (exec (.compress true) s)).regs.code = 0 ∧
    (afterState (exec (.compress false) s')).regs.code = 0 := by decide

/-- The stream of `61` has 5 bytes: a buffer of 4 and one of 5. -/
theorem witness_OutOfMemoryExactlyWhenTooLong :
    let s := pendingState 2#4 [0x61] 68
    let u := afterState (exec (.compress true) s)
    u.regs.code = 0 ∧ (4 : Word).toNat ≤ s.snap.dstN.toNat ∧ (4 : Word).toNat < u.regs.outLen.toNat ∧
    u.regs.outLen.toNat ≤ (5 : Word).toNat := by decide

theorem witness_CompressRoundTrip :
    let s := pendingState 2#4 [0x61] 68
    let u := afterState (exec (.compress true) s)
    let d := pendingState 4#4 oneByteStream 1
    s.mem.wf = true ∧ u.regs.code = 0 ∧ d.platform.wf = true ∧ d.mem.wf = true ∧ d.undefinedMark = false ∧
    d.argsOk = true ∧ d.inputReadable ∧ d.outputWritable ∧ d.snap.srcN = u.regs.outLen ∧
    d.snap.dstN = s.snap.srcN ∧ (∀ j < d.snap.srcN.toNat, d.inAt j = u.outAt j) := by decide

/-- The stream 12 61 11 00 00 expands to 61: a literal run, then EOS. -/
theorem expands_oneByteStream : Expands 64 .start [] oneByteStream [0x61] [] :=
  .literals (i := .litFirst 1) (k := 1) (n := 1) (by decide) rfl (by decide)
    (.eos (len := 3) (s := 0) (n := 3) (by decide))

/-- A stream with a match: 12 61, then 00 00 (M1N 1, 0), then EOS. -/
theorem expands_match :
    Expands 64 .start [] [0x12, 0x61, 0x00, 0x00, 0x11, 0x00, 0x00] [0x61, 0x61, 0x61] [] :=
  .literals (i := .litFirst 1) (k := 1) (n := 1) (by decide) rfl (by decide)
    (.copy (i := .m1n 1 0) (len := 2) (dist := 1) (s := 0) (n := 2) (by decide) rfl (by decide) (by decide)
      (.eos (len := 3) (s := 0) (n := 3) (by decide)))

theorem witness_DecodersExpandStream :
    let s := pendingState 4#4 oneByteStream 1
    Expands s.platform.xlen .start [] s.inputList [0x61] [] ∧ [(0x61 : Byte)].length = s.snap.dstN.toNat ∧
    s.mem.wf = true ∧ s.argsOk = true ∧ s.inputReadable ∧ s.outputWritable := by
  refine ⟨?_, by decide, by decide, by decide, by decide, by decide⟩
  have h : (pendingState 4#4 oneByteStream 1).inputList = oneByteStream := by decide
  rw [h]
  exact expands_oneByteStream

theorem witness_SafeAndUncheckedAgree : (pendingState 3#4 oneByteStream 1).undefinedMark = false := rfl

theorem witness_AtomicDecodeIsStepRun :
    let s := pendingState 4#4 oneByteStream 1
    s.quiet ∧ s.argsOk = true ∧ s.snap.opv = 4#4 ∧
    exec (.decompressSafe s.snap.strictV) s = .next (afterState (exec (.decompressSafe s.snap.strictV) s)) ∧
    (pendingState 3#4 oneByteStream 1).snap.opv = 3#4 := ⟨by decide, by decide, by decide, rfl, by decide⟩

theorem witness_DecoderOkMeansWholeOutput :
    let s := pendingState 4#4 oneByteStream 1
    s.undefinedMark = false ∧ (afterState (exec (.decompressSafe true) s)).undefinedMark = false ∧
    (afterState (exec (.decompress true) s)).undefinedMark = false ∧
    (afterState (exec (.decompress true) s)).regs.code = 0 := by decide

theorem witness_DecodersWriteOnlyOutput :
    (afterState (exec (.decompress true) (pendingState 3#4 oneByteStream 1))).undefinedMark = false ∧
    (afterState (exec (.decompressSafe true) (pendingState 4#4 [] 1))).undefinedMark = false ∧
    (afterState (exec (.decompressSafe true) (pendingState 4#4 [] 1))).regs.code ≠ 0 := by decide

theorem witness_TruncatedStreams :
    let s := pendingState 4#4 oneByteStream 1
    let u := afterState (exec (.decompressSafe true) s)
    u.regs.code = 0 ∧ u.dec.ip = s.snap.srcN.toNat ∧ (4 : Word).toNat < s.snap.srcN.toNat := by decide

theorem witness_EmptyAndMinimalStreams :
    (pendingState 4#4 [] 1).argsOk = true ∧ (pendingState 4#4 [] 1).snap.srcN = 0 ∧
    ∀ n ∈ [0, 1], let s := pendingState 4#4 [0x11, 0x00, 0x00] n
      s.argsOk = true ∧ s.snap.srcN = 3 ∧ s.inputReadable ∧ s.inAt 0 = 0x11#8 ∧ s.inAt 1 = 0x00#8 ∧
      s.inAt 2 = 0x00#8 := by decide

theorem witness_LiteralInstructionsCopy :
    let s := decodingState 4#4 [0x01, 1, 2, 3, 4] 1 [] 4 .start
    ∀ i ∈ [Instr.litFirst 4, Instr.litRun 4], i.litCount = some 4 ∧ i.wf s.platform.xlen = true ∧
      s.mem.wf = true ∧ s.argsOk = true ∧ s.dec.op + 4 ≤ s.snap.dstN.toNat ∧
      s.dec.ip + 4 ≤ s.snap.srcN.toNat ∧ (∀ j < 4, s.dmaOk (s.inAddr (s.dec.ip + j)) = true) ∧
      (∀ j < 4, s.dmaOk (s.outAddr (s.dec.op + j)) = true) := by decide

/-- All six instructions: matches of every length class, at their largest distance and with every S; and one
that fills the output. -/
theorem witness_MatchInstructionsCopy :
    let far := decodingState 4#4 [7, 8, 9] 0 [1, 2] 20000 .st4
    let near := decodingState 4#4 [7, 8, 9] 0 [1, 2] 10 .st4
    ∀ q ∈ [(Instr.m1n 1024 3, 2, 1024, 3, { far with dec := { far.dec with op := 1024 } }),
        (.m1f 3072 2, 3, 3072, 2, { far with dec := { far.dec with op := 3072 } }),
        (.m2s 4 2048 1, 4, 2048, 1, { far with dec := { far.dec with op := 2048 } }),
        (.m2l 5 2 3, 5, 2, 3, near), (.m3 8 1 0, 8, 1, 0, near),
        (.m4 9 16385 0, 9, 16385, 0, { far with dec := { far.dec with op := 16385 } })],
      let (i, len, dist, n, s) := q
      i.matchParts = some (len, dist, n) ∧ i.wf s.platform.xlen = true ∧ s.mem.wf = true ∧ s.argsOk = true ∧
      s.platform.noDma = [] ∧ dist ≤ s.dec.op ∧ s.dec.op + len + n ≤ s.snap.dstN.toNat ∧
      s.dec.ip + n ≤ s.snap.srcN.toNat := by decide

/-- In every state with XLEN = 64 and no address excluded a buffer below the top of memory is accessible: the
two premises on accesses that the states of `witness_MatchInstructionsCopy` meet. -/
theorem accessible_of_no_exclusion {s : State} (hp : s.platform = { xlen := 64, noDma := [] })
    (hok : s.argsOk = true) : s.inputReadable ∧ s.outputWritable := by
  simp only [State.argsOk, State.inputOk, rangeOk, hp, Bool.and_eq_true, decide_eq_true_eq] at hok
  constructor <;> intro j hj <;>
    simp only [State.dmaOk, State.hasByte, Platform.dmaOk, hp, State.inAddr, State.outAddr, List.any_nil,
      Bool.not_false, Bool.and_true, decide_eq_true_eq] <;> omega

theorem witness_EosFinishes :
    (decodingState 4#4 [0x11, 0, 0] 3 [] 0 .start).snap.opv = 4#4 ∧
    (decodingState 3#4 [0x11, 0, 0] 3 [] 0 .start).snap.opv = 3#4 := by decide

/-- The four clauses: distance, length, S literals against the output, S literals against the input. -/
theorem witness_FailedMatchChecks :
    let s := decodingState 4#4 [7] 0 [1, 2] 7 .st4
    s.snap.opv = 4#4 ∧ s.outputWritable ∧
    ((Instr.m2s 3 3 0).matchParts = some (3, 3, 0) ∧ s.dec.op < 3) ∧
    ((Instr.m2l 6 2 0).matchParts = some (6, 2, 0) ∧ 2 ≤ s.dec.op ∧ s.dec.op ≤ s.snap.dstN.toNat ∧
      s.snap.dstN.toNat < s.dec.op + 6) ∧
    ((Instr.m2l 5 2 1).matchParts = some (5, 2, 1) ∧ s.dec.op + 5 ≤ s.snap.dstN.toNat ∧
      s.snap.dstN.toNat < s.dec.op + 5 + 1) ∧
    ((Instr.m2s 3 2 2).matchParts = some (3, 2, 2) ∧ s.dec.op + 3 + 2 ≤ s.snap.dstN.toNat ∧
      s.dec.ip ≤ s.snap.srcN.toNat ∧ s.snap.srcN.toNat < s.dec.ip + 2) := by decide

theorem witness_FailedLiteralChecks :
    let s := decodingState 4#4 [7, 8, 9] 0 [] 5 .start
    s.snap.opv = 4#4 ∧ (Instr.litRun 6).litCount = some 6 ∧ s.dec.op ≤ s.snap.dstN.toNat ∧
    s.snap.dstN.toNat < s.dec.op + 6 ∧ (Instr.litFirst 4).litCount = some 4 ∧
    s.dec.op + 4 ≤ s.snap.dstN.toNat ∧ s.dec.ip ≤ s.snap.srcN.toNat ∧
    s.snap.srcN.toNat < s.dec.ip + 4 := by decide

/-- The end at a boundary, a header cut short, and both guards (with XLEN = 10 the second 00 byte). -/
theorem witness_FailedFetches :
    let s := decodingState 4#4 [0x20, 0x01, 0x00] 0 [] 5 .st4
    (s.hostRace = false ∧ s.undefinedMark = false ∧ s.decoding = true ∧ s.snap.opv = 4#4 ∧
      s.inputReadable ∧ s.dec.ip < s.snap.srcN.toNat ∧
      decodeStream s.platform.xlen s.dec.st (s.inputList.drop s.dec.ip) = .error .cut) ∧
    (let e := decodingState 4#4 [0x20] 1 [] 5 .st4
     e.dec.ip = e.snap.srcN.toNat ∧ e.inputReadable) ∧
    (let g := { decodingState 4#4 [0x00, 0x00, 0x00, 0x00, 0x01] 0 [] 5 .st0 with
      platform := { xlen := 10, noDma := [] } }
     g.inputReadable ∧
      decodeStream g.platform.xlen g.dec.st (g.inputList.drop g.dec.ip) = .error .longLiteral) ∧
    (let g := { decodingState 4#4 [0x20, 0x00, 0x00, 0x00, 0x01] 0 [] 5 .st0 with
      platform := { xlen := 10, noDma := [] } }
     g.inputReadable ∧
      decodeStream g.platform.xlen g.dec.st (g.inputList.drop g.dec.ip) = .error .longMatch) := by decide

theorem witness_StepRunsStreamInstruction :
    let s := decodingState 4#4 oneByteStream 0 [] 1 .start
    s.hostRace = false ∧ s.undefinedMark = false ∧ s.decoding = true ∧ s.dec.ip < s.snap.srcN.toNat ∧
    s.inputReadable ∧
    decodeStream s.platform.xlen s.dec.st (s.inputList.drop s.dec.ip) = .ok (.litFirst 1, 1) := by decide

/-- An empty inbox and a waiting host, busy and idle, with another block whose command shares no byte, and with
one that reads this block's output. -/
theorem witness_StepPerformsPendingCommand :
    let s := busyState .wait
    let apart := { s with peers := [(1, { s.snap with srcBase := 0x300, dstBase := 0x400 })] }
    let meets := { s with peers := [(1, { s.snap with srcBase := 0x201, dstBase := 0x400 })] }
    State.reset.quiet ∧ State.reset.inbox = [] ∧ State.reset.regs.busy = false ∧ s.quiet ∧
    s.inbox = [.wait] ∧ s.regs.busy = true ∧ apart.peerConflict = false ∧
    (s.snap.inOutput 0x201 = true ∧ meets.peers.any (fun p => p.2.inBuffers 0x201) = true) ∧
    (pendingState 5#4 [1] 0).inbox = [] ∧ (pendingState 5#4 [1] 0).regs.busy = true := by decide

theorem witness_TableWordRunsNext : State.reset.mem.wf = true := by decide

/-- Each mark alone with nothing to come, both marks with a host access next, and both with a reset next. -/
theorem witness_MarkedStatesStop :
    let race := { State.reset with hostRace := true }
    let undef := { State.reset with undefinedMark := true }
    let both := fun ev : HostEvent => { idleState ev with hostRace := true, undefinedMark := true }
    (race.hostRace = true ∧ ∀ rest, race.inbox ≠ .reset :: rest) ∧
    (undef.hostRace = false ∧ undef.undefinedMark = true ∧ ∀ rest, undef.inbox ≠ .reset :: rest) ∧
    ((both (.memRead 0)).hostRace = true ∧ (both (.memRead 0)).undefinedMark = true ∧
      ∀ rest, (both (.memRead 0)).inbox ≠ .reset :: rest) ∧
    ((both .reset).inbox = [.reset] ∧ (both .reset).hostRace = true ∧ (both .reset).undefinedMark = true) :=
  ⟨⟨rfl, nofun⟩, ⟨rfl, rfl, nofun⟩, ⟨rfl, rfl, nofun⟩, rfl, rfl, rfl⟩

/-- 70_reset_and_hazards.md R450: a reset gives both marks the value 0, whatever the block was doing. -/
theorem test_reset_clears_marks :
    let s := { busyState .reset with hostRace := true, undefinedMark := true }
    (afterState (step s)).hostRace = false ∧ (afterState (step s)).undefinedMark = false ∧
    (afterState (step s)).regs = Regs.reset ∧ (afterState (step s)).inbox = [] := by decide

/-- The last byte of the input, the first byte of the output, a byte in both ranges (of a command R163 will
reject), the byte after the output, an idle block with a hazard left by an unobserved command and one with none,
and an address past the top of memory. -/
theorem witness_PendingBuffers :
    let s := busyState (.memWrite 0x102 9)
    let r := busyState (.memRead 0x200)
    let both := { r with snap := { r.snap with dstBase := 0x102 } }
    let left := { idleState (.memRead 0x201) with
      view := { unseen := [s.snap], resultsSeen := false, cksumSeen := true } }
    let small := { idleState (.memRead (2 ^ 32)) with platform := { xlen := 32, noDma := [] } }
    (s.quiet ∧ s.regs.busy = true ∧ s.mem.wf = true ∧ 0x102 < 2 ^ s.platform.xlen ∧
      s.snap.opv ∈ [2#4, 3#4, 4#4] ∧ s.snap.inInput 0x102 = true ∧ s.snap.inBuffers 0x202 = false) ∧
    (r.quiet ∧ r.inbox = [.memRead 0x200] ∧ r.snap.inOutput 0x200 = true ∧ r.snap.inOutput 0x102 = false) ∧
    (both.quiet ∧ both.snap.inInput 0x102 = true ∧ both.snap.inOutput 0x102 = true) ∧
    (left.quiet ∧ left.regs.busy = false ∧ s.snap ∈ left.view.unseen ∧ s.snap.inOutput 0x201 = true) ∧
    ((idleState (.memWrite 7 9)).quiet ∧ (idleState (.memWrite 7 9)).regs.busy = false ∧
      (idleState (.memWrite 7 9)).view.unseen = []) ∧
    (small.quiet ∧ 2 ^ small.platform.xlen ≤ 2 ^ 32) := by decide

/-- 20_memory.md R90 (b) before (c): a host read of a byte in both ranges is a draw. -/
theorem test_read_of_shared_byte :
    let r := busyState (.memRead 0x102)
    (afterState (step { r with snap := { r.snap with dstBase := 0x102 } })).draws = 1 := by decide

/-- 20_memory.md R92, 70_reset_and_hazards.md R457: the output of `61` is a draw before the host reads
BUSY = 0, and the byte itself after that read. -/
theorem test_output_after_observation :
    let s := pendingState 4#4 oneByteStream 1
    let u := afterState (step { s with inbox := [.wait] })
    (afterState (step { u with inbox := [.memRead 0x200] })).draws = 1 ∧
    (let v := afterState (step { u with inbox := [.regRead 8 64] })
     let w := afterState (step { v with inbox := [.memRead 0x200] })
     v.hostRead = 0x2_0000_0000 ∧ w.hostRead = 0x61 ∧ w.draws = v.draws) := by decide

/-- 10_state.md R39, 70_reset_and_hazards.md R457: a decoder's end leaves CKSUM, observed before, readable, and its
own OUT_LEN is a draw until the host reads BUSY = 0. -/
theorem test_cksum_after_decode :
    let s := pendingState 4#4 oneByteStream 1
    let u := afterState (step { s with regs := { s.regs with cksum := 7 }, inbox := [.wait] })
    u.regs.busy = false ∧ u.view.resultsSeen = false ∧
    (afterState (step { u with inbox := [.regRead 0x40 64] })).hostRead = 7 ∧
    (afterState (step { u with inbox := [.regRead 0x38 64] })).draws = 8 := by decide

/-- Block 1's command reads 0x400 and writes 0x402 and 0x403; this block's command has its buffers at 0x100 and
0x200. A write and a read inside block 1's buffers, with and without a conflict, outside them, and past the top
of memory; the issue in a busy block, in a free one and of NONE. -/
theorem witness_PeerRace :
    let s := busyState .wait
    let c := { s.snap with srcBase := 0x400, srcN := 2, dstBase := 0x402 }
    let free := { s with peers := [(1, c)], inbox := [.peerWrite 1 0x403 9] }
    let race := { s with peers := [(1, { c with dstBase := 0x102 })], inbox := [.peerWrite 1 0x102 9] }
    let third := { idleState (.peerRead 1 0x402) with peers := [(1, c), (2, { c with srcBase := 0x300 })] }
    (free.quiet ∧ free.mem.wf = true ∧ free.peers.lookup 1 = some c ∧ c.inOutput 0x403 = true ∧
      c.inOutput 0x404 = false ∧ s.snap.inBuffers 0x403 = false ∧ c.inBuffers 0x400 = true ∧
      s.snap.inOutput 0x400 = false) ∧
    (race.quiet ∧ race.peers.lookup 1 = some { c with dstBase := 0x102 } ∧ s.snap.inBuffers 0x102 = true) ∧
    (third.quiet ∧ third.regs.busy = false ∧ third.peers.lookup 1 = some c ∧ c.inBuffers 0x402 = true ∧
      ({ c with srcBase := 0x300 } : Snapshot).inOutput 0x402 = true) ∧
    ({ c with dstBase := 0xFFFFFFFFFFFFFFFF } : Snapshot).inOutput (2 ^ 64) = true ∧
    free.peers.lookup 2 = none ∧ c.opv ≠ 0 ∧ ({ c with opv := 0 } : Snapshot).opv = 0 := by decide

/-- A reset of an idle block, of a busy one and of a marked one. -/
theorem witness_ResetValues :
    (idleState .reset).quiet ∧ (idleState .reset).regs.busy = false ∧ (idleState .reset).inbox = [.reset] ∧
    (busyState .reset).decoding = false ∧ (busyState .reset).inbox = [.reset] ∧
    ({ busyState .reset with undefinedMark := true } : State).undefinedMark = true := by decide

/-- A pending command with an output buffer, and one without. -/
theorem witness_ResetWhileBusy :
    (busyState .reset).quiet ∧ (busyState .reset).mem.wf = true ∧ (busyState .reset).regs.busy = true ∧
    (busyState .reset).snap.opv ∈ [2#4, 3#4, 4#4] ∧
    (busyState .reset).snap.dstBase.toNat + 1 < 2 ^ (busyState .reset).platform.xlen ∧
    (pendingState 5#4 [1] 0).snap.opv ∉ [2#4, 3#4, 4#4] := by decide

/-- The state after reset meets the invariant, and a step goes on from it. -/
theorem witness_StepKeepsInv : Inv State.reset ∧ step State.reset = .next State.reset :=
  ⟨⟨by decide, by decide, by decide, by decide, by decide, by decide, by decide, by decide, by decide,
    by decide, by decide, by decide, by decide, by decide, by decide⟩, rfl⟩

theorem witness_NoStateBetweenCommands :
    let s := pendingState 2#4 [0x61] 68
    let s' := { s with table := [(3, 4#16)], cks := { s1 := 5, s2 := 6 } }
    (Instr.compress true).isCommand = true ∧
    s' = { s with table := s'.table, enc := s'.enc, mf := s'.mf, cks := s'.cks, dec := s'.dec } ∧
    exec (.compress true) s' = .next (afterState (exec (.compress true) s')) := ⟨rfl, rfl, rfl⟩

end Sys2Proof.Tests
end

section
/-! Two runs of one command side by side. `Twin` relates a run that started in `s₀` and has reached `s` to a
second run that has reached `t`: it says what the first run has kept of `s₀`, that it keeps the invariant, and that
the second one differs from it in T and the working registers of the units only. One pass over the operations of a
unit then gives its frame, its part of the invariant and its independence of what the units held before (the
statements O21, O22, O59 and O60). -/

namespace Sys2Proof.Machine

/-! ### What is compared -/

/-- The state without T and the working registers of the units (10_state.md R40, R44 to R49). -/
def State.sansUnits (s : State) : State :=
  { s with
    enc := State.reset.enc, mf := State.reset.mf, dec := State.reset.dec, cks := State.reset.cks, table := [] }

/-- The registers without those a completion writes (60_exceptions.md R403). -/
def Regs.sansResults (r : Regs) : Regs :=
  { r with
    code := Regs.reset.code, busy := Regs.reset.busy, initDone := Regs.reset.initDone
    outLen := Regs.reset.outLen, cksum := Regs.reset.cksum }

/-- The state without what a completion writes. -/
def State.sansEnd (s : State) : State :=
  { s with regs := s.regs.sansResults, view := State.reset.view, decoding := false }

/-- What CHECKSUM keeps: everything but a completion's results and its own accumulators. -/
def State.keptByChecksum (s : State) : State := { s.sansEnd with cks := State.reset.cks }

/-- What COMPRESS keeps: everything but a completion's results, memory, the draws, T and the registers of the encoder
and the match finder. -/
def State.keptByCompress (s : State) : State :=
  { s.sansEnd with enc := State.reset.enc, mf := State.reset.mf, table := [], mem := [], draws := 0 }

/-- What the decoders keep: everything but a completion's results, memory, the draws, their own registers and the
UNDEFINED mark. -/
def State.keptByDecode (s : State) : State :=
  { s.sansEnd with dec := State.reset.dec, mem := [], draws := 0, undefinedMark := false }

/-- A run from `s₀` to `s`, and a second run at `t`: `keep` names what the first has kept, `P` and `Q` are the
invariants at its ends, and the second differs from it in T and the working registers only. -/
structure Twin (keep : State → State) (P Q : State → Prop) (s₀ s t : State) : Prop where
  kept : keep s = keep s₀
  inv : P s₀ → Q s
  host : t.sansUnits = s.sansUnits

section
variable {keep : State → State} {P Q : State → Prop} {s₀ s t : State}

theorem Twin.mem_eq (h : Twin keep P Q s₀ s t) : t.mem = s.mem := (congrArg State.mem h.host :)

theorem Twin.snap_eq (h : Twin keep P Q s₀ s t) : t.snap = s.snap := (congrArg State.snap h.host :)

theorem Twin.platform_eq (h : Twin keep P Q s₀ s t) : t.platform = s.platform := (congrArg State.platform h.host :)

theorem Twin.regs_eq (h : Twin keep P Q s₀ s t) : t.regs = s.regs := (congrArg State.regs h.host :)

theorem Twin.srcN_eq (h : Twin keep P Q s₀ s t) : t.snap.srcN = s.snap.srcN := by rw [h.snap_eq]

theorem Twin.dstN_eq (h : Twin keep P Q s₀ s t) : t.snap.dstN = s.snap.dstN := by rw [h.snap_eq]

theorem Twin.inputOk_eq (h : Twin keep P Q s₀ s t) : t.inputOk = s.inputOk := (congrArg State.inputOk h.host :)

theorem Twin.argsOk_eq (h : Twin keep P Q s₀ s t) : t.argsOk = s.argsOk := (congrArg State.argsOk h.host :)

end

/-! ### Answers alike -/

/-- Two actions answer alike: both go on, with the same value, in states that `T` relates and that agree on `k`; or
both stop for the same reason, one that `S` admits, in states that `T` relates. -/
def Res.Alike {α κ : Type} (S : Stop → Prop) (T : State → State → Prop) (k : State → κ) :
    Res α → Res α → Prop
  | .ok a s, .ok b t => b = a ∧ T s t ∧ k t = k s
  | .stop e s, .stop f t => f = e ∧ S e ∧ T s t
  | _, _ => False

section
variable {α β κ κ' : Type} {S : Stop → Prop} {T : State → State → Prop} {k : State → κ} {k' : State → κ'}

/-- Sequences of actions that answer alike answer alike; the second part may use how the first answered. -/
theorem Res.Alike.andThen_of_ok {r r' : Res α} {f g : α → State → Res β} (h : r.Alike S T k r')
    (hf : ∀ a s t, r = .ok a s → T s t → k t = k s → (f a s).Alike S T k' (g a t)) :
    (r.andThen f).Alike S T k' (r'.andThen g) := by
  cases r <;> cases r'
  · obtain ⟨rfl, hT, hk⟩ := h; exact hf _ _ _ rfl hT hk
  · exact h.elim
  · exact h.elim
  · exact h

/-- Sequences of actions that answer alike answer alike. -/
theorem Res.Alike.andThen {r r' : Res α} {f g : α → State → Res β} (h : r.Alike S T k r')
    (hf : ∀ a s t, T s t → k t = k s → (f a s).Alike S T k' (g a t)) :
    (r.andThen f).Alike S T k' (r'.andThen g) := h.andThen_of_ok fun a s t _ => hf a s t

/-- Commands whose actions answer alike end alike. -/
theorem Res.Alike.finish {r r' : Res α} {f g : α → State → State} {Q : State → State → Prop}
    (h : r.Alike S T k r') (hf : ∀ a s t, T s t → k t = k s → Q (f a s) (g a t))
    (he : ∀ e s t, S e → T s t → Q (s.endStop e) (t.endStop e)) : Q (r.finish f) (r'.finish g) := by
  cases r <;> cases r'
  · obtain ⟨rfl, hT, hk⟩ := h; exact hf _ _ _ hT hk
  · exact h.elim
  · exact h.elim
  · obtain ⟨rfl, hS, hT⟩ := h; exact he _ _ _ hS hT

end

/-! ### Accesses -/

section
variable {keep : State → State} {P Q : State → Prop} {s₀ s t : State} {κ : Type} {S : Stop → Prop}
  {k : State → κ}

theorem Twin.dmaOk_eq (h : Twin keep P Q s₀ s t) (a : Nat) : t.dmaOk a = s.dmaOk a := by
  unfold State.dmaOk State.hasByte; rw [h.platform_eq]

theorem Twin.inAddr_eq (h : Twin keep P Q s₀ s t) (i : Nat) : t.inAddr i = s.inAddr i := by
  unfold State.inAddr; rw [h.snap_eq]

theorem Twin.outAddr_eq (h : Twin keep P Q s₀ s t) (j : Nat) : t.outAddr j = s.outAddr j := by
  unfold State.outAddr; rw [h.snap_eq]

/-- Twins read the same byte, or both meet a bus error. -/
theorem Twin.memRead (h : Twin keep P Q s₀ s t) (hk : k t = k s) (hS : S (.status .error)) (a : Nat) :
    (memRead a s).Alike S (Twin keep P Q s₀) k (memRead a t) := by
  unfold Machine.memRead; rw [h.dmaOk_eq, h.mem_eq]
  split
  · exact ⟨rfl, h, hk⟩
  · exact ⟨rfl, hS, h⟩

theorem Twin.inByte (h : Twin keep P Q s₀ s t) (hk : k t = k s) (hS : S (.status .error)) (i : Nat) :
    (inByte i s).Alike S (Twin keep P Q s₀) k (inByte i t) := by
  unfold Machine.inByte; rw [h.inAddr_eq]; exact h.memRead hk hS _

theorem Twin.outByte (h : Twin keep P Q s₀ s t) (hk : k t = k s) (hS : S (.status .error)) (j : Nat) :
    (outByte j s).Alike S (Twin keep P Q s₀) k (outByte j t) := by
  unfold Machine.outByte; rw [h.outAddr_eq]; exact h.memRead hk hS _

/-- Twins stay twins when both store the byte. -/
theorem Twin.write (h : Twin keep P Q s₀ s t) {a : Nat} {v : Byte}
    (hkeep : ∀ (u : State) (m : Memory), keep { u with mem := m } = keep u)
    (hQ : Q s → Q { s with mem := s.mem.write a v }) :
    Twin keep P Q s₀ { s with mem := s.mem.write a v } { t with mem := t.mem.write a v } where
  kept := (hkeep _ _).trans h.kept
  inv := hQ ∘ h.inv
  host := congrArg (fun u : State => { u with mem := u.mem.write a v }) h.host

/-- Twins write the same byte to Out(j), or both meet a bus error. -/
theorem Twin.setOut (h : Twin keep P Q s₀ s t) (hk : k t = k s) (hS : S (.status .error)) (j : Nat) (v : Byte)
    (hkeep : ∀ (u : State) (m : Memory), keep { u with mem := m } = keep u)
    (hQ : ∀ (u : State) (a : Nat), u.dmaOk a = true → Q u → Q { u with mem := u.mem.write a v })
    (hkm : ∀ (u : State) (m : Memory), k { u with mem := m } = k u) :
    (setOut j v s).Alike S (Twin keep P Q s₀) k (setOut j v t) := by
  unfold Machine.setOut memWrite; rw [h.outAddr_eq, h.dmaOk_eq]
  split
  · next hd => exact ⟨rfl, h.write hkeep (hQ _ _ hd), (hkm _ _).trans (hk.trans (hkm _ _).symm)⟩
  · exact ⟨rfl, hS, h⟩

end

/-! ### Ends -/

section
variable {keep : State → State} {P Q : State → Prop} {s₀ s t : State}

theorem Twin.refl {P : State → Prop} (h : t.sansUnits = s.sansUnits) : Twin keep P P s s t := ⟨rfl, id, h⟩

/-- A run goes on with a second one. -/
theorem Twin.trans {P' Q' : State → Prop} {u w : State} (h : Twin keep P Q s₀ s t) (h' : Twin keep P' Q' s u w)
    (hQ : Q s → P' s) : Twin keep P Q' s₀ u w where
  kept := h'.kept.trans h.kept
  inv := h'.inv ∘ hQ ∘ h.inv
  host := h'.host

/-- Either run may change T and the working registers of the units, where `keep` allows it. -/
theorem Twin.update {Q' : State → Prop} {u w : State} (h : Twin keep P Q s₀ s t) (hkeep : keep u = keep s)
    (hQ : Q s → Q' u) (hu : u.sansUnits = s.sansUnits) (hw : w.sansUnits = t.sansUnits) :
    Twin keep P Q' s₀ u w := ⟨hkeep.trans h.kept, hQ ∘ h.inv, hw.trans (h.host.trans hu.symm)⟩

theorem Twin.weaken {Q' : State → Prop} (h : Twin keep P Q s₀ s t) (hQ : Q s → Q' s) :
    Twin keep P Q' s₀ s t := h.update rfl hQ rfl rfl

theorem sansUnits_havocOutput (s : State) : s.havocOutput.sansUnits = s.sansUnits.havocOutput := by
  unfold State.havocOutput
  show (if hasOutput s.snap.opv then _ else _ : State).sansUnits = if hasOutput s.snap.opv then _ else _
  split <;> rfl

/-- An update that no working register enters is made by twins alike. -/
theorem Twin.map (h : Twin keep P Q s₀ s t) {f : State → State} {Q' : State → Prop}
    (hf : ∀ u : State, (f u).sansUnits = f u.sansUnits) (hkeep : keep (f s) = keep s) (hQ : Q s → Q' (f s)) :
    Twin keep P Q' s₀ (f s) (f t) where
  kept := hkeep.trans h.kept
  inv := hQ ∘ h.inv
  host := by rw [hf, hf, h.host]

theorem sansUnits_raiseLate (c : Status) (s : State) : (s.raiseLate c).sansUnits = s.sansUnits.raiseLate c := by
  unfold State.raiseLate; rw [← sansUnits_havocOutput]; rfl

end

end Sys2Proof.Machine
end

section
/-! The invariant `Inv` under each update a command makes: one lemma for each, cited by the units' proofs. -/

namespace Sys2Proof.Machine

theorem opv_of_hasInput : ∀ op : BitVec 4, hasInput op = true → 2 ≤ op.toNat ∧ op.toNat ≤ 5 := by decide

variable {s : State}

theorem dmaOk_lt {a : Nat} (h : s.dmaOk a = true) : a < 2 ^ s.platform.xlen := by
  simp only [State.dmaOk, State.hasByte, Bool.and_eq_true, decide_eq_true_eq] at h
  exact h.1

/-- A byte below the top of memory may be stored. -/
theorem Inv.write (h : Inv s) {a : Nat} (ha : a < 2 ^ s.platform.xlen) (v : Byte) :
    Inv { s with mem := s.mem.write a v } :=
  { h with
    memWf := Memory.wf_write a v h.memWf
    memBound := Memory.write_bound ha h.memBound }

theorem Inv.setEnc (h : Inv s) (e : EncRegs) : Inv { s with enc := e } := { h with }

theorem Inv.setMf (h : Inv s) (m : MfRegs) : Inv { s with mf := m } := { h with }

theorem Inv.setCks (h : Inv s) (c : CksRegs) : Inv { s with cks := c } := { h with }

theorem Inv.clearTable (h : Inv s) : Inv (mfClear s) := { h with tableWf := rfl }

theorem mfHash_lt (dv : BitVec 32) : mfHash dv < Config.tEntries := by
  have := (dv * Config.hashMul).isLt
  simp only [mfHash, Config.tEntries, BitVec.toNat_ushiftRight, Nat.shiftRight_eq_div_pow]
  omega

/-- A probe writes one of T's entries (41_match_finder.md R201, R202). -/
theorem Inv.probe (h : Inv s) (dv : BitVec 32) : Inv (mfProbe (mfHash dv) s) :=
  { h with tableWf := Table.wf_write _ (mfHash_lt dv) h.tableWf }

/-- IP and OP may move inside their buffers. -/
theorem Inv.setDec (h : Inv s) {d : DecRegs} (hip : s.dec.ip ≤ s.snap.srcN.toNat → d.ip ≤ s.snap.srcN.toNat)
    (hop : s.dec.op ≤ s.snap.dstN.toNat → d.op ≤ s.snap.dstN.toNat) : Inv { s with dec := d } :=
  { h with
    decode := fun hd => by
      obtain ⟨hb, ho, hi, hj⟩ := h.decode hd
      exact ⟨hb, ho, hip hi, hop hj⟩ }

/-- Either fault mark may be set. -/
theorem Inv.markRace (h : Inv s) : Inv { s with hostRace := true } := { h with }

theorem Inv.markUndefined (h : Inv s) : Inv s.markUndefined := { h with decode := nofun }

/-- The free values of a havoc lie in the output buffer, below the top of memory. -/
theorem Inv.havocOutput (h : Inv s) : Inv s.havocOutput := by
  unfold State.havocOutput
  split
  · exact { h with
      memWf := Memory.wf_havoc _ _ _ h.memWf
      memBound := fun c hc => by
        rcases Memory.mem_havoc hc with hc | hc
        · exact h.memBound c hc
        · have : s.outCount ≤ 2 ^ s.platform.xlen - s.snap.dstBase.toNat := Nat.min_le_right _ _
          show c.1 < 2 ^ s.platform.xlen
          omega }
  · exact h

/-- The commands the host has not observed have buffers, the one that ends included. -/
theorem Inv.unseen_keepOpen (h : Inv s) (c : Snapshot) :
    ∀ d ∈ (s.view.keepOpen c).unseen, 2 ≤ d.opv.toNat ∧ d.opv.toNat ≤ 5 := by
  rw [keepOpen_unseen]
  split
  · next hc =>
    intro d hd
    rcases List.mem_cons.1 hd with rfl | hd
    · exact opv_of_hasInput _ hc
    · exact h.unseen d hd
  · exact h.unseen

theorem ofNat_lt_of_lt {n b : Nat} (h : n < b) : (BitVec.ofNat 64 n).toNat < b := by
  rw [BitVec.toNat_ofNat]; exact (Nat.mod_le _ _).trans_lt h

/-- A completion with a status that is raised and an OUT_LEN of XLEN bits (60_exceptions.md R403). -/
theorem Inv.complete (h : Inv s) {c : Status} {n : Nat} {x : BitVec 32} (hc : c.code ∈ raisedCodes)
    (hn : n < 2 ^ s.platform.xlen) : Inv (s.complete c n x) :=
  { h with
    code := hc
    outLen := by
      show (if c = .ok ∧ hasOutput s.snap.opv then BitVec.ofNat 64 n else 0).toNat < _
      split
      · exact ofNat_lt_of_lt hn
      · exact Nat.two_pow_pos _
    snapshot := nofun
    command := nofun
    decode := nofun
    unseen := h.unseen_keepOpen s.snap }

theorem Inv.raiseEarly (h : Inv s) {c : Status} (hc : c.code ∈ raisedCodes) : Inv (s.raiseEarly c) :=
  h.complete hc (Nat.two_pow_pos _)

theorem Inv.raiseLate (h : Inv s) {c : Status} (hc : c.code ∈ raisedCodes) : Inv (s.raiseLate c) :=
  h.havocOutput.raiseEarly hc

/-- The state of a block that is performing a command. -/
def Performing (s : State) : Prop := Inv s ∧ s.regs.busy = true

/-- The output length of a pending command is an XLEN-bit number (10_state.md R31, R43). -/
theorem Performing.dstN_lt (h : Performing s) : s.snap.dstN.toNat < 2 ^ s.platform.xlen := by
  rw [h.1.snapshot h.2]; exact h.1.dstLen

theorem Performing.write (h : Performing s) {a : Nat} (ha : s.dmaOk a = true) (v : Byte) :
    Performing { s with mem := s.mem.write a v } := ⟨h.1.write (dmaOk_lt ha) v, h.2⟩

end Sys2Proof.Machine
end

section
/-! COMPRESS in two runs side by side (42_compressor.md, 41_match_finder.md). Each operation is given the agreement
of the two runs that it needs: the parts of the working registers it reads. -/

namespace Sys2Proof.Machine

/-- The ways an operation of COMPRESS stops: a bus error or a full output buffer. -/
def EncStop (e : Stop) : Prop := e = .status .error ∨ e = .status .outOfMemory

/-- A block that performs COMPRESS has written inside its output buffer. -/
def Encoding (s : State) : Prop := Performing s ∧ s.enc.opos ≤ s.snap.dstN.toNat

/-- Two runs of COMPRESS. -/
abbrev EncTwin (s₀ s t : State) : Prop := Twin State.keptByCompress Performing Encoding s₀ s t

/-- What an action of COMPRESS reads between blocks: OPOS, BASE, L and TI. -/
def carried (s : State) : Nat × Nat × Nat × Nat := (s.enc.opos, s.enc.base, s.enc.l, s.enc.ti)

/-- What it reads in a block: the encoder registers and T. -/
def inBlock (s : State) : EncRegs × Table := (s.enc, s.table)

/-- What it reads after a probe. -/
def probed (s : State) : EncRegs × Table × Nat := (s.enc, s.table, s.mf.cand)

/-- What it reads while a match is measured. -/
def measured (s : State) : EncRegs × Table × Nat × Nat := (s.enc, s.table, s.mf.cand, s.mf.mlen)

/-- What it reads after a match is measured. -/
def matched (s : State) : EncRegs × Table × MfRegs := (s.enc, s.table, s.mf)

section
variable {s t : State}

theorem carried_eq : carried t = carried s ↔ t.enc.opos = s.enc.opos ∧ t.enc.base = s.enc.base ∧
    t.enc.l = s.enc.l ∧ t.enc.ti = s.enc.ti := by simp [carried]

theorem inBlock_eq : inBlock t = inBlock s ↔ t.enc = s.enc ∧ t.table = s.table := by simp [inBlock]

theorem probed_eq : probed t = probed s ↔ t.enc = s.enc ∧ t.table = s.table ∧ t.mf.cand = s.mf.cand := by
  simp [probed]

theorem measured_eq : measured t = measured s ↔ t.enc = s.enc ∧ t.table = s.table ∧
    t.mf.cand = s.mf.cand ∧ t.mf.mlen = s.mf.mlen := by simp [measured]

theorem matched_eq : matched t = matched s ↔ t.enc = s.enc ∧ t.table = s.table ∧ t.mf = s.mf := by
  simp [matched]

theorem inBlock_of_probed (h : probed t = probed s) : inBlock t = inBlock s := by
  obtain ⟨he, ht, -⟩ := probed_eq.1 h
  exact inBlock_eq.2 ⟨he, ht⟩

end

/-! ### Updates -/

section
variable {s₀ s t : State}

/-- Encoder registers other than OPOS may be set. -/
theorem EncTwin.setEnc (h : EncTwin s₀ s t) {e e' : EncRegs} (he : e.opos = s.enc.opos) :
    EncTwin s₀ { s with enc := e } { t with enc := e' } :=
  h.update rfl (fun ⟨⟨hi, hb⟩, ho⟩ => ⟨⟨hi.setEnc e, hb⟩, he.trans_le ho⟩) rfl rfl

/-- OPOS may move while it is inside the output buffer. -/
theorem EncTwin.advance (h : EncTwin s₀ s t) (ho : s.enc.opos < s.snap.dstN.toNat) :
    EncTwin s₀ { s with enc := { s.enc with opos := s.enc.opos + 1 } }
      { t with enc := { t.enc with opos := t.enc.opos + 1 } } :=
  h.update rfl (fun ⟨⟨hi, hb⟩, _⟩ => ⟨⟨hi.setEnc _, hb⟩, ho⟩) rfl rfl

theorem EncTwin.setMf (h : EncTwin s₀ s t) {m m' : MfRegs} :
    EncTwin s₀ { s with mf := m } { t with mf := m' } :=
  h.update rfl (fun ⟨⟨hi, hb⟩, ho⟩ => ⟨⟨hi.setMf m, hb⟩, ho⟩) rfl rfl

theorem EncTwin.clear (h : EncTwin s₀ s t) : EncTwin s₀ (mfClear s) (mfClear t) :=
  h.update rfl (fun ⟨⟨hi, hb⟩, ho⟩ => ⟨⟨hi.clearTable, hb⟩, ho⟩) rfl rfl

theorem EncTwin.mfProbe (h : EncTwin s₀ s t) (dv : BitVec 32) :
    EncTwin s₀ (mfProbe (mfHash dv) s) (mfProbe (mfHash dv) t) :=
  h.update rfl (fun ⟨⟨hi, hb⟩, ho⟩ => ⟨⟨hi.probe dv, hb⟩, ho⟩) rfl rfl

theorem Encoding.write {v : Byte} (s : State) (a : Nat) (ha : s.dmaOk a = true) (h : Encoding s) :
    Encoding { s with mem := s.mem.write a v } := ⟨h.1.write ha v, h.2⟩

end

/-! ### Emission -/

/-- An agreement under which two runs emit alike: it fixes OPOS and survives the emission of a byte. -/
structure EmitKey {κ : Type} (k : State → κ) : Prop where
  opos : ∀ s t, k t = k s → t.enc.opos = s.enc.opos
  write : ∀ (s : State) (m : Memory), k { s with mem := m } = k s
  advance : ∀ s t : State, k t = k s → k { t with enc := { t.enc with opos := t.enc.opos + 1 } } =
    k { s with enc := { s.enc with opos := s.enc.opos + 1 } }

theorem EmitKey.setMem {κ : Type} {k : State → κ} (K : EmitKey k) {s t : State} (hk : k t = k s) (m m' : Memory) :
    k { t with mem := m' } = k { s with mem := m } := (K.write t m').trans (hk.trans (K.write s m).symm)

theorem emitKey_carried : EmitKey carried where
  opos _ _ h := (carried_eq.1 h).1
  write _ _ := rfl
  advance _ _ h := by
    obtain ⟨ho, hb, hl, ht⟩ := carried_eq.1 h
    simp [carried, ho, hb, hl, ht]

theorem emitKey_inBlock : EmitKey inBlock where
  opos _ _ h := by rw [(inBlock_eq.1 h).1]
  write _ _ := rfl
  advance _ _ h := by
    obtain ⟨he, ht⟩ := inBlock_eq.1 h
    simp [inBlock, he, ht]

theorem emitKey_probed : EmitKey probed where
  opos _ _ h := by rw [(probed_eq.1 h).1]
  write _ _ := rfl
  advance _ _ h := by
    obtain ⟨he, ht, hc⟩ := probed_eq.1 h
    simp [probed, he, ht, hc]

section
variable {s₀ s t : State} {κ : Type} {k : State → κ}

theorem EncTwin.inByte (h : EncTwin s₀ s t) (hk : k t = k s) (i : Nat) :
    (inByte i s).Alike EncStop (EncTwin s₀) k (inByte i t) := Twin.inByte h hk (.inl rfl) i

theorem EncTwin.outByte (h : EncTwin s₀ s t) (hk : k t = k s) (j : Nat) :
    (outByte j s).Alike EncStop (EncTwin s₀) k (outByte j t) := Twin.outByte h hk (.inl rfl) j

theorem EncTwin.le32 (h : EncTwin s₀ s t) (hk : k t = k s) (i : Nat) :
    (le32 i s).Alike EncStop (EncTwin s₀) k (le32 i t) :=
  (h.inByte hk i).andThen fun _ _ _ h hk => (h.inByte hk (i + 1)).andThen fun _ _ _ h hk =>
    (h.inByte hk (i + 2)).andThen fun _ _ _ h hk => (h.inByte hk (i + 3)).andThen fun _ _ _ h hk => ⟨rfl, h, hk⟩

variable (K : EmitKey k)
include K

theorem EncTwin.setOut (h : EncTwin s₀ s t) (hk : k t = k s) (j : Nat) (v : Byte) :
    (setOut j v s).Alike EncStop (EncTwin s₀) k (setOut j v t) :=
  Twin.setOut h hk (.inl rfl) j v (fun _ _ => rfl) Encoding.write K.write

theorem EncTwin.emit (h : EncTwin s₀ s t) (hk : k t = k s) (v : Byte) :
    (emit v s).Alike EncStop (EncTwin s₀) k (emit v t) := by
  unfold Machine.emit Machine.setOut memWrite
  rw [h.dstN_eq, K.opos _ _ hk, h.outAddr_eq, h.dmaOk_eq]
  split
  · exact ⟨rfl, .inr rfl, h⟩
  · next hn =>
    split
    · next hd =>
      exact ⟨rfl, EncTwin.advance (Twin.write h (fun _ _ => rfl) (Encoding.write s _ hd)) (Nat.lt_of_not_le hn),
        K.advance _ _ (K.setMem hk _ _)⟩
    · exact ⟨rfl, .inl rfl, h⟩

theorem EncTwin.emitBytes (h : EncTwin s₀ s t) (hk : k t = k s) (bs : List Byte) :
    (emitBytes bs s).Alike EncStop (EncTwin s₀) k (emitBytes bs t) := by
  induction bs generalizing s t with
  | nil => exact ⟨rfl, h, hk⟩
  | cons b bs ih => exact (h.emit K hk b).andThen fun _ _ _ h hk => ih h hk

theorem EncTwin.emitLits (h : EncTwin s₀ s t) (hk : k t = k s) (n src : Nat) :
    (emitLits n src s).Alike EncStop (EncTwin s₀) k (emitLits n src t) := by
  induction n generalizing src s t with
  | zero => exact ⟨rfl, h, hk⟩
  | succ n ih =>
    exact (h.inByte hk src).andThen fun b _ _ h hk => (h.emit K hk b).andThen fun _ _ _ h hk => ih h hk _

theorem EncTwin.backPatch (h : EncTwin s₀ s t) (hk : k t = k s) (n : Nat) :
    (backPatch n s).Alike EncStop (EncTwin s₀) k (backPatch n t) := by
  unfold Machine.backPatch
  rw [K.opos _ _ hk]
  refine (h.outByte hk _).andThen fun b u w h hk => ?_
  rw [K.opos _ _ hk]
  exact h.setOut K hk _ _

theorem EncTwin.encLit (h : EncTwin s₀ s t) (hk : k t = k s) (src n : Nat) :
    (encLit src n s).Alike EncStop (EncTwin s₀) k (encLit src n t) := by
  unfold Machine.encLit
  split
  · exact ⟨rfl, h, hk⟩
  · refine Res.Alike.andThen (k := k) ?_ fun _ _ _ h hk => EncTwin.emitLits K h hk n src
    split
    · exact h.backPatch K hk n
    · exact h.emitBytes K hk _

theorem EncTwin.encTail (h : EncTwin s₀ s t) (hk : k t = k s) (n : Nat) :
    (encTail n s).Alike EncStop (EncTwin s₀) k (encTail n t) := by
  unfold Machine.encTail
  rw [K.opos _ _ hk]
  split
  · exact ⟨rfl, h, hk⟩
  · refine Res.Alike.andThen (k := k) ?_ fun _ u w h hk => by
      rw [h.snap_eq]; exact EncTwin.emitLits K h hk n _
    split
    · exact h.emitBytes K hk _
    · split
      · exact h.backPatch K hk n
      · exact h.emitBytes K hk _

end

/-! ### The match finder -/

section
variable {s₀ s t : State}

/-- Twins with the same CAND verify it alike. -/
theorem EncTwin.mfVerify (h : EncTwin s₀ s t) (hk : probed t = probed s) (dv : BitVec 32) :
    (mfVerify dv s).Alike EncStop (EncTwin s₀) probed (mfVerify dv t) := by
  obtain ⟨he, -, hc⟩ := probed_eq.1 hk
  unfold Machine.mfVerify
  rw [he, hc]
  exact (h.le32 hk _).andThen fun _ _ _ h hk => ⟨rfl, h, hk⟩

/-- A probe reads the encoder registers and T, and sets CAND. -/
theorem EncTwin.probe (h : EncTwin s₀ s t) (hk : inBlock t = inBlock s) :
    (probe s).Alike EncStop (EncTwin s₀) probed (probe t) := by
  unfold Machine.probe
  rw [(inBlock_eq.1 hk).1]
  refine (h.le32 hk _).andThen fun dv u w h hk => EncTwin.mfVerify (EncTwin.mfProbe h dv) ?_ dv
  obtain ⟨he, ht⟩ := inBlock_eq.1 hk
  simp [probed, he, ht]

theorem EncTwin.mfSame (h : EncTwin s₀ s t) (hk : measured t = measured s) (j : Nat) :
    (mfSame j s).Alike EncStop (EncTwin s₀) measured (mfSame j t) := by
  unfold Machine.mfSame
  rw [(measured_eq.1 hk).1]
  refine (h.inByte hk _).andThen fun x u w h hk => ?_
  obtain ⟨he, -, hc, -⟩ := measured_eq.1 hk
  rw [he, hc]
  exact (EncTwin.inByte h hk _).andThen fun _ _ _ h hk => ⟨rfl, h, hk⟩

theorem EncTwin.mfExtend (h : EncTwin s₀ s t) (hk : measured t = measured s) (fuel : Nat) :
    (mfExtend fuel s).Alike EncStop (EncTwin s₀) measured (mfExtend fuel t) := by
  induction fuel generalizing s t with
  | zero => exact ⟨rfl, h, hk⟩
  | succ fuel ih =>
    obtain ⟨he, ht, hc, hl⟩ := measured_eq.1 hk
    unfold Machine.mfExtend
    dsimp only
    rw [show t.enc.e = s.enc.e by rw [he], show t.enc.p = s.enc.p by rw [he], hl]
    split
    · exact ⟨rfl, h.setMf, by simp [measured, he, ht, hc]⟩
    · refine (EncTwin.mfSame h.setMf ?_ _).andThen fun same u w h hk => ?_
      · simp [measured, he, ht, hc]
      · split
        · exact ih h hk
        · exact ⟨rfl, h, hk⟩

/-- MF_LENGTH reads CAND and sets MLEN and MOFF. -/
theorem EncTwin.mfLength (h : EncTwin s₀ s t) (hk : probed t = probed s) :
    (mfLength s).Alike EncStop (EncTwin s₀) matched (mfLength t) := by
  obtain ⟨he, ht, hc⟩ := probed_eq.1 hk
  unfold Machine.mfLength
  have hk' : measured { t with mf := { t.mf with mlen := Config.minMatch } } =
      measured { s with mf := { s.mf with mlen := Config.minMatch } } := by simp [measured, he, ht, hc]
  refine Res.Alike.andThen (k := measured) ((EncTwin.mfSame h.setMf hk' _).andThen fun same u w h hk => ?_)
    fun _ u w h hk => ?_
  · rw [(measured_eq.1 hk).1]
    split
    · exact EncTwin.mfExtend h hk _
    · exact ⟨rfl, h, hk⟩
  · obtain ⟨he, ht, hc, hl⟩ := measured_eq.1 hk
    exact ⟨rfl, EncTwin.setMf h, by simp [matched, he, ht, hc, hl]⟩

end

/-! ### The blocks -/

section
variable {s₀ s t : State}

theorem EncTwin.emitMatch (h : EncTwin s₀ s t) (hk : probed t = probed s) :
    (emitMatch s).Alike EncStop (EncTwin s₀) inBlock (emitMatch t) := by
  obtain ⟨he, ht, hc⟩ := probed_eq.1 hk
  unfold Machine.emitMatch
  simp only [he]
  refine (EncTwin.encLit emitKey_probed (h.setEnc ?_) ?_ _ _).andThen
    fun _ u w h hk => (EncTwin.mfLength h hk).andThen fun _ u w h hk => ?_
  · rfl
  · simp [probed, ht, hc]
  · obtain ⟨he, ht, hm⟩ := matched_eq.1 hk
    rw [he, show w.mf.mlen = u.mf.mlen by rw [hm], show w.mf.moff = u.mf.moff by rw [hm]]
    refine EncTwin.emitBytes emitKey_inBlock (EncTwin.setEnc h ?_) ?_ _
    · rfl
    · simp [inBlock, ht]

theorem EncTwin.skipStep (h : EncTwin s₀ s t) (hk : inBlock t = inBlock s) :
    EncTwin s₀ (skipStep s) (skipStep t) ∧ inBlock (skipStep t) = inBlock (skipStep s) := by
  obtain ⟨he, ht⟩ := inBlock_eq.1 hk
  exact ⟨h.setEnc rfl, by simp [inBlock, he, ht]⟩

theorem EncTwin.scanLoop (h : EncTwin s₀ s t) (hk : inBlock t = inBlock s) (fuel : Nat) (skip : Bool) :
    (scanLoop fuel skip s).Alike EncStop (EncTwin s₀) inBlock (scanLoop fuel skip t) := by
  induction fuel generalizing skip s t with
  | zero => exact ⟨rfl, h, hk⟩
  | succ fuel ih =>
    have hs : EncTwin s₀ (if skip then Machine.skipStep s else s) (if skip then Machine.skipStep t else t) ∧
        inBlock (if skip then Machine.skipStep t else t) = inBlock (if skip then Machine.skipStep s else s) := by
      split
      · exact h.skipStep hk
      · exact ⟨h, hk⟩
    obtain ⟨h, hk⟩ := hs
    unfold Machine.scanLoop
    dsimp only
    generalize (if skip = true then Machine.skipStep s else s) = u at h hk ⊢
    generalize (if skip = true then Machine.skipStep t else t) = w at h hk ⊢
    rw [(inBlock_eq.1 hk).1]
    split
    · exact ⟨rfl, h, hk⟩
    · refine (h.probe hk).andThen fun hit u w h hk => ?_
      split
      · exact (EncTwin.emitMatch h hk).andThen fun _ _ _ h hk => ih h hk false
      · exact ih h (inBlock_of_probed hk) true

/-- The start of a block sets T and every encoder register but OPOS, BASE, L, BL and TI. -/
theorem EncTwin.startBlock (h : EncTwin s₀ s t) (hk : carried t = carried s) (hbl : t.enc.bl = s.enc.bl) :
    EncTwin s₀ (startBlock s) (startBlock t) ∧ inBlock (startBlock t) = inBlock (startBlock s) := by
  obtain ⟨ho, hb, hl, ht⟩ := carried_eq.1 hk
  exact ⟨EncTwin.setEnc h.clear rfl, by simp [inBlock, ho, hb, hl, ht, hbl]⟩

theorem EncTwin.encBlock (h : EncTwin s₀ s t) (hk : carried t = carried s) (hbl : t.enc.bl = s.enc.bl) :
    (encBlock s).Alike EncStop (EncTwin s₀) inBlock (encBlock t) := by
  obtain ⟨hs, hks⟩ := h.startBlock hk hbl
  unfold Machine.encBlock
  rw [hbl]
  refine (hs.scanLoop hks _ _).andThen fun _ u w h hk => ?_
  obtain ⟨he, ht⟩ := inBlock_eq.1 hk
  exact ⟨rfl, EncTwin.setEnc h rfl, by simp [inBlock, he, ht]⟩

theorem EncTwin.blockLoop (h : EncTwin s₀ s t) (hk : carried t = carried s) (fuel : Nat) :
    (blockLoop fuel s).Alike EncStop (EncTwin s₀) carried (blockLoop fuel t) := by
  induction fuel generalizing s t with
  | zero => exact ⟨rfl, h, hk⟩
  | succ fuel ih =>
    obtain ⟨ho, hb, hl, ht⟩ := carried_eq.1 hk
    unfold Machine.blockLoop
    rw [hl]
    split
    · exact ⟨rfl, h, hk⟩
    · refine (EncTwin.encBlock (h.setEnc ?_) ?_ ?_).andThen fun _ u w h hk => ih (EncTwin.setEnc h ?_) ?_
      · rfl
      · simp [carried, ho, hb, hl, ht]
      · rfl
      · rfl
      · simp [carried, (inBlock_eq.1 hk).1]

end

/-! ### The command -/

section
variable {s₀ s t : State}

/-- COMPRESS reads nothing of what T and the units held before: its first action sets OPOS, BASE, L and TI. -/
theorem EncTwin.compressStream (hs : t.sansUnits = s.sansUnits) :
    (compressStream s).Alike EncStop (EncTwin s) carried (compressStream t) := by
  have hsnap : t.snap = s.snap := (congrArg State.snap hs :)
  have h : EncTwin s (startCompress s) (startCompress t) :=
    ⟨rfl, fun h => ⟨⟨h.1.setEnc _, h.2⟩, Nat.zero_le _⟩, hs⟩
  unfold Machine.compressStream
  rw [hsnap]
  refine (h.blockLoop (by simp [carried, hsnap]) _).andThen fun _ u w h hk => ?_
  obtain ⟨-, -, hl, ht⟩ := carried_eq.1 hk
  rw [hl, ht]
  exact (EncTwin.encTail emitKey_carried h hk _).andThen fun _ u w h hk =>
    EncTwin.emitBytes emitKey_carried h hk _

theorem raised_of_encStop {e : Stop} (h : EncStop e) : ∃ c : Status, e = .status c ∧ c.code ∈ raisedCodes := by
  rcases h with rfl | rfl
  · exact ⟨_, rfl, by decide⟩
  · exact ⟨_, rfl, by decide⟩

theorem keptByCompress_raiseLate (c : Status) (s : State) :
    (s.raiseLate c).keptByCompress = s.keptByCompress := by
  rw [raiseLate_shape]; rfl

/-- The perform step of COMPRESS in two runs that differ in T and the working registers only. -/
theorem performCompress_twin (hs : t.sansUnits = s.sansUnits) :
    Twin State.keptByCompress Performing Inv s (performCompress s) (performCompress t) := by
  have h : Twin State.keptByCompress Performing Performing s s t := .refl hs
  have early (c : Status) (hc : c.code ∈ raisedCodes) :
      Twin State.keptByCompress Performing Inv s (s.raiseEarly c) (t.raiseEarly c) :=
    h.map (fun _ => rfl) rfl fun h => h.1.raiseEarly hc
  unfold performCompress
  rw [h.regs_eq, h.argsOk_eq]
  split
  · exact early _ (by decide)
  split
  · exact early _ (by decide)
  refine (EncTwin.compressStream hs).finish (fun _ u w h hk => ?_) fun e u w he h => ?_
  · rw [(carried_eq.1 hk).1]
    exact h.map (fun _ => rfl) rfl fun hQ => hQ.1.1.complete (by decide) (hQ.2.trans_lt hQ.1.dstN_lt)
  · obtain ⟨c, rfl, hc⟩ := raised_of_encStop he
    exact h.map (sansUnits_raiseLate c) (keptByCompress_raiseLate c u) fun hQ => hQ.1.1.raiseLate hc

end

end Sys2Proof.Machine
end

section
/-! CHECKSUM and the decoders in two runs side by side (45_checksum.md, 43_stream_opcodes.md, 44_decompressors.md). -/

namespace Sys2Proof.Machine

/-! ### CHECKSUM -/

/-- Two runs of CHECKSUM. -/
abbrev CksTwin (s₀ s t : State) : Prop := Twin State.keptByChecksum Performing Performing s₀ s t

/-- CHECKSUM stops at a bus error only. -/
def CksStop (e : Stop) : Prop := e = .status .error

section
variable {s₀ s t : State}

theorem CksTwin.setCks (h : CksTwin s₀ s t) {c c' : CksRegs} :
    CksTwin s₀ { s with cks := c } { t with cks := c' } :=
  h.update rfl (fun ⟨hi, hb⟩ => ⟨hi.setCks c, hb⟩) rfl rfl

theorem CksTwin.checksumLoop (h : CksTwin s₀ s t) (hk : t.cks = s.cks) (n i : Nat) :
    (checksumLoop n i s).Alike CksStop (CksTwin s₀) State.cks (checksumLoop n i t) := by
  induction n generalizing i s t with
  | zero => exact ⟨rfl, h, hk⟩
  | succ n ih =>
    refine (Twin.inByte (S := CksStop) h hk rfl i).andThen fun b u w h hk => ih (CksTwin.setCks h) ?_ _
    rw [hk]

theorem havocOutput_of_no_output (h : hasOutput s.snap.opv = false) : s.havocOutput = s := by
  simp [State.havocOutput, h]

/-- The perform step of CHECKSUM in two runs that differ in T and the working registers only. -/
theorem performChecksum_twin (hs : t.sansUnits = s.sansUnits) (ho : s.snap.opv = 5#4) :
    Twin State.keptByChecksum Performing Inv s (performChecksum s) (performChecksum t) := by
  have h : CksTwin s s t := .refl hs
  unfold performChecksum
  rw [h.inputOk_eq, h.srcN_eq, show t.snap.seedV = s.snap.seedV by rw [h.snap_eq]]
  split
  · exact h.map (fun _ => rfl) rfl fun h => h.1.raiseEarly (by decide)
  split
  · exact h.map (fun _ => rfl) rfl fun h => h.1.complete (by decide) (Nat.two_pow_pos _)
  refine (CksTwin.checksumLoop h.setCks ?_ _ _).finish (fun _ u w h hk => ?_) fun e u w he h => ?_
  · rfl
  · rw [hk]
    exact h.map (fun _ => rfl) rfl fun h => h.1.complete (by decide) (Nat.two_pow_pos _)
  · obtain rfl : e = .status .error := he
    have hu : u.snap = s.snap := (congrArg State.snap h.kept :)
    have hn : hasOutput u.snap.opv = false := by rw [hu, ho]; rfl
    refine h.map (sansUnits_raiseLate _) ?_ fun h => h.1.raiseLate (by decide)
    rw [endStop_status, raiseLate_shape, havocOutput_of_no_output hn]; rfl

end

/-! ### The copies -/

/-- A block inside a decode. -/
def Decoding (s : State) : Prop := Inv s ∧ s.decoding = true

/-- The ways an operation of a decoder stops: UNDEFINED, or a status that is raised. -/
def DecStop (e : Stop) : Prop := e = .undefined ∨ ∃ c : Status, e = .status c ∧ c.code ∈ raisedCodes

/-- Two runs of a decoder. -/
abbrev DecTwin (s₀ s t : State) : Prop := Twin State.keptByDecode Decoding Decoding s₀ s t

theorem decStop_error : DecStop (.status .error) := .inr ⟨_, rfl, by decide⟩

theorem decStop_failStop (m : Mode) {c : Status} (hc : c.code ∈ raisedCodes) : DecStop (failStop m c) := by
  cases m
  · exact .inl rfl
  · exact .inr ⟨c, rfl, hc⟩

theorem Decoding.write {v : Byte} (s : State) (a : Nat) (ha : s.dmaOk a = true) (h : Decoding s) :
    Decoding { s with mem := s.mem.write a v } := ⟨h.1.write (dmaOk_lt ha) v, h.2⟩

section
variable {s₀ s t : State}

/-- IP and OP may move inside their buffers. -/
theorem DecTwin.setDec (h : DecTwin s₀ s t) {d d' : DecRegs}
    (hip : s.dec.ip ≤ s.snap.srcN.toNat → d.ip ≤ s.snap.srcN.toNat)
    (hop : s.dec.op ≤ s.snap.dstN.toNat → d.op ≤ s.snap.dstN.toNat) :
    DecTwin s₀ { s with dec := d } { t with dec := d' } :=
  h.update rfl (fun ⟨hi, hd⟩ => ⟨hi.setDec hip hop, hd⟩) rfl rfl

theorem DecTwin.inByte (h : DecTwin s₀ s t) (hk : t.dec = s.dec) (i : Nat) :
    (inByte i s).Alike DecStop (DecTwin s₀) State.dec (inByte i t) := Twin.inByte h hk decStop_error i

theorem DecTwin.outByte (h : DecTwin s₀ s t) (hk : t.dec = s.dec) (j : Nat) :
    (outByte j s).Alike DecStop (DecTwin s₀) State.dec (outByte j t) := Twin.outByte h hk decStop_error j

theorem DecTwin.setOut (h : DecTwin s₀ s t) (hk : t.dec = s.dec) (j : Nat) (v : Byte) :
    (setOut j v s).Alike DecStop (DecTwin s₀) State.dec (setOut j v t) :=
  Twin.setOut h hk decStop_error j v (fun _ _ => rfl) Decoding.write fun _ _ => rfl

theorem DecTwin.mode_eq (h : DecTwin s₀ s t) : t.mode = s.mode := (congrArg State.mode h.host :)

theorem DecTwin.fail {α : Type} (h : DecTwin s₀ s t) {c : Status} (hc : c.code ∈ raisedCodes) :
    (fail c s : Res α).Alike DecStop (DecTwin s₀) State.dec (fail c t) :=
  ⟨by rw [h.mode_eq], decStop_failStop _ hc, h⟩

theorem DecTwin.copyMatchLoop (h : DecTwin s₀ s t) (hk : t.dec = s.dec) {n : Nat} (dist : Nat)
    (hn : n ≤ s.snap.dstN.toNat - s.dec.op) :
    (copyMatchLoop n dist s).Alike DecStop (DecTwin s₀) State.dec (copyMatchLoop n dist t) := by
  induction n generalizing s t with
  | zero => exact ⟨rfl, h, hk⟩
  | succ n ih =>
    unfold Machine.copyMatchLoop
    rw [hk]
    refine (h.outByte hk _).andThen_of_ok fun b u w e hu hku => ?_
    obtain ⟨-, -, rfl⟩ := outByte_eq_ok.1 e
    rw [hku]
    refine (DecTwin.setOut hu hku _ b).andThen_of_ok fun _ u w e hu hku => ?_
    obtain ⟨-, rfl⟩ := setOut_eq_ok.1 e
    rw [hku]
    refine ih (DecTwin.setDec hu id fun _ => ?_) rfl ?_
    · dsimp only; omega
    · dsimp only; omega

theorem DecTwin.copyMatch (h : DecTwin s₀ s t) (hk : t.dec = s.dec) (len dist : Nat) :
    (copyMatch len dist s).Alike DecStop (DecTwin s₀) State.dec (copyMatch len dist t) := by
  unfold Machine.copyMatch
  rw [hk, h.snap_eq]
  split
  · exact h.fail (by decide)
  split
  · exact h.fail (by decide)
  · next hn => exact h.copyMatchLoop hk dist (Nat.le_of_not_lt hn)

theorem DecTwin.copyLitLoop (h : DecTwin s₀ s t) (hk : t.dec = s.dec) {n : Nat}
    (ho : n ≤ s.snap.dstN.toNat - s.dec.op) (hi : n ≤ s.snap.srcN.toNat - s.dec.ip) :
    (copyLitLoop n s).Alike DecStop (DecTwin s₀) State.dec (copyLitLoop n t) := by
  induction n generalizing s t with
  | zero => exact ⟨rfl, h, hk⟩
  | succ n ih =>
    unfold Machine.copyLitLoop
    rw [hk]
    refine (h.inByte hk _).andThen_of_ok fun b u w e hu hku => ?_
    obtain ⟨-, -, rfl⟩ := inByte_eq_ok.1 e
    rw [hku]
    refine (DecTwin.setOut hu hku _ b).andThen_of_ok fun _ u w e hu hku => ?_
    obtain ⟨-, rfl⟩ := setOut_eq_ok.1 e
    rw [hku]
    refine ih (DecTwin.setDec hu (fun _ => ?_) fun _ => ?_) rfl ?_ ?_
    all_goals dsimp only; omega

theorem DecTwin.copyLit (h : DecTwin s₀ s t) (hk : t.dec = s.dec) (n : Nat) :
    (copyLit n s).Alike DecStop (DecTwin s₀) State.dec (copyLit n t) := by
  unfold Machine.copyLit
  rw [hk, h.snap_eq]
  split
  · exact h.fail (by decide)
  split
  · exact h.fail (by decide)
  · next ho hi => exact h.copyLitLoop hk (Nat.le_of_not_lt ho) (Nat.le_of_not_lt hi)

theorem DecTwin.setSt (h : DecTwin s₀ s t) (hk : t.dec = s.dec) (st : DecState) :
    DecTwin s₀ (s.setSt st) (t.setSt st) ∧ (t.setSt st).dec = (s.setSt st).dec :=
  ⟨h.setDec id id, by rw [setSt_dec, setSt_dec, hk]⟩

theorem DecTwin.trail (h : DecTwin s₀ s t) (hk : t.dec = s.dec) (n : Nat) :
    (trail n s).Alike DecStop (DecTwin s₀) State.dec (trail n t) := by
  unfold Machine.trail
  split
  · exact (h.copyLit hk n).andThen fun _ u w h hk => ⟨rfl, DecTwin.setSt h hk _⟩
  · exact ⟨rfl, h.setSt hk _⟩

theorem DecTwin.matchActions (h : DecTwin s₀ s t) (hk : t.dec = s.dec) (len dist n : Nat) :
    (matchActions len dist n s).Alike DecStop (DecTwin s₀) State.dec (matchActions len dist n t) :=
  (h.copyMatch hk len dist).andThen fun _ _ _ h hk => DecTwin.trail h hk n

end

/-! ### The stream instructions -/

/-- Two runs of a decoder after an instruction: they agree on the decoder registers while the decode goes on. -/
def DecEnd (P : State → Prop) (s₀ u w : State) : Prop :=
  Twin State.keptByDecode P Inv s₀ u w ∧ (u.decoding = true → w.dec = u.dec)

section
variable {s₀ s t : State}

theorem keptByDecode_raiseLate (c : Status) (s : State) : (s.raiseLate c).keptByDecode = s.keptByDecode := by
  rw [raiseLate_shape]; rfl

theorem DecTwin.raiseLate (h : DecTwin s₀ s t) {c : Status} (hc : c.code ∈ raisedCodes) :
    DecEnd Decoding s₀ (s.raiseLate c) (t.raiseLate c) :=
  ⟨h.map (sansUnits_raiseLate c) (keptByDecode_raiseLate c s) fun h => h.1.raiseLate hc, nofun⟩

theorem DecTwin.endStop (h : DecTwin s₀ s t) {e : Stop} (he : DecStop e) :
    DecEnd Decoding s₀ (s.endStop e) (t.endStop e) := by
  rcases he with rfl | ⟨c, rfl, hc⟩
  · exact ⟨h.map (fun _ => rfl) rfl fun h => h.1.markUndefined, nofun⟩
  · exact h.raiseLate hc

theorem DecTwin.afterStream {r r' : Res Unit} (h : r.Alike DecStop (DecTwin s₀) State.dec r') :
    DecEnd Decoding s₀ (afterStream r) (afterStream r') :=
  h.finish (fun _ _ _ h hk => ⟨h.weaken And.left, fun _ => hk⟩) fun _ _ _ he h => DecTwin.endStop h he

/-- The output length of a decode in progress is an XLEN-bit number, and OP is within it. -/
theorem Decoding.op_lt (h : Decoding s) : s.dec.op < 2 ^ s.platform.xlen := by
  obtain ⟨hb, -, -, ho⟩ := h.1.decode h.2
  exact ho.trans_lt (Performing.dstN_lt ⟨h.1, hb⟩)

theorem DecTwin.finalChecks (h : DecTwin s₀ s t) (hk : t.dec = s.dec) :
    DecEnd Decoding s₀ (finalChecks s) (finalChecks t) := by
  unfold Machine.finalChecks
  rw [hk, h.snap_eq]
  split
  · exact h.raiseLate (by decide)
  split
  · exact h.raiseLate (by decide)
  · exact ⟨h.map (fun _ => rfl) rfl fun h => h.1.complete (by decide) h.op_lt, nofun⟩

/-- One stream instruction in two runs that differ in T and the other units' registers only. -/
theorem DecTwin.runStream (h : DecTwin s₀ s t) (hk : t.dec = s.dec) (i : Instr) :
    DecEnd Decoding s₀ (runStream i s) (runStream i t) := by
  have literals (n : Nat) (st : DecState) : DecEnd Decoding s₀
      (Machine.afterStream ((Machine.copyLit n s).andThen fun _ s => .ok () (s.setSt st)))
      (Machine.afterStream ((Machine.copyLit n t).andThen fun _ s => .ok () (s.setSt st))) :=
    DecTwin.afterStream ((h.copyLit hk n).andThen fun _ _ _ h hk => ⟨rfl, DecTwin.setSt h hk _⟩)
  cases i with
  | litFirst n => exact literals n _
  | litRun n => exact literals n _
  | m1n _ _ | m1f _ _ | m2s _ _ _ | m2l _ _ _ | m3 _ _ _ | m4 _ _ _ =>
    exact DecTwin.afterStream (h.matchActions hk _ _ _)
  | eos _ _ => exact h.finalChecks hk
  | _ => exact ⟨h.weaken And.left, fun _ => hk⟩

end

end Sys2Proof.Machine
end

section
/-! The decode loop in two runs side by side (44_decompressors.md R312), on what the header decoder reads. -/

namespace Sys2Proof.Machine

/-! ### Headers -/

/-- A length extension reads bytes of its input only (30_encoding.md R116). -/
theorem decodeExt_length {xlen base acc used v n : Nat} {e : DecodeError} {bs rest : List Byte}
    (h : decodeExt xlen base e acc used bs = .ok (v, n, rest)) : n + rest.length = used + bs.length := by
  induction bs generalizing acc used with
  | nil => cases h
  | cons x bs ih =>
    unfold decodeExt at h
    split at h
    · cases h; simp only [List.length_cons]; omega
    split at h
    · cases h
    · have := ih h; simp only [List.length_cons]; omega

theorem decodeLen_length {xlen k base field v n : Nat} {e : DecodeError} {bs rest : List Byte}
    (h : decodeLen xlen k base field e bs = .ok (v, n, rest)) : n + rest.length = bs.length := by
  unfold decodeLen at h
  split at h
  · cases h; exact Nat.zero_add _
  · rw [decodeExt_length h, Nat.zero_add]

/-- The header of a stream instruction: no command, and no longer than the bytes it is read from. -/
def IsHeaderIn (bs : List Byte) (i : Instr) (n : Nat) : Prop := i.isCommand = false ∧ n ≤ bs.length

theorem decodeTwo_header {f : Nat → Instr} {x : Byte} {bs : List Byte} {i : Instr} {n : Nat}
    (hf : ∀ b, (f b).isCommand = false) (h : decodeTwo f bs = .ok (i, n)) : IsHeaderIn (x :: bs) i n := by
  cases bs with
  | nil => cases h
  | cons b bs => cases h; exact ⟨hf _, by simp⟩

theorem decodeM3Tail_header {len used n : Nat} {bs : List Byte} {i : Instr}
    (h : decodeM3Tail len used bs = .ok (i, n)) : i.isCommand = false ∧ n ≤ used + bs.length + 1 := by
  match bs with
  | [] | [_] => cases h
  | _ :: _ :: _ => cases h; exact ⟨rfl, by simp only [List.length_cons]; omega⟩

theorem decodeM4Tail_header {len hb used n : Nat} {bs : List Byte} {i : Instr}
    (h : decodeM4Tail len hb used bs = .ok (i, n)) : i.isCommand = false ∧ n ≤ used + bs.length + 1 := by
  match bs with
  | [] | [_] => cases h
  | _ :: _ :: _ =>
    simp only [decodeM4Tail] at h
    split at h
    · cases h; exact ⟨rfl, by simp only [List.length_cons]; omega⟩
    · cases h; exact ⟨rfl, by simp only [List.length_cons]; omega⟩

/-- What the decoder of a stream reads is the header of a stream instruction. -/
theorem decodeStream_header {xlen n : Nat} {st : DecState} {bs : List Byte} {i : Instr}
    (h : decodeStream xlen st bs = .ok (i, n)) : IsHeaderIn bs i n := by
  cases bs with
  | nil => cases h
  | cons x bs =>
    unfold decodeStream at h
    dsimp only at h
    split at h
    · cases h; exact ⟨rfl, by simp⟩
    · split at h
      · next hl => cases h; exact ⟨rfl, by have := decodeLen_length hl; simp only [List.length_cons]; omega⟩
      · cases h
    · exact decodeTwo_header (fun _ => rfl) h
    · exact decodeTwo_header (fun _ => rfl) h
    · exact decodeTwo_header (fun _ => rfl) h
    · exact decodeTwo_header (fun _ => rfl) h
    · split at h
      · next hl =>
        obtain ⟨hi, hn⟩ := decodeM3Tail_header h
        exact ⟨hi, by rwa [decodeLen_length hl] at hn⟩
      · cases h
    · split at h
      · next hl =>
        obtain ⟨hi, hn⟩ := decodeM4Tail_header h
        exact ⟨hi, by rwa [decodeLen_length hl] at hn⟩
      · cases h

/-! ### The fetch -/

section
variable {s₀ s t : State}

theorem inBytes_length_le (s : State) (n i : Nat) : (s.inBytes n i).length ≤ n := by
  induction n generalizing i with
  | zero => exact Nat.le_refl 0
  | succ n ih =>
    unfold State.inBytes
    split
    · exact Nat.succ_le_succ (ih _)
    · exact Nat.zero_le _

theorem DecTwin.inBytes_eq (h : DecTwin s₀ s t) (n i : Nat) : t.inBytes n i = s.inBytes n i := by
  induction n generalizing i with
  | zero => rfl
  | succ n ih => unfold State.inBytes; rw [h.inAddr_eq, h.dmaOk_eq, h.mem_eq, ih]

/-- Twins with the same decoder registers fetch the same. -/
theorem DecTwin.fetchStream_eq (h : DecTwin s₀ s t) (hk : t.dec = s.dec) : fetchStream t = fetchStream s := by
  have hb : t.streamBytes = s.streamBytes := by
    unfold State.streamBytes; rw [h.snap_eq, hk, h.inBytes_eq]
  have he (e : DecodeError) : headerStop e t = headerStop e s := by
    unfold headerStop; rw [hb, h.snap_eq, hk, h.mode_eq]
  unfold fetchStream
  rw [hb, h.snap_eq, hk, h.platform_eq, h.mode_eq]
  simp only [he]

theorem decStop_headerStop (e : DecodeError) (s : State) : DecStop (headerStop e s) := by
  cases e with
  | cut =>
    unfold headerStop
    dsimp only
    split
    · exact decStop_failStop _ (by decide)
    · exact decStop_error
  | longLiteral | longMatch => exact decStop_failStop _ (by decide)

theorem decStop_of_fetchStream {r : Stop} (h : fetchStream s = .stop r) : DecStop r := by
  unfold fetchStream at h
  split at h
  · cases h; exact decStop_failStop _ (by decide)
  split at h
  · cases h
  · cases h; exact decStop_headerStop _ s

/-- A fetched header is that of a stream instruction and lies inside the input. -/
theorem fetched_header {i : Instr} {n : Nat} (h : fetchStream s = .header i n) :
    i.isCommand = false ∧ s.dec.ip + n ≤ s.snap.srcN.toNat := by
  obtain ⟨hip, hd⟩ := fetchStream_eq_header.1 h
  obtain ⟨hi, hn⟩ := decodeStream_header hd
  have := hn.trans (inBytes_length_le _ _ _)
  exact ⟨hi, by omega⟩

theorem DecTwin.advanceIp (h : DecTwin s₀ s t) {i : Instr} {n : Nat} (hf : fetchStream s = .header i n) :
    DecTwin s₀ (s.advanceIp n) (t.advanceIp n) := h.setDec (fun _ => (fetched_header hf).2) id

/-! ### The loop -/

theorem DecTwin.streamStep (h : DecTwin s₀ s t) (hk : t.dec = s.dec) :
    DecEnd Decoding s₀ (streamStep s) (streamStep t) := by
  unfold Machine.streamStep
  rw [h.fetchStream_eq hk]
  split
  · next i n hf => exact (h.advanceIp hf).runStream (by rw [advanceIp_dec, advanceIp_dec, hk]) i
  · next r hf => exact h.endStop (decStop_of_fetchStream hf)

/-- The passes of a decode: while it goes on the block is inside a decode, whose next pass starts anew. -/
theorem DecEnd.decodeLoop {P : State → Prop} (h : DecEnd P s₀ s t) (fuel : Nat) :
    DecEnd P s₀ (decodeLoop fuel s) (decodeLoop fuel t) := by
  induction fuel generalizing s t with
  | zero => exact h
  | succ fuel ih =>
    obtain ⟨hT, hk⟩ := h
    unfold Machine.decodeLoop
    rw [show t.decoding = s.decoding from (congrArg State.decoding hT.host :)]
    split
    · next hd =>
      obtain ⟨hT', hk'⟩ := DecTwin.streamStep (.refl hT.host) (hk hd)
      exact ih ⟨hT.trans hT' fun hi => ⟨hi, hd⟩, hk'⟩
    · exact ⟨hT, hk⟩

/-- A block that performs one of the two decoders. -/
def PerformingDecoder (s : State) : Prop := Performing s ∧ (s.snap.opv = 3#4 ∨ s.snap.opv = 4#4)

theorem PerformingDecoder.startDecode (h : PerformingDecoder s) : Inv (startDecode s) :=
  { h.1.1 with decode := fun _ => ⟨h.1.2, h.2, Nat.zero_le _, Nat.zero_le _⟩ }

/-- The perform step of a decoder in two runs that differ in T and the working registers only. -/
theorem performDecode_twin (hs : t.sansUnits = s.sansUnits) :
    Twin State.keptByDecode PerformingDecoder Inv s (performDecode s) (performDecode t) := by
  have h : Twin State.keptByDecode PerformingDecoder PerformingDecoder s s t := .refl hs
  unfold performDecode
  rw [h.argsOk_eq, h.srcN_eq]
  split
  · exact h.map (fun _ => rfl) rfl fun h => h.1.1.raiseEarly (by decide)
  · have start : Twin State.keptByDecode PerformingDecoder Inv s (startDecode s) (startDecode t) :=
      ⟨rfl, PerformingDecoder.startDecode, congrArg startDecode hs⟩
    exact (DecEnd.decodeLoop ⟨start, fun _ => rfl⟩ _).1

end

end Sys2Proof.Machine
end

section
/-! What an instruction leaves: one inversion of `exec`, and from it the frames of the host's registers and of the
units, and the independence of what the units held before. -/

namespace Sys2Proof.Machine

/-- The perform step of INIT (40_commands.md R170); `ran_of_exec` ties it to `exec`. -/
def performInit (t : Bool) (s : State) : State :=
  { s.latch 1#4 t with regs := { s.regs with initDone := true } }.finishOk 0

/-- NONE stores CMD while the block is idle (40_commands.md R164). -/
theorem exec_noCommand_idle {s : State} (t : Bool) (h : s.regs.busy = false) :
    exec (.noCommand t) s = .next { s with regs := { s.regs with cmdOp := 0, cmdStrict := t } } := by
  unfold exec execNoCommand
  exact if_neg (by simp [h])

/-- NONE is ignored while BUSY (40_commands.md R161). -/
theorem exec_noCommand_busy {s : State} (t : Bool) (h : s.regs.busy = true) : exec (.noCommand t) s = .next s := by
  unfold exec execNoCommand
  exact if_pos h

theorem exec_stream {i : Instr} (hi : i.isCommand = false) (s : State) : exec i s = .next (runStream i s) := by
  cases i with
  | litFirst _ | litRun _ | m1n _ _ | m1f _ _ | m2s _ _ _ | m2l _ _ _ | m3 _ _ _ | m4 _ _ _ | eos _ _ => rfl
  | _ => cases hi

/-- Everything an instruction can do. -/
inductive Ran (s : State) : Instr → State → Prop where
  | noCommandBusy (t : Bool) : s.regs.busy = true → Ran s (.noCommand t) s
  | noCommandIdle (t : Bool) : s.regs.busy = false →
      Ran s (.noCommand t) { s with regs := { s.regs with cmdOp := 0, cmdStrict := t } }
  | init (t : Bool) : Ran s (.init t) (performInit t s)
  | compress (t : Bool) : Ran s (.compress t) (performCompress (s.latch 2#4 t))
  | decompress (t : Bool) : Ran s (.decompress t) (performDecode (s.latch 3#4 t))
  | decompressSafe (t : Bool) : Ran s (.decompressSafe t) (performDecode (s.latch 4#4 t))
  | checksum (t : Bool) : Ran s (.checksum t) (performChecksum (s.latch 5#4 t))
  | reserved (t : Bool) (i : Instr) (op : BitVec 4) : (i, op) ∈ Instr.reserved t →
      Ran s i (performReserved op t s)
  | stream (i : Instr) : i.isCommand = false → Ran s i (runStream i s)

theorem ran_of_exec {i : Instr} {s u : State} (h : exec i s = .next u) : Ran s i u := by
  cases i with
  | noCommand t =>
    cases hb : s.regs.busy
    · rw [exec_noCommand_idle t hb] at h; cases h; exact .noCommandIdle t hb
    · rw [exec_noCommand_busy t hb] at h; cases h; exact .noCommandBusy t hb
  | init t => cases h; exact .init t
  | compress t => cases h; exact .compress t
  | decompress t => cases h; exact .decompress t
  | decompressSafe t => cases h; exact .decompressSafe t
  | checksum t => cases h; exact .checksum t
  | reserved6 t | reserved7 t | reserved8 t | reserved9 t | reserved10 t | reserved11 t | reserved12 t
  | reserved13 t | reserved14 t | reserved15 t => cases h; exact .reserved t _ _ (by simp [Instr.reserved])
  | litFirst _ | litRun _ | m1n _ _ | m1f _ _ | m2s _ _ _ | m2l _ _ _ | m3 _ _ _ | m4 _ _ _ | eos _ _ =>
    cases h; exact .stream _ rfl

/-! ### What each unit's commands keep -/

section
variable {s : State}

theorem performCompress_kept (s : State) : (performCompress s).keptByCompress = s.keptByCompress :=
  (performCompress_twin rfl).kept

theorem performChecksum_kept (s : State) (t : Bool) :
    (performChecksum (s.latch 5#4 t)).keptByChecksum = (s.latch 5#4 t).keptByChecksum :=
  (performChecksum_twin rfl rfl).kept

theorem performDecode_kept (s : State) : (performDecode s).keptByDecode = s.keptByDecode :=
  (performDecode_twin rfl).kept

theorem runStream_kept (i : Instr) (s : State) : (runStream i s).keptByDecode = s.keptByDecode :=
  (DecTwin.runStream (.refl rfl) rfl i).1.kept

/-- The decoders leave the working registers of the other units alone. -/
theorem units_of_keptByDecode {u : State} (h : u.keptByDecode = s.keptByDecode) :
    (u.enc = s.enc ∧ u.mf = s.mf ∧ u.table = s.table) ∧ u.cks = s.cks :=
  ⟨⟨(congrArg State.enc h :), (congrArg State.mf h :), (congrArg State.table h :)⟩, (congrArg State.cks h :)⟩

/-- What the host and the other blocks own, and CMD. -/
def State.hostPart (s : State) : Regs × List HostEvent × Word × List (Nat × Snapshot) × Platform × Bool :=
  (s.regs.sansResults, s.inbox, s.hostRead, s.peers, s.platform, s.hostRace)

/-- No instruction but NONE changes what the host and the other blocks own (10_state.md R32, R51). -/
theorem hostPart_of_ran {i : Instr} {u : State} (h : Ran s i u) (hi : ∀ t, i ≠ .noCommand t) :
    u.hostPart = s.hostPart := by
  cases h with
  | noCommandBusy t | noCommandIdle t => exact absurd rfl (hi t)
  | init t => rfl
  | compress t => exact (congrArg State.hostPart (performCompress_kept (s.latch 2#4 t)) :)
  | decompress t => exact (congrArg State.hostPart (performDecode_kept (s.latch 3#4 t)) :)
  | decompressSafe t => exact (congrArg State.hostPart (performDecode_kept (s.latch 4#4 t)) :)
  | checksum t => exact (congrArg State.hostPart (performChecksum_kept s t) :)
  | reserved t _ op hp => rfl
  | stream i hi => exact (congrArg State.hostPart (runStream_kept i s) :)

/-- A command of two runs that differ in T and the working registers leaves states that differ in these only
(70_reset_and_hazards.md R454). -/
theorem exec_twin {i : Instr} {t : State} (hi : i.isCommand = true) (hs : t.sansUnits = s.sansUnits) :
    ∃ u w, exec i s = .next u ∧ exec i t = .next w ∧ w.sansUnits = u.sansUnits := by
  have latch (op : BitVec 4) (b : Bool) : (t.latch op b).sansUnits = (s.latch op b).sansUnits :=
    congrArg (State.latch op b) hs
  have reserved (op : BitVec 4) (b : Bool) : (performReserved op b t).sansUnits = (performReserved op b s).sansUnits :=
    congrArg (performReserved op b) hs
  cases i with
  | noCommand b =>
    have hb : t.regs.busy = s.regs.busy := (congrArg (fun u : State => u.regs.busy) hs :)
    cases h : s.regs.busy
    · exact ⟨_, _, exec_noCommand_idle b h, exec_noCommand_idle b (hb.trans h),
        (congrArg (fun u : State => { u with regs := { u.regs with cmdOp := 0, cmdStrict := b } }) hs :)⟩
    · exact ⟨_, _, exec_noCommand_busy b h, exec_noCommand_busy b (hb.trans h), hs⟩
  | init b => exact ⟨_, _, rfl, rfl, (congrArg (performInit b) hs : _)⟩
  | compress b => exact ⟨_, _, rfl, rfl, (performCompress_twin (latch _ b)).host⟩
  | decompress b => exact ⟨_, _, rfl, rfl, (performDecode_twin (latch _ b)).host⟩
  | decompressSafe b => exact ⟨_, _, rfl, rfl, (performDecode_twin (latch _ b)).host⟩
  | checksum b => exact ⟨_, _, rfl, rfl, (performChecksum_twin (latch _ b) rfl).host⟩
  | reserved6 b | reserved7 b | reserved8 b | reserved9 b | reserved10 b | reserved11 b | reserved12 b
  | reserved13 b | reserved14 b | reserved15 b => exact ⟨_, _, rfl, rfl, reserved _ b⟩
  | litFirst _ | litRun _ | m1n _ _ | m1f _ _ | m2s _ _ _ | m2l _ _ _ | m3 _ _ _ | m4 _ _ _ | eos _ _ => cases hi

end

end Sys2Proof.Machine

namespace Sys2Proof.Proofs
open Sys2Proof.Machine

/-- Settles O21, from the inversion of `exec` and what each unit's commands keep. -/
theorem instructionsKeepHostRegisters : Obligations.InstructionsKeepHostRegisters := by
  unfold Obligations.InstructionsKeepHostRegisters
  intro i s u h
  have hr := ran_of_exec h
  by_cases hi : ∀ t, i ≠ .noCommand t
  · have hp := hostPart_of_ran hr hi
    simp only [State.hostPart, Regs.sansResults, Prod.mk.injEq, Regs.mk.injEq, true_and] at hp
    obtain ⟨⟨hop, hst, hsa, hsl, hda, hdl, hse, -⟩, hib, hhr, hpe, hpl, hra⟩ := hp
    exact ⟨hsa, hsl, hda, hdl, hse, hib, hhr, hpe, hpl, hra, fun _ => ⟨hop, hst⟩⟩
  · obtain ⟨t, rfl⟩ := not_forall_not.1 hi
    cases hr with
    | noCommandBusy | noCommandIdle =>
      exact ⟨rfl, rfl, rfl, rfl, rfl, rfl, rfl, rfl, rfl, rfl, fun h => absurd rfl (h t)⟩
    | reserved _ _ _ hp => simp [Instr.reserved] at hp
    | stream _ hc => cases hc

/-- Settles O22, from the inversion of `exec` and what each unit's commands keep. -/
theorem unitsAreSeparate : Obligations.UnitsAreSeparate := by
  unfold Obligations.UnitsAreSeparate
  intro i s u h
  cases ran_of_exec h with
  | noCommandBusy t | noCommandIdle t | init t | reserved t _ op hp =>
    exact ⟨fun _ => ⟨rfl, rfl, rfl⟩, fun _ => rfl, fun _ => ⟨rfl, rfl⟩, fun _ => ⟨rfl, rfl⟩⟩
  | compress t =>
    have hk := performCompress_kept (s.latch 2#4 t)
    exact ⟨fun h => absurd rfl (h t), fun _ => (congrArg State.cks hk :),
      fun _ => ⟨(congrArg State.dec hk :), (congrArg State.undefinedMark hk :)⟩,
      fun h => absurd rfl (h.2 t).1⟩
  | decompress t =>
    obtain ⟨hu, hc⟩ := units_of_keptByDecode (performDecode_kept (s.latch 3#4 t))
    exact ⟨fun _ => hu, fun _ => hc, fun h => absurd rfl (h.2 t).1, fun h => absurd rfl (h.2 t).2.1⟩
  | decompressSafe t =>
    obtain ⟨hu, hc⟩ := units_of_keptByDecode (performDecode_kept (s.latch 4#4 t))
    exact ⟨fun _ => hu, fun _ => hc, fun h => absurd rfl (h.2 t).2, fun h => absurd rfl (h.2 t).2.2⟩
  | checksum t =>
    have hk := performChecksum_kept s t
    exact ⟨fun _ => ⟨(congrArg State.enc hk :), (congrArg State.mf hk :), (congrArg State.table hk :)⟩,
      fun h => absurd rfl (h t), fun _ => ⟨(congrArg State.dec hk :), (congrArg State.undefinedMark hk :)⟩,
      fun _ => ⟨(congrArg State.mem hk :), (congrArg State.draws hk :)⟩⟩
  | stream i hi =>
    obtain ⟨hu, hc⟩ := units_of_keptByDecode (runStream_kept i s)
    have hn : ¬i.isCommand = true := by simp [hi]
    exact ⟨fun _ => hu, fun _ => hc, fun h => absurd h.1 hn, fun h => absurd h.1 hn⟩

/-- Settles O60: the two runs are twins. -/
theorem noStateBetweenCommands : Obligations.NoStateBetweenCommands := by
  unfold Obligations.NoStateBetweenCommands
  intro i s s' u u' hi hs h h'
  obtain ⟨v, w, hv, hw, e⟩ := exec_twin (s := s) (t := s') hi (congrArg State.sansUnits hs :)
  obtain rfl : u = v := by rw [h] at hv; cases hv; rfl
  obtain rfl : u' = w := by rw [h'] at hw; cases hw; rfl
  exact ⟨(congrArg State.regs e :), (congrArg State.mem e :), (congrArg State.undefinedMark e :),
    (congrArg State.draws e :), (congrArg State.view e :)⟩

end Sys2Proof.Proofs
end

section
/-! Every step keeps the invariant: the perform step of the pending command, the stream instruction of a decode in
progress, and each move from outside. -/

namespace Sys2Proof.Machine

/-! ### The pending command -/

/-- A command names its OP code and STRICT (30_encoding.md R110, R111). -/
theorem commandOf_inj : ∀ (op op' : BitVec 4) (t t' : Bool),
    commandOf op t = commandOf op' t' → op = op' ∧ t = t' := by decide

theorem isCommand_commandOf : ∀ (op : BitVec 4) (t : Bool), (commandOf op t).isCommand = true := by decide

theorem reserved_eq_commandOf : ∀ (t : Bool), ∀ p ∈ Instr.reserved t, p.1 = commandOf p.2 t := by decide

section
variable {s u : State}

/-- The pending command runs with the operands of the snapshot (log 19). -/
theorem latch_of_pending {op : BitVec 4} {t : Bool} (h : s.pendingCommand = commandOf op t) :
    s.latch op t = s ∧ s.snap.opv = op := by
  obtain ⟨rfl, rfl⟩ := commandOf_inj _ _ _ _ h
  exact ⟨rfl, rfl⟩

theorem Inv.setInitDone (h : Inv s) : Inv { s with regs := { s.regs with initDone := true } } := { h with }

/-- The perform step of the pending command keeps the invariant. -/
theorem Performing.exec (h : Performing s) (he : exec s.pendingCommand s = .next u) : Inv u := by
  have hr := ran_of_exec he
  generalize hp : s.pendingCommand = i at hr
  cases hr with
  | noCommandBusy t => exact h.1
  | noCommandIdle t hb => rw [h.2] at hb; cases hb
  | init t =>
    obtain ⟨hl, -⟩ := latch_of_pending (op := 1#4) hp
    unfold performInit
    rw [hl]
    exact h.1.setInitDone.complete (by decide) (Nat.two_pow_pos _)
  | compress t =>
    obtain ⟨hl, -⟩ := latch_of_pending (op := 2#4) hp
    rw [hl]
    exact (performCompress_twin rfl).inv h
  | decompress t =>
    obtain ⟨hl, ho⟩ := latch_of_pending (op := 3#4) hp
    rw [hl]
    exact (performDecode_twin rfl).inv ⟨h, .inl ho⟩
  | decompressSafe t =>
    obtain ⟨hl, ho⟩ := latch_of_pending (op := 4#4) hp
    rw [hl]
    exact (performDecode_twin rfl).inv ⟨h, .inr ho⟩
  | checksum t =>
    obtain ⟨hl, ho⟩ := latch_of_pending (op := 5#4) hp
    rw [hl]
    exact (performChecksum_twin rfl ho).inv h
  | reserved t _ op hm =>
    obtain ⟨hl, -⟩ := latch_of_pending (hp.trans (reserved_eq_commandOf t _ hm))
    unfold performReserved
    rw [hl]
    exact h.1.raiseEarly (by decide)
  | stream i hi =>
    have : i.isCommand = true := hp ▸ isCommand_commandOf _ _
    rw [hi] at this; cases this

/-! ### What a step does -/

/-- What a step does keeps the invariant. -/
def Action.Keeps : Action → Prop
  | .run i t => ∀ u, exec i t = .next u → Inv u
  | .move t => Inv t
  | .stop _ | .refuse _ => True

theorem blockTurn_keeps (h : Inv s) : (blockTurn s).Keeps := by
  unfold blockTurn
  split
  · next hb =>
    split
    · exact h.markRace
    · exact fun u he => Performing.exec ⟨h, hb⟩ he
  · exact h

theorem streamTurn_keeps (h : Decoding s) : (streamTurn s).Keeps := by
  have hT : DecTwin s s s := .refl rfl
  unfold streamTurn
  split
  · next i n hf =>
    intro u he
    rw [exec_stream (fetched_header hf).1] at he
    cases he
    exact ((hT.advanceIp hf).runStream rfl i).1.inv h
  · next r hf => exact (hT.endStop (decStop_of_fetchStream hf)).1.inv h

/-! ### Moves from outside -/

theorem truncX_lt (xlen : Nat) (v : Word) : (truncX xlen v).toNat < 2 ^ xlen :=
  ofNat_lt_of_lt (Nat.mod_lt _ (Nat.two_pow_pos _))

/-- A register write of an idle block stores XLEN-bit arguments (10_state.md R31). -/
theorem Inv.regWrite (h : Inv s) (hb : s.regs.busy = false) (offset : Nat) (v : Word) :
    Inv { s with regs := s.regs.write s.platform.xlen offset v } := by
  have idle {p : Prop} (hb' : s.regs.busy = true) : p := absurd (hb.symm.trans hb') nofun
  unfold Regs.write
  split
  · exact { h with srcAddr := truncX_lt _ v, snapshot := idle, command := idle }
  · exact { h with srcLen := truncX_lt _ v, snapshot := idle, command := idle }
  · exact { h with dstAddr := truncX_lt _ v, snapshot := idle, command := idle }
  · exact { h with dstLen := truncX_lt _ v, snapshot := idle, command := idle }
  · exact { h with snapshot := idle, command := idle }
  · exact h

/-- The issue of a command takes the snapshot of the registers (10_state.md R43). -/
theorem Inv.issue (h : Inv s) (hd : s.decoding = false) {w : Word} (hw : cmdOpOf w ≠ 0) : Inv (s.issue w) :=
  { h with
    snapshot := fun _ => rfl
    command := fun _ => hw
    decode := fun hd' => by rw [issue_decoding, hd] at hd'; cases hd' }

/-- NONE, run as the host's write of an idle block, changes CMD only. -/
theorem Inv.storeCmd (h : Inv s) (hb : s.regs.busy = false) (op : BitVec 4) (t : Bool) :
    Inv { s with regs := { s.regs with cmdOp := op, cmdStrict := t } } :=
  { h with
    snapshot := fun hb' => absurd (hb.symm.trans hb') nofun
    command := fun hb' => absurd (hb.symm.trans hb') nofun }

theorem hostRegWrite_keeps (h : Inv s) (hd : s.decoding = false) (offset : Nat) (v : Word) :
    (hostRegWrite offset v s).Keeps := by
  unfold hostRegWrite
  split
  · exact h
  · next hb =>
    have hb := Bool.eq_false_of_not_eq_true hb
    split
    · split
      · next h0 =>
        intro u he
        rw [show decodeCommand v = .noCommand (cmdStrictOf v) by unfold decodeCommand; rw [h0]; rfl,
          exec_noCommand_idle _ hb] at he
        cases he
        exact h.storeCmd hb _ _
      · next h0 => exact h.issue hd h0
    · exact h.regWrite hb offset v

theorem Inv.setInbox (h : Inv s) (l : List HostEvent) : Inv { s with inbox := l } := { h with }

/-- A read of a register observes completions, if anything (20_memory.md R92). -/
theorem Inv.hostRegRead (h : Inv s) (offset : Nat) : Inv (s.hostRegRead offset) :=
  { h with
    unseen := by
      rw [hostRegRead_view]
      unfold State.viewAfterRead
      split
      · nofun
      · exact h.unseen }

theorem Inv.hostMemWrite (h : Inv s) {a : Nat} (ha : a < 2 ^ s.platform.xlen) (v : Byte) :
    Inv (s.hostMemWrite a v) := by
  rcases hostMemWrite_cases a v s with ⟨-, e⟩ | ⟨-, e⟩ <;> rw [e]
  · exact h.markRace
  · exact h.write ha v

theorem Inv.hostMemRead (h : Inv s) (a : Nat) : Inv (s.hostMemRead a) := by
  rw [hostMemRead_shape]; exact { h with }

theorem Inv.peerMemWrite (h : Inv s) (k : Nat) {a : Nat} (ha : a < 2 ^ s.platform.xlen) (v : Byte) :
    Inv (s.peerMemWrite k a v) := by
  rcases peerMemWrite_cases k a v s with ⟨-, e⟩ | ⟨-, e⟩ <;> rw [e]
  · exact h.markRace
  · exact h.write ha v

theorem Inv.peerMemRead (h : Inv s) (k a : Nat) : Inv (s.peerMemRead k a) := by
  rcases peerMemRead_cases k a s with ⟨-, e⟩ | ⟨-, e⟩ <;> rw [e]
  · exact h.markRace
  · exact h

/-- A block with no pending command is given one that is not NONE (40_commands.md R161, R164). -/
theorem Inv.peerIssue (h : Inv s) (k : Nat) (c : Snapshot) : Inv (s.peerIssue k c) := by
  unfold State.peerIssue
  split
  · exact h
  · next hn =>
    obtain ⟨hc, hk⟩ := not_or.1 hn
    obtain ⟨hd, hp⟩ := h.peers
    refine { h with peers := ⟨List.nodup_cons.2 ⟨fun hm => hk ?_, hd⟩, fun p hp' => ?_⟩ }
    · obtain ⟨p, hp, e⟩ := List.mem_map.1 hm
      exact List.any_eq_true.2 ⟨p, hp, beq_iff_eq.2 e⟩
    · rcases List.mem_cons.1 hp' with rfl | hp'
      · exact hc
      · exact hp p hp'

theorem Inv.peerDone (h : Inv s) (k : Nat) : Inv (s.peerDone k) :=
  { h with
    peers := ⟨h.peers.1.sublist (List.filter_sublist.map _), fun p hp => h.peers.2 p (List.mem_filter.1 hp).1⟩ }

/-- An abandoned run leaves memory canonical and in its space, any values though it holds (log 26). -/
theorem Inv.abandon (h : Inv s) : Inv s.abandon := by
  unfold State.abandon
  split
  · exact { h with memWf := Memory.wf_ofCells _ _, memBound := Memory.ofCells_bound _ _ }
  split
  · exact h.havocOutput
  · exact h

/-- The reset keeps memory, the platform, the other blocks and the buffers the host has not seen free
(70_reset_and_hazards.md R450). -/
theorem Inv.resetBlock (h : Inv s) : Inv s.resetBlock where
  platform := h.platform
  memWf := h.abandon.memWf
  memBound := by
    have := h.abandon.memBound
    rwa [show s.abandon.platform = s.platform by rw [abandon_shape]] at this
  tableWf := rfl
  code := .head _
  srcAddr := Nat.two_pow_pos _
  srcLen := Nat.two_pow_pos _
  dstAddr := Nat.two_pow_pos _
  dstLen := Nat.two_pow_pos _
  outLen := Nat.two_pow_pos _
  snapshot := nofun
  command := nofun
  decode := nofun
  unseen := by
    show ∀ c ∈ (if s.regs.busy then s.view.keepOpen s.snap else s.view).unseen, _
    split
    · exact h.unseen_keepOpen s.snap
    · exact h.unseen
  peers := h.peers

theorem atByte_keeps {a : Nat} {t : State} (h : a < 2 ^ s.platform.xlen → Inv t) : (atByte a s t).Keeps := by
  unfold atByte State.hasByte
  split
  · next ha => exact h (of_decide_eq_true ha)
  · trivial

theorem peerAccess_keeps {k a : Nat} {inRange : Snapshot → Bool} {t : State}
    (h : a < 2 ^ s.platform.xlen → Inv t) : (peerAccess k a inRange s t).Keeps := by
  unfold peerAccess
  split
  · trivial
  split
  · exact atByte_keeps h
  · trivial

theorem hostTurn_keeps (h : Inv s) (hd : s.decoding = false) (ev : HostEvent) : (hostTurn ev s).Keeps := by
  unfold hostTurn
  cases ev with
  | regWrite offset width v =>
    dsimp only
    split
    · exact hostRegWrite_keeps h hd offset v
    · trivial
  | regRead offset width =>
    dsimp only
    split
    · exact h.hostRegRead offset
    · trivial
  | memWrite a v => exact atByte_keeps fun ha => h.hostMemWrite ha v
  | memRead a => exact atByte_keeps fun _ => h.hostMemRead a
  | wait => exact blockTurn_keeps h
  | reset => exact h.resetBlock
  | peerIssue k c => exact h.peerIssue k c
  | peerWrite k a v => exact peerAccess_keeps fun ha => h.peerMemWrite k ha v
  | peerRead k a => exact peerAccess_keeps fun _ => h.peerMemRead k a
  | peerDone k => exact h.peerDone k

theorem nextAction_keeps (h : Inv s) : (nextAction s).Keeps := by
  unfold nextAction
  split
  · unfold markedTurn
    split
    · next rest _ => exact (h.setInbox rest).resetBlock
    · trivial
  split
  · next hd => exact streamTurn_keeps ⟨h, hd⟩
  · next hd =>
    split
    · next ev rest _ => exact hostTurn_keeps (h.setInbox rest) (Bool.eq_false_of_not_eq_true hd) ev
    · exact blockTurn_keeps h

end

end Sys2Proof.Machine

namespace Sys2Proof.Proofs
open Sys2Proof.Machine

/-- Settles O59: whatever a step does keeps the invariant. -/
theorem stepKeepsInv : Obligations.StepKeepsInv := by
  unfold Obligations.StepKeepsInv
  intro s u h hs
  have hk := nextAction_keeps h
  rcases step_next hs with ⟨i, t, ha, he⟩ | ha <;> rw [ha] at hk
  · exact hk u he
  · exact hk

end Sys2Proof.Proofs
end

section
/-! The register map of the host port (10_state.md R31 to R39): refused accesses, writes and reads. -/

namespace Sys2Proof.Machine

variable {s : State} {off : Nat} {rest : List HostEvent}

/-! ### Accesses -/

theorem accessOk_iff {width : Nat} : accessOk off width = true ↔ width = 64 ∧ off % 8 = 0 ∧ off ≤ 0xFF := by
  simp [accessOk, and_assoc]

theorem step_of_event {ev : HostEvent} {t : State} (hq : s.quiet) (hi : s.inbox = ev :: rest)
    (ht : hostTurn ev { s with inbox := rest } = .move t) : step s = .next t := by
  unfold step
  rw [nextAction_of_event hq hi, ht]

/-- A whole-word read returns the register the host is shown (10_state.md R32). -/
theorem step_regRead (hq : s.quiet) (ha : accessOk off 64 = true) (hi : s.inbox = .regRead off 64 :: rest) :
    step s = .next ({ s with inbox := rest }.hostRegRead off) :=
  step_of_event hq hi (if_pos ha)

/-- A whole-word write of an idle block to a register other than CMD stores it. -/
theorem step_regWrite {v : Word} (hq : s.quiet) (hb : s.regs.busy = false) (ha : accessOk off 64 = true)
    (h0 : off ≠ 0) (hi : s.inbox = .regWrite off 64 v :: rest) :
    step s = .next { s with inbox := rest, regs := s.regs.write s.platform.xlen off v } := by
  refine step_of_event hq hi ?_
  simp [hostTurn, hostRegWrite, ha, hb, h0]

theorem toNat_truncX (xlen : Nat) (v : Word) : (truncX xlen v).toNat = v.toNat % 2 ^ xlen := by
  unfold truncX
  rw [BitVec.toNat_ofNat, Nat.mod_eq_of_lt ((Nat.mod_le _ _).trans_lt v.isLt)]

/-- A write, by offset: the arguments keep the low XLEN bits, SEED the low 32, and every other offset nothing. -/
theorem regs_write_eq (xlen : Nat) (r : Regs) (v : Word) : r.write xlen off v =
    if off = 0x10 then { r with srcAddr := truncX xlen v }
    else if off = 0x18 then { r with srcLen := truncX xlen v }
    else if off = 0x20 then { r with dstAddr := truncX xlen v }
    else if off = 0x28 then { r with dstLen := truncX xlen v }
    else if off = 0x30 then { r with seed := v.extractLsb' 0 32 }
    else r := by
  unfold Regs.write
  split
  · rfl
  · rfl
  · rfl
  · rfl
  · simp [BitVec.setWidth_eq_extractLsb']
  · simp_all

/-! ### What the host is shown -/

theorem regs_read_reserved (r : Regs) (h : 0x48 ≤ off) : r.read off = 0 := by
  unfold Regs.read
  split
  case h_10 => rfl
  all_goals omega

theorem resultsHidden_iff : s.resultsHidden = true ↔ s.view.resultsSeen = false ∨ s.view.cksumSeen = false := by
  simp [State.resultsHidden]

/-- CODE is a draw while BUSY until the last completion is observed (70_reset_and_hazards.md R457). -/
theorem toNat_shown_code (s : State) : s.shownRegs.code.toNat =
    if s.view.resultsSeen = false ∧ s.regs.busy = true then (freeWord s.draws).toNat % 2 ^ 32
    else s.regs.code.toNat := by
  have h : (!s.view.resultsSeen && s.regs.busy) = true ↔ s.view.resultsSeen = false ∧ s.regs.busy = true := by simp
  simp only [State.shownRegs, h, apply_ite BitVec.toNat, BitVec.toNat_setWidth]

theorem toNat_shown_outLen (s : State) : s.shownRegs.outLen.toNat =
    if s.view.resultsSeen = false then (freeWord s.draws).toNat % 2 ^ s.platform.xlen
    else s.regs.outLen.toNat := by
  unfold State.shownRegs
  cases s.view.resultsSeen
  · exact toNat_truncX _ _
  · rfl

theorem toNat_shown_cksum (s : State) : s.shownRegs.cksum.toNat =
    if s.view.cksumSeen = false then (freeWord s.draws).toNat % 2 ^ 32 else s.regs.cksum.toNat := by
  unfold State.shownRegs
  cases s.view.cksumSeen
  · exact BitVec.toNat_setWidth 32 (freeWord s.draws)
  · rfl

/-! ### The words of CMD and STATUS -/

theorem toNat_bitAt {k : Nat} (hk : k < 64) (b : Bool) : (bitAt k b).toNat = if b then 2 ^ k else 0 := by
  cases b
  · rfl
  · simp [bitAt, Nat.one_shiftLeft, Nat.mod_eq_of_lt (Nat.pow_lt_pow_right Nat.one_lt_two hk)]

/-- A bit above a number adds to it. -/
theorem toNat_or_bitAt {k : Nat} {x : Word} (hx : x.toNat < 2 ^ k) (hk : k < 64) (b : Bool) :
    (x ||| bitAt k b).toNat = x.toNat + if b then 2 ^ k else 0 := by
  rw [BitVec.toNat_or, toNat_bitAt hk]
  cases b
  · exact Nat.or_zero _
  · have := Nat.two_pow_add_eq_or_of_lt hx 1
    rw [Nat.mul_one] at this
    simp only [if_true]
    rw [Nat.or_comm, ← this, Nat.add_comm]

/-- CMD reads as OP + 2^8 STRICT (10_state.md R33). -/
theorem toNat_cmdWord (r : Regs) :
    r.cmdWord.toNat = r.cmdOp.toNat + if r.cmdStrict then 2 ^ 8 else 0 := by
  have hop : (r.cmdOp.setWidth 64).toNat = r.cmdOp.toNat := BitVec.toNat_setWidth_of_le (by omega)
  have := r.cmdOp.isLt
  rw [Regs.cmdWord, toNat_or_bitAt (by omega) (by omega), hop]

/-- STATUS reads as CODE + 2^32 BUSY + 2^33 INIT_DONE (10_state.md R34). -/
theorem toNat_statusWord (r : Regs) : r.statusWord.toNat =
    r.code.toNat + (if r.busy then 2 ^ 32 else 0) + if r.initDone then 2 ^ 33 else 0 := by
  have hcode : (r.code.setWidth 64).toNat = r.code.toNat := BitVec.toNat_setWidth_of_le (by omega)
  have := r.code.isLt
  have hbusy := toNat_or_bitAt (x := r.code.setWidth 64) (k := 32) (by omega) (by omega) r.busy
  rw [hcode] at hbusy
  rw [Regs.statusWord, toNat_or_bitAt (by rw [hbusy]; split <;> omega) (by omega), hbusy]

end Sys2Proof.Machine

namespace Sys2Proof.Proofs
open Sys2Proof.Machine

/-- Settles O14: the access is none that R32 admits. -/
theorem otherAccessesRefused : Obligations.OtherAccessesRefused := by
  unfold Obligations.OtherAccessesRefused
  intro s off width v rest hq hbad hi
  have ha : ¬accessOk off width = true := by rw [accessOk_iff]; omega
  unfold step
  rcases hi with hi | hi <;> rw [nextAction_of_event hq hi, hostTurn, if_neg ha]

/-- Settles O13, by the offset. -/
theorem registerWrites : Obligations.RegisterWrites := by
  unfold Obligations.RegisterWrites
  intro s off v rest hq hb _ h8 h0 hmax hi
  refine ⟨truncX s.platform.xlen v, toNat_truncX _ v, ?_⟩
  rw [step_regWrite hq hb (accessOk_iff.2 ⟨rfl, h8, hmax⟩) h0.ne' hi, regs_write_eq]

/-- Settles O12, by the offset. -/
theorem registerReads : Obligations.RegisterReads := by
  unfold Obligations.RegisterReads
  intro s off rest hq h8 hmax hi
  dsimp only
  refine ⟨s.shownRegs.read off, ?_, ?_, ?_, ?_, ?_, ?_, ?_, ?_, ?_, ?_, ?_⟩
  · rw [step_regRead hq (accessOk_iff.2 ⟨rfl, h8, hmax⟩) hi]
    simp only [← resultsHidden_iff]; rfl
  · rintro rfl; exact toNat_cmdWord _
  · rintro rfl
    refine (toNat_statusWord _).trans ?_
    rw [toNat_shown_code]; rfl
  · rintro rfl; rfl
  · rintro rfl; rfl
  · rintro rfl; rfl
  · rintro rfl; rfl
  · rintro rfl; exact BitVec.toNat_setWidth_of_le (by omega)
  · rintro rfl; exact toNat_shown_outLen s
  · rintro rfl; exact (BitVec.toNat_setWidth_of_le (by omega)).trans (toNat_shown_cksum s)
  · exact regs_read_reserved _

end Sys2Proof.Proofs
end

section
/-! The accesses from outside to host memory (20_memory.md R90, R92, R96): which of them race, and what the others
do. -/

namespace Sys2Proof.Machine

variable {s t : State} {a k : Nat} {v : Byte} {ev : HostEvent} {rest : List HostEvent}

/-! ### Buffers by op-code -/

theorem hasOutput_iff : ∀ op : BitVec 4, hasOutput op = true ↔ op ∈ [2#4, 3#4, 4#4] := by decide

theorem hasInput_iff : ∀ op : BitVec 4, hasInput op = true ↔ op ∈ [2#4, 3#4, 4#4, 5#4] := by decide

/-! ### The step of an access -/

theorem step_fault_of_event {f : Fault} (hq : s.quiet) (hi : s.inbox = ev :: rest)
    (ht : hostTurn ev { s with inbox := rest } = .stop f) : step s = .fault f := by
  unfold step
  rw [nextAction_of_event hq hi, ht]

theorem atByte_of_lt (h : a < 2 ^ s.platform.xlen) : atByte a s t = .move t := if_pos (decide_eq_true h)

theorem atByte_of_le (h : 2 ^ s.platform.xlen ≤ a) : atByte a s t = .stop .noSuchAddress :=
  if_neg (by simpa [State.hasByte] using h)

/-- Block `k` makes no access outside the range of its pending command, or with none pending (R82). -/
theorem peerAccess_stray {inRange : Snapshot → Bool} (h : ∀ c, s.peers.lookup k = some c → inRange c = false) :
    peerAccess k a inRange s t = .stop .strayPeerAccess := by
  unfold peerAccess
  split
  · rfl
  · next c hc => rw [h c hc]; rfl

theorem peerAccess_admitted {inRange : Snapshot → Bool} {c : Snapshot} (hc : s.peers.lookup k = some c)
    (h : inRange c = true) : peerAccess k a inRange s t = atByte a s t := by
  unfold peerAccess
  rw [hc]
  exact if_pos h

/-- The step of an access of block `k`: it goes on to `t` inside the range and below the top of memory. -/
theorem step_of_peerAccess {inRange : Snapshot → Bool} (hq : s.quiet) (hi : s.inbox = ev :: rest)
    (hev : hostTurn ev { s with inbox := rest } = peerAccess k a inRange { s with inbox := rest } t) :
    ((∀ c, s.peers.lookup k = some c → inRange c = false) → step s = .fault .strayPeerAccess) ∧
    ∀ c, s.peers.lookup k = some c → inRange c = true →
      (2 ^ s.platform.xlen ≤ a → step s = .fault .noSuchAddress) ∧
      (a < 2 ^ s.platform.xlen → step s = .next t) := by
  refine ⟨fun h => step_fault_of_event hq hi (hev.trans (peerAccess_stray h)), fun c hc hin => ?_⟩
  have hturn := hev.trans (peerAccess_admitted hc hin)
  exact ⟨fun ha => step_fault_of_event hq hi (hturn.trans (atByte_of_le ha)),
    fun ha => step_of_event hq hi (hturn.trans (atByte_of_lt ha))⟩

/-! ### Races and plain accesses -/

theorem hostMemWrite_race (h : ∃ c ∈ s.openCommands, c.inBuffers a = true) :
    s.hostMemWrite a v = { s with hostRace := true } := if_pos (List.any_eq_true.2 h)

theorem hostMemWrite_plain (h : ¬∃ c ∈ s.openCommands, c.inBuffers a = true) :
    s.hostMemWrite a v = { s with mem := s.mem.write a v } := if_neg (mt List.any_eq_true.1 h)

theorem hostMemRead_draw (h : ∃ c ∈ s.openCommands, c.inOutput a = true) : s.hostMemRead a =
    { s with hostRead := (Config.freeByte s.draws).setWidth 64, draws := s.draws + 1 } :=
  if_pos (List.any_eq_true.2 h)

theorem hostMemRead_plain (h : ¬∃ c ∈ s.openCommands, c.inOutput a = true) :
    s.hostMemRead a = { s with hostRead := (s.mem.read a).setWidth 64 } := if_neg (mt List.any_eq_true.1 h)

theorem peerMemWrite_race (h : ∃ d ∈ s.pendingBeside k, d.inBuffers a = true) :
    s.peerMemWrite k a v = { s with hostRace := true } := if_pos (List.any_eq_true.2 h)

theorem peerMemWrite_plain (h : ¬∃ d ∈ s.pendingBeside k, d.inBuffers a = true) :
    s.peerMemWrite k a v = { s with mem := s.mem.write a v } := if_neg (mt List.any_eq_true.1 h)

theorem peerMemRead_race (h : ∃ d ∈ s.pendingBeside k, d.inOutput a = true) :
    s.peerMemRead k a = { s with hostRace := true } := if_pos (List.any_eq_true.2 h)

theorem peerMemRead_plain (h : ¬∃ d ∈ s.pendingBeside k, d.inOutput a = true) : s.peerMemRead k a = s :=
  if_neg (mt List.any_eq_true.1 h)

/-- A step that stores a byte gives it that value and leaves every other byte. -/
theorem stored_byte (hw : s.mem.wf = true)
    (h : step s = .next { s with inbox := rest, mem := s.mem.write a v }) :
    ∃ t, step s = .next t ∧ t = { s with inbox := rest, mem := t.mem } ∧ t.mem.read a = v ∧
      sameOutside s t a 1 :=
  ⟨_, h, rfl, Memory.read_write_same a v hw, fun _ _ => Memory.read_write_other _ v (by omega)⟩

/-! ### The pending commands of other blocks -/

/-- A command other than NONE becomes pending in a block that has none (40_commands.md R161, R164). -/
theorem lookup_peerIssue_self (k : Nat) (c : Snapshot) (s : State) : (s.peerIssue k c).peers.lookup k =
    if s.peers.lookup k = none ∧ c.opv ≠ 0 then some c else s.peers.lookup k := by
  have hk := any_key_iff_lookup s.peers k
  unfold State.peerIssue
  split
  · next h => rw [if_neg (by rw [hk] at h; tauto)]
  · next h =>
    rw [if_pos (by rw [hk] at h; tauto)]
    exact List.lookup_cons_self

theorem lookup_peerIssue_other {j : Nat} (hj : j ≠ k) (c : Snapshot) (s : State) :
    (s.peerIssue k c).peers.lookup j = s.peers.lookup j := by
  unfold State.peerIssue
  split
  · rfl
  · rw [List.lookup_cons, beq_eq_false_iff_ne.2 hj]

end Sys2Proof.Machine

namespace Sys2Proof.Proofs
open Sys2Proof.Machine

/-- Settles O54: the hazardous buffers are those of the open commands. -/
theorem pendingBuffers : Obligations.PendingBuffers := by
  unfold Obligations.PendingBuffers
  intro s a v rest hq hw
  simp only [← hasInput_iff, ← hasOutput_iff, ← inInput_iff, ← inOutput_iff, ← mem_openCommands,
    ← Bool.or_eq_true, ← inBuffers_eq]
  refine ⟨?_, fun ha hi => ?_, fun ha hi => ?_⟩
  · rintro ha (hi | hi) <;> exact step_fault_of_event hq hi (atByte_of_le ha)
  · have hs := step_of_event hq hi (atByte_of_lt ha)
    exact ⟨fun h => hs.trans (congrArg _ (hostMemWrite_race h)),
      fun h => stored_byte hw (hs.trans (congrArg _ (hostMemWrite_plain h)))⟩
  · have hs := step_of_event hq hi (atByte_of_lt ha)
    exact ⟨fun h => hs.trans (congrArg _ (hostMemRead_draw h)),
      fun h => hs.trans (congrArg _ (hostMemRead_plain h))⟩

/-- Settles O55: an access is admitted by the block's own command and tested against those pending beside it. -/
theorem peerRace : Obligations.PeerRace := by
  unfold Obligations.PeerRace
  intro s k a v rest hq hw
  simp only [← mem_pendingBeside]
  refine ⟨fun hi => ?_, fun hi => ?_, fun c hi => ?_, fun hi => ?_⟩
  · obtain ⟨stray, admitted⟩ := step_of_peerAccess hq hi rfl
    refine ⟨stray, fun c hc hin => ⟨(admitted c hc hin).1, fun ha => ?_⟩⟩
    have hs := (admitted c hc hin).2 ha
    exact ⟨fun h => hs.trans (congrArg _ (peerMemWrite_race h)),
      fun h => stored_byte hw (hs.trans (congrArg _ (peerMemWrite_plain h)))⟩
  · obtain ⟨stray, admitted⟩ := step_of_peerAccess hq hi rfl
    refine ⟨stray, fun c hc hin => ⟨(admitted c hc hin).1, fun ha => ?_⟩⟩
    have hs := (admitted c hc hin).2 ha
    exact ⟨fun h => hs.trans (congrArg _ (peerMemRead_race h)),
      fun h => hs.trans (congrArg _ (peerMemRead_plain h))⟩
  · exact ⟨_, step_of_event hq hi rfl, peerIssue_shape k c { s with inbox := rest },
      lookup_peerIssue_self k c _, fun _ hj => lookup_peerIssue_other hj c _⟩
  · refine ⟨_, step_of_event hq hi rfl, rfl, ?_, fun j hj => ?_⟩
    · rw [peerDone_peers, lookup_filter_ne, if_pos rfl]
    · rw [peerDone_peers, lookup_filter_ne, if_neg hj]

end Sys2Proof.Proofs
end

section
/-! Bus errors (20_memory.md R87). `Res.Meets s₀ Q r` says that an action of the command that began in `s₀` goes
on where `Q` holds, or stops with a bus error. With "every byte it touches is accessible" for `Q`, an excluded byte
leaves only the bus error. -/

namespace Sys2Proof.Machine

/-! ### Actions that stop only with a bus error -/

/-- What the actions of a command leave alone until it ends. -/
def State.fixed (s : State) : Regs × Snapshot × Platform × Bool := (s.regs, s.snap, s.platform, s.undefinedMark)

/-- The action goes on where `Q` holds, or stops with a bus error. -/
def Res.Meets {α : Type} (s₀ : State) (Q : α → State → Prop) : Res α → Prop
  | .ok a t => t.fixed = s₀.fixed ∧ Q a t
  | .stop e t => t.fixed = s₀.fixed ∧ e = .status .error

/-- The command that began in `s` ended in `u` with a bus error. -/
def BusEnded (s u : State) : Prop :=
  u.regs.code = codeOf (-1) ∧ u.regs.busy = false ∧ u.regs.outLen = 0 ∧ u.regs.cksum = s.regs.cksum ∧
    u.undefinedMark = s.undefinedMark

/-- The block may access the source bytes from index `a` up to `b`. -/
def SourceOk (s : State) (a b : Nat) : Prop := ∀ i, a ≤ i → i < b → s.dmaOk (s.inAddr i) = true

/-- The block may access the output bytes from index `a` up to `b`. -/
def OutputOk (s : State) (a b : Nat) : Prop := ∀ j, a ≤ j → j < b → s.dmaOk (s.outAddr j) = true

section
variable {α β : Type} {s₀ s t : State} {r : Res α} {Q : α → State → Prop} {a b c : Nat}

theorem fixed_eq : t.fixed = s.fixed ↔ t.regs = s.regs ∧ t.snap = s.snap ∧ t.platform = s.platform ∧
    t.undefinedMark = s.undefinedMark := by simp [State.fixed]

theorem snap_of_fixed (h : t.fixed = s.fixed) : t.snap = s.snap := (fixed_eq.1 h).2.1

theorem dmaOk_of_fixed (h : t.fixed = s.fixed) (a : Nat) : t.dmaOk a = s.dmaOk a := by
  unfold State.dmaOk State.hasByte; rw [(fixed_eq.1 h).2.2.1]

theorem inAddr_of_fixed (h : t.fixed = s.fixed) (i : Nat) : t.inAddr i = s.inAddr i := by
  unfold State.inAddr; rw [snap_of_fixed h]

theorem outAddr_of_fixed (h : t.fixed = s.fixed) (j : Nat) : t.outAddr j = s.outAddr j := by
  unfold State.outAddr; rw [snap_of_fixed h]

theorem SourceOk.append (h : SourceOk s a b) (h' : SourceOk s b c) : SourceOk s a c := fun i ha hc =>
  (Nat.lt_or_ge i b).elim (h i ha) fun hb => h' i hb hc

theorem OutputOk.append (h : OutputOk s a b) (h' : OutputOk s b c) : OutputOk s a c := fun j ha hc =>
  (Nat.lt_or_ge j b).elim (h j ha) fun hb => h' j hb hc

theorem sourceOk_one (h : s.dmaOk (s.inAddr a) = true) : SourceOk s a (a + 1) := fun i ha hb => by
  obtain rfl : i = a := by omega
  exact h

theorem outputOk_one (h : s.dmaOk (s.outAddr a) = true) : OutputOk s a (a + 1) := fun j ha hb => by
  obtain rfl : j = a := by omega
  exact h

theorem sourceOk_empty (s : State) (a : Nat) : SourceOk s a a := fun _ ha hb => absurd hb (Nat.not_lt.2 ha)

theorem outputOk_empty (s : State) (a : Nat) : OutputOk s a a := fun _ ha hb => absurd hb (Nat.not_lt.2 ha)

theorem SourceOk.not_excluded (h : SourceOk s a b) {i : Nat} (ha : a ≤ i) (hb : i < b) :
    ¬s.dmaOk (s.inAddr i) = false := by simp [h i ha hb]

theorem OutputOk.not_excluded (h : OutputOk s a b) {j : Nat} (ha : a ≤ j) (hb : j < b) :
    ¬s.dmaOk (s.outAddr j) = false := by simp [h j ha hb]

theorem Res.Meets.mono {Q' : α → State → Prop} (h : r.Meets s₀ Q) (hQ : ∀ a t, Q a t → Q' a t) :
    r.Meets s₀ Q' := by
  cases r
  · exact ⟨h.1, hQ _ _ h.2⟩
  · exact h

theorem Res.Meets.andThen {Q' : β → State → Prop} {f : α → State → Res β} (h : r.Meets s₀ Q)
    (hf : ∀ a t, t.fixed = s₀.fixed → Q a t → (f a t).Meets s₀ Q') : (r.andThen f).Meets s₀ Q' := by
  cases r
  · exact hf _ _ h.1 h.2
  · exact h

/-- Where the action goes on, what its own lemma says of that holds too. -/
theorem Res.Meets.with_eq (h : r.Meets s₀ Q) : r.Meets s₀ fun a t => Q a t ∧ r = .ok a t := by
  cases r
  · exact ⟨h.1, h.2, rfl⟩
  · exact h

/-- A bus error ends the command with Error in either decoder mode. -/
theorem busEnded_raiseLate (h : t.fixed = s.fixed) : BusEnded s (t.raiseLate .error) := by
  obtain ⟨hregs, -, -, hmark⟩ := fixed_eq.1 h
  unfold BusEnded
  rw [raiseLate_shape, complete_regs, hregs]
  exact ⟨rfl, rfl, rfl, rfl, hmark⟩

/-- A command ends as its actions do: with a bus error or past them. -/
theorem Res.Meets.finish {f : α → State → State} (h : r.Meets s₀ Q) :
    BusEnded s₀ (r.finish f) ∨ ∃ a t, t.fixed = s₀.fixed ∧ Q a t ∧ r.finish f = f a t := by
  cases r with
  | ok a t => exact .inr ⟨a, t, h.1, h.2, rfl⟩
  | stop e t => obtain ⟨ht, rfl⟩ := h; exact .inl (busEnded_raiseLate ht)

/-- A command whose actions cannot go on ends with a bus error. -/
theorem Res.Meets.busEnded {f : α → State → State} (h : r.Meets s₀ Q) (hQ : ∀ a t, ¬Q a t) :
    BusEnded s₀ (r.finish f) := h.finish.resolve_right fun ⟨a, t, _, hq, _⟩ => hQ a t hq

end

/-! ### Accesses -/

section
variable {s₀ s : State}

theorem memRead_meets (hs : s.fixed = s₀.fixed) (a : Nat) :
    (memRead a s).Meets s₀ fun _ t => t = s ∧ s₀.dmaOk a = true := by
  unfold memRead
  rw [dmaOk_of_fixed hs]
  split
  · next h => exact ⟨hs, rfl, h⟩
  · exact ⟨hs, rfl⟩

theorem inByte_meets (hs : s.fixed = s₀.fixed) (i : Nat) :
    (inByte i s).Meets s₀ fun _ t => t = s ∧ s₀.dmaOk (s₀.inAddr i) = true := by
  unfold inByte
  rw [inAddr_of_fixed hs]
  exact memRead_meets hs _

theorem outByte_meets (hs : s.fixed = s₀.fixed) (j : Nat) :
    (outByte j s).Meets s₀ fun _ t => t = s ∧ s₀.dmaOk (s₀.outAddr j) = true := by
  unfold outByte
  rw [outAddr_of_fixed hs]
  exact memRead_meets hs _

theorem setOut_meets (hs : s.fixed = s₀.fixed) (j : Nat) (v : Byte) : (setOut j v s).Meets s₀ fun _ t =>
    t = { s with mem := s.mem.write (s.outAddr j) v } ∧ s₀.dmaOk (s₀.outAddr j) = true := by
  unfold setOut memWrite
  rw [dmaOk_of_fixed hs, outAddr_of_fixed hs]
  split
  · next h => exact ⟨hs, rfl, h⟩
  · exact ⟨hs, rfl⟩

/-- LE32 reads its four bytes (20_memory.md R83). -/
theorem le32_meets (hs : s.fixed = s₀.fixed) (i : Nat) :
    (le32 i s).Meets s₀ fun _ t => t = s ∧ SourceOk s₀ i (i + 4) := by
  unfold le32
  refine (inByte_meets hs _).andThen ?_
  rintro _ _ - ⟨rfl, h0⟩
  refine (inByte_meets hs _).andThen ?_
  rintro _ _ - ⟨rfl, h1⟩
  refine (inByte_meets hs _).andThen ?_
  rintro _ _ - ⟨rfl, h2⟩
  refine (inByte_meets hs _).andThen ?_
  rintro _ _ - ⟨rfl, h3⟩
  have h01 := (sourceOk_one h0).append (sourceOk_one h1)
  exact ⟨hs, rfl, (h01.append (sourceOk_one h2)).append (sourceOk_one h3)⟩

end

end Sys2Proof.Machine
end

section
/-! Bus errors in the decoders and in CHECKSUM (20_memory.md R87). -/

namespace Sys2Proof.Machine

variable {s₀ s : State}

/-! ### Copies -/

/-- A copy of a match touches the bytes it copies from and to. -/
theorem copyMatchLoop_meets (hs : s.fixed = s₀.fixed) (n : Nat) {dist : Nat} (hd : dist ≤ s.dec.op) :
    (copyMatchLoop n dist s).Meets s₀ fun _ _ =>
      OutputOk s₀ (s.dec.op - dist) (s.dec.op - dist + n) ∧ OutputOk s₀ s.dec.op (s.dec.op + n) := by
  induction n generalizing s with
  | zero => exact ⟨hs, outputOk_empty _ _, outputOk_empty _ _⟩
  | succ n ih =>
    refine (outByte_meets hs _).andThen ?_
    rintro b _ - ⟨rfl, hsrc⟩
    refine (setOut_meets hs _ b).andThen ?_
    rintro _ _ - ⟨rfl, hdst⟩
    refine Res.Meets.mono (ih hs (hd.trans (Nat.le_succ _))) ?_
    rintro _ _ ⟨h1, h2⟩
    rw [Nat.sub_add_comm hd, Nat.add_right_comm] at h1
    rw [Nat.add_right_comm] at h2
    exact ⟨(outputOk_one hsrc).append h1, (outputOk_one hdst).append h2⟩

/-- A copy of literals touches its input bytes and its output bytes. -/
theorem copyLitLoop_meets (hs : s.fixed = s₀.fixed) (n : Nat) : (copyLitLoop n s).Meets s₀ fun _ _ =>
    SourceOk s₀ s.dec.ip (s.dec.ip + n) ∧ OutputOk s₀ s.dec.op (s.dec.op + n) := by
  induction n generalizing s with
  | zero => exact ⟨hs, sourceOk_empty _ _, outputOk_empty _ _⟩
  | succ n ih =>
    refine (inByte_meets hs _).andThen ?_
    rintro b _ - ⟨rfl, hsrc⟩
    refine (setOut_meets hs _ b).andThen ?_
    rintro _ _ - ⟨rfl, hdst⟩
    refine Res.Meets.mono (ih hs) ?_
    rintro _ _ ⟨h1, h2⟩
    rw [Nat.add_right_comm] at h1 h2
    exact ⟨(sourceOk_one hsrc).append h1, (outputOk_one hdst).append h2⟩

theorem copyMatch_of_checks {len dist : Nat} (hd : dist ≤ s.dec.op) (ho : s.dec.op + len ≤ s.snap.dstN.toNat) :
    copyMatch len dist s = copyMatchLoop len dist s := by
  unfold copyMatch
  rw [if_neg (by omega), if_neg (by omega)]

theorem copyLit_of_checks {n : Nat} (ho : s.dec.op + n ≤ s.snap.dstN.toNat)
    (hi : s.dec.ip + n ≤ s.snap.srcN.toNat) : copyLit n s = copyLitLoop n s := by
  unfold copyLit
  rw [if_neg (by omega), if_neg (by omega)]

/-! ### The stream instructions -/

theorem exec_of_litCount {i : Instr} {k : Nat} (h : i.litCount = some k) (s : State) :
    ∃ st, exec i s = .next (afterStream ((copyLit k s).andThen fun _ s => .ok () (s.setSt st))) := by
  cases i with
  | litFirst n | litRun n => cases h; exact ⟨_, rfl⟩
  | _ => cases h

theorem exec_of_matchParts {i : Instr} {len dist n : Nat} (h : i.matchParts = some (len, dist, n)) (s : State) :
    exec i s = .next (afterStream (matchActions len dist n s)) := by
  cases i with
  | m1n _ _ | m1f _ _ | m2s _ _ _ | m2l _ _ _ | m3 _ _ _ | m4 _ _ _ => cases h; rfl
  | _ => cases h

/-- A literal run whose checks pass ends with Error where a byte it touches is excluded. -/
theorem literals_busEnded {k : Nat} {f : Unit → State → Res Unit} (ho : s.dec.op + k ≤ s.snap.dstN.toNat)
    (hi : s.dec.ip + k ≤ s.snap.srcN.toNat)
    (hbad : ¬(SourceOk s s.dec.ip (s.dec.ip + k) ∧ OutputOk s s.dec.op (s.dec.op + k))) :
    BusEnded s (afterStream ((copyLit k s).andThen f)) := by
  rw [copyLit_of_checks ho hi]
  exact ((copyLitLoop_meets rfl k).andThen (Q' := fun _ _ => False) fun _ _ _ h => absurd h hbad).busEnded
    fun _ _ => id

/-- A match whose checks pass ends with Error where a byte of its copy is excluded. -/
theorem match_busEnded_copy {len dist : Nat} (n : Nat) (hd : dist ≤ s.dec.op)
    (ho : s.dec.op + len ≤ s.snap.dstN.toNat)
    (hbad : ¬(OutputOk s (s.dec.op - dist) (s.dec.op - dist + len) ∧ OutputOk s s.dec.op (s.dec.op + len))) :
    BusEnded s (afterStream (matchActions len dist n s)) := by
  unfold matchActions
  rw [copyMatch_of_checks hd ho]
  exact ((copyMatchLoop_meets rfl len hd).andThen (Q' := fun _ _ => False) fun _ _ _ h => absurd h hbad).busEnded
    fun _ _ => id

/-- A match whose checks pass ends with Error where a byte of its S literals is excluded. -/
theorem match_busEnded_trail {len dist n : Nat} (hd : dist ≤ s.dec.op)
    (ho : s.dec.op + len + n ≤ s.snap.dstN.toNat) (hi : s.dec.ip + n ≤ s.snap.srcN.toNat)
    (hbad : ¬(SourceOk s s.dec.ip (s.dec.ip + n) ∧ OutputOk s (s.dec.op + len) (s.dec.op + len + n))) :
    BusEnded s (afterStream (matchActions len dist n s)) := by
  have hn : 0 < n := by
    refine Nat.pos_of_ne_zero ?_
    rintro rfl
    exact hbad ⟨sourceOk_empty _ _, outputOk_empty _ _⟩
  unfold matchActions
  rw [copyMatch_of_checks hd (by omega)]
  refine ((copyMatchLoop_meets rfl len hd).with_eq.andThen (Q' := fun _ _ => False) ?_).busEnded fun _ _ => id
  rintro _ t ht ⟨-, hloop⟩
  have hdec : t.dec = { s.dec with op := s.dec.op + len } := by rw [copyMatchLoop_shape hloop]
  unfold trail
  rw [if_pos hn, copyLit_of_checks (by rw [hdec, snap_of_fixed ht]; exact ho)
    (by rw [hdec, snap_of_fixed ht]; exact hi)]
  refine (copyLitLoop_meets ht n).andThen fun _ _ _ h => absurd ?_ hbad
  rw [hdec] at h
  exact h

/-! ### The header -/

/-- The bytes read stop at the first excluded one. -/
theorem inBytes_of_excluded {m n i : Nat} (hm : m < n) (h : ∀ j < m, s.dmaOk (s.inAddr (i + j)) = true)
    (hbad : s.dmaOk (s.inAddr (i + m)) = false) : s.inBytes n i = (List.range m).map fun j => s.inAt (i + j) := by
  have hsplit : s.inBytes n i = s.inBytes m i := by
    induction m generalizing n i with
    | zero =>
      obtain ⟨n, rfl⟩ := Nat.exists_eq_succ_of_ne_zero hm.ne'
      exact if_neg (by simpa using hbad)
    | succ m ih =>
      obtain ⟨n, rfl⟩ := Nat.exists_eq_succ_of_ne_zero (Nat.ne_zero_of_lt hm)
      rw [State.inBytes, State.inBytes, ih (Nat.lt_of_succ_lt_succ hm)]
      · intro j hj
        rw [Nat.add_right_comm]
        exact h (j + 1) (Nat.succ_lt_succ hj)
      · rw [Nat.add_right_comm]
        exact hbad
  exact hsplit.trans (inBytes_of_readable h)

theorem inputList_slice {i m : Nat} (h : i + m ≤ s.snap.srcN.toNat) :
    (s.inputList.drop i).take m = (List.range m).map fun j => s.inAt (i + j) := by
  refine List.ext_getElem ?_ fun j h1 h2 => ?_
  · simp [State.inputList]; omega
  · simp [State.inputList]

/-- A header cut by an excluded byte is a bus error in either mode. -/
theorem fetchStream_of_excluded {m : Nat} (hm : s.dec.ip + m < s.snap.srcN.toNat)
    (h : ∀ j < m, s.dmaOk (s.inAddr (s.dec.ip + j)) = true) (hbad : s.dmaOk (s.inAddr (s.dec.ip + m)) = false)
    (hcut : decodeStream s.platform.xlen s.dec.st ((s.inputList.drop s.dec.ip).take m) = .error .cut) :
    fetchStream s = .stop (.status .error) := by
  have hbytes : s.streamBytes = (s.inputList.drop s.dec.ip).take m := by
    rw [inputList_slice hm.le]
    exact inBytes_of_excluded (by omega) h hbad
  have hlen : s.streamBytes.length = m := by simp [hbytes, State.inputList]; omega
  unfold fetchStream
  rw [if_neg (by omega), hbytes, hcut]
  simp only [headerStop, hlen]
  rw [if_neg (by omega)]

/-- Inside a decode the block moves (log 1). -/
theorem nextAction_of_decoding (hr : s.hostRace = false) (hu : s.undefinedMark = false) (hd : s.decoding = true) :
    nextAction s = streamTurn s := by
  unfold nextAction
  rw [State.marked, hr, hu, hd]
  rfl

/-! ### CHECKSUM -/

theorem checksumLoop_meets (hs : s.fixed = s₀.fixed) (n i : Nat) :
    (checksumLoop n i s).Meets s₀ fun _ _ => SourceOk s₀ i (i + n) := by
  induction n generalizing s i with
  | zero => exact ⟨hs, sourceOk_empty _ _⟩
  | succ n ih =>
    refine (inByte_meets hs i).andThen ?_
    rintro b _ - ⟨rfl, h0⟩
    refine Res.Meets.mono (ih (by exact hs) (i + 1)) fun _ _ h => ?_
    rw [Nat.add_right_comm] at h
    exact (sourceOk_one h0).append h

/-- CHECKSUM ends with Error where a source byte is excluded. -/
theorem performChecksum_busEnded (hok : s.inputOk = true) (hbad : ¬SourceOk s 0 s.snap.srcN.toNat) :
    BusEnded s (performChecksum s) := by
  unfold performChecksum
  have hn : s.snap.srcN.toNat ≠ 0 := fun h0 => hbad (h0 ▸ sourceOk_empty s 0)
  rw [if_neg (by simp [hok]), if_neg hn]
  refine Res.Meets.busEnded (checksumLoop_meets rfl _ 0) fun _ _ h => hbad ?_
  rwa [Nat.zero_add] at h

end Sys2Proof.Machine
end

section
/-! COMPRESS with room for BOUND bytes (20_memory.md R87, 42_compressor.md R246, R249): it stops with a bus error
only, and where it goes on it has accessed every source byte and every byte of its stream. The bytes it has written
are at most 17/16 of the source bytes they stand for, so no byte of it finds its buffer full. -/

namespace Sys2Proof.Machine

/-! ### What a literal run and a match cost -/

theorem extBytes_length (r : Nat) : (extBytes r).length = (r - 1) / 255 + 1 := by
  simp [extBytes]

/-- The header of a literal run is at most a sixteenth of it, and a little more. -/
theorem litRunHeader_cost (n : Nat) : 16 * (litRunHeader n).length ≤ n + 20 ∨ n ≤ 3 := by
  unfold litRunHeader
  split
  · rw [List.length_singleton]; omega
  · rw [List.length_cons, extBytes_length]; omega

/-- A match saves what its literals' header costs too much. -/
theorem matchBytes_cost {len : Nat} (dist : Nat) (h : 4 ≤ len) :
    16 * (matchBytes len dist).length + 20 ≤ 17 * len := by
  unfold matchBytes
  split
  · rw [encM2, List.length_cons, List.length_singleton]; omega
  split
  · rw [encM3, List.length_append, encDist, List.length_cons, List.length_singleton]
    split
    · rw [List.length_singleton]; omega
    · rw [List.length_cons, extBytes_length]; simp only [Config.m3MaxLen] at *; omega
  · rw [encM4, List.length_append, encDist, List.length_cons, List.length_singleton]
    split
    · rw [List.length_singleton]; omega
    · rw [List.length_cons, extBytes_length]; simp only [Config.m4MaxLen] at *; omega

/-! ### Emission -/

/-- From `s` to `t` the encoder has written `n` accessible bytes; only memory and OPOS have changed. -/
structure Wrote (s₀ : State) (n : Nat) (s t : State) : Prop where
  shape : t = { s with mem := t.mem, enc := { s.enc with opos := s.enc.opos + n } }
  output : OutputOk s₀ s.enc.opos (s.enc.opos + n)

section
variable {s₀ s t u : State} {m n : Nat}

theorem Wrote.enc_eq (h : Wrote s₀ n s t) : t.enc = { s.enc with opos := s.enc.opos + n } := by rw [h.shape]

theorem Wrote.opos_eq (h : Wrote s₀ n s t) : t.enc.opos = s.enc.opos + n := by rw [h.enc_eq]

theorem Wrote.none (h : t = { s with mem := t.mem }) : Wrote s₀ 0 s t := ⟨h, outputOk_empty _ _⟩

theorem Wrote.trans (h : Wrote s₀ m s t) (h' : Wrote s₀ n t u) : Wrote s₀ (m + n) s u where
  shape := by rw [h'.shape, h.shape]; simp [Nat.add_assoc]
  output := by
    have := h'.output
    rw [h.opos_eq, Nat.add_assoc] at this
    exact h.output.append this

theorem emit_meets (hs : s.fixed = s₀.fixed) (v : Byte) (hroom : s.enc.opos < s₀.snap.dstN.toNat) :
    (emit v s).Meets s₀ fun _ t => Wrote s₀ 1 s t := by
  unfold emit
  rw [if_neg (by rw [snap_of_fixed hs]; omega)]
  refine (setOut_meets hs _ v).andThen ?_
  rintro _ _ ht ⟨rfl, h⟩
  exact ⟨ht, rfl, outputOk_one h⟩

theorem emitBytes_meets (hs : s.fixed = s₀.fixed) (bs : List Byte)
    (hroom : s.enc.opos + bs.length ≤ s₀.snap.dstN.toNat) :
    (emitBytes bs s).Meets s₀ fun _ t => Wrote s₀ bs.length s t := by
  induction bs generalizing s with
  | nil => exact ⟨hs, .none rfl⟩
  | cons b bs ih =>
    rw [List.length_cons] at hroom ⊢
    refine (emit_meets hs b (by omega)).andThen fun _ t ht h => ?_
    refine (ih ht (by rw [h.opos_eq]; omega)).mono fun _ u h' => ?_
    rw [Nat.add_comm]
    exact h.trans h'

theorem emitLits_meets (hs : s.fixed = s₀.fixed) (n src : Nat)
    (hroom : s.enc.opos + n ≤ s₀.snap.dstN.toNat) :
    (emitLits n src s).Meets s₀ fun _ t => Wrote s₀ n s t ∧ SourceOk s₀ src (src + n) := by
  induction n generalizing s src with
  | zero => exact ⟨hs, .none rfl, sourceOk_empty _ _⟩
  | succ n ih =>
    refine (inByte_meets hs src).andThen ?_
    rintro b _ - ⟨rfl, hsrc⟩
    refine (emit_meets hs b (by omega)).andThen fun _ t ht h => ?_
    refine (ih ht (src + 1) (by rw [h.opos_eq]; omega)).mono fun _ u ⟨h', hrest⟩ => ?_
    rw [Nat.add_right_comm] at hrest
    exact ⟨Nat.add_comm n 1 ▸ h.trans h', (sourceOk_one hsrc).append hrest⟩

theorem backPatch_meets (hs : s.fixed = s₀.fixed) (n : Nat) :
    (backPatch n s).Meets s₀ fun _ t => Wrote s₀ 0 s t := by
  unfold backPatch
  refine (outByte_meets hs _).andThen ?_
  rintro b _ - ⟨rfl, -⟩
  refine (setOut_meets hs _ _).mono ?_
  rintro _ _ ⟨rfl, -⟩
  exact .none rfl

/-- Literals from index `a` on, under a header that costs at most a sixteenth of them, and a little more. -/
theorem headedLits_meets {header : Res Unit} {src : State → Nat} {a c n : Nat}
    (hh : header.Meets s₀ fun _ t => Wrote s₀ c s t) (hc : 16 * c ≤ n + 20)
    (hroom : 16 * s.enc.opos + 17 * n + 20 ≤ 16 * s₀.snap.dstN.toNat)
    (ha : ∀ t : State, t.fixed = s₀.fixed → src t = a) :
    (header.andThen fun _ s => emitLits n (src s) s).Meets s₀ fun _ t =>
      ∃ c, 16 * c ≤ 17 * n + 20 ∧ Wrote s₀ c s t ∧ SourceOk s₀ a (a + n) := by
  refine hh.andThen fun _ t ht h => ?_
  rw [ha t ht]
  exact (emitLits_meets ht n a (by rw [h.opos_eq]; omega)).mono fun _ _ ⟨h', hsrc⟩ =>
    ⟨c + n, by omega, h.trans h', hsrc⟩

/-- The header of a literal run after a match: the S field of the match or a LIT_RUN (42_compressor.md R240). -/
theorem litHeader_meets (hs : s.fixed = s₀.fixed) (n : Nat)
    (hroom : 16 * s.enc.opos + n + 20 ≤ 16 * s₀.snap.dstN.toNat) :
    ∃ c, 16 * c ≤ n + 20 ∧
      (if n ≤ 3 then backPatch n s else emitBytes (litRunHeader n) s).Meets s₀ fun _ t => Wrote s₀ c s t := by
  split
  · exact ⟨0, by omega, backPatch_meets hs n⟩
  · next h3 =>
    have hc := (litRunHeader_cost n).resolve_right h3
    exact ⟨_, hc, emitBytes_meets hs _ (by omega)⟩

theorem encLit_meets (hs : s.fixed = s₀.fixed) (src n : Nat)
    (hroom : 16 * s.enc.opos + 17 * n + 20 ≤ 16 * s₀.snap.dstN.toNat) :
    (encLit src n s).Meets s₀ fun _ t =>
      ∃ c, 16 * c ≤ 17 * n + 20 ∧ Wrote s₀ c s t ∧ SourceOk s₀ src (src + n) := by
  unfold encLit
  split
  · next h0 => subst h0; exact ⟨hs, 0, by omega, .none rfl, sourceOk_empty _ _⟩
  · obtain ⟨c, hc, hh⟩ := litHeader_meets hs n (by omega)
    exact headedLits_meets hh hc hroom fun _ _ => rfl

/-- The tail: as before, or under a LIT_FIRST (42_compressor.md R244). -/
theorem encTail_meets (hs : s.fixed = s₀.fixed) (n : Nat)
    (hroom : 16 * s.enc.opos + 17 * n + 20 ≤ 16 * s₀.snap.dstN.toNat) :
    (encTail n s).Meets s₀ fun _ t => ∃ c, 16 * c ≤ 17 * n + 20 ∧ Wrote s₀ c s t ∧
      SourceOk s₀ (s₀.snap.srcN.toNat - n) (s₀.snap.srcN.toNat - n + n) := by
  unfold encTail
  split
  · next h0 => subst h0; exact ⟨hs, 0, by omega, .none rfl, sourceOk_empty _ _⟩
  · have hh : ∃ c, 16 * c ≤ n + 20 ∧ (if s.enc.opos = 0 ∧ n ≤ 238 then emitBytes [byteOf (17 + n)] s
        else if n ≤ 3 then backPatch n s else emitBytes (litRunHeader n) s).Meets s₀ fun _ t =>
        Wrote s₀ c s t := by
      split
      · exact ⟨1, by omega, emitBytes_meets hs _ (by rw [List.length_singleton]; omega)⟩
      · exact litHeader_meets hs n (by omega)
    obtain ⟨c, hc, hh⟩ := hh
    exact headedLits_meets hh hc hroom fun t ht => by rw [snap_of_fixed ht]

/-! ### The match finder -/

theorem probe_meets (hs : s.fixed = s₀.fixed) : (probe s).Meets s₀ fun _ _ =>
    SourceOk s₀ (s.enc.base + s.enc.p) (s.enc.base + s.enc.p + 4) := by
  unfold probe mfVerify
  refine (le32_meets hs _).andThen ?_
  rintro dv _ - ⟨rfl, hkey⟩
  refine Res.Meets.andThen (le32_meets (by exact hs) _) ?_
  rintro _ _ ht -
  exact ⟨ht, hkey⟩

theorem mfSame_meets (hs : s.fixed = s₀.fixed) (j : Nat) : (mfSame j s).Meets s₀ fun _ t =>
    t = s ∧ s₀.dmaOk (s₀.inAddr (s.enc.base + s.enc.p + j)) = true := by
  unfold mfSame
  refine (inByte_meets hs _).andThen ?_
  rintro _ _ - ⟨rfl, hp⟩
  refine (inByte_meets hs _).andThen ?_
  rintro _ _ - ⟨rfl, -⟩
  exact ⟨hs, rfl, hp⟩

/-- The extension reads the bytes at P it counts, and ends within 4 bytes of the scan limit. -/
theorem mfExtend_meets (hs : s.fixed = s₀.fixed) (fuel : Nat) (hlen : s.enc.p + s.mf.mlen ≤ s.enc.e + 3) :
    (mfExtend fuel s).Meets s₀ fun _ t => s.enc.p + t.mf.mlen ≤ s.enc.e + 4 ∧
      SourceOk s₀ (s.enc.base + s.enc.p + s.mf.mlen + 1) (s.enc.base + s.enc.p + t.mf.mlen) := by
  induction fuel generalizing s with
  | zero => exact ⟨hs, by omega, fun _ _ _ => by omega⟩
  | succ fuel ih =>
    unfold mfExtend
    dsimp only
    split
    · exact ⟨hs, by dsimp only; omega, fun _ _ _ => by dsimp only at *; omega⟩
    · next he =>
      refine Res.Meets.andThen (mfSame_meets (by exact hs) _) ?_
      rintro same _ ht ⟨rfl, hp⟩
      split
      · refine Res.Meets.mono (ih ht (by dsimp only; omega)) ?_
        rintro _ t ⟨hle, hsrc⟩
        exact ⟨hle, (sourceOk_one hp).append hsrc⟩
      · exact ⟨ht, by dsimp only; omega, fun _ _ _ => by dsimp only at *; omega⟩

theorem mfLength_meets (hs : s.fixed = s₀.fixed) (hp : s.enc.p < s.enc.e) : (mfLength s).Meets s₀ fun _ t =>
    s.enc.p + t.mf.mlen ≤ s.enc.e + 4 ∧
      SourceOk s₀ (s.enc.base + s.enc.p + 4) (s.enc.base + s.enc.p + t.mf.mlen) := by
  unfold mfLength
  dsimp only [Config.minMatch]
  refine Res.Meets.andThen (Q := fun _ t => s.enc.p + t.mf.mlen ≤ s.enc.e + 4 ∧
      SourceOk s₀ (s.enc.base + s.enc.p + 4) (s.enc.base + s.enc.p + t.mf.mlen)) ?_ fun _ t ht h => ⟨ht, h⟩
  refine Res.Meets.andThen (mfSame_meets (by exact hs) _) ?_
  rintro same _ ht ⟨rfl, h4⟩
  split
  · refine Res.Meets.mono (mfExtend_meets ht _ (by dsimp only; omega)) ?_
    rintro _ t ⟨hle, hsrc⟩
    exact ⟨hle, (sourceOk_one h4).append hsrc⟩
  · exact ⟨ht, by dsimp only; omega, fun _ _ _ => by dsimp only at *; omega⟩

end

/-! ### The scan of a block -/

/-- `n` bytes of stream stand for the first `k` source bytes: at most 17 of them for 16. -/
structure Packed (s₀ : State) (k n : Nat) : Prop where
  source : SourceOk s₀ 0 k
  output : OutputOk s₀ 0 n
  cost : 16 * n ≤ 17 * k

/-- A scan in progress (42_compressor.md R232): the literals from source byte `k` on are pending. -/
structure Scanning (s₀ : State) (k : Nat) (r : EncRegs) : Prop where
  packed : Packed s₀ k r.opos
  pending : (k : Int) = r.base + r.ii - r.ti
  le_p : k ≤ r.base + r.p
  le_end : k ≤ r.base + r.bl
  limit : r.e + 20 = r.bl
  block : r.bl ≤ r.l
  whole : r.base + r.l = s₀.snap.srcN.toNat

/-- COMPRESS between two blocks (42_compressor.md R230): TI literals from source byte `k` on are pending. -/
structure Between (s₀ : State) (k : Nat) (r : EncRegs) : Prop where
  packed : Packed s₀ k r.opos
  pending : k + r.ti = r.base
  whole : r.base + r.l = s₀.snap.srcN.toNat

section
variable {s₀ s t : State} {k : Nat}

theorem Scanning.skipStep (h : Scanning s₀ k s.enc) : Scanning s₀ k (skipStep s).enc :=
  { h with le_p := h.le_p.trans (Nat.add_le_add_left (by rw [skipStep_enc]; dsimp only; omega) _) }

theorem Between.startBlock (h : Between s₀ k s.enc) (hbl : s.enc.bl ≤ s.enc.l) (hbig : 20 < s.enc.bl) :
    Scanning s₀ k (startBlock s).enc := by
  obtain ⟨hpacked, hpend, hwhole⟩ := h
  rw [startBlock_enc]
  refine ⟨hpacked, ?_, ?_, ?_, ?_, hbl, hwhole⟩ <;> dsimp only [Config.tailReserve] <;> omega

/-! The room for BOUND(SRC_N) bytes (42_compressor.md R249), as far as the proofs need it, without its quotient. -/
variable (hroom : 17 * s₀.snap.srcN.toNat + 68 ≤ 16 * s₀.snap.dstN.toNat)
include hroom

/-- A match at P: its literals, its bytes, and the scan goes on past it (42_compressor.md R234). -/
theorem emitMatch_meets (hs : s.fixed = s₀.fixed) (h : Scanning s₀ k s.enc) (hp : s.enc.p < s.enc.e)
    (hkey : SourceOk s₀ (s.enc.base + s.enc.p) (s.enc.base + s.enc.p + 4)) :
    (emitMatch s).Meets s₀ fun _ t => ∃ k, Scanning s₀ k t.enc := by
  obtain ⟨⟨hsrc, hout, hcost⟩, hpend, hkp, -, hlim, hblk, hwhole⟩ := h
  have hfrom : ((s.enc.base : Int) + (s.enc.ii - s.enc.ti)).toNat = k := by omega
  have hcount : ((s.enc.p : Int) - (s.enc.ii - s.enc.ti)).toNat = s.enc.base + s.enc.p - k := by omega
  unfold emitMatch
  dsimp only
  rw [hfrom, hcount]
  refine Res.Meets.andThen (encLit_meets (by exact hs) k _ (by dsimp only; omega)) ?_
  rintro _ t ht ⟨c, hc, hw, hlits⟩
  have ht_enc := hw.enc_eq
  dsimp only at ht_enc
  refine (mfLength_meets ht (by rw [ht_enc]; exact hp)).with_eq.andThen ?_
  rintro _ v hv ⟨⟨hlen, hmatch⟩, heq⟩
  obtain ⟨hshape, hlen4⟩ := mfLength_shape heq
  have hv_enc : v.enc = t.enc := by rw [hshape]
  rw [ht_enc] at hlen hmatch hv_enc
  dsimp only at hlen hmatch
  have hbytes := matchBytes_cost v.mf.moff hlen4
  refine Res.Meets.mono (emitBytes_meets (by exact hv) _ (by rw [hv_enc]; dsimp only; omega)) fun _ u hwu => ?_
  have hu_enc := hwu.enc_eq
  have hwritten := hwu.output
  rw [hv_enc] at hu_enc hwritten
  dsimp only at hu_enc hwritten
  rw [Nat.add_sub_cancel' hkp] at hlits
  rw [hu_enc]
  exact ⟨s.enc.base + s.enc.p + v.mf.mlen, {
    packed := {
      source := (hsrc.append hlits).append (hkey.append hmatch)
      output := (hout.append hw.output).append hwritten
      cost := by dsimp only; omega }
    pending := by dsimp only; omega
    le_p := by dsimp only; omega
    le_end := by dsimp only; omega
    limit := hlim
    block := hblk
    whole := hwhole }⟩

theorem scanLoop_meets (hs : s.fixed = s₀.fixed) (fuel : Nat) (skip : Bool) (h : Scanning s₀ k s.enc) :
    (scanLoop fuel skip s).Meets s₀ fun _ t => ∃ k, Scanning s₀ k t.enc := by
  induction fuel generalizing s k skip with
  | zero => exact ⟨hs, k, h⟩
  | succ fuel ih =>
    have moved : (if skip then skipStep s else s).fixed = s₀.fixed ∧
        Scanning s₀ k (if skip then skipStep s else s).enc := by
      split
      · exact ⟨hs, h.skipStep⟩
      · exact ⟨hs, h⟩
    unfold scanLoop
    generalize (if skip then skipStep s else s) = u at moved ⊢
    obtain ⟨hu, hscan⟩ := moved
    dsimp only
    split
    · exact ⟨hu, k, hscan⟩
    · next he =>
      refine (probe_meets hu).with_eq.andThen ?_
      rintro hit t ht ⟨hkey, heq⟩
      have henc : t.enc = u.enc := by rw [probe_shape heq]
      rw [← henc] at hscan hkey he
      split
      · refine (emitMatch_meets hroom ht hscan (Nat.lt_of_not_le he) hkey).andThen ?_
        rintro _ v hv ⟨k', hk'⟩
        exact ih hv false hk'
      · exact ih ht true hscan

/-- One block: what is left of its literals is carried to the next (42_compressor.md R235). -/
theorem encBlock_meets (hs : s.fixed = s₀.fixed) (h : Between s₀ k s.enc) (hbl : s.enc.bl ≤ s.enc.l)
    (hbig : 20 < s.enc.bl) : (encBlock s).Meets s₀ fun _ t =>
      ∃ k, Packed s₀ k t.enc.opos ∧ k + t.enc.ti = t.enc.base + t.enc.bl ∧ t.enc.bl ≤ t.enc.l ∧
        t.enc.base + t.enc.l = s₀.snap.srcN.toNat := by
  unfold encBlock
  refine Res.Meets.andThen (scanLoop_meets hroom (by exact hs) _ _ (h.startBlock hbl hbig)) ?_
  rintro _ t ht ⟨k', hpacked, hpend, -, hend, -, hblk, hwhole⟩
  exact ⟨ht, k', hpacked, by dsimp only; omega, hblk, hwhole⟩

theorem blockLoop_meets (hs : s.fixed = s₀.fixed) (fuel : Nat) (h : Between s₀ k s.enc) :
    (blockLoop fuel s).Meets s₀ fun _ t => ∃ k, Between s₀ k t.enc := by
  induction fuel generalizing s k with
  | zero => exact ⟨hs, k, h⟩
  | succ fuel ih =>
    unfold blockLoop
    split
    · exact ⟨hs, k, h⟩
    · next hl =>
      refine Res.Meets.andThen (encBlock_meets hroom (by exact hs) ⟨h.packed, h.pending, h.whole⟩
        (Nat.min_le_left _ _) (lt_min (Nat.lt_of_not_le hl) (by decide))) ?_
      rintro _ t ht ⟨k', hpacked, hpend, hblk, hwhole⟩
      exact ih (by exact ht) ⟨hpacked, hpend, by dsimp only; omega⟩

/-! ### The command -/

theorem compressStream_meets (hs : s.fixed = s₀.fixed) : (compressStream s).Meets s₀ fun _ t =>
    SourceOk s₀ 0 s₀.snap.srcN.toNat ∧ OutputOk s₀ 0 t.enc.opos := by
  have hstart : Between s₀ 0 (startCompress s).enc := by
    refine ⟨⟨sourceOk_empty _ _, outputOk_empty _ _, Nat.zero_le _⟩, rfl, ?_⟩
    rw [startCompress_enc, snap_of_fixed hs, Nat.zero_add]
  unfold compressStream
  refine Res.Meets.andThen (blockLoop_meets hroom (by exact hs) _ hstart) ?_
  rintro _ t ht ⟨k, ⟨hsrc, hout, hcost⟩, hpend, hwhole⟩
  refine (encTail_meets ht (t.enc.ti + t.enc.l) (by omega)).andThen ?_
  rintro _ v hv ⟨c, hc, hw, htail⟩
  rw [show s₀.snap.srcN.toNat - (t.enc.ti + t.enc.l) = k by omega,
    show k + (t.enc.ti + t.enc.l) = s₀.snap.srcN.toNat by omega] at htail
  refine Res.Meets.mono (emitBytes_meets hv _ ?_) fun _ u hu => ?_
  · rw [hw.opos_eq]
    simp only [List.length_cons, List.length_nil]
    omega
  · rw [hu.opos_eq, hw.opos_eq]
    have := hu.output
    rw [hw.opos_eq] at this
    exact ⟨hsrc.append htail, (hout.append hw.output).append this⟩

/-- COMPRESS with room ends with a bus error, or with OK once it has accessed its source and its whole stream. -/
theorem performCompress_busEnded_or_ok (hi : s₀.regs.initDone = true) (ha : s₀.argsOk = true) :
    BusEnded s₀ (performCompress s₀) ∨ (performCompress s₀).regs.code = 0 ∧
      SourceOk s₀ 0 s₀.snap.srcN.toNat ∧ OutputOk s₀ 0 (performCompress s₀).regs.outLen.toNat := by
  unfold performCompress
  rw [if_neg (by simp [hi]), if_neg (by simp [ha])]
  rcases (compressStream_meets hroom rfl).finish (f := fun _ s => s.finishOk s.enc.opos) with
    h | ⟨_, t, -, ⟨hsrc, hout⟩, heq⟩
  · exact .inl h
  · refine .inr ?_
    rw [heq]
    refine ⟨rfl, hsrc, fun j h0 hj => hout j h0 (hj.trans_le ?_)⟩
    rw [finishOk_eq, complete_regs]
    dsimp only
    split
    · rw [BitVec.toNat_ofNat]; exact Nat.mod_le _ _
    · exact Nat.zero_le _

end

end Sys2Proof.Machine

namespace Sys2Proof.Proofs
open Sys2Proof.Machine

/-- Settles O23: an action that touches only accessible bytes cannot have met the excluded one, so it has stopped
with a bus error. -/
theorem busErrors : Obligations.BusErrors := by
  unfold Obligations.BusErrors
  refine ⟨?_, ?_, ?_, ?_, ?_⟩
  · intro s m hr hu hd hm hok hbad hcut
    refine ⟨s.raiseLate .error, ?_, busEnded_raiseLate rfl⟩
    rw [step, nextAction_of_decoding hr hu hd, streamTurn, fetchStream_of_excluded hm hok hbad hcut]
    rfl
  · intro s i k hi ho hin ⟨j, hj, hbad⟩
    obtain ⟨st, he⟩ := exec_of_litCount hi s
    exact ⟨_, he, literals_busEnded ho hin fun ⟨h1, h2⟩ =>
      hbad.elim (h1.not_excluded (by omega) (by omega)) (h2.not_excluded (by omega) (by omega))⟩
  · intro s i len dist n hi hd ho hbad
    refine ⟨_, exec_of_matchParts hi s, ?_⟩
    rcases hbad with ⟨j, hj, hbad⟩ | ⟨ho', hin, j, hj, hbad⟩
    · exact match_busEnded_copy n hd ho fun ⟨h1, h2⟩ =>
        hbad.elim (h1.not_excluded (by omega) (by omega)) (h2.not_excluded (by omega) (by omega))
    · exact match_busEnded_trail hd ho' hin fun ⟨h1, h2⟩ =>
        hbad.elim (h1.not_excluded (by omega) (by omega)) (h2.not_excluded (by omega) (by omega))
  · intro t s hok hbad
    exact ⟨_, rfl, performChecksum_busEnded (s := s.latch 5#4 t) hok fun h => hbad fun i hi => h i i.zero_le hi⟩
  · intro t s hi ha hroom
    refine ⟨_, rfl, (performCompress_busEnded_or_ok (s₀ := s.latch 2#4 t) ?_ hi ha).imp_right ?_⟩
    · rw [latch_snap]; dsimp only; omega
    · rintro ⟨hc, hsrc, hout⟩
      exact ⟨hc, fun i hi => hsrc i i.zero_le hi, fun j hj => hout j j.zero_le hj⟩

end Sys2Proof.Proofs
end

section
/-! The round trip between instructions and their codes (30_encoding.md R110 to R127): what decodes is what the encoder
writes, and what the encoder writes decodes. -/
namespace Sys2Proof

/-! ### Bytes -/

@[simp] theorem byteOf_toNat (b : Byte) : byteOf b.toNat = b := by simp [byteOf]

theorem toNat_byteOf {n : Nat} (h : n < 256) : (byteOf n).toNat = n := Nat.mod_eq_of_lt h

theorem byteOf_congr {m n : Nat} (h : m % 256 = n % 256) : byteOf m = byteOf n := BitVec.eq_of_toNat_eq h

theorem toNat_ne_zero {b : Byte} : b.toNat ≠ 0 ↔ b ≠ 0 := by simp [← BitVec.toNat_inj]

/-! ### Length extensions (R116, R270) -/

theorem extBytes_append (r : Nat) (rest : List Byte) : extBytes r ++ rest =
    List.replicate ((r - 1) / 255) 0 ++ byteOf (r - 255 * ((r - 1) / 255)) :: rest := by
  rw [extBytes, List.append_assoc]; rfl

theorem extFits_iff {xlen base v : Nat} :
    extFits xlen base v = true ↔ 255 * ((v - base - 1) / 255) ≤ 2 ^ xlen - 511 := decide_eq_true_iff

/-- A length extension that is read: some 00 bytes that pass the guard of R270, then a byte that is not 00. -/
theorem decodeExt_eq_ok {xlen base acc used v n : Nat} {e : DecodeError} {bs rest : List Byte} :
    decodeExt xlen base e acc used bs = .ok (v, n, rest) ↔
      ∃ (z : Nat) (x : Byte), x ≠ 0 ∧ (z = 0 ∨ acc + 255 * z ≤ 2 ^ xlen - 511) ∧
        bs = List.replicate z 0 ++ x :: rest ∧ v = base + acc + 255 * z + x.toNat ∧ n = used + z + 1 := by
  induction bs generalizing acc used with
  | nil => simp [decodeExt]
  | cons y bs ih =>
    unfold decodeExt
    split
    · next hy =>
      rw [toNat_ne_zero] at hy
      constructor
      · intro h; cases h
        exact ⟨0, y, hy, .inl rfl, rfl, rfl, rfl⟩
      · rintro ⟨z, x, hx, -, hbs, rfl, rfl⟩
        cases z with
        | zero => cases hbs; rfl
        | succ z => cases hbs; exact absurd rfl hy
    · next hy =>
      rw [toNat_ne_zero, not_not] at hy
      subst hy
      split
      · next hlong =>
        simp only [reduceCtorEq, false_iff]
        rintro ⟨z, x, hx, hfit, hbs, -⟩
        cases z with
        | zero => cases hbs; exact hx rfl
        | succ z => omega
      · next hfits =>
        rw [ih]
        constructor
        · rintro ⟨z, x, hx, hfit, rfl, rfl, rfl⟩
          exact ⟨z + 1, x, hx, .inr (by omega), rfl, by omega, by omega⟩
        · rintro ⟨z, x, hx, hfit, hbs, rfl, rfl⟩
          cases z with
          | zero => cases hbs; exact absurd rfl hx
          | succ z => cases hbs; exact ⟨z, x, hx, .inr (by omega), rfl, by omega, by omega⟩

/-- The extension that `decodeExt` reads is the canonical one of the length it answers. -/
theorem decodeExt_start_eq_ok {xlen base v n : Nat} {e : DecodeError} {bs rest : List Byte} :
    decodeExt xlen base e 0 0 bs = .ok (v, n, rest) ↔
      base < v ∧ extFits xlen base v = true ∧ bs = extBytes (v - base) ++ rest ∧
        n = (extBytes (v - base)).length := by
  simp only [decodeExt_eq_ok, extBytes_append, Machine.extBytes_length, extFits_iff]
  constructor
  · rintro ⟨z, x, hx, hfit, rfl, rfl, rfl⟩
    have hlo := toNat_ne_zero.2 hx
    have hz : (base + 0 + 255 * z + x.toNat - base - 1) / 255 = z := by omega
    have hlast : base + 0 + 255 * z + x.toNat - base - 255 * z = x.toNat := by omega
    rw [hz, hlast, byteOf_toNat]
    exact ⟨by omega, by omega, rfl, by omega⟩
  · rintro ⟨hv, hfit, hbs, hn⟩
    have hlast : v - base - 255 * ((v - base - 1) / 255) < 256 := by omega
    refine ⟨(v - base - 1) / 255, _, toNat_ne_zero.1 ?_, .inr (by omega), hbs, ?_, by omega⟩
    · rw [toNat_byteOf hlast]; omega
    · rw [toNat_byteOf hlast]; omega

/-- A length field and its extension are read exactly from the field and extension the encoder writes. -/
theorem decodeLen_eq_ok {xlen k base field v n : Nat} {e : DecodeError} {bs rest : List Byte}
    (hk : field + k ≤ base) : decodeLen xlen k base field e bs = .ok (v, n, rest) ↔
      k < v ∧ extFits xlen base v = true ∧ field = lenField k base v ∧ bs = lenExt base v ++ rest ∧
        n = (lenExt base v).length := by
  unfold decodeLen lenField lenExt
  split
  · next hf =>
    constructor
    · intro h; cases h
      have hz : extZeros base (field + k) = 0 := by unfold extZeros; omega
      simp [hk, extFits, hz]; omega
    · rintro ⟨hv, -, hfield, hbs, hn⟩
      split at hfield
      · next hb =>
        rw [if_pos hb] at hbs hn
        subst hbs hn hfield
        simp [Nat.sub_add_cancel hv.le]
      · exact absurd hfield hf
  · next hf =>
    rw [decodeExt_start_eq_ok]
    constructor
    · rintro ⟨hv, hfit, hbs, hn⟩
      rw [if_neg hv.not_ge, if_neg hv.not_ge]
      exact ⟨by omega, hfit, by omega, hbs, hn⟩
    · rintro ⟨hv, hfit, hfield, hbs, hn⟩
      split at hfield
      · omega
      · next hb =>
        rw [if_neg hb] at hbs hn
        exact ⟨by omega, hfit, hbs, hn⟩

/-! ### The table of op-code bytes (R120) -/

/-- The op-code bytes of each format, by decoder state: the table of R120 read by format. -/
def Format.ReadAt (st : DecState) (b : Nat) : Format → Prop
  | .litFirst => st = .start ∧ 18 ≤ b
  | .litRun => (st = .start ∨ st = .st0) ∧ b < 16
  | .m1n => (st = .st1 ∨ st = .st2 ∨ st = .st3) ∧ b < 16
  | .m1f => st = .st4 ∧ b < 16
  | .m4OrEos => (st ≠ .start ∨ b < 18) ∧ 16 ≤ b ∧ b < 32
  | .m3 => st ≠ .start ∧ 32 ≤ b ∧ b < 64
  | .m2s => st ≠ .start ∧ 64 ≤ b ∧ b < 128
  | .m2l => st ≠ .start ∧ 128 ≤ b

theorem selectFormat_eq_iff {st : DecState} {b : Nat} {f : Format} : selectFormat st b = f ↔ f.ReadAt st b := by
  constructor
  · rintro rfl
    unfold selectFormat
    split
    · next h => exact h
    next h0 =>
    have hst : 18 ≤ b → st ≠ .start := fun hb hst => h0 ⟨hst, hb⟩
    split
    · next h => cases st <;> simp [Format.ReadAt, h]
    split
    · next hlo hhi => exact ⟨(Nat.lt_or_ge b 18).symm.imp_left hst, by omega, hhi⟩
    split
    · next hlo hhi => exact ⟨hst (by omega), by omega, hhi⟩
    split
    · next hlo hhi => exact ⟨hst (by omega), by omega, hhi⟩
    · exact ⟨hst (by omega), by omega⟩
  · intro h
    unfold selectFormat
    cases f with
    | litFirst => exact if_pos h
    | litRun =>
      obtain ⟨rfl | rfl, hb⟩ := h
      · rw [if_neg (by omega), if_pos hb]
      · simp [hb]
    | m1n => obtain ⟨rfl | rfl | rfl, hb⟩ := h <;> simp [hb]
    | m1f => obtain ⟨rfl, hb⟩ := h; simp [hb]
    | m4OrEos =>
      obtain ⟨hst, hlo, hhi⟩ := h
      rw [if_neg fun h => hst.elim (absurd h.1) (by omega), if_neg hlo.not_gt, if_pos hhi]
    | m3 =>
      obtain ⟨hst, hlo, hhi⟩ := h
      rw [if_neg fun h => hst h.1, if_neg (by omega), if_neg hlo.not_gt, if_pos hhi]
    | m2s =>
      obtain ⟨hst, hlo, hhi⟩ := h
      rw [if_neg fun h => hst h.1, if_neg (by omega), if_neg (by omega), if_neg hlo.not_gt, if_pos hhi]
    | m2l =>
      obtain ⟨hst, hlo⟩ := h
      rw [if_neg fun h => hst h.1, if_neg (by omega), if_neg (by omega), if_neg (by omega), if_neg hlo.not_gt]

/-! ### Fields of the fixed operand bytes (R122 to R124) -/

theorem distField_lt (d0 d1 : Byte) : distField d0 d1 < 16384 := by unfold distField; omega

theorem distBytes_distField (d0 d1 : Byte) : distBytes (distField d0 d1) (d0.toNat % 4) = [d0, d1] := by
  have h0 : distField d0 d1 % 64 * 4 + d0.toNat % 4 = d0.toNat := by unfold distField; omega
  have h1 : distField d0 d1 / 64 = d1.toNat := by unfold distField; omega
  rw [distBytes, h0, h1, byteOf_toNat, byteOf_toNat]

/-- The distance bytes of a field `d` and an S field `s`, read back. -/
theorem distBytes_eq {d s : Nat} (hd : d < 16384) (hs : s < 4) :
    ∃ d0 d1, distBytes d s = [d0, d1] ∧ distField d0 d1 = d ∧ d0.toNat % 4 = s := by
  refine ⟨_, _, rfl, ?_, ?_⟩
  · rw [distField, toNat_byteOf (by omega), toNat_byteOf (by omega)]; omega
  · rw [toNat_byteOf (by omega)]; omega

theorem m1Bytes_fields {x h : Byte} (hx : x.toNat < 16) :
    m1Bytes (h.toNat * 4 + x.toNat / 4) (x.toNat % 4) = [x, h] := by
  have h0 : (h.toNat * 4 + x.toNat / 4) % 4 * 4 + x.toNat % 4 = x.toNat := by omega
  have h1 : (h.toNat * 4 + x.toNat / 4) / 4 = h.toNat := by omega
  rw [m1Bytes, h0, h1, byteOf_toNat, byteOf_toNat]

theorem m2Header_fields (x h : Byte) :
    m2Header (x.toNat / 32 + 1) (h.toNat * 8 + x.toNat / 4 % 8 + 1) (x.toNat % 4) = [x, h] := by
  have h0 : (x.toNat / 32 + 1 - 1) * 32 + (h.toNat * 8 + x.toNat / 4 % 8 + 1 - 1) % 8 * 4 + x.toNat % 4 =
      x.toNat := by omega
  have h1 : (h.toNat * 8 + x.toNat / 4 % 8 + 1 - 1) / 8 = h.toNat := by omega
  rw [m2Header, h0, h1, byteOf_toNat, byteOf_toNat]

/-! ### What decodes is what the encoder writes -/

/-- `bytes` begin with the canonical header of `i`, of `n` bytes, where R120 reads `i`. -/
def BeginsWith (xlen : Nat) (st : DecState) (bytes : List Byte) (i : Instr) (n : Nat) : Prop :=
  i.wf xlen = true ∧ i.admits st = true ∧
    ∃ b bs rest, encode i = .stream (b :: bs) ∧ bytes = b :: bs ++ rest ∧ n = bs.length + 1

section
variable {xlen n used len : Nat} {st : DecState} {x : Byte} {bs rest : List Byte} {i : Instr}

theorem beginsWith_litRun (hf : Format.litRun.ReadAt st x.toNat) (e : DecodeError)
    (h : decodeLen xlen 3 18 (x.toNat % 16) e bs = .ok (n, used, rest)) :
    BeginsWith xlen st (x :: bs) (.litRun n) (used + 1) := by
  obtain ⟨hst, hx⟩ := hf
  obtain ⟨hn, hfit, hfield, rfl, rfl⟩ := (decodeLen_eq_ok (by omega)).1 h
  rw [Nat.mod_eq_of_lt hx] at hfield
  refine ⟨?_, ?_, x, lenExt 18 n, rest, ?_, rfl, rfl⟩
  · simp [Instr.wf, hfit]; omega
  · simpa [Instr.admits] using hst
  · rw [encode, ← hfield, byteOf_toNat]

/-- The four formats of two bytes. -/
theorem beginsWith_of_decodeTwo {f : Nat → Instr} (h : decodeTwo f bs = .ok (i, n))
    (hwf : ∀ y : Byte, (f y.toNat).wf xlen = true) (hadm : ∀ y : Byte, (f y.toNat).admits st = true)
    (henc : ∀ y : Byte, encode (f y.toNat) = .stream [x, y]) : BeginsWith xlen st (x :: bs) i n := by
  cases bs with
  | nil => cases h
  | cons y rest => cases h; exact ⟨hwf y, hadm y, x, [y], rest, henc y, rfl, rfl⟩

theorem beginsWith_m3 (hf : Format.m3.ReadAt st x.toNat) (e : DecodeError)
    (hl : decodeLen xlen 2 33 (x.toNat % 32) e bs = .ok (len, used, rest))
    (h : decodeM3Tail len used rest = .ok (i, n)) : BeginsWith xlen st (x :: bs) i n := by
  obtain ⟨hst, hlo, hhi⟩ := hf
  obtain ⟨hlen, hfit, hfield, rfl, rfl⟩ := (decodeLen_eq_ok (by omega)).1 hl
  match rest with
  | [] | [_] => cases h
  | d0 :: d1 :: rest =>
    cases h
    have hd := distField_lt d0 d1
    refine ⟨?_, ?_, x, lenExt 33 len ++ [d0, d1], rest, ?_, by simp, by simp⟩
    · simp [Instr.wf, hfit]; omega
    · simpa [Instr.admits] using hst
    · have hx : 32 + lenField 2 33 len = x.toNat := by omega
      rw [encode, hx, byteOf_toNat, Nat.add_sub_cancel, distBytes_distField]

/-- An M4-shaped header whose H is bit 3 of `x` and whose D field stands in `d0` and `d1`. -/
theorem m4Header_fields {d0 d1 : Byte} (hx : 16 ≤ x.toNat ∧ x.toNat < 32)
    (hfield : x.toNat % 8 = lenField 2 9 len) :
    m4Header len (x.toNat / 8 % 2 * 16384 + distField d0 d1) (d0.toNat % 4) =
      x :: (lenExt 9 len ++ [d0, d1]) := by
  have hd := distField_lt d0 d1
  have hop : 16 + (x.toNat / 8 % 2 * 16384 + distField d0 d1) / 16384 * 8 + lenField 2 9 len = x.toNat := by
    omega
  have hmod : (x.toNat / 8 % 2 * 16384 + distField d0 d1) % 16384 = distField d0 d1 := by omega
  rw [m4Header, hop, hmod, byteOf_toNat, distBytes_distField]

theorem beginsWith_m4 (hf : Format.m4OrEos.ReadAt st x.toNat) (e : DecodeError)
    (hl : decodeLen xlen 2 9 (x.toNat % 8) e bs = .ok (len, used, rest))
    (h : decodeM4Tail len (x.toNat / 8 % 2) used rest = .ok (i, n)) : BeginsWith xlen st (x :: bs) i n := by
  obtain ⟨hst, hlo, hhi⟩ := hf
  obtain ⟨hlen, hfit, hfield, rfl, rfl⟩ := (decodeLen_eq_ok (by omega)).1 hl
  have hm4 : m4LenField len = x.toNat % 8 := hfield.symm
  match rest with
  | [] | [_] => cases h
  | d0 :: d1 :: rest =>
    have hd := distField_lt d0 d1
    have henc := m4Header_fields (d0 := d0) (d1 := d1) ⟨hlo, hhi⟩ hfield
    rw [decodeM4Tail] at h
    split at h
    · next heos =>
      cases h
      refine ⟨?_, ?_, x, lenExt 9 len ++ [d0, d1], rest, ?_, by simp, by simp⟩
      · simp [Instr.wf, hfit]; omega
      · simp only [Instr.admits, hm4, Bool.or_eq_true, decide_eq_true_eq]
        exact hst.imp_right fun h => by omega
      · rw [encode, ← henc, heos.1, heos.2]
    · next =>
      cases h
      refine ⟨?_, ?_, x, lenExt 9 len ++ [d0, d1], rest, ?_, by simp, by simp⟩
      · simp [Instr.wf, hfit]; omega
      · simp only [Instr.admits, hm4, Bool.or_eq_true, Bool.and_eq_true, decide_eq_true_eq]
        exact hst.imp_right fun h => by omega
      · rw [encode, ← henc, Nat.add_assoc, Nat.add_sub_cancel_left]

end

theorem beginsWith_of_decodeStream {xlen n : Nat} {st : DecState} {bytes : List Byte} {i : Instr}
    (h : decodeStream xlen st bytes = .ok (i, n)) : BeginsWith xlen st bytes i n := by
  cases bytes with
  | nil => cases h
  | cons x bs =>
    have hx := x.isLt
    unfold decodeStream at h
    dsimp only at h
    split at h
    · next hf =>
      obtain ⟨rfl, hlo⟩ := selectFormat_eq_iff.1 hf
      cases h
      refine ⟨?_, rfl, x, [], bs, ?_, rfl, rfl⟩
      · simp [Instr.wf]; omega
      · rw [encode, Nat.sub_add_cancel (by omega), byteOf_toNat]
    · next hf =>
      split at h
      · next hl => cases h; exact beginsWith_litRun (selectFormat_eq_iff.1 hf) _ hl
      · cases h
    · next hf =>
      obtain ⟨hst, hx⟩ := selectFormat_eq_iff.1 hf
      refine beginsWith_of_decodeTwo h (fun y => ?_) (fun y => ?_) fun y => ?_
      · simp [Instr.wf]; omega
      · simpa [Instr.admits, or_assoc] using hst
      · rw [encode, Nat.add_sub_cancel, m1Bytes_fields hx]
    · next hf =>
      obtain ⟨hst, hx⟩ := selectFormat_eq_iff.1 hf
      refine beginsWith_of_decodeTwo h (fun y => ?_) (fun y => ?_) fun y => ?_
      · simp [Instr.wf]; omega
      · simpa [Instr.admits] using hst
      · rw [encode, Nat.add_sub_cancel, m1Bytes_fields hx]
    · next hf =>
      obtain ⟨hst, hlo, hhi⟩ := selectFormat_eq_iff.1 hf
      refine beginsWith_of_decodeTwo h (fun y => ?_) (fun y => ?_) fun y => ?_
      · simp [Instr.wf]; omega
      · simpa [Instr.admits] using hst
      · rw [encode, m2Header_fields]
    · next hf =>
      obtain ⟨hst, hlo⟩ := selectFormat_eq_iff.1 hf
      refine beginsWith_of_decodeTwo h (fun y => ?_) (fun y => ?_) fun y => ?_
      · simp [Instr.wf]; omega
      · simpa [Instr.admits] using hst
      · rw [encode, m2Header_fields]
    · next hf =>
      split at h
      · next hl => exact beginsWith_m3 (selectFormat_eq_iff.1 hf) _ hl h
      · cases h
    · next hf =>
      split at h
      · next hl => exact beginsWith_m4 (selectFormat_eq_iff.1 hf) _ hl h
      · cases h

theorem decodeStream_pos {xlen n : Nat} {st : DecState} {bytes : List Byte} {i : Instr}
    (h : decodeStream xlen st bytes = .ok (i, n)) : 1 ≤ n := by
  obtain ⟨-, -, _, _, _, -, -, rfl⟩ := beginsWith_of_decodeStream h
  exact Nat.succ_pos _

/-! ### What the encoder writes decodes -/

theorem lenField_le (k base v : Nat) : lenField k base v ≤ base - k := by unfold lenField; split <;> omega

theorem m1Bytes_eq {d s : Nat} (hd : d < 1024) (hs : s < 4) : ∃ x y, m1Bytes d s = [x, y] ∧
    x.toNat < 16 ∧ y.toNat * 4 + x.toNat / 4 = d ∧ x.toNat % 4 = s := by
  refine ⟨_, _, rfl, ?_⟩
  rw [toNat_byteOf (by omega), toNat_byteOf (by omega)]
  omega

theorem m2Header_eq {len dist s : Nat} (hl : 3 ≤ len ∧ len ≤ 8) (hd : 1 ≤ dist ∧ dist ≤ 2048) (hs : s < 4) :
    ∃ x y, m2Header len dist s = [x, y] ∧
      x.toNat / 32 + 1 = len ∧ y.toNat * 8 + x.toNat / 4 % 8 + 1 = dist ∧ x.toNat % 4 = s := by
  refine ⟨_, _, rfl, ?_⟩
  rw [toNat_byteOf (by omega), toNat_byteOf (by omega)]
  omega

section
variable {xlen : Nat} {st : DecState}

theorem decodeStream_litRun {n : Nat} (hst : st = .start ∨ st = .st0) (hn : 3 < n)
    (hfit : extFits xlen 18 n = true) (rest : List Byte) :
    decodeStream xlen st (byteOf (lenField 3 18 n) :: (lenExt 18 n ++ rest)) =
      .ok (.litRun n, (lenExt 18 n).length + 1) := by
  have hfield := lenField_le 3 18 n
  have hop := toNat_byteOf (n := lenField 3 18 n) (by omega)
  have hsel : selectFormat st (lenField 3 18 n) = .litRun := selectFormat_eq_iff.2 ⟨hst, by omega⟩
  have hlen : decodeLen xlen 3 18 (lenField 3 18 n % 16) .longLiteral (lenExt 18 n ++ rest) =
      .ok (n, (lenExt 18 n).length, rest) :=
    (decodeLen_eq_ok (by omega)).2 ⟨hn, hfit, by omega, rfl, rfl⟩
  simp only [decodeStream, hop, hsel, hlen]

theorem decodeStream_m3 {len d s : Nat} (hst : st ≠ .start) (hlen : 2 < len) (hfit : extFits xlen 33 len = true)
    (hd : d < 16384) (hs : s < 4) (rest : List Byte) :
    decodeStream xlen st (byteOf (32 + lenField 2 33 len) :: (lenExt 33 len ++ distBytes d s ++ rest)) =
      .ok (.m3 len (d + 1) s, (lenExt 33 len).length + 3) := by
  have hfield := lenField_le 2 33 len
  have hop := toNat_byteOf (n := 32 + lenField 2 33 len) (by omega)
  have hsel : selectFormat st (32 + lenField 2 33 len) = .m3 :=
    selectFormat_eq_iff.2 ⟨hst, by omega, by omega⟩
  obtain ⟨d0, d1, hb, rfl, rfl⟩ := distBytes_eq hd hs
  have hlen : decodeLen xlen 2 33 ((32 + lenField 2 33 len) % 32) .longMatch (lenExt 33 len ++ d0 :: d1 :: rest) =
      .ok (len, (lenExt 33 len).length, d0 :: d1 :: rest) :=
    (decodeLen_eq_ok (by omega)).2 ⟨hlen, hfit, by omega, rfl, rfl⟩
  rw [hb, List.append_assoc]
  simp only [decodeStream, hop, hsel, List.cons_append, List.nil_append, hlen, decodeM3Tail]

/-- An M4-shaped header up to its length: what is left are H, the distance bytes and the S field. -/
theorem decodeStream_m4Header {len d s : Nat} (hst : st ≠ .start ∨ d < 16384 ∧ lenField 2 9 len ≤ 1)
    (hlen : 2 < len) (hfit : extFits xlen 9 len = true) (hd : d < 32768) (rest : List Byte) :
    decodeStream xlen st (m4Header len d s ++ rest) =
      decodeM4Tail len (d / 16384) (lenExt 9 len).length (distBytes (d % 16384) s ++ rest) := by
  have hfield := lenField_le 2 9 len
  obtain ⟨x, hx⟩ : ∃ x, x = 16 + d / 16384 * 8 + lenField 2 9 len := ⟨_, rfl⟩
  have hop := toNat_byteOf (n := x) (by omega)
  have hsel : selectFormat st x = .m4OrEos :=
    selectFormat_eq_iff.2 ⟨hst.imp_right fun h => by omega, by omega, by omega⟩
  have hH : x / 8 % 2 = d / 16384 := by omega
  have hlen : decodeLen xlen 2 9 (x % 8) .longMatch (lenExt 9 len ++ (distBytes (d % 16384) s ++ rest)) =
      .ok (len, (lenExt 9 len).length, distBytes (d % 16384) s ++ rest) :=
    (decodeLen_eq_ok (by omega)).2 ⟨hlen, hfit, by omega, rfl, rfl⟩
  rw [m4Header, ← hx, List.cons_append, List.append_assoc]
  simp only [decodeStream, hop, hsel, hH, hlen]

/-- The header of a well-formed admitted stream instruction decodes to it, whatever follows. -/
theorem decodeStream_encode {i : Instr} {bs : List Byte} (hwf : i.wf xlen = true) (hadm : i.admits st = true)
    (henc : encode i = .stream bs) (rest : List Byte) : decodeStream xlen st (bs ++ rest) = .ok (i, bs.length) := by
  cases i with
  | noCommand | init | compress | decompress | decompressSafe | checksum | reserved6 | reserved7 | reserved8
  | reserved9 | reserved10 | reserved11 | reserved12 | reserved13 | reserved14 | reserved15 => cases henc
  | litFirst n =>
    cases henc
    simp only [Instr.wf, Instr.admits, Bool.and_eq_true, decide_eq_true_eq] at hwf hadm
    have hop := toNat_byteOf (n := n + 17) (by omega)
    have hsel : selectFormat st (n + 17) = .litFirst := selectFormat_eq_iff.2 ⟨hadm, by omega⟩
    simp [decodeStream, hop, hsel]
  | litRun n =>
    cases henc
    simp only [Instr.wf, Instr.admits, Bool.and_eq_true, Bool.or_eq_true, decide_eq_true_eq] at hwf hadm
    exact decodeStream_litRun hadm hwf.1 hwf.2 rest
  | m1n d s =>
    cases henc
    simp only [Instr.wf, Instr.admits, Bool.and_eq_true, Bool.or_eq_true, decide_eq_true_eq, or_assoc] at hwf hadm
    obtain ⟨x, y, hb, hx, hd, rfl⟩ := m1Bytes_eq (d := d - 1) (s := s) (by omega) hwf.2
    have hsel : selectFormat st x.toNat = .m1n := selectFormat_eq_iff.2 ⟨hadm, hx⟩
    have hdist : d - 1 + 1 = d := by omega
    rw [hb]
    simp [decodeStream, hsel, decodeTwo, hd, hdist]
  | m1f d s =>
    cases henc
    simp only [Instr.wf, Instr.admits, Bool.and_eq_true, decide_eq_true_eq] at hwf hadm
    obtain ⟨x, y, hb, hx, hd, rfl⟩ := m1Bytes_eq (d := d - 2049) (s := s) (by omega) hwf.2
    have hsel : selectFormat st x.toNat = .m1f := selectFormat_eq_iff.2 ⟨hadm, hx⟩
    have hdist : d - 2049 + 2049 = d := by omega
    rw [hb]
    simp [decodeStream, hsel, decodeTwo, hd, hdist]
  | m2s l d s =>
    cases henc
    simp only [Instr.wf, Instr.admits, Bool.and_eq_true, decide_eq_true_eq] at hwf hadm
    obtain ⟨x, y, hb, rfl, rfl, rfl⟩ := m2Header_eq (len := l) (dist := d) (s := s) (by omega) (by omega) hwf.2
    have hsel : selectFormat st x.toNat = .m2s := selectFormat_eq_iff.2 ⟨hadm, by omega, by omega⟩
    rw [hb]
    simp [decodeStream, hsel, decodeTwo]
  | m2l l d s =>
    cases henc
    simp only [Instr.wf, Instr.admits, Bool.and_eq_true, decide_eq_true_eq] at hwf hadm
    obtain ⟨x, y, hb, rfl, rfl, rfl⟩ := m2Header_eq (len := l) (dist := d) (s := s) (by omega) (by omega) hwf.2
    have hsel : selectFormat st x.toNat = .m2l := selectFormat_eq_iff.2 ⟨hadm, by omega⟩
    rw [hb]
    simp [decodeStream, hsel, decodeTwo]
  | m3 l d s =>
    cases henc
    simp only [Instr.wf, Instr.admits, Bool.and_eq_true, decide_eq_true_eq] at hwf hadm
    obtain ⟨⟨⟨⟨hl, hfit⟩, hd1⟩, hd⟩, hs⟩ := hwf
    rw [List.cons_append, decodeStream_m3 hadm hl hfit (by omega) hs, Nat.sub_add_cancel hd1]
    simp [distBytes]
  | m4 l d s =>
    cases henc
    simp only [Instr.wf, Instr.admits, Bool.and_eq_true, Bool.or_eq_true, decide_eq_true_eq] at hwf hadm
    obtain ⟨⟨⟨⟨hl, hfit⟩, hd1⟩, hd⟩, hs⟩ := hwf
    rw [decodeStream_m4Header (hadm.imp_right fun h => ⟨by omega, h.2⟩) hl hfit (by omega)]
    obtain ⟨d0, d1, hb, hD, rfl⟩ := distBytes_eq (d := (d - 16384) % 16384) (s := s) (by omega) hs
    have hdist : 16384 + (d - 16384) / 16384 * 16384 + (d - 16384) % 16384 = d := by omega
    have hm4 : ¬((d - 16384) / 16384 = 0 ∧ (d - 16384) % 16384 = 0) := by omega
    simp only [hb, List.cons_append, List.nil_append, decodeM4Tail, hD, if_neg hm4, hdist]
    simp [m4Header, hb]
  | eos l s =>
    cases henc
    simp only [Instr.wf, Instr.admits, Bool.and_eq_true, Bool.or_eq_true, decide_eq_true_eq] at hwf hadm
    obtain ⟨⟨hl, hfit⟩, hs⟩ := hwf
    rw [decodeStream_m4Header (hadm.imp_right fun h => ⟨by omega, h⟩) hl hfit (by omega)]
    obtain ⟨d0, d1, hb, hD, rfl⟩ := distBytes_eq (d := 0) (s := s) (by omega) hs
    simp only [Nat.zero_mod, Nat.zero_div, hb, List.cons_append, List.nil_append, decodeM4Tail, hD, and_self, if_pos]
    simp [m4Header, hb]

end

/-! ### Command words (R110, R111) -/

theorem decodeCommand_commandWord : ∀ (op : BitVec 4) (strict : Bool),
    decodeCommand (commandWord op strict) = commandOf op strict := by decide

theorem encode_commandOf : ∀ (op : BitVec 4) (strict : Bool),
    encode (commandOf op strict) = .command (commandWord op strict) := by decide

theorem isCommand_commandOf : ∀ (op : BitVec 4) (strict : Bool), (commandOf op strict).isCommand = true := by decide

/-- OP and STRICT of a word are its bits 3 to 0 and 8. -/
theorem commandWord_fields (w : Word) : commandWord (cmdOpOf w) (cmdStrictOf w) = w &&& 0x10F#64 := by
  have hmask : 0x10F#64 = 0xF#64 ||| BitVec.twoPow 64 8 := by decide
  have hop : (cmdOpOf w).setWidth 64 = w &&& 0xF#64 := by
    apply BitVec.eq_of_toNat_eq
    have := Nat.and_two_pow_sub_one_eq_mod w.toNat 4
    simp [cmdOpOf] at *; omega
  rw [hmask, BitVec.and_or_distrib_left, BitVec.and_twoPow, commandWord, hop]
  rfl

/-- An instruction whose code is a command word is the command of that OP and STRICT. -/
theorem encode_eq_command {i : Instr} {w : Word} (h : encode i = .command w) :
    ∃ op strict, w = commandWord op strict ∧ i = commandOf op strict := by
  cases i with
  | noCommand | init | compress | decompress | decompressSafe | checksum | reserved6 | reserved7 | reserved8
  | reserved9 | reserved10 | reserved11 | reserved12 | reserved13 | reserved14 | reserved15 =>
    cases h; exact ⟨_, _, rfl, rfl⟩
  | litFirst | litRun | m1n | m1f | m2s | m2l | m3 | m4 | eos => cases h

end Sys2Proof

namespace Sys2Proof.Proofs
open Sys2Proof.Machine

/-- Settles O1: a command word holds OP and STRICT and nothing else, and each format's fields are read back from the
bytes they are written to. -/
theorem decodeInvertsEncode : Obligations.DecodeInvertsEncode := by
  unfold Obligations.DecodeInvertsEncode
  intro xlen st i rest hwf hadm
  constructor
  · intro w hw
    obtain ⟨op, strict, rfl, rfl⟩ := encode_eq_command hw
    rw [decode, decodeCommand_commandWord]
  · exact fun bs hbs => decodeStream_encode hwf hadm hbs rest

/-- Settles O2: the fields of every format fill the bytes it is read from, and a length extension has one form. -/
theorem encodeInvertsDecode : Obligations.EncodeInvertsDecode := by
  unfold Obligations.EncodeInvertsDecode
  refine ⟨fun xlen st bytes i n h => ?_, fun w => ⟨isCommand_commandOf _ _, ?_⟩⟩
  · obtain ⟨hcmd, hle⟩ := decodeStream_header h
    obtain ⟨hwf, hadm, b, bs, rest, henc, rfl, rfl⟩ := beginsWith_of_decodeStream h
    refine ⟨hwf, hadm, hcmd, by omega, hle, ?_⟩
    simp [henc]
  · rw [decodeCommand, encode_commandOf, commandWord_fields]

end Sys2Proof.Proofs
end

section
/-! The op-code bytes every decoder state reads (30_encoding.md R132), and the stream instructions the encoder emits
(R133, 42_compressor.md R240 to R245). -/

namespace Sys2Proof.Machine

/-! ### Every op-code byte -/

section
variable {xlen : Nat} {x : Byte}

/-- A length whose next byte is not 00 takes at most that byte and leaves two of the three that follow. -/
theorem decodeLen_of_ne_zero (k base field : Nat) (e : DecodeError) (hx : x ≠ 0) (y z : Byte) (rest : List Byte) :
    ∃ len used d0 d1 tail, used ≤ 1 ∧
      decodeLen xlen k base field e (x :: y :: z :: rest) = .ok (len, used, d0 :: d1 :: tail) := by
  unfold decodeLen
  split
  · exact ⟨_, _, _, _, _, Nat.zero_le 1, rfl⟩
  · refine ⟨base + 0 + x.toNat, 1, y, z, rest, Nat.le_refl 1, ?_⟩
    rw [decodeExt, if_pos (toNat_ne_zero.2 hx)]

theorem decodeM4Tail_of_bytes (len h used : Nat) (d0 d1 : Byte) (tail : List Byte) :
    ∃ i, decodeM4Tail len h used (d0 :: d1 :: tail) = .ok (i, used + 3) := by
  unfold decodeM4Tail
  by_cases hd : h = 0 ∧ distField d0 d1 = 0
  · exact ⟨_, if_pos hd⟩
  · exact ⟨_, if_neg hd⟩

theorem decodeStream_of_ne_zero (st : DecState) (b : Byte) (hx : x ≠ 0) (y z : Byte) (rest : List Byte) :
    ∃ i n, decodeStream xlen st (b :: x :: y :: z :: rest) = .ok (i, n) ∧ n ≤ 4 := by
  cases hf : selectFormat st b.toNat with
  | litFirst => exact ⟨_, 1, by simp only [decodeStream, hf]; rfl, by omega⟩
  | litRun =>
    obtain ⟨n, used, _, _, _, hused, hl⟩ :=
      decodeLen_of_ne_zero (xlen := xlen) 3 18 (b.toNat % 16) .longLiteral hx y z rest
    exact ⟨_, used + 1, by simp only [decodeStream, hf, hl]; rfl, by omega⟩
  | m1n | m1f | m2s | m2l => exact ⟨_, 2, by simp only [decodeStream, hf, decodeTwo]; rfl, by omega⟩
  | m3 =>
    obtain ⟨len, used, d0, d1, tail, hused, hl⟩ :=
      decodeLen_of_ne_zero (xlen := xlen) 2 33 (b.toNat % 32) .longMatch hx y z rest
    exact ⟨_, used + 3, by simp only [decodeStream, hf, hl, decodeM3Tail]; rfl, by omega⟩
  | m4OrEos =>
    obtain ⟨len, used, d0, d1, tail, hused, hl⟩ :=
      decodeLen_of_ne_zero (xlen := xlen) 2 9 (b.toNat % 8) .longMatch hx y z rest
    obtain ⟨i, hi⟩ := decodeM4Tail_of_bytes len (b.toNat / 8 % 2) used d0 d1 tail
    exact ⟨i, used + 3, by simp only [decodeStream, hf, hl, hi], by omega⟩

end

/-! ### Literal runs and matches of the encoder -/

theorem encode_litRun (n : Nat) : encode (.litRun n) = .stream (litRunHeader n) := by
  rw [encode, litRunHeader, lenField, lenExt]
  by_cases h : n ≤ 18
  · simp only [if_pos h]
  · simp only [if_neg h]

theorem encM2_eq (len dist : Nat) : encM2 len dist = m2Header len dist 0 := by
  have hor := Nat.two_pow_add_eq_or_of_lt (i := 5) (b := (dist - 1) % 8 * 4) (by omega) (len - 1)
  rw [encM2, Nat.mul_comm (len - 1), show (32 : Nat) = 2 ^ 5 from rfl, ← hor, Nat.mul_comm, m2Header]
  rfl

theorem encDist_eq (d : Nat) : encDist d = distBytes (d % 16384) 0 := by
  have h0 : byteOf (d * 4) = byteOf (d % 16384 % 64 * 4 + 0) := byteOf_congr (by omega)
  have h1 : byteOf (d / 64) = byteOf (d % 16384 / 64) := byteOf_congr (by omega)
  rw [encDist, h0, h1, distBytes]

theorem encode_m3_zero (len : Nat) {dist : Nat} (hd : dist ≤ 16384) :
    encode (.m3 len dist 0) = .stream (encM3 len dist) := by
  rw [encode, encM3, encDist_eq, Nat.mod_eq_of_lt (by omega), lenField, lenExt, Config.m3MaxLen]
  by_cases h : len ≤ 33
  · have hor : 0x20 ||| (len - 2) = 32 + (len - 2) :=
      (Nat.two_pow_add_eq_or_of_lt (i := 5) (by omega) 1).symm
    simp only [if_pos h, hor]; rfl
  · simp only [if_neg h]; rfl

/-- H is bit 14 of the distance less 16384. -/
theorem m4_high_bit {d : Nat} (hd : d < 32768) : d >>> 11 &&& 8 = d / 16384 * 8 := by
  have hbit : ∀ m < 16, m &&& 8 = m / 8 * 8 := by decide
  rw [Nat.shiftRight_eq_div_pow, hbit _ (by omega)]
  omega

theorem encode_m4_zero (len : Nat) {dist : Nat} (hd : dist ≤ 49151) :
    encode (.m4 len dist 0) = .stream (encM4 len dist) := by
  have hor : ∀ h < 2, ∀ f < 8, 0x10 ||| h * 8 ||| f = 16 + h * 8 + f := by decide
  rw [encode, m4Header, encM4, encDist_eq, lenField, lenExt, Config.m4MaxLen]
  simp only [m4_high_bit (d := dist - 16384) (by omega)]
  by_cases h : len ≤ 9
  · simp only [if_pos h, hor _ (show (dist - 16384) / 16384 < 2 by omega) _ (show len - 2 < 8 by omega)]; rfl
  · have hop := hor _ (show (dist - 16384) / 16384 < 2 by omega) 0 (by omega)
    rw [Nat.or_zero] at hop
    simp only [if_neg h, hop]; rfl

/-- ENC_MATCH writes the header, with S = 0, of the class that R241 selects. -/
theorem encode_matchInstr_zero {len dist : Nat} (hd : dist ≤ 49151) :
    encode (matchInstr len dist 0) = .stream (matchBytes len dist) := by
  unfold matchInstr matchBytes
  by_cases h2 : len ≤ Config.m2MaxLen ∧ dist ≤ Config.m2MaxOffset
  · rw [if_pos h2, if_pos (show len ≤ 8 ∧ dist ≤ 2048 from h2), encM2_eq]
    split
    · rfl
    · rfl
  · rw [if_neg h2, if_neg (show ¬(len ≤ 8 ∧ dist ≤ 2048) from h2)]
    by_cases h3 : dist ≤ Config.m3MaxOffset
    · rw [if_pos h3, if_pos (show dist ≤ 16384 from h3), encode_m3_zero len h3]
    · rw [if_neg h3, if_neg (show ¬dist ≤ 16384 from h3), encode_m4_zero len hd]

/-! ### The S field of a match -/

/-- A header that ends in a byte with `a` above the S field, and in the byte `z`. -/
def headerWithS (front : List Byte) (a : Nat) (z : Byte) (s : Nat) : List Byte := front ++ [byteOf (a * 4 + s), z]

/-- The back-patch of R240 and R244 puts a count into a header whose S is 0. -/
theorem headerWithS_backPatch (front : List Byte) (a : Nat) (z : Byte) {k : Nat} (hk : k < 4) :
    (headerWithS front a z 0).set ((headerWithS front a z 0).length - 2)
      ((headerWithS front a z 0).getD ((headerWithS front a z 0).length - 2) 0 ||| byteOf k) =
    headerWithS front a z k := by
  have hor : byteOf (a * 4) ||| byteOf k = byteOf (a * 4 + k) := by
    rw [byteOf, byteOf, ← BitVec.ofNat_or, Nat.mul_comm, ← Nat.two_pow_add_eq_or_of_lt (i := 2) hk]
    rfl
  simp [headerWithS, hor]

theorem m2Header_withS (len dist s : Nat) : m2Header len dist s =
    headerWithS [] ((len - 1) * 8 + (dist - 1) % 8) (byteOf ((dist - 1) / 8)) s := by
  have hop : (len - 1) * 32 + (dist - 1) % 8 * 4 + s = ((len - 1) * 8 + (dist - 1) % 8) * 4 + s := by omega
  rw [m2Header, hop]
  rfl

theorem encode_matchInstr_withS (len dist : Nat) :
    ∃ front a z, ∀ s, encode (matchInstr len dist s) = .stream (headerWithS front a z s) := by
  unfold matchInstr
  split
  · refine ⟨[], (len - 1) * 8 + (dist - 1) % 8, byteOf ((dist - 1) / 8), fun s => ?_⟩
    rw [← m2Header_withS]
    split
    · rfl
    · rfl
  split
  · exact ⟨byteOf (32 + lenField 2 33 len) :: lenExt 33 len, _, _, fun s => rfl⟩
  · exact ⟨byteOf (16 + (dist - 16384) / 16384 * 8 + lenField 2 9 len) :: lenExt 9 len, _, _, fun s => rfl⟩

/-- A count of at most 3, put into the second byte from the end of a match, is its S field. -/
theorem encode_matchInstr_backPatch {len dist k : Nat} (hd : dist ≤ 49151) (hk : k ≤ 3) :
    encode (matchInstr len dist k) = .stream ((matchBytes len dist).set ((matchBytes len dist).length - 2)
      ((matchBytes len dist).getD ((matchBytes len dist).length - 2) 0 ||| byteOf k)) := by
  obtain ⟨front, a, z, h⟩ := encode_matchInstr_withS len dist
  have h0 : matchBytes len dist = headerWithS front a z 0 := by
    simpa [encode_matchInstr_zero hd] using h 0
  rw [h0, headerWithS_backPatch front a z (by omega), h k]

/-! ### Emission under a header -/

theorem encLit_of_run {t : Nat} (ht : 4 ≤ t) (src : Nat) (s : State) : encLit src t s =
    (emitBytes (litRunHeader t) s).andThen fun _ u => emitLits t src u := by
  rw [encLit, if_neg (by omega), if_neg (by omega)]

/-- Emitting a header leaves SRC_N alone, so the literals of the tail start where they did. -/
theorem emitBytes_andThen_tail (bs : List Byte) (t : Nat) (s : State) :
    ((emitBytes bs s).andThen fun _ u => emitLits t (u.snap.srcN.toNat - t) u) =
      (emitBytes bs s).andThen fun _ u => emitLits t (s.snap.srcN.toNat - t) u := by
  cases h : emitBytes bs s with
  | stop => rfl
  | ok _ u =>
    have hsnap : u.snap = s.snap := by rw [emitBytes_shape h]
    rw [andThen_ok, andThen_ok, hsnap]

theorem encTail_of_first {t : Nat} {s : State} (h1 : 1 ≤ t) (h : s.enc.opos = 0 ∧ t ≤ 238) : encTail t s =
    (emitBytes [byteOf (t + 17)] s).andThen fun _ u => emitLits t (s.snap.srcN.toNat - t) u := by
  rw [encTail, if_neg (by omega), if_pos h, emitBytes_andThen_tail, Nat.add_comm]

theorem encTail_of_run {t : Nat} {s : State} (ht : 4 ≤ t) (h : ¬(s.enc.opos = 0 ∧ t ≤ 238)) : encTail t s =
    (emitBytes (litRunHeader t) s).andThen fun _ u => emitLits t (s.snap.srcN.toNat - t) u := by
  rw [encTail, if_neg (by omega), if_neg h, if_neg (by omega), emitBytes_andThen_tail]

end Sys2Proof.Machine

namespace Sys2Proof.Proofs
open Sys2Proof.Machine

/-- Settles O4: every format finds its operand bytes among the three that follow. -/
theorem everyOpcodeByteDecodes : Obligations.EveryOpcodeByteDecodes := by
  unfold Obligations.EveryOpcodeByteDecodes
  intro xlen st b x y z rest hx
  obtain ⟨i, n, h, hn⟩ := decodeStream_of_ne_zero (xlen := xlen) st b hx y z rest
  exact ⟨i, n, h, decodeStream_pos h, hn⟩

/-- Settles O5: the bytes of each class are its encoding with S = 0, and a header's S field lies in the low bits of its
second byte from the end. -/
theorem encoderEmitsStreamInstructions : Obligations.EncoderEmitsStreamInstructions := by
  unfold Obligations.EncoderEmitsStreamInstructions
  refine ⟨fun len dist s _ _ hd => ⟨encode_matchInstr_zero hd, rfl, fun k hk => encode_matchInstr_backPatch hd hk⟩,
    fun t src s ht => ⟨_, encode_litRun t, encLit_of_run ht src s⟩,
    fun t s h1 h238 h0 => ⟨_, rfl, encTail_of_first h1 ⟨h0, h238⟩⟩,
    fun t s ht h => ⟨_, encode_litRun t, encTail_of_run ht h⟩, fun s => rfl, rfl⟩

/-- Settles O3: each word and each header evaluates to its instruction. -/
theorem specWordsDecode : Obligations.SpecWordsDecode := by
  unfold Obligations.SpecWordsDecode
  decide

end Sys2Proof.Proofs
end

section
/-! How a command ends (60_exceptions.md R402, R403, R408), and the passes of a decode (44_decompressors.md R312): a pass
goes on with IP moved forward, or it ends the command. -/

namespace Sys2Proof.Machine

/-! ### The perform steps -/

theorem exec_init (t : Bool) (s : State) : exec (.init t) s = .next (performInit t s) := rfl

theorem exec_compress (t : Bool) (s : State) : exec (.compress t) s = .next (performCompress (s.latch 2#4 t)) := rfl

theorem exec_decompress (t : Bool) (s : State) :
    exec (.decompress t) s = .next (performDecode (s.latch 3#4 t)) := rfl

theorem exec_decompressSafe (t : Bool) (s : State) :
    exec (.decompressSafe t) s = .next (performDecode (s.latch 4#4 t)) := rfl

theorem exec_checksum (t : Bool) (s : State) : exec (.checksum t) s = .next (performChecksum (s.latch 5#4 t)) := rfl

/-- The perform step of a pending command finds its operands in the snapshot (log 19). -/
theorem latch_self (s : State) : s.latch s.snap.opv s.snap.strictV = s := rfl

/-! ### The end of a command -/

/-- The command that began in `s` has completed in `u` with status `c` (60_exceptions.md R403). -/
structure Completed (s : State) (c : Status) (u : State) : Prop where
  code : u.regs.code = c.code
  idle : u.regs.busy = false
  outside : u.decoding = false
  mark : u.undefinedMark = s.undefinedMark

/-- The DECOMPRESS that began in `s` is UNDEFINED in `u` (60_exceptions.md R408). -/
structure WentUndefined (s u : State) : Prop where
  command : s.snap.opv = 3#4
  regs : u.regs = s.regs
  outside : u.decoding = false
  mark : u.undefinedMark = true

/-- The command that began in `s`, past its argument checks, has completed in `u`. -/
def PastChecks (s u : State) : Prop := ∃ c, c ≠ .invalidArgument ∧ Completed s c u

/-- The decoder that began in `s`, past its argument checks, has ended in `u`. -/
def DecodeEnded (s u : State) : Prop := PastChecks s u ∨ WentUndefined s u

/-- The ways a decode that began in `s` stops: with a status, or UNDEFINED in DEC_U (43_stream_opcodes.md R276). -/
def DecodeStops (s : State) (e : Stop) : Prop :=
  (∃ c, c ≠ .invalidArgument ∧ e = .status c) ∨ s.snap.opv = 3#4 ∧ e = .undefined

section
variable {s t u : State} {c : Status} {e : Stop}

theorem code_eq_invalidArgument {c : Status} (h : c.code = codeOf (-10)) : c = .invalidArgument := by
  revert h; cases c <;> decide

theorem PastChecks.code_ne (h : PastChecks s u) : u.regs.code ≠ codeOf (-10) := by
  obtain ⟨c, hc, hu⟩ := h
  exact fun he => hc (code_eq_invalidArgument (hu.code.symm.trans he))

theorem completed_complete (h : t.undefinedMark = s.undefinedMark) (c : Status) (n : Nat) (k : BitVec 32) :
    Completed s c (t.complete c n k) := ⟨rfl, rfl, rfl, h⟩

theorem completed_raiseLate (h : t.undefinedMark = s.undefinedMark) (c : Status) :
    Completed s c (t.raiseLate c) := by
  rw [raiseLate_shape]; exact ⟨rfl, rfl, rfl, h⟩

theorem pastChecks_raiseLate (h : t.undefinedMark = s.undefinedMark) (hc : c ≠ .invalidArgument) :
    PastChecks s (t.raiseLate c) := ⟨c, hc, completed_raiseLate h c⟩

theorem DecodeEnded.outside (h : DecodeEnded s u) : u.decoding = false := by
  rcases h with ⟨c, -, h⟩ | h
  · exact h.outside
  · exact h.outside

/-- What began in `t` began in `s`, if the actions from `s` to `t` left alone what the actions of a command do. -/
theorem DecodeEnded.of_fixed (h : DecodeEnded t u) (ht : t.fixed = s.fixed) : DecodeEnded s u := by
  obtain ⟨hregs, hsnap, -, hmark⟩ := fixed_eq.1 ht
  rcases h with ⟨c, hc, h⟩ | h
  · exact .inl ⟨c, hc, h.code, h.idle, h.outside, h.mark.trans hmark⟩
  · exact .inr ⟨by rw [← hsnap]; exact h.command, h.regs.trans hregs, h.outside, h.mark⟩

theorem DecodeStops.of_fixed (h : DecodeStops t e) (ht : t.fixed = s.fixed) : DecodeStops s e := by
  unfold DecodeStops at h ⊢
  rwa [← snap_of_fixed ht]

theorem decodeStops_error (s : State) : DecodeStops s (.status .error) := .inl ⟨.error, nofun, rfl⟩

theorem decodeStops_failStop (s : State) (hc : c ≠ .invalidArgument) : DecodeStops s (failStop s.mode c) := by
  unfold State.mode
  split
  · next h => exact .inr ⟨h, rfl⟩
  · exact .inl ⟨c, hc, rfl⟩

theorem decodeEnded_endStop (ht : t.fixed = s.fixed) (he : DecodeStops s e) : DecodeEnded s (t.endStop e) := by
  obtain ⟨hregs, -, -, hmark⟩ := fixed_eq.1 ht
  rcases he with ⟨c, hc, rfl⟩ | ⟨ho, rfl⟩
  · exact .inl (pastChecks_raiseLate hmark hc)
  · exact .inr ⟨ho, hregs, rfl, rfl⟩

end

/-! ### The actions of a stream instruction -/

/-- From `s` to `t` a decode goes on: only memory and the decoder registers change, and IP does not move back. -/
def GoesOn (s t : State) : Prop := t = { s with mem := t.mem, dec := t.dec } ∧ s.dec.ip ≤ t.dec.ip

/-- An action of a decode in `s` goes on, or stops in one of the ways a decode stops. -/
def Res.GoesOnOrStops (s : State) : Res Unit → Prop
  | .ok _ t => GoesOn s t
  | .stop e t => t.fixed = s.fixed ∧ DecodeStops s e

section
variable {s t : State} {r : Res Unit}

theorem GoesOn.fixed (h : GoesOn s t) : t.fixed = s.fixed := by rw [h.1]; rfl

theorem GoesOn.trans {u : State} (h : GoesOn s t) (h' : GoesOn t u) : GoesOn s u :=
  ⟨h'.1.trans (by rw [h.1]), h.2.trans h'.2⟩

theorem goesOn_setSt (st : DecState) : GoesOn s (s.setSt st) := ⟨rfl, Nat.le_refl _⟩

theorem goesOn_advanceIp (n : Nat) : GoesOn s (s.advanceIp n) := ⟨rfl, Nat.le_add_right _ _⟩

theorem Res.GoesOnOrStops.andThen {f : Unit → State → Res Unit} (h : r.GoesOnOrStops s)
    (hf : ∀ t, (f () t).GoesOnOrStops t) : (r.andThen f).GoesOnOrStops s := by
  cases r with
  | stop e t => exact h
  | ok _ t =>
    have ht : GoesOn s t := h
    have hft := hf t
    rw [andThen_ok]
    cases hr : f () t with
    | ok _ u => rw [hr] at hft; exact ht.trans hft
    | stop e u => rw [hr] at hft; exact ⟨hft.1.trans ht.fixed, hft.2.of_fixed ht.fixed⟩

/-- An action that stops with a bus error only. -/
theorem goesOnOrStops_of_meets {Q : Unit → State → Prop} (h : r.Meets s Q)
    (hok : ∀ a t, r = .ok a t → GoesOn s t) : r.GoesOnOrStops s := by
  cases r with
  | ok a t => exact hok a t rfl
  | stop e t => obtain ⟨ht, rfl⟩ := h; exact ⟨ht, decodeStops_error s⟩

theorem copyMatch_goesOnOrStops (len dist : Nat) (s : State) : (copyMatch len dist s).GoesOnOrStops s := by
  unfold copyMatch
  split
  · exact ⟨rfl, decodeStops_failStop s nofun⟩
  split
  · exact ⟨rfl, decodeStops_failStop s nofun⟩
  · next hd _ =>
    refine goesOnOrStops_of_meets (copyMatchLoop_meets rfl len (Nat.le_of_not_lt hd)) fun a t h => ?_
    rw [copyMatchLoop_shape h]
    exact ⟨rfl, Nat.le_refl _⟩

theorem copyLit_goesOnOrStops (n : Nat) (s : State) : (copyLit n s).GoesOnOrStops s := by
  unfold copyLit
  split
  · exact ⟨rfl, decodeStops_failStop s nofun⟩
  split
  · exact ⟨rfl, decodeStops_failStop s nofun⟩
  · refine goesOnOrStops_of_meets (copyLitLoop_meets rfl n) fun a t h => ?_
    rw [copyLitLoop_shape h]
    exact ⟨rfl, Nat.le_add_right _ _⟩

theorem trail_goesOnOrStops (n : Nat) (s : State) : (trail n s).GoesOnOrStops s := by
  unfold trail
  split
  · exact (copyLit_goesOnOrStops n s).andThen fun t => goesOn_setSt _
  · exact goesOn_setSt _

theorem matchActions_goesOnOrStops (len dist n : Nat) (s : State) :
    (matchActions len dist n s).GoesOnOrStops s :=
  (copyMatch_goesOnOrStops len dist s).andThen fun t => trail_goesOnOrStops n t

/-! ### One pass -/

theorem Res.GoesOnOrStops.afterStream (h : r.GoesOnOrStops s) :
    GoesOn s (afterStream r) ∨ DecodeEnded s (afterStream r) := by
  cases r with
  | ok _ t => exact .inl h
  | stop e t => exact .inr (decodeEnded_endStop h.1 h.2)

theorem finalChecks_ended (s : State) : PastChecks s (finalChecks s) := by
  unfold finalChecks
  split
  · exact pastChecks_raiseLate rfl nofun
  split
  · exact pastChecks_raiseLate rfl nofun
  · exact ⟨.ok, nofun, completed_complete rfl _ _ _⟩

/-- After a stream instruction the decode goes on or has ended. -/
theorem runStream_cases (i : Instr) (s : State) : GoesOn s (runStream i s) ∨ DecodeEnded s (runStream i s) := by
  have literals (n : Nat) (st : DecState) :
      ((copyLit n s).andThen fun _ s => .ok () (s.setSt st)).GoesOnOrStops s :=
    (copyLit_goesOnOrStops n s).andThen fun t => goesOn_setSt st
  cases i with
  | litFirst n => exact (literals n _).afterStream
  | litRun n => exact (literals n _).afterStream
  | m1n _ _ | m1f _ _ | m2s _ _ _ | m2l _ _ _ | m3 _ _ _ | m4 _ _ _ =>
    exact (matchActions_goesOnOrStops _ _ _ s).afterStream
  | eos _ _ => exact .inr (.inl (finalChecks_ended s))
  | _ => exact .inl ⟨rfl, Nat.le_refl _⟩

theorem decodeStops_of_fetchStream {e : Stop} (h : fetchStream s = .stop e) : DecodeStops s e := by
  unfold fetchStream at h
  split at h
  · cases h; exact decodeStops_failStop s nofun
  split at h
  · cases h
  · next err _ =>
    cases h
    cases err with
    | cut =>
      unfold headerStop
      dsimp only
      split
      · exact decodeStops_failStop s nofun
      · exact decodeStops_error s
    | longLiteral | longMatch => exact decodeStops_failStop s nofun

/-- A pass reads a header, with input left, and goes on past it; or it ends the decode. -/
theorem streamStep_cases (s : State) :
    GoesOn s (streamStep s) ∧ s.dec.ip < s.snap.srcN.toNat ∧ s.dec.ip < (streamStep s).dec.ip ∨
      DecodeEnded s (streamStep s) := by
  unfold streamStep
  split
  · next i n hf =>
    obtain ⟨hip, hdec⟩ := fetchStream_eq_header.1 hf
    have hpos := decodeStream_pos hdec
    have hadv : GoesOn s (s.advanceIp n) := goesOn_advanceIp n
    rcases runStream_cases i (s.advanceIp n) with h | h
    · have hle := h.2
      rw [advanceIp_dec] at hle
      exact .inl ⟨hadv.trans h, hip, by dsimp only at hle; omega⟩
    · exact .inr (h.of_fixed hadv.fixed)
  · next e hf => exact .inr (decodeEnded_endStop rfl (decodeStops_of_fetchStream hf))

/-! ### The loop -/

theorem decodeLoop_of_outside (fuel : Nat) (h : s.decoding = false) : decodeLoop fuel s = s := by
  cases fuel with
  | zero => rfl
  | succ fuel => exact if_neg (by simp [h])

theorem decodeLoop_succ (fuel : Nat) (h : s.decoding = true) :
    decodeLoop (fuel + 1) s = decodeLoop fuel (streamStep s) := if_pos h

/-- Every pass that goes on moves IP, so the passes of the loop end the decode (log 15). -/
theorem decodeLoop_ended {fuel : Nat} (hd : s.decoding = true) (hf : s.snap.srcN.toNat ≤ s.dec.ip + fuel) :
    DecodeEnded s (decodeLoop (fuel + 1) s) := by
  induction fuel generalizing s with
  | zero =>
    rw [decodeLoop_succ _ hd]
    rcases streamStep_cases s with ⟨-, hip, -⟩ | h
    · omega
    · exact h
  | succ fuel ih =>
    rw [decodeLoop_succ _ hd]
    rcases streamStep_cases s with ⟨h, -, hip⟩ | h
    · refine (ih ?_ ?_).of_fixed h.fixed
      · rw [h.1]; exact hd
      · rw [snap_of_fixed h.fixed]; omega
    · rw [decodeLoop_of_outside _ h.outside]; exact h

theorem performDecode_rejected (h : s.argsOk = false) : performDecode s = s.raiseEarly .invalidArgument :=
  if_pos (by simp [h])

theorem performDecode_accepted (h : s.argsOk = true) :
    performDecode s = decodeLoop (s.snap.srcN.toNat + 1) (startDecode s) := if_neg (by simp [h])

/-- A decoder whose buffers are accepted ends (40_commands.md R174). -/
theorem performDecode_ended (h : s.argsOk = true) : DecodeEnded s (performDecode s) := by
  rw [performDecode_accepted h]
  exact (decodeLoop_ended (s := startDecode s) rfl (Nat.le_add_left _ _)).of_fixed rfl

/-! ### The loop as a run of the machine -/

/-- Inside a decode a step of the machine is one pass of the loop (log 1). -/
theorem step_of_decoding (hr : s.hostRace = false) (hu : s.undefinedMark = false) (hd : s.decoding = true) :
    step s = .next (streamStep s) := by
  have hturn := nextAction_of_decoding hr hu hd
  cases hf : fetchStream s with
  | header i n =>
    have ha : nextAction s = .run i (s.advanceIp n) := by rw [hturn, streamTurn, hf]
    have hs : streamStep s = runStream i (s.advanceIp n) := by rw [streamStep, hf]
    rw [step_run ha, hs]
    exact exec_stream (fetched_header hf).1 _
  | stop e =>
    have ha : nextAction s = .move (s.endStop e) := by rw [hturn, streamTurn, hf]
    have hs : streamStep s = s.endStop e := by rw [streamStep, hf]
    rw [step, ha, hs]

theorem run_succ (k : Nat) (h : step s = .next t) : core.run (k + 1) s = core.run k t := by
  have h : core.step s = .next t := h
  simp only [Host.Core.run, h]

/-- The passes of the loop are steps of the machine, one each. -/
theorem run_decodeLoop (fuel : Nat) (hr : s.hostRace = false) (hu : s.undefinedMark = false) :
    ∃ k ≤ fuel, core.run k s = .next (decodeLoop fuel s) := by
  induction fuel generalizing s with
  | zero => exact ⟨0, Nat.le_refl 0, rfl⟩
  | succ fuel ih =>
    cases hd : s.decoding with
    | false => exact ⟨0, Nat.zero_le _, by rw [decodeLoop_of_outside _ hd]; rfl⟩
    | true =>
      have hstep := step_of_decoding hr hu hd
      rw [decodeLoop_succ _ hd]
      rcases streamStep_cases s with ⟨⟨h, -⟩, -⟩ | h
      · obtain ⟨k, hk, hrun⟩ := ih (s := streamStep s) (by rw [h]; exact hr) (by rw [h]; exact hu)
        exact ⟨k + 1, Nat.succ_le_succ hk, (run_succ k hstep).trans hrun⟩
      · exact ⟨1, Nat.succ_le_succ fuel.zero_le, by rw [run_succ 0 hstep, decodeLoop_of_outside _ h.outside]; rfl⟩

end

end Sys2Proof.Machine

namespace Sys2Proof.Proofs
open Sys2Proof.Machine

/-- Settles O39: each pass of the loop is a step of the machine, and the passes end the decode. -/
theorem atomicDecodeIsStepRun : Obligations.AtomicDecodeIsStepRun := by
  unfold Obligations.AtomicDecodeIsStepRun
  rintro s u ⟨hr, hu, -⟩ hargs hexec
  have hu' : u = performDecode s := by
    rcases hexec with ⟨ho, h⟩ | ⟨ho, h⟩
    · rw [exec_decompress, ← ho, latch_self] at h; cases h; rfl
    · rw [exec_decompressSafe, ← ho, latch_self] at h; cases h; rfl
  obtain ⟨k, hk, hrun⟩ := run_decodeLoop (s := startDecode s) (s.snap.srcN.toNat + 1) hr hu
  rw [← performDecode_accepted hargs, ← hu'] at hrun
  exact ⟨k, hk, hrun, hu' ▸ (performDecode_ended hargs).outside⟩

end Sys2Proof.Proofs
end

section
/-! The perform step of every command ends it (40_commands.md R174), the argument checks (R163), and the two errors that
come before them (R165, R172). -/

namespace Sys2Proof.Machine

variable {s u : State} {op : BitVec 4} {t : Bool}

/-! ### Commands that touch no memory -/

/-- An error raised before any access leaves the completion with its code, and nothing else (60_exceptions.md R405). -/
theorem raiseEarly_latch {c : Status} {n : Int} (hn : c.code = codeOf n) (hc : c ≠ .ok) :
    (s.latch op t).raiseEarly c = s.ended op t n 0 := by
  simp [State.complete, State.ended, State.latch, viewComplete_eq_after, hn, hc]

theorem exec_reserved : ∀ p ∈ Instr.reserved t, exec p.1 s = .next (performReserved p.2 t s) := by
  simp only [Instr.reserved, List.forall_mem_cons]
  exact ⟨rfl, rfl, rfl, rfl, rfl, rfl, rfl, rfl, rfl, rfl, nofun⟩

theorem performReserved_eq (op : BitVec 4) (t : Bool) (s : State) :
    performReserved op t s = s.ended op t (-9) 0 := raiseEarly_latch rfl nofun

/-- INIT leaves the completion, INIT_DONE and its own operands (40_commands.md R170). -/
theorem performInit_eq (t : Bool) (s : State) : performInit t s = { s with
    decoding := false
    snap := { s.snap with opv := 1#4, strictV := t }
    view := { s.view with resultsSeen := false }
    regs := { s.regs with code := 0, initDone := true, outLen := 0, busy := false } } := by
  have hv (v : HostView) (c : Snapshot) (hc : c.opv = 1#4) : v.complete c = { v with resultsSeen := false } := by
    simp [HostView.complete, HostView.keepOpen, hc, hasInput, hasOutput]
  simp [performInit, State.complete, State.latch, hv, hasOutput, Status.code]

/-! ### COMPRESS and CHECKSUM -/

theorem performCompress_uninit (h : s.regs.initDone = false) : performCompress s = s.raiseEarly .error :=
  if_pos (by simp [h])

theorem performCompress_rejected (hi : s.regs.initDone = true) (ha : s.argsOk = false) :
    performCompress s = s.raiseEarly .invalidArgument := by
  unfold performCompress
  rw [if_neg (by simp [hi]), if_pos (by simp [ha])]

/-- A COMPRESS whose buffers are accepted completes: it stops with a bus error or a full output buffer only. -/
theorem performCompress_pastChecks (hi : s.regs.initDone = true) (ha : s.argsOk = true) :
    PastChecks s (performCompress s) := by
  unfold performCompress
  rw [if_neg (by simp [hi]), if_neg (by simp [ha])]
  have halike := EncTwin.compressStream (s := s) (t := s) rfl
  cases hr : compressStream s with
  | ok _ v =>
    rw [hr] at halike
    have hmark : v.undefinedMark = s.undefinedMark := (congrArg State.undefinedMark halike.2.1.kept :)
    exact ⟨.ok, nofun, completed_complete hmark _ _ _⟩
  | stop e v =>
    rw [hr] at halike
    obtain ⟨-, he, hT⟩ := halike
    have hmark : v.undefinedMark = s.undefinedMark := (congrArg State.undefinedMark hT.kept :)
    rcases he with rfl | rfl
    · exact pastChecks_raiseLate hmark nofun
    · exact pastChecks_raiseLate hmark nofun

theorem performChecksum_rejected (h : s.inputOk = false) : performChecksum s = s.raiseEarly .invalidArgument :=
  if_pos (by simp [h])

/-- A CHECKSUM whose input is accepted completes: it stops with a bus error only. -/
theorem performChecksum_pastChecks (h : s.inputOk = true) : PastChecks s (performChecksum s) := by
  unfold performChecksum
  rw [if_neg (by simp [h])]
  split
  · exact ⟨.ok, nofun, completed_complete rfl _ _ _⟩
  have hmeets := checksumLoop_meets (s₀ := s) (s := { s with cks := CksRegs.ofSeed s.snap.seedV }) rfl
    s.snap.srcN.toNat 0
  cases hr : checksumLoop s.snap.srcN.toNat 0 { s with cks := CksRegs.ofSeed s.snap.seedV } with
  | ok _ v =>
    rw [hr] at hmeets
    exact ⟨.ok, nofun, completed_complete (fixed_eq.1 hmeets.1).2.2.2 _ _ _⟩
  | stop e v =>
    rw [hr] at hmeets
    obtain ⟨hv, rfl⟩ := hmeets
    exact pastChecks_raiseLate (fixed_eq.1 hv).2.2.2 nofun

/-! ### Every command -/

theorem completed_raiseEarly (s : State) (c : Status) : Completed s c (s.raiseEarly c) := completed_complete rfl c _ _

theorem PastChecks.completed (h : PastChecks s u) : ∃ c, Completed s c u := h.imp fun _ => And.right

theorem Completed.of_latch {c : Status} (h : Completed (s.latch op t) c u) : Completed s c u :=
  ⟨h.code, h.idle, h.outside, h.mark⟩

theorem performCompress_completed (s : State) : ∃ c, Completed s c (performCompress s) := by
  cases hi : s.regs.initDone with
  | false => rw [performCompress_uninit hi]; exact ⟨_, completed_raiseEarly s _⟩
  | true =>
    cases ha : s.argsOk with
    | false => rw [performCompress_rejected hi ha]; exact ⟨_, completed_raiseEarly s _⟩
    | true => exact (performCompress_pastChecks hi ha).completed

theorem performChecksum_completed (s : State) : ∃ c, Completed s c (performChecksum s) := by
  cases ha : s.inputOk with
  | false => rw [performChecksum_rejected ha]; exact ⟨_, completed_raiseEarly s _⟩
  | true => exact (performChecksum_pastChecks ha).completed

theorem performDecode_completed_or_undefined (s : State) :
    (∃ c, Completed s c (performDecode s)) ∨ WentUndefined s (performDecode s) := by
  cases ha : s.argsOk with
  | false => rw [performDecode_rejected ha]; exact .inl ⟨_, completed_raiseEarly s _⟩
  | true => exact (performDecode_ended ha).imp_left PastChecks.completed

/-- A perform step completes its command, or, in DECOMPRESS only, it is UNDEFINED (40_commands.md R174). -/
theorem completed_or_undefined {i : Instr} (h : Ran s i u) (hi : i.isCommand = true)
    (hn : ∀ t, i ≠ .noCommand t) :
    (∃ c, Completed s c u) ∨ ∃ t, i = .decompress t ∧ WentUndefined (s.latch 3#4 t) u := by
  have latched {op : BitVec 4} {t : Bool} (h : ∃ c, Completed (s.latch op t) c u) : ∃ c, Completed s c u :=
    h.imp fun _ => Completed.of_latch
  cases h with
  | noCommandBusy t | noCommandIdle t => exact absurd rfl (hn t)
  | init t => exact .inl ⟨.ok, rfl, rfl, rfl, rfl⟩
  | compress t => exact .inl (latched (performCompress_completed _))
  | decompress t =>
    exact (performDecode_completed_or_undefined (s.latch 3#4 t)).imp latched fun hund => ⟨t, rfl, hund⟩
  | decompressSafe t =>
    refine .inl (latched ((performDecode_completed_or_undefined (s.latch 4#4 t)).resolve_right fun hund => ?_))
    exact absurd hund.command (show (4#4 : BitVec 4) ≠ 3#4 by decide)
  | checksum t => exact .inl (latched (performChecksum_completed _))
  | reserved t _ op _ => exact .inl (latched ⟨_, completed_raiseEarly (s.latch op t) _⟩)
  | stream _ hs => rw [hs] at hi; cases hi

/-! ### The argument checks -/

theorem inputOk_eq_false_iff : s.inputOk = false ↔ 2 ^ s.platform.xlen < s.snap.srcBase.toNat + s.snap.srcN.toNat := by
  simp [State.inputOk, rangeOk]

/-- The buffers are rejected when a range passes the top of memory or the two share a byte (40_commands.md R163). -/
theorem argsOk_eq_false_iff : s.argsOk = false ↔
    2 ^ s.platform.xlen < s.snap.srcBase.toNat + s.snap.srcN.toNat ∨
    2 ^ s.platform.xlen < s.snap.dstBase.toNat + s.snap.dstN.toNat ∨
    (0 < s.snap.srcN.toNat ∧ 0 < s.snap.dstN.toNat ∧
      s.snap.srcBase.toNat < s.snap.dstBase.toNat + s.snap.dstN.toNat ∧
      s.snap.dstBase.toNat < s.snap.srcBase.toNat + s.snap.srcN.toNat) := by
  simp only [State.argsOk, Bool.and_eq_false_iff, inputOk_eq_false_iff, rangeOk, decide_eq_false_iff_not,
    Nat.not_le, Bool.not_eq_false', overlaps, Bool.and_eq_true, decide_eq_true_eq, and_assoc, or_assoc]

/-- A decoder whose buffers are accepted ends with another status than InvalidArgument, unless it is UNDEFINED. -/
theorem performDecode_pastChecks (ha : s.argsOk = true)
    (hu : s.snap.opv = 3#4 → (performDecode s).undefinedMark = false) : PastChecks s (performDecode s) := by
  refine (performDecode_ended ha).resolve_right fun hund => ?_
  have := hu hund.command
  rw [hund.mark] at this
  cases this

end Sys2Proof.Machine

namespace Sys2Proof.Proofs
open Sys2Proof.Machine

/-- Settles O20: each perform step completes its command, or DECOMPRESS is UNDEFINED. -/
theorem commandsEnd : Obligations.CommandsEnd := by
  unfold Obligations.CommandsEnd
  intro i s hi hn hm
  obtain ⟨u, hu⟩ := exec_next i s
  rcases completed_or_undefined (ran_of_exec hu) hi hn with ⟨c, h⟩ | ⟨t, ht, h⟩
  · exact ⟨u, hu, h.outside, .inl ⟨h.idle, h.mark.trans hm⟩⟩
  · exact ⟨u, hu, h.outside, .inr ⟨⟨t, ht⟩, h.mark, h.regs⟩⟩

/-- Settles O17: a rejected command raises InvalidArgument before anything else, and what follows the checks raises
another status. -/
theorem argumentChecks : Obligations.ArgumentChecks := by
  unfold Obligations.ArgumentChecks
  intro t s
  have ended (op : BitVec 4) : (s.latch op t).raiseEarly .invalidArgument = s.ended op t (-10) 0 :=
    raiseEarly_latch rfl nofun
  refine ⟨fun hbad => ?_, fun hbad => ?_, fun hok u hu => ?_, fun hok u hu => ?_⟩
  · have rejected (op : BitVec 4) : (s.latch op t).argsOk = false := argsOk_eq_false_iff.2 hbad
    rw [exec_compress, exec_decompress, exec_decompressSafe, performDecode_rejected (rejected 3#4),
      performDecode_rejected (rejected 4#4), ended, ended]
    exact ⟨fun hi => by rw [performCompress_rejected (s := s.latch 2#4 t) hi (rejected 2#4), ended], rfl, rfl⟩
  · rw [exec_checksum, performChecksum_rejected (s := s.latch 5#4 t) (inputOk_eq_false_iff.2 hbad), ended]
  · have accepted (op : BitVec 4) : (s.latch op t).argsOk = true :=
      Bool.eq_true_of_not_eq_false (mt argsOk_eq_false_iff.1 hok)
    rw [exec_compress, exec_decompress, exec_decompressSafe] at hu
    rcases hu with h | h | ⟨h, -, hu⟩ <;> cases h
    · cases hi : (s.latch 2#4 t).regs.initDone with
      | false => rw [performCompress_uninit hi]; exact (by decide : Status.error.code ≠ codeOf (-10))
      | true => exact (performCompress_pastChecks hi (accepted 2#4)).code_ne
    · exact (performDecode_pastChecks (accepted 4#4) fun h => absurd h (show (4#4 : BitVec 4) ≠ 3#4 by decide)).code_ne
    · exact (performDecode_pastChecks (accepted 3#4) fun _ => hu).code_ne
  · rw [exec_checksum] at hu
    cases hu
    have accepted : (s.latch 5#4 t).inputOk = true := Bool.eq_true_of_not_eq_false (mt inputOk_eq_false_iff.1 hok)
    exact (performChecksum_pastChecks accepted).code_ne

/-- Settles O7, by the equation of its perform step. -/
theorem initSetsInitDone : Obligations.InitSetsInitDone := by
  unfold Obligations.InitSetsInitDone
  intro t s
  rw [exec_init, performInit_eq]

/-- Settles O15: COMPRESS tests INIT_DONE first. -/
theorem compressBeforeInit : Obligations.CompressBeforeInit := by
  unfold Obligations.CompressBeforeInit
  intro t s hi
  rw [exec_compress, performCompress_uninit (s := s.latch 2#4 t) hi, raiseEarly_latch (c := .error) (n := -1) rfl nofun]

end Sys2Proof.Proofs
end

section
/-! The issue of a command by the host's CMD write and its perform step (40_commands.md R160 to R165, R171). -/

namespace Sys2Proof.Machine

variable {s : State} {v : Word} {rest : List HostEvent}

/-! ### The write of CMD -/

theorem decodeCommand_of_none (h : cmdOpOf v = 0) : decodeCommand v = .noCommand (cmdStrictOf v) := by
  rw [decodeCommand, h]; rfl

/-- A write of NONE to CMD of an idle block stores OP and STRICT (40_commands.md R164). -/
theorem step_cmdWrite_none (hq : s.quiet) (hb : s.regs.busy = false) (hi : s.inbox = .regWrite 0 64 v :: rest)
    (hv : cmdOpOf v = 0) : step s = .next { s with
      inbox := rest, regs := { s.regs with cmdOp := 0, cmdStrict := cmdStrictOf v } } := by
  have ha : nextAction s = .run (.noCommand (cmdStrictOf v)) { s with inbox := rest } := by
    rw [nextAction_of_event hq hi, ← decodeCommand_of_none hv]
    simp [hostTurn, accessOk, hostRegWrite, hb, hv]
  exact (step_run ha).trans (exec_noCommand_idle _ hb)

/-- A write of another command to CMD of an idle block issues it (40_commands.md R160). -/
theorem step_cmdWrite_issue (hq : s.quiet) (hb : s.regs.busy = false) (hi : s.inbox = .regWrite 0 64 v :: rest)
    (hv : cmdOpOf v ≠ 0) : step s = .next (({ s with inbox := rest } : State).issue v) := by
  refine step_of_event hq hi ?_
  simp only [hostTurn, hostRegWrite, hb]
  exact if_neg hv

/-- A write to a register of a busy block is ignored (40_commands.md R161). -/
theorem step_regWrite_busy {off : Nat} (hq : s.quiet) (hb : s.regs.busy = true) (ha : accessOk off 64 = true)
    (hi : s.inbox = .regWrite off 64 v :: rest) : step s = .next { s with inbox := rest } := by
  refine step_of_event hq hi ?_
  simp [hostTurn, ha, hostRegWrite, hb]

/-! ### The block's own step -/

/-- The step of the block, when the outside has nothing to do or waits (log 6). -/
theorem nextAction_of_blockTurn (hq : s.quiet) (hi : s.inbox = [] ∧ rest = [] ∨ s.inbox = .wait :: rest) :
    nextAction s = blockTurn { s with inbox := rest } := by
  rcases hi with ⟨hi, rfl⟩ | hi
  · rw [nextAction_of_empty hq hi, ← hi]
  · exact nextAction_of_event hq hi

theorem step_of_move {t : State} (h : nextAction s = .move t) : step s = .next t := by
  rw [step, h]

theorem blockTurn_idle (hb : s.regs.busy = false) : blockTurn s = .move s := if_neg (by simp [State.pending, hb])

theorem blockTurn_race (hb : s.regs.busy = true) (hc : s.peerConflict = true) :
    blockTurn s = .move { s with hostRace := true } := (if_pos hb).trans (if_pos hc)

theorem blockTurn_perform (hb : s.regs.busy = true) (hc : s.peerConflict = false) :
    blockTurn s = .run s.pendingCommand s := (if_pos hb).trans (if_neg (by simp [hc]))

/-- A command without buffers conflicts with no other (20_memory.md R96). -/
theorem peerConflict_of_no_buffers (h : hasInput s.snap.opv = false) : s.peerConflict = false := by
  have ho : hasOutput s.snap.opv = false := (Bool.or_eq_false_iff.1 h).1
  simp [State.peerConflict, Snapshot.conflicts, Snapshot.writesInto, h, ho]

/-- A command without buffers is issued by one step and performed by the next. -/
theorem issue_then_perform (hq : s.quiet) (hb : s.regs.busy = false) (hi : s.inbox = [.regWrite 0 64 v])
    (hv : cmdOpOf v ≠ 0) (hn : hasInput (cmdOpOf v) = false) :
    let t := ({ s with inbox := [] } : State).issue v
    step s = .next t ∧ step t = exec (decodeCommand v) t := by
  intro t
  have hperform : nextAction t = .run (decodeCommand v) t :=
    (nextAction_of_empty (s := t) hq rfl).trans
      (blockTurn_perform (s := t) rfl (peerConflict_of_no_buffers (s := t) hn))
  exact ⟨step_cmdWrite_issue hq hb hi hv, step_run hperform⟩

/-! ### What the host reads while the block is busy -/

theorem getLsbD_statusWord_busy (r : Regs) : r.statusWord.getLsbD 32 = r.busy := by
  unfold Regs.statusWord bitAt
  cases r.busy <;> cases r.initDone <;> simp

theorem extractLsb'_statusWord_code (r : Regs) : r.statusWord.extractLsb' 0 32 = r.code := by
  refine BitVec.eq_of_toNat_eq ?_
  rw [BitVec.extractLsb'_toNat, Nat.shiftRight_zero, toNat_statusWord]
  have := r.code.isLt
  split <;> split <;> omega

/-- While the block is busy a read observes no completion: it changes the read latch, and the draws while some result
is unobserved (70_reset_and_hazards.md R457). -/
theorem step_regRead_busy {off : Nat} (hq : s.quiet) (hb : s.regs.busy = true) (ha : accessOk off 64 = true)
    (hi : s.inbox = .regRead off 64 :: rest) : step s = .next { s with
      inbox := rest
      hostRead := s.shownRegs.read off
      draws := if s.view.resultsSeen = true ∧ s.view.cksumSeen = true then s.draws else s.draws + 8 } := by
  have hview : ({ s with inbox := rest } : State).viewAfterRead off = s.view := if_neg (by simp [hb])
  have hdraws : (if s.resultsHidden then s.draws + 8 else s.draws) =
      if s.view.resultsSeen = true ∧ s.view.cksumSeen = true then s.draws else s.draws + 8 := by
    unfold State.resultsHidden
    cases s.view.resultsSeen <;> cases s.view.cksumSeen <;> rfl
  rw [step_regRead hq ha hi, State.hostRegRead, hview, ← hdraws]
  rfl

end Sys2Proof.Machine

namespace Sys2Proof.Proofs
open Sys2Proof.Machine

/-- Settles O6: NONE is the CMD write that issues nothing. -/
theorem noneStoresStrict : Obligations.NoneStoresStrict := by
  unfold Obligations.NoneStoresStrict
  exact ⟨fun t _ => exec_noCommand_idle t, fun t _ => exec_noCommand_busy t,
    fun _ _ _ hq hb hi hv => step_cmdWrite_none hq hb hi hv⟩

/-- Settles O10, by whether the word names NONE. -/
theorem commandIssue : Obligations.CommandIssue := by
  unfold Obligations.CommandIssue
  exact fun s v rest hq hb hi => ⟨step_cmdWrite_none hq hb hi, step_cmdWrite_issue hq hb hi⟩

/-- Settles O8: INIT writes what an earlier INIT has written already. -/
theorem initIsIdempotent : Obligations.InitIsIdempotent := by
  unfold Obligations.InitIsIdempotent
  refine ⟨fun t s u h => ?_, fun t s u w h hq hw hi => ?_⟩
  · rw [exec_init, performInit_eq] at h ⊢
    cases h; rfl
  · rw [exec_init, performInit_eq] at h
    cases h
    obtain ⟨hissue, hperform⟩ := issue_then_perform hq rfl hi (by rw [hw]; decide) (by rw [hw]; rfl)
    have hinit : decodeCommand w = .init (cmdStrictOf w) := by rw [decodeCommand, hw]; rfl
    rw [hinit, exec_init, performInit_eq] at hperform
    refine ⟨_, _, hissue, hperform, ?_⟩
    simp only [issue_regs, hw]
    rfl

/-- Settles O9: a reserved command has no buffers, so its perform step follows its issue. -/
theorem reservedCodesNotImplemented : Obligations.ReservedCodesNotImplemented := by
  unfold Obligations.ReservedCodesNotImplemented
  refine ⟨fun t s p hp => by rw [exec_reserved p hp, performReserved_eq], fun s v hq hb hi hv => ?_⟩
  have hreserved : ∀ op : BitVec 4, 6 ≤ op.toNat →
      op ≠ 0 ∧ hasInput op = false ∧ ∀ t, (commandOf op t, op) ∈ Instr.reserved t := by decide
  obtain ⟨h0, hn, hmem⟩ := hreserved (cmdOpOf v) hv
  obtain ⟨hissue, hperform⟩ := issue_then_perform hq hb hi h0 hn
  rw [decodeCommand, exec_reserved _ (hmem (cmdStrictOf v)), performReserved_eq] at hperform
  refine ⟨_, _, hissue, hperform, rfl, rfl, ?_⟩
  simp only [State.ended, issue_regs, ← hb]
  rfl

/-- Settles O11: a write is dropped, a read returns what the host is shown, and an issue writes no result. -/
theorem busyWritesIgnored : Obligations.BusyWritesIgnored := by
  unfold Obligations.BusyWritesIgnored
  intro s off v rest hq h8 hmax drawn
  refine ⟨fun hb => ⟨?_, ?_, ?_, ?_⟩, fun hb hi hv => ⟨_, step_cmdWrite_issue hq hb hi hv, rfl, rfl, rfl, rfl⟩⟩
  · exact step_regWrite_busy hq hb (accessOk_iff.2 ⟨rfl, h8, hmax⟩)
  · intro hi
    refine ⟨_, step_regRead_busy hq hb rfl hi, ?_, fun hr => ?_⟩
    · exact (getLsbD_statusWord_busy _).trans hb
    · exact (extractLsb'_statusWord_code _).trans (shownRegs_code_of_seen hr)
  · exact fun hi => ⟨_, step_regRead_busy hq hb rfl hi, shownRegs_outLen_of_seen⟩
  · exact fun hi => ⟨_, step_regRead_busy hq hb rfl hi, fun hc =>
      congrArg (BitVec.setWidth 64) (shownRegs_cksum_of_seen hc)⟩

/-- Settles O51: another block conflicts with the pending command exactly when the two share a byte that one of them
may write. -/
theorem stepPerformsPendingCommand : Obligations.StepPerformsPendingCommand := by
  unfold Obligations.StepPerformsPendingCommand
  intro s rest hq hi race
  have hrace : race ↔ ({ s with inbox := rest } : State).peerConflict = true := peerConflict_iff.symm
  have hturn := nextAction_of_blockTurn hq hi
  refine ⟨fun hb hn => step_run (hturn.trans (blockTurn_perform hb ?_)),
    fun hb hr => step_of_move (hturn.trans (blockTurn_race hb (hrace.1 hr))),
    fun hb => step_of_move (hturn.trans (blockTurn_idle hb))⟩
  exact Bool.eq_false_of_not_eq_true (mt hrace.2 hn)

end Sys2Proof.Proofs
end

section
/-! The decoders and CHECKSUM run the same way whatever INIT_DONE is (40_commands.md R173): a second run that differs in
INIT_DONE only goes on differing in it only. -/

namespace Sys2Proof.Machine

/-- The state with `b` for INIT_DONE. -/
def State.withInitDone (b : Bool) (s : State) : State := { s with regs := { s.regs with initDone := b } }

/-- A run that performs another command than INIT has reached `s`, and a second one, with `b` for INIT_DONE, `t`. -/
def InitTwin (b : Bool) (s t : State) : Prop := t = s.withInitDone b ∧ s.snap.opv ≠ 1#4

/-- Two actions answer alike in runs that differ in INIT_DONE. -/
abbrev Res.AlikeInit {α : Type} (b : Bool) (r r' : Res α) : Prop :=
  r.Alike (fun _ => True) (InitTwin b) (fun _ => ()) r'

variable {b : Bool} {s t : State}

/-! ### Ends -/

/-- Only INIT writes INIT_DONE (40_commands.md R170). -/
theorem InitTwin.complete (h : InitTwin b s t) (c : Status) (n : Nat) (k : BitVec 32) :
    InitTwin b (s.complete c n k) (t.complete c n k) := by
  obtain ⟨rfl, ho⟩ := h
  have hb : ((s.withInitDone b).complete c n k).regs.initDone = b := if_neg fun h => ho h.2
  exact ⟨congrArg (fun x => ((s.withInitDone b).complete c n k).withInitDone x) hb, ho⟩

theorem InitTwin.raiseEarly (h : InitTwin b s t) (c : Status) : InitTwin b (s.raiseEarly c) (t.raiseEarly c) := by
  have hk : t.regs.cksum = s.regs.cksum := by rw [h.1]; rfl
  rw [raiseEarly_eq, raiseEarly_eq, hk]
  exact h.complete c 0 _

theorem InitTwin.havocOutput (h : InitTwin b s t) : InitTwin b s.havocOutput t.havocOutput := by
  obtain ⟨rfl, ho⟩ := h
  refine ⟨?_, by rwa [havocOutput_snap]⟩
  show (if hasOutput s.snap.opv then _ else _ : State) = State.withInitDone b (if hasOutput s.snap.opv then _ else _)
  split <;> rfl

theorem InitTwin.endStop (h : InitTwin b s t) (e : Stop) : InitTwin b (s.endStop e) (t.endStop e) := by
  cases e with
  | status c => exact h.havocOutput.raiseEarly c
  | undefined => exact ⟨by rw [h.1]; rfl, h.2⟩

/-! ### Accesses and copies -/

theorem memRead_alikeInit (h : InitTwin b s t) (a : Nat) : (memRead a s).AlikeInit b (memRead a t) := by
  have hd : t.dmaOk a = s.dmaOk a := by rw [h.1]; rfl
  have hm : t.mem = s.mem := by rw [h.1]; rfl
  unfold memRead
  rw [hd, hm]
  split
  · exact ⟨rfl, h, rfl⟩
  · exact ⟨rfl, trivial, h⟩

theorem setOut_alikeInit (h : InitTwin b s t) (j : Nat) (v : Byte) : (setOut j v s).AlikeInit b (setOut j v t) := by
  obtain ⟨rfl, ho⟩ := h
  show Res.AlikeInit b (if s.dmaOk (s.outAddr j) then _ else _) (if s.dmaOk (s.outAddr j) then _ else _)
  split
  · exact ⟨rfl, ⟨rfl, ho⟩, rfl⟩
  · exact ⟨rfl, trivial, rfl, ho⟩

theorem inByte_alikeInit (h : InitTwin b s t) (i : Nat) : (inByte i s).AlikeInit b (inByte i t) := by
  have ha : t.inAddr i = s.inAddr i := by rw [h.1]; rfl
  unfold inByte
  rw [ha]
  exact memRead_alikeInit h _

theorem outByte_alikeInit (h : InitTwin b s t) (j : Nat) : (outByte j s).AlikeInit b (outByte j t) := by
  have ha : t.outAddr j = s.outAddr j := by rw [h.1]; rfl
  unfold outByte
  rw [ha]
  exact memRead_alikeInit h _

theorem InitTwin.dec_eq (h : InitTwin b s t) : t.dec = s.dec := by rw [h.1]; rfl

theorem InitTwin.snap_eq (h : InitTwin b s t) : t.snap = s.snap := by rw [h.1]; rfl

theorem InitTwin.mode_eq (h : InitTwin b s t) : t.mode = s.mode := by rw [h.1]; rfl

theorem InitTwin.setDec (h : InitTwin b s t) (d : DecRegs) : InitTwin b { s with dec := d } { t with dec := d } := by
  obtain ⟨rfl, ho⟩ := h
  exact ⟨rfl, ho⟩

theorem fail_alikeInit (h : InitTwin b s t) (c : Status) : (fail c s : Res Unit).AlikeInit b (fail c t) :=
  ⟨by rw [h.mode_eq], trivial, h⟩

theorem copyMatchLoop_alikeInit (h : InitTwin b s t) (n dist : Nat) :
    (copyMatchLoop n dist s).AlikeInit b (copyMatchLoop n dist t) := by
  induction n generalizing s t with
  | zero => exact ⟨rfl, h, rfl⟩
  | succ n ih =>
    unfold copyMatchLoop
    rw [h.dec_eq]
    refine (outByte_alikeInit h _).andThen fun v s t h _ => ?_
    rw [h.dec_eq]
    refine (setOut_alikeInit h _ v).andThen fun _ s t h _ => ?_
    rw [h.dec_eq]
    exact ih (h.setDec _)

theorem copyMatch_alikeInit (h : InitTwin b s t) (len dist : Nat) :
    (copyMatch len dist s).AlikeInit b (copyMatch len dist t) := by
  unfold copyMatch
  rw [h.dec_eq, h.snap_eq]
  split
  · exact fail_alikeInit h _
  split
  · exact fail_alikeInit h _
  · exact copyMatchLoop_alikeInit h len dist

theorem copyLitLoop_alikeInit (h : InitTwin b s t) (n : Nat) :
    (copyLitLoop n s).AlikeInit b (copyLitLoop n t) := by
  induction n generalizing s t with
  | zero => exact ⟨rfl, h, rfl⟩
  | succ n ih =>
    unfold copyLitLoop
    rw [h.dec_eq]
    refine (inByte_alikeInit h _).andThen fun v s t h _ => ?_
    rw [h.dec_eq]
    refine (setOut_alikeInit h _ v).andThen fun _ s t h _ => ?_
    rw [h.dec_eq]
    exact ih (h.setDec _)

theorem copyLit_alikeInit (h : InitTwin b s t) (n : Nat) : (copyLit n s).AlikeInit b (copyLit n t) := by
  unfold copyLit
  rw [h.dec_eq, h.snap_eq]
  split
  · exact fail_alikeInit h _
  split
  · exact fail_alikeInit h _
  · exact copyLitLoop_alikeInit h n

theorem InitTwin.setSt (h : InitTwin b s t) (st : DecState) : InitTwin b (s.setSt st) (t.setSt st) := by
  obtain ⟨rfl, ho⟩ := h
  exact ⟨rfl, ho⟩

theorem trail_alikeInit (h : InitTwin b s t) (n : Nat) : (trail n s).AlikeInit b (trail n t) := by
  unfold trail
  split
  · exact (copyLit_alikeInit h n).andThen fun _ s t h _ => ⟨rfl, h.setSt _, rfl⟩
  · exact ⟨rfl, h.setSt _, rfl⟩

theorem matchActions_alikeInit (h : InitTwin b s t) (len dist n : Nat) :
    (matchActions len dist n s).AlikeInit b (matchActions len dist n t) :=
  (copyMatch_alikeInit h len dist).andThen fun _ _ _ h _ => trail_alikeInit h n

/-! ### The decoders -/

theorem Res.AlikeInit.afterStream {r r' : Res Unit} (h : r.AlikeInit b r') :
    InitTwin b (afterStream r) (afterStream r') :=
  h.finish (fun _ _ _ h _ => h) fun e _ _ _ h => h.endStop e

theorem InitTwin.finalChecks (h : InitTwin b s t) : InitTwin b (finalChecks s) (finalChecks t) := by
  have hk : t.regs.cksum = s.regs.cksum := by rw [h.1]; rfl
  unfold Machine.finalChecks
  rw [h.dec_eq, h.snap_eq, finishOk_eq, finishOk_eq, hk]
  split
  · exact h.endStop (.status _)
  split
  · exact h.endStop (.status _)
  · exact h.complete _ _ _

theorem InitTwin.runStream (h : InitTwin b s t) (i : Instr) : InitTwin b (runStream i s) (runStream i t) := by
  have literals (n : Nat) (st : DecState) : InitTwin b
      (Machine.afterStream ((copyLit n s).andThen fun _ s => .ok () (s.setSt st)))
      (Machine.afterStream ((copyLit n t).andThen fun _ s => .ok () (s.setSt st))) :=
    Res.AlikeInit.afterStream ((copyLit_alikeInit h n).andThen fun _ _ _ h _ => ⟨rfl, h.setSt st, rfl⟩)
  cases i with
  | litFirst n => exact literals n _
  | litRun n => exact literals n _
  | m1n _ _ | m1f _ _ | m2s _ _ _ | m2l _ _ _ | m3 _ _ _ | m4 _ _ _ => 
    exact Res.AlikeInit.afterStream (matchActions_alikeInit h _ _ _)
  | eos _ _ => exact h.finalChecks
  | _ => exact h

/-- The fetch reads no register. -/
theorem inBytes_withInitDone (b : Bool) (s : State) (n i : Nat) : (s.withInitDone b).inBytes n i = s.inBytes n i := by
  induction n generalizing i with
  | zero => rfl
  | succ n ih => unfold State.inBytes; rw [ih]; rfl

theorem fetchStream_withInitDone (b : Bool) (s : State) : fetchStream (s.withInitDone b) = fetchStream s := by
  have hb : (s.withInitDone b).streamBytes = s.streamBytes := inBytes_withInitDone b s _ _
  have he (e : DecodeError) : headerStop e (s.withInitDone b) = headerStop e s := by
    unfold headerStop; rw [hb]; rfl
  unfold fetchStream
  rw [hb]
  simp only [he]
  rfl

theorem InitTwin.streamStep (h : InitTwin b s t) : InitTwin b (streamStep s) (streamStep t) := by
  have hf : fetchStream t = fetchStream s := by rw [h.1, fetchStream_withInitDone]
  unfold Machine.streamStep
  rw [hf]
  split
  · next i n _ =>
    have hadv : InitTwin b (s.advanceIp n) (t.advanceIp n) := by
      obtain ⟨rfl, ho⟩ := h
      exact ⟨rfl, ho⟩
    exact hadv.runStream i
  · next e _ => exact h.endStop e

theorem InitTwin.decodeLoop (h : InitTwin b s t) (fuel : Nat) : InitTwin b (decodeLoop fuel s) (decodeLoop fuel t) := by
  induction fuel generalizing s t with
  | zero => exact h
  | succ fuel ih =>
    have hd : t.decoding = s.decoding := by rw [h.1]; rfl
    unfold Machine.decodeLoop
    rw [hd]
    split
    · exact ih h.streamStep
    · exact h

theorem InitTwin.performDecode (h : InitTwin b s t) : InitTwin b (performDecode s) (performDecode t) := by
  have ha : t.argsOk = s.argsOk := by rw [h.1]; rfl
  unfold Machine.performDecode
  rw [ha, h.snap_eq]
  split
  · exact h.raiseEarly _
  · have hstart : InitTwin b (startDecode s) (startDecode t) := by
      obtain ⟨rfl, ho⟩ := h
      exact ⟨rfl, ho⟩
    exact hstart.decodeLoop _

/-! ### CHECKSUM -/

theorem InitTwin.setCks (h : InitTwin b s t) (c : CksRegs) : InitTwin b { s with cks := c } { t with cks := c } := by
  obtain ⟨rfl, ho⟩ := h
  exact ⟨rfl, ho⟩

theorem InitTwin.cks_eq (h : InitTwin b s t) : t.cks = s.cks := by rw [h.1]; rfl

theorem checksumLoop_alikeInit (h : InitTwin b s t) (n i : Nat) :
    (checksumLoop n i s).AlikeInit b (checksumLoop n i t) := by
  induction n generalizing i s t with
  | zero => exact ⟨rfl, h, rfl⟩
  | succ n ih =>
    refine (inByte_alikeInit h i).andThen fun v s t h _ => ?_
    rw [h.cks_eq]
    exact ih (h.setCks _) _

theorem InitTwin.performChecksum (h : InitTwin b s t) : InitTwin b (performChecksum s) (performChecksum t) := by
  have ha : t.inputOk = s.inputOk := by rw [h.1]; rfl
  have hn : t.snap.srcN = s.snap.srcN := by rw [h.snap_eq]
  have hseed : t.snap.seedV = s.snap.seedV := by rw [h.snap_eq]
  unfold Machine.performChecksum
  rw [ha, hn, hseed]
  split
  · exact h.raiseEarly _
  split
  · exact h.complete _ _ _
  · refine (checksumLoop_alikeInit (h.setCks _) _ _).finish (fun _ s t h _ => ?_) fun e _ _ _ h => h.endStop e
    rw [h.cks_eq]
    exact InitTwin.complete h _ _ _

end Sys2Proof.Machine

namespace Sys2Proof.Proofs
open Sys2Proof.Machine

/-- Settles O16: the two runs differ in INIT_DONE to the end. -/
theorem initDoneNotNeeded : Obligations.InitDoneNotNeeded := by
  unfold Obligations.InitDoneNotNeeded
  intro t b s u i hi h
  have latched {op : BitVec 4} (ho : op ≠ 1#4) : InitTwin b (s.latch op t) ((s.withInitDone b).latch op t) := ⟨rfl, ho⟩
  simp only [List.mem_cons, List.not_mem_nil, or_false] at hi
  rcases hi with rfl | rfl | rfl <;> cases h
  · exact congrArg Host.Outcome.next (latched (op := 3#4) (by decide)).performDecode.1
  · exact congrArg Host.Outcome.next (latched (op := 4#4) (by decide)).performDecode.1
  · exact congrArg Host.Outcome.next (latched (op := 5#4) (by decide)).performChecksum.1

end Sys2Proof.Proofs
end

section
/-! The placing of a table word (log 17): the step from there runs the instruction the word decodes to. -/

namespace Sys2Proof

/-! ### The bytes of a table word -/

theorem tableIsStream_iff {nbits w : Nat} : tableIsStream nbits w = true ↔ nbits ≤ 8 ∧ 16 ≤ w % 256 := by
  simp [tableIsStream]

/-- The bytes after the op-code of a table word whose length field is `field`. -/
def placedBytes (field : Nat) : List Byte := (if field = 0 then [byteOf 1] else []) ++ [byteOf 0, byteOf 0]

theorem tableBytes_of_m4 {w : Nat} (h : w % 256 < 32) :
    tableBytes w = byteOf (w % 256) :: placedBytes (w % 256 % 8) := by
  simp [tableBytes, placedBytes, h]

theorem tableBytes_of_m3 {w : Nat} (hlo : 32 ≤ w % 256) (hhi : w % 256 < 64) :
    tableBytes w = byteOf (w % 256) :: placedBytes (w % 256 % 32) := by
  simp [tableBytes, placedBytes, hhi, Nat.not_lt.2 hlo]

theorem tableBytes_of_m2 {w : Nat} (h : 64 ≤ w % 256) :
    tableBytes w = [byteOf (w % 256), byteOf 0, byteOf 0] := by
  have h32 : ¬w % 256 < 32 := by omega
  simp [tableBytes, h32, Nat.not_lt.2 h]

/-- A placed length has at most one extension byte, which is not 00, so that no guard of R270 sees XLEN. -/
theorem decodeLen_placed (k base field : Nat) (e : DecodeError) : ∃ len used, ∀ xlen,
    decodeLen xlen k base field e (placedBytes field) = .ok (len, used, [byteOf 0, byteOf 0]) := by
  unfold decodeLen placedBytes
  split
  · next h => exact ⟨_, _, fun _ => rfl⟩
  · next h => exact ⟨_, _, fun _ => by rw [if_pos (not_not.1 h)]; rfl⟩

/-- The bytes of a table word are a header, the same for every XLEN. -/
theorem decodeStream_tableBytes {w : Nat} (h : 16 ≤ w % 256) :
    ∃ i n, ∀ xlen, decodeStream xlen .st0 (tableBytes w) = .ok (i, n) := by
  have hb : (byteOf (w % 256)).toNat = w % 256 := toNat_byteOf (Nat.mod_lt _ (by decide))
  cases hf : selectFormat .st0 (w % 256) with
  | litFirst => exact absurd (selectFormat_eq_iff.1 hf).1 (by decide)
  | litRun | m1n | m1f => exact absurd (selectFormat_eq_iff.1 hf).2 (by omega)
  | m2s | m2l =>
    have h64 : 64 ≤ w % 256 := by
      have := selectFormat_eq_iff.1 hf
      simp only [Format.ReadAt] at this
      omega
    rw [tableBytes_of_m2 h64]
    exact ⟨_, 2, fun xlen => by simp only [decodeStream, hb, hf, decodeTwo]; rfl⟩
  | m3 =>
    obtain ⟨-, hlo, hhi⟩ := selectFormat_eq_iff.1 hf
    obtain ⟨len, used, hl⟩ := decodeLen_placed 2 33 (w % 256 % 32) .longMatch
    rw [tableBytes_of_m3 hlo hhi]
    exact ⟨_, used + 3, fun xlen => by simp only [decodeStream, hb, hf, hl, decodeM3Tail]; rfl⟩
  | m4OrEos =>
    obtain ⟨-, -, hhi⟩ := selectFormat_eq_iff.1 hf
    obtain ⟨len, used, hl⟩ := decodeLen_placed 2 9 (w % 256 % 8) .longMatch
    obtain ⟨i, hi⟩ := Machine.decodeM4Tail_of_bytes len (w % 256 / 8 % 2) used (byteOf 0) (byteOf 0) []
    rw [tableBytes_of_m4 hhi]
    exact ⟨i, used + 3, fun xlen => by simp only [decodeStream, hb, hf, hl, hi]⟩

theorem tableBytes_length (w : Nat) : 0 < (tableBytes w).length ∧ (tableBytes w).length ≤ 4 := by
  unfold tableBytes
  dsimp only
  generalize (if w % 256 < 32 then _ else _ : Bool) = ext
  cases ext <;> simp

end Sys2Proof

namespace Sys2Proof.Machine

variable {s : State}

/-! ### A placed stream -/

theorem Memory.read_writeBytes_below {m : Memory} {a x : Nat} (bs : List Byte) (h : x < a) :
    (m.writeBytes a bs).read x = m.read x := by
  induction bs generalizing m a with
  | nil => rfl
  | cons b bs ih => rw [writeBytes, ih (Nat.lt_succ_of_lt h), read_write_other _ _ h.ne]

/-- Stored bytes read back. -/
theorem Memory.read_writeBytes {m : Memory} {bs : List Byte} {j : Nat} (hm : m.wf = true) (a : Nat)
    (hj : j < bs.length) : (m.writeBytes a bs).read (a + j) = bs[j] := by
  induction bs generalizing m a j with
  | nil => exact absurd hj (Nat.not_lt_zero j)
  | cons b bs ih =>
    rw [writeBytes]
    cases j with
    | zero => exact (read_writeBytes_below bs (Nat.lt_succ_self a)).trans (read_write_same a b hm)
    | succ j =>
      rw [show a + (j + 1) = a + 1 + j by omega]
      exact ih (wf_write a b hm) (a + 1) (Nat.lt_of_succ_lt_succ hj)

section
variable {bs : List Byte}

theorem srcN_placeStream (hlen : bs.length ≤ 4) : (s.placeStream bs).snap.srcN.toNat = bs.length :=
  Nat.mod_eq_of_lt (by omega)

theorem inAddr_placeStream (i : Nat) : (s.placeStream bs).inAddr i = i := Nat.zero_add i

theorem dmaOk_placeStream {a : Nat} (h : a < 2 ^ 32) : (s.placeStream bs).dmaOk a = true := by
  have hx : 2 ^ 32 ≤ 2 ^ max s.platform.xlen 32 := Nat.pow_le_pow_right (by decide) (le_max_right _ _)
  exact Bool.and_eq_true_iff.2 ⟨decide_eq_true (h.trans_le hx), rfl⟩

/-- A placed stream is what its decoder reads. -/
theorem streamBytes_placeStream (hm : s.mem.wf = true) (hlen : bs.length ≤ 4) :
    (s.placeStream bs).streamBytes = bs := by
  have hread : (s.placeStream bs).streamBytes = (s.placeStream bs).inBytes bs.length 0 := by
    unfold State.streamBytes
    rw [srcN_placeStream hlen]; rfl
  rw [hread, inBytes_of_readable fun j hj => dmaOk_placeStream (by rw [inAddr_placeStream]; omega)]
  refine List.ext_getElem (by simp) fun j _ hj => ?_
  rw [List.getElem_map, List.getElem_range, inAddr_placeStream]
  exact Memory.read_writeBytes hm 0 hj

theorem nextAction_placeStream {i : Instr} {n : Nat} (hm : s.mem.wf = true) (hpos : 0 < bs.length)
    (hlen : bs.length ≤ 4) (hd : ∀ xlen, decodeStream xlen .st0 bs = .ok (i, n)) :
    nextAction (s.placeStream bs) = .run i ((s.placeStream bs).advanceIp n) := by
  have hf : fetchStream (s.placeStream bs) = .header i n := by
    refine fetchStream_eq_header.2 ⟨by rw [srcN_placeStream hlen]; exact hpos, ?_⟩
    rw [streamBytes_placeStream hm hlen]
    exact hd _
  rw [nextAction_of_decoding rfl rfl rfl, streamTurn, hf]

end

/-! ### A placed command -/

/-- A placed command is run with the placed state, but for the event that starts it. -/
theorem nextAction_placeCommand (w : Word) (s : State) :
    nextAction (s.placeCommand w) = .run (decodeCommand w) { s.placeCommand w with inbox := s.inbox } := by
  by_cases h0 : cmdOpOf w = 0
  · simp only [State.placeCommand, if_pos h0]
    rw [nextAction_of_event ⟨rfl, rfl, rfl⟩ rfl]
    simp [hostTurn, accessOk, hostRegWrite, h0]
  · simp only [State.placeCommand, if_neg h0]
    rw [nextAction_of_event ⟨rfl, rfl, rfl⟩ rfl]
    exact blockTurn_perform rfl rfl

theorem withFetchWord_stream {nbits w : Nat} (h : tableIsStream nbits w = true) (s : State) :
    s.withFetchWord nbits w = s.placeStream (tableBytes w) := if_pos h

theorem withFetchWord_command {nbits w : Nat} (h : tableIsStream nbits w = false) (s : State) :
    s.withFetchWord nbits w = s.placeCommand (BitVec.ofNat 64 w) := if_neg (by simp [h])

end Sys2Proof.Machine

namespace Sys2Proof.Proofs
open Sys2Proof.Machine

/-- Settles O52: a stream word is the header the placed decode fetches, and any other word the command about to run. -/
theorem tableWordRunsNext : Obligations.TableWordRunsNext := by
  unfold Obligations.TableWordRunsNext
  intro s nbits w hm
  cases ht : tableIsStream nbits w with
  | true =>
    obtain ⟨i, n, hd⟩ := decodeStream_tableBytes (tableIsStream_iff.1 ht).2
    obtain ⟨hpos, hlen⟩ := tableBytes_length w
    obtain ⟨u, hu⟩ := exec_next i ((s.placeStream (tableBytes w)).advanceIp n)
    have hcmd : i.isCommand = false := (decodeStream_header (hd Config.xlenDefault)).1
    rw [withFetchWord_stream ht]
    refine ⟨i, u, ?_, (step_run (nextAction_placeStream hm hpos hlen hd)).trans hu, fun hi => ?_,
      fun _ => ⟨n, hd _, hu⟩⟩
    · rw [decodeTableWord, if_pos ht, hd]
    · rw [hcmd] at hi; cases hi
  | false =>
    obtain ⟨u, hu⟩ := exec_next (decodeCommand (BitVec.ofNat 64 w))
      { s.placeCommand (BitVec.ofNat 64 w) with inbox := s.inbox }
    rw [withFetchWord_command ht]
    refine ⟨_, u, ?_, (step_run (nextAction_placeCommand _ s)).trans hu, fun _ => hu, fun hi => ?_⟩
    · exact if_neg (by simp [ht])
    · rw [decodeCommand, isCommand_commandOf] at hi; cases hi

end Sys2Proof.Proofs
end
section
/-! The match finder (41_match_finder.md): its hash and its probe, and the length of a match in closed form. -/

namespace Sys2Proof.Machine

variable {s : State}

/-! ### The hash -/

/-- MF_HASH in plain arithmetic (41_match_finder.md R201). -/
theorem mfHash_eq (dv : BitVec 32) : mfHash dv = dv.toNat * 0x1824429D % 2 ^ 32 / 2 ^ 18 := by
  rw [mfHash, BitVec.toNat_ushiftRight, BitVec.toNat_mul, Nat.shiftRight_eq_div_pow]; rfl

/-! ### The length of a match -/

/-- The source bytes at P + `j` and at CAND + `j` agree. -/
def State.AgreesAt (s : State) (j : Nat) : Prop :=
  s.inAt (s.enc.base + s.enc.p + j) = s.inAt (s.enc.base + s.mf.cand + j)

/-- A match that holds up to offset `m` grows to `n`: the least offset past `m` that reaches the scan limit or
where the bytes differ. -/
structure State.ExtendsTo (s : State) (m n : Nat) : Prop where
  gt : m < n
  ends : s.enc.e ≤ s.enc.p + n ∨ ¬s.AgreesAt n
  least : ∀ j, m < j → j < n → s.enc.p + j < s.enc.e ∧ s.AgreesAt j

/-- A grown match ends within one byte of where its growth began, or at the scan limit at the latest. -/
theorem State.ExtendsTo.le_limit {m n : Nat} (h : s.ExtendsTo m n) (hm : s.enc.p + m < s.enc.e + 4) :
    s.enc.p + n ≤ s.enc.e + 4 := by
  rcases Nat.lt_or_ge (m + 1) n with hn | hn
  · have := (h.least (n - 1) (by omega) (by omega)).1
    omega
  · omega

/-- A match that agrees at the next offset, below the scan limit, grows as it does from there. -/
theorem State.ExtendsTo.of_agreesAt {m n : Nat} (h : s.ExtendsTo (m + 1) n) (he : s.enc.p + (m + 1) < s.enc.e)
    (hs : s.AgreesAt (m + 1)) : s.ExtendsTo m n where
  gt := Nat.lt_of_succ_lt h.gt
  ends := h.ends
  least j hm hn := by
    rcases Nat.eq_or_lt_of_le hm with rfl | hm
    · exact ⟨he, hs⟩
    · exact h.least j hm hn

/-- A match that reaches the limit, or a difference, at the next offset ends there. -/
theorem State.extendsTo_succ {m : Nat} (h : s.enc.e ≤ s.enc.p + (m + 1) ∨ ¬s.AgreesAt (m + 1)) :
    s.ExtendsTo m (m + 1) := ⟨Nat.lt_succ_self m, h, fun _ _ _ => by omega⟩

/-- How far a match grows does not depend on MLEN. -/
theorem State.ExtendsTo.of_setMlen {k m n : Nat} (h : { s with mf := { s.mf with mlen := k } }.ExtendsTo m n) :
    s.ExtendsTo m n := ⟨h.gt, h.ends, h.least⟩

/-- Where both bytes are accessible, the comparison goes on with its answer. -/
theorem mfSame_of_sourceOk (hsrc : SourceOk s 0 (s.enc.base + s.enc.e + 5)) (hc : s.mf.cand < s.enc.p) {j : Nat}
    (hj : s.enc.p + j ≤ s.enc.e + 4) : ∃ b : Bool, mfSame j s = .ok b s ∧ (b = true ↔ s.AgreesAt j) :=
  ⟨_, mfSame_eq_ok.2 ⟨hsrc _ (Nat.zero_le _) (by omega), hsrc _ (Nat.zero_le _) (by omega), rfl, rfl⟩, beq_iff_eq⟩

/-- The loop of MF_LENGTH grows MLEN as far as the match goes, and changes nothing else; the fuel suffices when it
reaches the scan limit. -/
theorem mfExtend_extendsTo (fuel : Nat) (hsrc : SourceOk s 0 (s.enc.base + s.enc.e + 5))
    (hc : s.mf.cand < s.enc.p) (hfuel : s.enc.e ≤ s.enc.p + s.mf.mlen + (fuel + 1)) :
    ∃ n, mfExtend (fuel + 1) s = .ok () { s with mf := { s.mf with mlen := n } } ∧ s.ExtendsTo s.mf.mlen n := by
  induction fuel generalizing s with
  | zero => exact ⟨_, if_pos hfuel, State.extendsTo_succ (.inl hfuel)⟩
  | succ fuel ih =>
    by_cases he : s.enc.e ≤ s.enc.p + (s.mf.mlen + 1)
    · exact ⟨_, if_pos he, State.extendsTo_succ (.inl he)⟩
    · obtain ⟨b, hb, hagree⟩ := mfSame_of_sourceOk (s := { s with mf := { s.mf with mlen := s.mf.mlen + 1 } })
        (j := s.mf.mlen + 1) hsrc hc (by dsimp only; omega)
      rw [mfExtend, if_neg he, hb, andThen_ok]
      cases b with
      | false => exact ⟨_, rfl, State.extendsTo_succ (.inr fun h => Bool.false_ne_true (hagree.2 h))⟩
      | true =>
        obtain ⟨n, hn, hext⟩ := ih (s := { s with mf := { s.mf with mlen := s.mf.mlen + 1 } }) hsrc hc
          (by dsimp only; omega)
        exact ⟨n, hn, hext.of_setMlen.of_agreesAt (Nat.lt_of_not_le he) (hagree.1 rfl)⟩

/-- MF_LENGTH leaves MLEN at 4 where the bytes at offset 4 differ, and else grows it from there
(41_match_finder.md R204). -/
theorem mfLength_extendsTo (hsrc : SourceOk s 0 (s.enc.base + s.enc.e + 5)) (hc : s.mf.cand < s.enc.p)
    (hp : s.enc.p < s.enc.e) :
    ∃ n, mfLength s = .ok () { s with mf := { s.mf with mlen := n, moff := s.enc.p - s.mf.cand } } ∧
      (¬s.AgreesAt 4 ∧ n = 4 ∨ s.AgreesAt 4 ∧ s.ExtendsTo 4 n) := by
  obtain ⟨b, hb, hagree⟩ := mfSame_of_sourceOk (s := { s with mf := { s.mf with mlen := Config.minMatch } })
    (j := Config.minMatch) hsrc hc (by dsimp only [Config.minMatch]; omega)
  rw [mfLength, hb, andThen_ok]
  cases b with
  | false => exact ⟨4, rfl, .inl ⟨fun h => Bool.false_ne_true (hagree.2 h), rfl⟩⟩
  | true =>
    obtain ⟨n, hn, hext⟩ := mfExtend_extendsTo (s := { s with mf := { s.mf with mlen := Config.minMatch } })
      s.enc.e hsrc hc (by dsimp only; omega)
    rw [if_pos rfl, hn, andThen_ok]
    exact ⟨n, rfl, .inr ⟨hagree.1 rfl, hext.of_setMlen⟩⟩

end Sys2Proof.Machine

namespace Sys2Proof.Proofs
open Sys2Proof.Machine

/-- Settles O27: the product and the shift of the words, read in the naturals. -/
theorem hashValue : Obligations.HashValue := fun dv => ⟨mfHash_eq dv, mfHash_lt dv⟩

/-- Settles O28, by the laws of the scratch table: the hash names one of its entries. -/
theorem probeUpdatesItsBucket : Obligations.ProbeUpdatesItsBucket := fun _ dv ht =>
  ⟨rfl, Table.wf_write _ (mfHash_lt dv) ht, Table.read_write_same _ _ ht,
    fun _ hh => Table.read_write_other _ _ hh, rfl⟩

/-- Settles O29, by induction on the passes of the extension loop. -/
theorem matchLengthClosedForm : Obligations.MatchLengthClosedForm := by
  unfold Obligations.MatchLengthClosedForm
  intro s x y hc hp hdma
  obtain ⟨n, hn, hlen⟩ := mfLength_extendsTo (fun k _ hk => hdma k (Nat.le_of_lt_succ hk)) hc hp
  refine ⟨n, hn, ?_⟩
  rcases hlen with ⟨hdiff, rfl⟩ | ⟨hsame, hext⟩
  · exact ⟨fun _ => rfl, fun h => absurd h hdiff, by omega⟩
  · exact ⟨fun h => absurd hsame h, fun _ => ⟨hext.gt, hext.ends, hext.least⟩, hext.le_limit (by omega)⟩

end Sys2Proof.Proofs
end

section
/-! The parse of COMPRESS on lists (42_compressor.md R230 to R235): it exists, it is one, and its matches repeat source
bytes inside the window. -/

namespace Sys2Proof.Machine

/-! ### The length of a match -/

section
variable {src : List Byte} {i c e m n : Nat}

theorem IsMatchLen.le (h : IsMatchLen src i c e m) (h' : IsMatchLen src i c e n) : m ≤ n := by
  rcases h with ⟨hd, rfl⟩ | ⟨hs, hm, hall, -⟩
  · rcases h' with ⟨-, rfl⟩ | ⟨-, hn, -⟩ <;> omega
  · rcases h' with ⟨hd', -⟩ | ⟨-, hn, -, hend⟩
    · exact absurd hs hd'
    · by_contra hlt
      obtain ⟨hlim, hsame⟩ := hall n hn (by omega)
      exact hend.elim (by omega) fun hd => hd hsame

theorem IsMatchLen.unique (h : IsMatchLen src i c e m) (h' : IsMatchLen src i c e n) : m = n :=
  Nat.le_antisymm (h.le h') (h'.le h)

theorem IsMatchLen.four_le (h : IsMatchLen src i c e n) : 4 ≤ n := by
  rcases h with ⟨-, rfl⟩ | ⟨-, hn, -⟩ <;> omega

/-- A match ends at most 4 bytes past the scan limit (41_match_finder.md R204). -/
theorem IsMatchLen.le_limit (h : IsMatchLen src i c e n) (hi : i < e) : i + n ≤ e + 4 := by
  rcases h with ⟨-, rfl⟩ | ⟨-, hn, hall, -⟩
  · omega
  · rcases Nat.eq_or_lt_of_le hn with rfl | hn
    · omega
    · have := (hall (n - 1) (by omega) (by omega)).1
      omega

theorem exists_isMatchLen (src : List Byte) (i c e : Nat) : ∃ n, IsMatchLen src i c e n := by
  by_cases h4 : src.getD (i + 4) 0 = src.getD (c + 4) 0
  · let Ends (n : Nat) : Prop := 5 ≤ n ∧ (e ≤ i + n ∨ src.getD (i + n) 0 ≠ src.getD (c + n) 0)
    have hex : ∃ n, Ends n := ⟨e + 5, by omega, .inl (by omega)⟩
    classical
    obtain ⟨h5, hend⟩ := Nat.find_spec hex
    refine ⟨Nat.find hex, .inr ⟨h4, h5, fun j hj hlt => ?_, hend⟩⟩
    have := Nat.find_min hex hlt
    simp only [Ends, not_and, not_or, not_not] at this
    obtain ⟨hlim, hsame⟩ := this hj
    exact ⟨by omega, hsame⟩
  · exact ⟨4, .inl ⟨h4, rfl⟩⟩

/-- Equal keys are four equal bytes. -/
theorem getD_of_keyAt_eq (h : keyAt src c = keyAt src i) {j : Nat} (hj : j < 4) :
    src.getD (i + j) 0 = src.getD (c + j) 0 := by
  have hb (k : Nat) : (src.getD k 0).toNat < 256 := (src.getD k 0).isLt
  have h0 := hb i; have h1 := hb (i + 1); have h2 := hb (i + 2); have h3 := hb (i + 3)
  have g0 := hb c; have g1 := hb (c + 1); have g2 := hb (c + 2); have g3 := hb (c + 3)
  unfold keyAt at h
  apply BitVec.eq_of_toNat_eq
  match j, hj with
  | 0, _ => rw [Nat.add_zero, Nat.add_zero]; omega
  | 1, _ => omega
  | 2, _ => omega
  | 3, _ => omega

/-- The bytes of a match are those at its candidate. -/
theorem IsMatchLen.same (h : IsMatchLen src i c e n) (hk : keyAt src c = keyAt src i) {j : Nat} (hj : j < n) :
    src.getD (i + j) 0 = src.getD (c + j) 0 := by
  rcases Nat.lt_or_ge j 4 with h4 | h4
  · exact getD_of_keyAt_eq hk h4
  · rcases h with ⟨-, rfl⟩ | ⟨hs, -, hall, -⟩
    · omega
    · rcases Nat.eq_or_lt_of_le h4 with rfl | h5
      · exact hs
      · exact (hall j h5 hj).2

end

/-! ### Probed positions -/

section
variable {src : List Byte} {base e i ii p q n : Nat} {skip : Bool} {probed : List Nat}

theorem le_nextProbe (skip : Bool) (ii p : Nat) : p ≤ nextProbe skip ii p := by
  unfold nextProbe; split <;> omega

theorem lt_nextProbe_true (ii p : Nat) : p < nextProbe true ii p := by
  rw [nextProbe, if_pos rfl]; omega

theorem lt_nextProbe (ii p : Nat) (h : skip = true) : p < nextProbe skip ii p := h ▸ lt_nextProbe_true ii p

@[simp] theorem nextProbe_false (ii p : Nat) : nextProbe false ii p = p := rfl

/-- The start of the block and the positions probed in it lie in the block, before `q`. -/
def ProbedBefore (base q : Nat) (probed : List Nat) : Prop := ∀ x ∈ base :: probed, base ≤ x ∧ x < q

theorem ProbedBefore.base_lt (h : ProbedBefore base q probed) : base < q := (h base (List.mem_cons_self ..)).2

/-- The next positions, after a probe at `q`. -/
theorem ProbedBefore.cons (h : ProbedBefore base q probed) {r : Nat} (hr : q < r) :
    ProbedBefore base r (q :: probed) := by
  have hb := h.base_lt
  intro x hx
  rcases List.mem_cons.1 hx with rfl | hx
  · exact ⟨Nat.le_refl _, hb.trans hr⟩
  rcases List.mem_cons.1 hx with rfl | hx
  · exact ⟨hb.le, hr⟩
  · obtain ⟨hlo, hhi⟩ := h x (List.mem_cons_of_mem _ hx)
    exact ⟨hlo, hhi.trans hr⟩

theorem probedBefore_start (ii : Nat) (h : base ≤ p) : ProbedBefore base (nextProbe true ii p) [] := by
  have := lt_nextProbe_true ii p
  intro x hx
  obtain rfl := List.mem_singleton.1 hx
  omega

theorem candidate_mem (src : List Byte) (base : Nat) (probed : List Nat) (i : Nat) :
    candidate src base probed i ∈ base :: probed := by
  unfold candidate
  cases hf : probed.find? fun q => bucketAt src q == bucketAt src i with
  | none => exact List.mem_cons_self ..
  | some x => exact List.mem_cons_of_mem _ (List.mem_of_find?_eq_some hf)

theorem ProbedBefore.candidate (h : ProbedBefore base q probed) (src : List Byte) (i : Nat) :
    base ≤ candidate src base probed i ∧ candidate src base probed i < q := h _ (candidate_mem ..)

/-! ### One parse -/

/-- The passes that a scan at `p` still has before it: the steps to its limit, and one more when the next pass does
not skip. -/
def scanFuel (e : Nat) (skip : Bool) (p fuel : Nat) : Prop := e + (if skip then 0 else 1) ≤ p + fuel

theorem scanFuel.limit (h : scanFuel e skip p 0) : e ≤ p := by unfold scanFuel at h; split at h <;> omega

/-- A miss uses one pass. -/
theorem scanFuel.miss {fuel : Nat} (h : scanFuel e skip p (fuel + 1)) (hle : p ≤ q) (hlt : skip = true → p < q) :
    scanFuel e true q fuel := by
  unfold scanFuel at *
  rw [if_pos rfl]
  split at h
  · next hs => have := hlt hs; omega
  · omega

/-- A match uses one pass. -/
theorem scanFuel.hit {fuel : Nat} (h : scanFuel e skip p (fuel + 1)) (hle : p ≤ q) (hn : 4 ≤ n) :
    scanFuel e false (q + n) fuel := by
  unfold scanFuel at *
  rw [if_neg Bool.false_ne_true]
  split at h <;> omega

theorem exists_scans (src : List Byte) (base e : Nat) (fuel : Nat) (hf : scanFuel e skip p fuel) :
    ∃ fs, Scans src base e skip ii p probed fs := by
  induction fuel generalizing skip ii p probed with
  | zero => exact ⟨[], .limit (hf.limit.trans (le_nextProbe ..))⟩
  | succ fuel ih =>
    rcases Nat.lt_or_ge (nextProbe skip ii p) e with he | he
    · by_cases hk : keyAt src (candidate src base probed (nextProbe skip ii p)) = keyAt src (nextProbe skip ii p)
      · obtain ⟨n, hn⟩ := exists_isMatchLen src (nextProbe skip ii p)
          (candidate src base probed (nextProbe skip ii p)) e
        obtain ⟨fs, hfs⟩ := ih (hf.hit (le_nextProbe ..) hn.four_le)
        exact ⟨_, .hit rfl he hk hn hfs⟩
      · obtain ⟨fs, hfs⟩ := ih (hf.miss (le_nextProbe ..) (lt_nextProbe _ _))
        exact ⟨fs, .miss rfl he hk hfs⟩
    · exact ⟨[], .limit he⟩

theorem exists_parses (src : List Byte) (base lit : Nat) : ∃ fs, Parses src base lit fs := by
  obtain ⟨k, hk⟩ : ∃ k, src.length - base ≤ k := ⟨_, Nat.le_refl _⟩
  induction k generalizing base lit with
  | zero => exact ⟨[], .tail (by omega)⟩
  | succ k ih =>
    rcases Nat.lt_or_ge 20 (src.length - base) with hl | hl
    · obtain ⟨fs, hfs⟩ := exists_scans (skip := true) (ii := base) (p := base + (4 - (base - lit))) (probed := []) src
        base (base + min (src.length - base) 49152 - 20) (base + min (src.length - base) 49152)
        (by unfold scanFuel; rw [if_pos rfl]; omega)
      obtain ⟨gs, hgs⟩ := ih (base + min (src.length - base) 49152) (litStart lit fs) (by omega)
      exact ⟨_, .block hl rfl hfs hgs⟩
    · exact ⟨[], .tail hl⟩

theorem Scans.unique {fs gs : List Found} (h : Scans src base e skip ii p probed fs)
    (h' : Scans src base e skip ii p probed gs) : fs = gs := by
  induction h generalizing gs with
  | limit h =>
    cases h' with
    | limit => rfl
    | miss hq he => omega
    | hit hq he => omega
  | miss hq he hk _ ih =>
    subst hq
    cases h' with
    | limit h => omega
    | miss hq' _ _ next => subst hq'; exact ih next
    | hit hq' _ hk' => subst hq'; exact absurd hk' hk
  | hit hq he hk hn _ ih =>
    subst hq
    cases h' with
    | limit h => omega
    | miss hq' _ hk' => subst hq'; exact absurd hk hk'
    | hit hq' _ _ hn' next =>
      subst hq'
      obtain rfl := hn.unique hn'
      rw [ih next]

theorem Parses.unique {lit : Nat} {fs gs : List Found} (h : Parses src base lit fs) (h' : Parses src base lit gs) :
    fs = gs := by
  induction h generalizing gs with
  | tail h =>
    cases h' with
    | tail => rfl
    | block hl => omega
  | block hl hn scan _ ih =>
    subst hn
    cases h' with
    | tail h => omega
    | block _ hn' scan' next' =>
      subst hn'
      obtain rfl := scan.unique scan'
      rw [ih next']

end

/-! ### The matches of a parse -/

/-- A match repeats source bytes before it, in the window (41_match_finder.md R205). -/
structure Found.Repeats (src : List Byte) (f : Found) : Prop where
  four_le : 4 ≤ f.len
  len_le : f.len ≤ 49152
  dist_pos : 1 ≤ f.dist
  dist_le : f.dist ≤ f.pos
  window : f.dist ≤ 49151
  same : ∀ j < f.len, src.getD (f.pos + j) 0 = src.getD (f.pos - f.dist + j) 0

/-- The matches stand one after another in the source from index `a` on, the first of the stream after at least
4 literals (42_compressor.md R232). -/
def Chained (src : List Byte) : Nat → List Found → Prop
  | a, [] => a ≤ src.length
  | a, f :: fs => a ≤ f.pos ∧ (a = 0 → 4 ≤ f.pos) ∧ f.Repeats src ∧ Chained src (f.pos + f.len) fs

section
variable {src : List Byte} {base e ii p q n lit : Nat} {skip : Bool} {probed : List Nat} {fs gs : List Found}

@[simp] theorem litStart_nil (lit : Nat) : litStart lit [] = lit := rfl

@[simp] theorem litStart_cons (lit : Nat) (f : Found) (fs : List Found) :
    litStart lit (f :: fs) = litStart (f.pos + f.len) fs := by
  cases fs with
  | nil => rfl
  | cons g fs => simp [litStart, List.getLast?_cons]

/-- What a probe that hits finds. -/
theorem found_repeats (hp : ProbedBefore base q probed) (he : q < e) (hblk : e + 20 ≤ base + 49152)
    (hk : keyAt src (candidate src base probed q) = keyAt src q)
    (hn : IsMatchLen src q (candidate src base probed q) e n) :
    Found.Repeats src ⟨q, n, q - candidate src base probed q⟩ := by
  obtain ⟨hlo, hhi⟩ := hp.candidate src q
  have hle := hn.le_limit he
  have hb := hp.base_lt
  refine ⟨hn.four_le, ?_, ?_, ?_, ?_, fun j hj => ?_⟩ <;> dsimp only at *
  · omega
  · omega
  · omega
  · omega
  · rw [Nat.sub_sub_self hhi.le]
    exact hn.same hk hj

theorem Scans.litStart_le (h : Scans src base e skip ii p probed fs) (hlit : lit ≤ e + 20) :
    litStart lit fs ≤ e + 20 := by
  induction h generalizing lit with
  | limit => exact hlit
  | miss _ _ _ _ ih => exact ih hlit
  | hit _ he _ hn _ ih =>
    rw [litStart_cons]
    have := hn.le_limit he
    exact ih (by dsimp only; omega)

theorem Scans.chained (h : Scans src base e skip ii p probed fs)
    (hp : ProbedBefore base (nextProbe skip ii p) probed) (hblk : e + 20 ≤ base + 49152) (hlit : lit ≤ p)
    (h4 : lit = 0 → 4 ≤ p) (hgs : Chained src (litStart lit fs) gs) : Chained src lit (fs ++ gs) := by
  induction h generalizing lit with
  | limit => exact hgs
  | @miss _ ii p _ _ _ hq _ _ _ ih =>
    subst hq
    have hle := le_nextProbe ‹Bool› ii p
    exact ih (hp.cons (lt_nextProbe_true ..)) (by omega) (fun h0 => (h4 h0).trans hle) hgs
  | @hit _ ii p _ _ _ _ hq he hk hn _ ih =>
    subst hq
    have hle := le_nextProbe ‹Bool› ii p
    have h4n := hn.four_le
    rw [litStart_cons] at hgs
    exact ⟨hlit.trans hle, fun h0 => (h4 h0).trans hle, found_repeats hp he hblk hk hn,
      ih (hp.cons (by rw [nextProbe_false]; omega)) (Nat.le_refl _) (by dsimp only; omega) hgs⟩

theorem Parses.chained (h : Parses src base lit fs) (hlit : lit ≤ base) (hbase : base ≤ src.length) :
    Chained src lit fs := by
  induction h with
  | tail => exact hlit.trans hbase
  | block hl hn scan _ ih =>
    exact scan.chained (probedBefore_start _ (by omega)) (by omega) (by omega) (by omega)
      (ih ((scan.litStart_le (by omega)).trans (by omega)) (by omega))

end

end Sys2Proof.Machine
end

section
/-! The stream of a parse while it is written (42_compressor.md R240 to R245): what is written, with the S field of its
last match still to be set, and what is left to write. -/

namespace Sys2Proof.Machine

/-! ### The bytes of instructions -/

theorem headerBytes_of_encode {i : Instr} {bs : List Byte} (h : encode i = .stream bs) : headerBytes i = bs := by
  unfold headerBytes; rw [h]

theorem headerBytes_litRun (n : Nat) : headerBytes (.litRun n) = litRunHeader n := headerBytes_of_encode (encode_litRun n)

theorem headerBytes_eos : headerBytes (.eos 3 0) = [byteOf 0x11, byteOf 0x00, byteOf 0x00] := rfl

theorem headerBytes_litFirst (n : Nat) : headerBytes (.litFirst n) = [byteOf (17 + n)] := by rw [Nat.add_comm]; rfl

/-- The back-patch of R240 and R244: `k` literals counted in the byte that holds the S field of the last match. -/
def patchS (w : List Byte) (k : Nat) : List Byte := w.set (w.length - 2) (w.getD (w.length - 2) 0 ||| byteOf k)

/-- What is written once the count `k` of the literals that follow is known: up to 3 of them are counted in the S
field of the last match. -/
def countedIn (w : List Byte) (k : Nat) : List Byte := if k ≤ 3 then patchS w k else w

section
variable {src w v : List Byte} {k : Nat}

@[simp] theorem length_countedIn (w : List Byte) (k : Nat) : (countedIn w k).length = w.length := by
  unfold countedIn patchS
  split
  · exact List.length_set
  · rfl

theorem countedIn_zero (w : List Byte) : countedIn w 0 = w := by
  refine List.ext_getElem (length_countedIn w 0) fun i h1 h2 => ?_
  simp only [countedIn, patchS, if_pos (Nat.zero_le 3), show byteOf 0 = 0#8 from rfl, BitVec.or_zero]
  rw [List.getElem_set]
  split
  · next h => subst h; rw [List.getD_eq_getElem _ _ h2]
  · rfl

theorem countedIn_append (w : List Byte) (h : 2 ≤ v.length) (k : Nat) : countedIn (w ++ v) k = w ++ countedIn v k := by
  unfold countedIn patchS
  split
  · have hi : (w ++ v).length - 2 = w.length + (v.length - 2) := by rw [List.length_append]; omega
    rw [hi, List.set_append_right _ _ (Nat.le_add_right ..), Nat.add_sub_cancel_left,
      List.getD_append_right _ _ _ _ (Nat.le_add_right ..), Nat.add_sub_cancel_left]
  · rfl

theorem two_le_matchBytes_length (len dist : Nat) : 2 ≤ (matchBytes len dist).length := by
  unfold matchBytes
  split
  · exact Nat.le_refl 2
  split
  · simp [encM3, encDist]
  · simp [encM4, encDist]

/-- A match and the S field that is set later, as `parsedBytes` has them. -/
theorem headerBytes_matchInstr {dist : Nat} (len : Nat) (hd : dist ≤ 49151) (k : Nat) :
    headerBytes (matchInstr len dist (if k ≤ 3 then k else 0)) = countedIn (matchBytes len dist) k := by
  unfold countedIn
  split
  · next hk => exact headerBytes_of_encode (encode_matchInstr_backPatch hd hk)
  · exact headerBytes_of_encode (encode_matchInstr_zero hd)

theorem runBytes_length {a b : Nat} (h : b ≤ src.length) :
    (runBytes src a b).length = (if b - a ≤ 3 then 0 else (litRunHeader (b - a)).length) + (b - a) := by
  unfold runBytes
  rw [headerBytes_litRun]
  split
  · simp; omega
  · simp; omega

@[simp] theorem countedIn_nil (k : Nat) : countedIn [] k = [] := List.eq_nil_of_length_eq_zero (length_countedIn _ _)

@[simp] theorem runBytes_self (src : List Byte) (a : Nat) : runBytes src a a = [] := by simp [runBytes]

/-! ### What is written and what is left -/

/-- Where the literals before the matches `fs` end: at the first of them, or with the source. -/
def nextStop (src : List Byte) : List Found → Nat
  | [] => src.length
  | f :: _ => f.pos

theorem parsedBytes_cons (src : List Byte) (a : Nat) (f : Found) (fs : List Found) :
    parsedBytes src a (f :: fs) = runBytes src a f.pos ++
      headerBytes (matchInstr f.len f.dist (if nextStop src fs - (f.pos + f.len) ≤ 3
        then nextStop src fs - (f.pos + f.len) else 0)) ++ parsedBytes src (f.pos + f.len) fs := by
  cases fs <;> rfl

/-- Of the stream `z`, `w` is written, and the literals from `a` on and the matches `fs` are left. -/
def Emits (src z w : List Byte) (a : Nat) (fs : List Found) : Prop :=
  z = countedIn w (nextStop src fs - a) ++ parsedBytes src a fs

theorem emits_start (src : List Byte) (fs : List Found) : Emits src (parsedBytes src 0 fs) [] 0 fs := by
  rw [Emits, countedIn_nil, List.nil_append]

theorem Emits.length_eq {z : List Byte} {a : Nat} {fs : List Found} (h : Emits src z w a fs) :
    z.length = w.length + (parsedBytes src a fs).length := by
  rw [Emits] at h
  rw [h, List.length_append, length_countedIn]

/-- A match is written: its literals, its S field counted in the match before, and its bytes with S = 0. -/
theorem Emits.match {z : List Byte} {a : Nat} {f : Found} {fs : List Found} (h : Emits src z w a (f :: fs))
    (hd : f.dist ≤ 49151) :
    Emits src z (countedIn w (f.pos - a) ++ runBytes src a f.pos ++ matchBytes f.len f.dist) (f.pos + f.len) fs := by
  rw [Emits, parsedBytes_cons, headerBytes_matchInstr f.len hd] at h
  rw [Emits, countedIn_append _ (two_le_matchBytes_length _ _), h]
  simp only [List.append_assoc]
  rfl

/-- The literals after the last match, or all of a short source (42_compressor.md R244). -/
def lastBytes (src : List Byte) (a : Nat) : List Byte :=
  if a = 0 ∧ 1 ≤ src.length ∧ src.length ≤ 238 then headerBytes (.litFirst src.length) ++ src
  else runBytes src a src.length

theorem parsedBytes_nil (src : List Byte) (a : Nat) : parsedBytes src a [] = lastBytes src a ++ headerBytes (.eos 3 0) :=
  rfl

theorem lastBytes_first (h1 : 1 ≤ src.length) (h238 : src.length ≤ 238) :
    lastBytes src 0 = headerBytes (.litFirst src.length) ++ src := if_pos ⟨rfl, h1, h238⟩

theorem lastBytes_run {a : Nat} (h : ¬(a = 0 ∧ 1 ≤ src.length ∧ src.length ≤ 238)) :
    lastBytes src a = runBytes src a src.length := if_neg h

end

end Sys2Proof.Machine
end

section
/-! What the encoder writes (42_compressor.md R240 to R246). `Encoded s₀ w s` says that a COMPRESS that began in `s₀`
has written the bytes `w` and nothing else in host memory; `Res.Runs` says how its actions go on or stop. -/

namespace Sys2Proof.Machine

/-- An action of a COMPRESS that began in `s₀` and whose whole stream has `N` bytes: it goes on where `Q` holds, or
stops with a bus error where a byte of the buffers is excluded, or with OutOfMemory where the stream does not fit. -/
def Res.Runs {α : Type} (s₀ : State) (N : Nat) (Q : α → State → Prop) : Res α → Prop
  | .ok a t => Q a t
  | .stop e _ => e = .status .error ∧ ¬(s₀.inputReadable ∧ s₀.outputWritable) ∨
      e = .status .outOfMemory ∧ s₀.snap.dstN.toNat < N

/-- Of a command that began in `s₀`, host memory `m` holds the bytes `w` at the start of the output buffer, and nothing
else has changed. -/
structure Stored (s₀ : State) (w : List Byte) (m : Memory) : Prop where
  fits : w.length ≤ s₀.snap.dstN.toNat
  outside : ∀ b, b < s₀.snap.dstBase.toNat ∨ s₀.snap.dstBase.toNat + w.length ≤ b → m.read b = s₀.mem.read b
  bytes : s₀.mem.wf = true → m.wf = true ∧ ∀ j < w.length, m.read (s₀.outAddr j) = w.getD j 0

/-- A COMPRESS that began in `s₀` has written the bytes `w` of its stream. -/
structure Encoded (s₀ : State) (w : List Byte) (s : State) : Prop where
  frame : s = { s₀ with mem := s.mem, enc := s.enc, mf := s.mf, table := s.table }
  opos : s.enc.opos = w.length
  stored : Stored s₀ w s.mem

section
variable {α β : Type} {s₀ s t : State} {N : Nat} {r : Res α} {Q : α → State → Prop}

@[simp] theorem runs_ok (a : α) (t : State) : (Res.ok a t).Runs s₀ N Q ↔ Q a t := Iff.rfl

theorem Res.Runs.mono {Q' : α → State → Prop} (h : r.Runs s₀ N Q) (hQ : ∀ a t, Q a t → Q' a t) : r.Runs s₀ N Q' := by
  cases r
  · exact hQ _ _ h
  · exact h

theorem Res.Runs.andThen {Q' : β → State → Prop} {f : α → State → Res β} (h : r.Runs s₀ N Q)
    (hf : ∀ a t, Q a t → (f a t).Runs s₀ N Q') : (r.andThen f).Runs s₀ N Q' := by
  cases r
  · exact hf _ _ h
  · exact h

/-- Where the action goes on, what its own lemma says of that holds too. -/
theorem Res.Runs.with_eq (h : r.Runs s₀ N Q) : r.Runs s₀ N fun a t => Q a t ∧ r = .ok a t := by
  cases r
  · exact ⟨h, rfl⟩
  · exact h

theorem inputList_length (s : State) : s.inputList.length = s.snap.srcN.toNat := by simp [State.inputList]

theorem inputList_getD {i : Nat} (hi : i < s.snap.srcN.toNat) : s.inputList.getD i 0 = s.inAt i := by
  rw [List.getD_eq_getElem _ _ ((inputList_length s).symm ▸ hi)]
  simp [State.inputList]

/-- Accepted buffers share no byte (40_commands.md R163). -/
theorem inAddr_outside (ha : s.argsOk = true) {i n : Nat} (hi : i < s.snap.srcN.toNat) (hn : n ≤ s.snap.dstN.toNat) :
    s.inAddr i < s.snap.dstBase.toNat ∨ s.snap.dstBase.toNat + n ≤ s.inAddr i := by
  by_contra hc
  have hov := argsOk_eq_false_iff (s := s).2 (.inr (.inr (by unfold State.inAddr at hc; omega)))
  rw [ha] at hov
  cases hov

end

/-! ### The output buffer -/

section
variable {s₀ : State} {w : List Byte} {m : Memory}

theorem stored_nil (s₀ : State) : Stored s₀ [] s₀.mem := ⟨Nat.zero_le _, fun _ _ => rfl, fun h => ⟨h, nofun⟩⟩

/-- What is written leaves the source as it was. -/
theorem Stored.read_source (h : Stored s₀ w m) (ha : s₀.argsOk = true) {i : Nat} (hi : i < s₀.snap.srcN.toNat) :
    m.read (s₀.inAddr i) = s₀.inputList.getD i 0 :=
  (h.outside _ (inAddr_outside ha hi h.fits)).trans (inputList_getD hi).symm

/-- The next byte. -/
theorem Stored.push (h : Stored s₀ w m) (v : Byte) (hroom : w.length < s₀.snap.dstN.toNat) :
    Stored s₀ (w ++ [v]) (m.write (s₀.outAddr w.length) v) := by
  have hlen : (w ++ [v]).length = w.length + 1 := by simp
  refine ⟨hlen.symm ▸ hroom, fun b hb => ?_, fun hwf => ?_⟩
  · rw [hlen] at hb
    exact (Memory.read_write_other _ _ (by unfold State.outAddr; omega)).trans (h.outside b (by omega))
  · obtain ⟨hm, hw⟩ := h.bytes hwf
    refine ⟨Memory.wf_write _ _ hm, fun j hj => ?_⟩
    rw [hlen] at hj
    rcases Nat.lt_or_ge j w.length with hlt | hge
    · rw [List.getD_append _ _ _ _ hlt, ← hw j hlt]
      exact Memory.read_write_other _ _ (by unfold State.outAddr; omega)
    · obtain rfl : j = w.length := by omega
      rw [List.getD_append_right _ _ _ _ hge, Nat.sub_self]
      exact Memory.read_write_same _ _ hm

/-- A byte is written again. -/
theorem Stored.rewrite (h : Stored s₀ w m) {i : Nat} (hi : i < w.length) {v v' : Byte}
    (hv : s₀.mem.wf = true → v = v') : Stored s₀ (w.set i v') (m.write (s₀.outAddr i) v) := by
  have hlen : (w.set i v').length = w.length := List.length_set
  refine ⟨hlen.symm ▸ h.fits, fun b hb => ?_, fun hwf => ?_⟩
  · rw [hlen] at hb
    exact (Memory.read_write_other _ _ (by unfold State.outAddr; omega)).trans (h.outside b hb)
  · obtain ⟨hm, hw⟩ := h.bytes hwf
    refine ⟨Memory.wf_write _ _ hm, fun j hj => ?_⟩
    rw [List.getD_eq_getElem _ _ hj, List.getElem_set]
    rw [hlen] at hj
    split
    · next hij => subst hij; exact (Memory.read_write_same _ _ hm).trans (hv hwf)
    · next hij =>
      rw [← List.getD_eq_getElem _ 0 hj, ← hw j hj]
      exact Memory.read_write_other _ _ (by unfold State.outAddr; omega)

end

/-! ### Updates -/

section
variable {s₀ s : State} {N : Nat} {w : List Byte}

theorem Encoded.snap_eq (h : Encoded s₀ w s) : s.snap = s₀.snap := by rw [h.frame]

theorem Encoded.dmaOk_eq (h : Encoded s₀ w s) (a : Nat) : s.dmaOk a = s₀.dmaOk a := by rw [h.frame]; rfl

theorem Encoded.inAddr_eq (h : Encoded s₀ w s) (i : Nat) : s.inAddr i = s₀.inAddr i := by rw [h.frame]; rfl

theorem Encoded.outAddr_eq (h : Encoded s₀ w s) (j : Nat) : s.outAddr j = s₀.outAddr j := by rw [h.frame]; rfl

/-- Nothing is written before the first action. -/
theorem encoded_start (s₀ : State) : Encoded s₀ [] (startCompress s₀) := ⟨rfl, rfl, stored_nil s₀⟩

/-- Encoder registers other than OPOS may be set, and so may the match finder's and T. -/
theorem Encoded.setRegs (h : Encoded s₀ w s) {t : State}
    (ht : t = { s with enc := t.enc, mf := t.mf, table := t.table }) (ho : t.enc.opos = s.enc.opos) :
    Encoded s₀ w t := by
  have hmem : t.mem = s.mem := by rw [ht]
  refine ⟨?_, ho.trans h.opos, hmem ▸ h.stored⟩
  rw [hmem]
  exact ht.trans (congrArg (fun u : State => { u with enc := t.enc, mf := t.mf, table := t.table }) h.frame)

/-- The next byte of the stream. -/
theorem Encoded.push (h : Encoded s₀ w s) (v : Byte) (hroom : w.length < s₀.snap.dstN.toNat) :
    Encoded s₀ (w ++ [v]) { s with
      mem := s.mem.write (s.outAddr s.enc.opos) v, enc := { s.enc with opos := s.enc.opos + 1 } } := by
  rw [h.outAddr_eq, h.opos]
  refine ⟨?_, by simp, h.stored.push v hroom⟩
  exact congrArg (fun u : State => { u with
    mem := s.mem.write (s₀.outAddr w.length) v, enc := { s.enc with opos := w.length + 1 } }) h.frame

/-- A byte of the stream is written again. -/
theorem Encoded.rewrite (h : Encoded s₀ w s) {i : Nat} (hi : i < w.length) {v v' : Byte}
    (hv : s₀.mem.wf = true → v = v') : Encoded s₀ (w.set i v') { s with mem := s.mem.write (s₀.outAddr i) v } :=
  ⟨congrArg (fun u : State => { u with mem := s.mem.write (s₀.outAddr i) v }) h.frame,
    h.opos.trans List.length_set.symm, h.stored.rewrite hi hv⟩

/-! ### Accesses -/

theorem Encoded.inByte_runs (h : Encoded s₀ w s) (ha : s₀.argsOk = true) {i : Nat} (hi : i < s₀.snap.srcN.toNat) :
    (inByte i s).Runs s₀ N fun b t => t = s ∧ b = s₀.inputList.getD i 0 := by
  unfold inByte memRead
  rw [h.inAddr_eq, h.dmaOk_eq]
  split
  · exact ⟨rfl, h.stored.read_source ha hi⟩
  · next hd => exact .inl ⟨rfl, fun hacc => hd (hacc.1 i hi)⟩

/-- LE32 gives the key of the source bytes (41_match_finder.md R201). -/
theorem Encoded.le32_runs (h : Encoded s₀ w s) (ha : s₀.argsOk = true) {i : Nat} (hi : i + 3 < s₀.snap.srcN.toNat) :
    (le32 i s).Runs s₀ N fun v t => t = s ∧ v.toNat = keyAt s₀.inputList i := by
  unfold le32
  refine (h.inByte_runs ha (by omega)).andThen ?_
  rintro b0 _ ⟨rfl, h0⟩
  refine (h.inByte_runs ha (by omega)).andThen ?_
  rintro b1 _ ⟨rfl, h1⟩
  refine (h.inByte_runs ha (by omega)).andThen ?_
  rintro b2 _ ⟨rfl, h2⟩
  refine (h.inByte_runs ha hi).andThen ?_
  rintro b3 _ ⟨rfl, h3⟩
  refine ⟨rfl, ?_⟩
  rw [keyAt, ← h0, ← h1, ← h2, ← h3]
  simp only [BitVec.toNat_append]
  rw [← Nat.shiftLeft_add_eq_or_of_lt b0.isLt, ← Nat.shiftLeft_add_eq_or_of_lt b1.isLt,
    ← Nat.shiftLeft_add_eq_or_of_lt b2.isLt]
  simp only [Nat.shiftLeft_eq]
  omega

theorem Encoded.emit_runs (h : Encoded s₀ w s) (v : Byte) (hN : w.length < N) :
    (emit v s).Runs s₀ N fun _ t => Encoded s₀ (w ++ [v]) t := by
  have hopos := h.opos
  by_cases hfull : s₀.snap.dstN.toNat ≤ w.length
  · rw [emit, if_pos (by rwa [h.snap_eq, hopos])]
    exact .inr ⟨rfl, hfull.trans_lt hN⟩
  have hroom := Nat.lt_of_not_le hfull
  by_cases hd : s₀.dmaOk (s₀.outAddr w.length) = true
  · rw [← hopos, ← h.outAddr_eq, ← h.dmaOk_eq] at hd
    rw [(emit_eq_ok (u := ())).2 ⟨by rwa [h.snap_eq, hopos], hd, rfl⟩]
    exact h.push v hroom
  · rw [emit, if_neg (by rwa [h.snap_eq, hopos]), setOut, memWrite, if_neg (by rwa [h.dmaOk_eq, h.outAddr_eq, hopos])]
    exact .inl ⟨rfl, fun hacc => hd (hacc.2 _ hroom)⟩

theorem Encoded.emitBytes_runs (h : Encoded s₀ w s) (bs : List Byte) (hN : w.length + bs.length ≤ N) :
    (emitBytes bs s).Runs s₀ N fun _ t => Encoded s₀ (w ++ bs) t := by
  induction bs generalizing s w with
  | nil => rwa [List.append_nil]
  | cons b bs ih =>
    rw [List.length_cons] at hN
    refine (h.emit_runs b (by omega)).andThen fun _ t ht => (ih ht ?_).mono fun _ u hu => ?_
    · rw [List.length_append, List.length_singleton]; omega
    · rwa [List.append_assoc] at hu

theorem Encoded.emitLits_runs (h : Encoded s₀ w s) (ha : s₀.argsOk = true) {n a : Nat}
    (hn : a + n ≤ s₀.snap.srcN.toNat) (hN : w.length + n ≤ N) :
    (emitLits n a s).Runs s₀ N fun _ t => Encoded s₀ (w ++ (s₀.inputList.drop a).take n) t := by
  induction n generalizing s w a with
  | zero => rwa [List.take_zero, List.append_nil]
  | succ n ih =>
    refine (h.inByte_runs ha (by omega)).andThen ?_
    rintro b _ ⟨rfl, hb⟩
    refine (h.emit_runs b (by omega)).andThen fun _ t ht => (ih ht (by omega) ?_).mono fun _ u hu => ?_
    · rw [List.length_append, List.length_singleton]; omega
    · have hlt : a < s₀.inputList.length := by rw [inputList_length]; omega
      rw [List.append_assoc, hb, List.getD_eq_getElem _ _ hlt] at hu
      rwa [List.drop_eq_getElem_cons hlt, List.take_succ_cons]

/-- The back-patch counts `k` literals in the S field of the last match. -/
theorem Encoded.backPatch_runs (h : Encoded s₀ w s) (k : Nat) (hw : 2 ≤ w.length) :
    (backPatch k s).Runs s₀ N fun _ t => Encoded s₀ (patchS w k) t := by
  have hfits := h.stored.fits
  unfold backPatch outByte memRead
  rw [h.opos, h.outAddr_eq, h.dmaOk_eq]
  split
  · next hd =>
    rw [andThen_ok, setOut, memWrite, h.opos, h.outAddr_eq, h.dmaOk_eq, if_pos hd]
    exact h.rewrite (by omega) fun hwf => by rw [(h.stored.bytes hwf).2 _ (by omega)]
  · next hd => exact .inl ⟨rfl, fun hacc => hd (hacc.2 _ (by omega))⟩

/-! ### Literals -/

/-- The stream has begun once a match is written: literals up to index 0 are none, and those past it come after one. -/
def Begun (w : List Byte) (a : Nat) : Prop := a = 0 ∧ w = [] ∨ 0 < a ∧ 2 ≤ w.length

/-- The header of a literal run: the count of up to 3 goes into the match before (R240, R244). -/
theorem Encoded.litHeader_runs (h : Encoded s₀ w s) (k : Nat) (hw : k ≤ 3 → 2 ≤ w.length)
    (hN : w.length + (if k ≤ 3 then 0 else (litRunHeader k).length) ≤ N) :
    (if k ≤ 3 then backPatch k s else emitBytes (litRunHeader k) s).Runs s₀ N fun _ t =>
      Encoded s₀ (countedIn w k ++ if k ≤ 3 then [] else headerBytes (.litRun k)) t := by
  unfold countedIn
  split
  · next hk => rw [List.append_nil]; exact h.backPatch_runs k (hw hk)
  · next hk => rw [if_neg hk] at hN; rw [headerBytes_litRun]; exact h.emitBytes_runs _ hN

/-- Literals under their header. -/
theorem Encoded.run_runs (h : Encoded s₀ w s) (ha : s₀.argsOk = true) {a b : Nat} (hab : a ≤ b)
    (hb : b ≤ s₀.snap.srcN.toNat) (hw : b - a ≤ 3 → 2 ≤ w.length) {src : State → Nat}
    (hsrc : ∀ t : State, t.snap = s₀.snap → src t = a)
    (hN : w.length + (runBytes s₀.inputList a b).length ≤ N) :
    ((if b - a ≤ 3 then backPatch (b - a) s else emitBytes (litRunHeader (b - a)) s).andThen fun _ u =>
      emitLits (b - a) (src u) u).Runs s₀ N fun _ t =>
        Encoded s₀ (countedIn w (b - a) ++ runBytes s₀.inputList a b) t := by
  rw [runBytes_length (by rwa [inputList_length])] at hN
  refine (h.litHeader_runs (b - a) hw (by omega)).andThen fun _ t ht => ?_
  rw [hsrc t ht.snap_eq]
  refine (ht.emitLits_runs ha (by omega) ?_).mono fun _ u hu => ?_
  · rw [List.length_append, length_countedIn]
    split at hN
    · next hk => rw [if_pos hk, List.length_nil]; omega
    · next hk => rw [if_neg hk, headerBytes_litRun]; omega
  · rwa [List.append_assoc] at hu

/-- ENC_LIT writes the literals before a match (42_compressor.md R240). -/
theorem Encoded.encLit_runs (h : Encoded s₀ w s) (ha : s₀.argsOk = true) {a b : Nat} (hab : a ≤ b)
    (hb : b ≤ s₀.snap.srcN.toNat) (hw : a = 0 → 4 ≤ b) (hbegun : Begun w a)
    (hN : w.length + (runBytes s₀.inputList a b).length ≤ N) :
    (encLit a (b - a) s).Runs s₀ N fun _ t => Encoded s₀ (countedIn w (b - a) ++ runBytes s₀.inputList a b) t := by
  unfold encLit
  split
  · next h0 =>
    obtain rfl : a = b := by omega
    simpa [countedIn_zero] using h
  · refine h.run_runs ha hab hb (fun hk => ?_) (fun _ _ => rfl) hN
    rcases hbegun with ⟨h0, -⟩ | ⟨-, h2⟩
    · have := hw h0; omega
    · exact h2

/-- ENC_TAIL writes the literals after the last match, or all of a short source (42_compressor.md R244). -/
theorem Encoded.encTail_runs (h : Encoded s₀ w s) (ha : s₀.argsOk = true) {a k : Nat}
    (hk : a + k = s₀.snap.srcN.toNat) (hbegun : Begun w a)
    (hN : w.length + (parsedBytes s₀.inputList a []).length ≤ N) :
    (encTail k s).Runs s₀ N fun _ t => Encoded s₀ (countedIn w k ++ lastBytes s₀.inputList a) t := by
  have hlen := inputList_length s₀
  have hopos := h.opos
  rw [parsedBytes_nil, List.length_append] at hN
  obtain rfl : k = s₀.snap.srcN.toNat - a := by omega
  have hsrc : s₀.snap.srcN.toNat - (s₀.snap.srcN.toNat - a) = a := by omega
  by_cases hfirst : a = 0 ∧ 1 ≤ s₀.snap.srcN.toNat ∧ s₀.snap.srcN.toNat ≤ 238
  · obtain ⟨rfl, h1, h238⟩ := hfirst
    obtain ⟨-, rfl⟩ : 0 = 0 ∧ w = [] := hbegun.resolve_right fun h2 => by omega
    rw [lastBytes_first (by omega) (by omega), headerBytes_litFirst, hlen] at hN ⊢
    rw [List.length_append, List.length_singleton, hlen] at hN
    rw [encTail, if_neg (by omega), if_pos ⟨by rw [hopos]; rfl, h238⟩, countedIn_nil]
    refine (h.emitBytes_runs _ (by rw [List.length_singleton]; omega)).andThen fun _ t ht => ?_
    rw [ht.snap_eq, hsrc]
    refine (ht.emitLits_runs ha (by omega) (by simp only [List.nil_append, List.length_singleton]; omega)).mono
      fun _ u hu => ?_
    rwa [List.drop_zero, List.take_of_length_le (by omega)] at hu
  · rw [lastBytes_run (by rwa [hlen]), hlen] at hN ⊢
    have hnot : ¬(s.enc.opos = 0 ∧ s₀.snap.srcN.toNat - a ≤ 238) ∨ s₀.snap.srcN.toNat - a = 0 := by
      rcases hbegun with ⟨rfl, rfl⟩ | ⟨-, h2⟩ <;> omega
    by_cases h0 : s₀.snap.srcN.toNat - a = 0
    · obtain rfl : a = s₀.snap.srcN.toNat := by omega
      rw [encTail, if_pos h0, runs_ok, h0, countedIn_zero, runBytes_self, List.append_nil]
      exact h
    · rw [encTail, if_neg h0, if_neg (hnot.resolve_right h0)]
      refine h.run_runs (src := fun u => u.snap.srcN.toNat - (s₀.snap.srcN.toNat - a)) ha (by omega)
        (Nat.le_refl _) (fun hk3 => ?_) (fun t ht => by rw [ht, hsrc]) (by omega)
      rcases hbegun with ⟨rfl, rfl⟩ | ⟨-, h2⟩
      · simp only [List.length_nil] at hopos; omega
      · exact h2

end

end Sys2Proof.Machine
end

section
/-! COMPRESS follows the parse of its source (42_compressor.md R230 to R235, 41_match_finder.md R200 to R204): each loop
goes along the matches that the relations on lists find, and what it writes is their stream. -/

namespace Sys2Proof.Machine

/-! ### The match finder -/

/-- T holds, for each bucket, the last position probed in the block that starts at `base`, relative to it. -/
structure TableOf (src : List Byte) (base : Nat) (probed : List Nat) (t : Table) : Prop where
  wf : t.wf = true
  read : ∀ h, base + (t.read h).toNat = (probed.find? fun q => bucketAt src q == h).getD base

section
variable {src : List Byte} {base q : Nat} {probed : List Nat} {t : Table}

theorem tableOf_nil (src : List Byte) (base : Nat) : TableOf src base [] [] := ⟨rfl, fun _ => rfl⟩

theorem bucketAt_lt (src : List Byte) (i : Nat) : bucketAt src i < Config.tEntries := by
  have h := Nat.mod_lt (keyAt src i * 0x1824429D) (Nat.two_pow_pos 32)
  exact Nat.div_lt_of_lt_mul h

/-- A probe enters its position (41_match_finder.md R202). -/
theorem TableOf.write (h : TableOf src base probed t) (hlo : base ≤ q) (hhi : q < base + 2 ^ 16) :
    TableOf src base (q :: probed) (t.write (bucketAt src q) (BitVec.ofNat 16 (q - base))) where
  wf := Table.wf_write _ (bucketAt_lt src q) h.wf
  read b := by
    by_cases hb : bucketAt src q = b
    · subst hb
      rw [Table.read_write_same _ _ h.wf, List.find?_cons_of_pos (by simp), Option.getD_some,
        BitVec.toNat_ofNat, Nat.mod_eq_of_lt (Nat.sub_lt_left_of_lt_add hlo hhi), Nat.add_sub_cancel' hlo]
    · rw [Table.read_write_other _ _ (Ne.symm hb), h.read b, List.find?_cons_of_neg (by simpa using hb)]

end

section
variable {s₀ s : State} {N : Nat} {w : List Byte}

theorem Encoded.inAt_eq (h : Encoded s₀ w s) (ha : s₀.argsOk = true) {i : Nat} (hi : i < s₀.snap.srcN.toNat) :
    s.inAt i = s₀.inputList.getD i 0 := by
  unfold State.inAt
  rw [h.inAddr_eq]
  exact h.stored.read_source ha hi

/-- The probe finds the candidate of the parse, enters P in T, and hits where the keys are equal (R233). -/
theorem Encoded.probe_runs (h : Encoded s₀ w s) (ha : s₀.argsOk = true) {base q : Nat} {probed : List Nat}
    (hb : s.enc.base = base) (hq : s.enc.base + s.enc.p = q) (hn : q + 3 < s₀.snap.srcN.toNat)
    (ht : TableOf s₀.inputList base probed s.table) (hp : ProbedBefore base q probed) (hhi : q < base + 2 ^ 16) :
    (probe s).Runs s₀ N fun hit t => Encoded s₀ w t ∧
      s.enc.base + t.mf.cand = candidate s₀.inputList base probed q ∧
      TableOf s₀.inputList base (q :: probed) t.table ∧
      (hit = true ↔ keyAt s₀.inputList (candidate s₀.inputList base probed q) = keyAt s₀.inputList q) := by
  subst hb hq
  unfold probe
  refine (h.le32_runs ha hn).andThen ?_
  rintro dv s ⟨rfl, hdv⟩
  have hbucket : mfHash dv = bucketAt s₀.inputList (s.enc.base + s.enc.p) := by rw [mfHash_eq, hdv, bucketAt]
  have hcand : s.enc.base + (mfProbe (mfHash dv) s).mf.cand =
      candidate s₀.inputList s.enc.base probed (s.enc.base + s.enc.p) := by
    rw [mfProbe_mf, hbucket]
    exact ht.read _
  have hwrite := ht.write (Nat.le_add_right ..) hhi
  rw [Nat.add_sub_cancel_left, ← hbucket] at hwrite
  have hprobe : Encoded s₀ w (mfProbe (mfHash dv) s) := h.setRegs rfl rfl
  have hlt := (hp.candidate s₀.inputList (s.enc.base + s.enc.p)).2
  unfold mfVerify
  rw [mfProbe_enc, hcand]
  refine (hprobe.le32_runs ha (by omega)).andThen ?_
  rintro cv _ ⟨rfl, hcv⟩
  refine ⟨hprobe, hcand, hwrite, ?_⟩
  rw [beq_iff_eq, ← BitVec.toNat_inj, hcv, hdv]

theorem Encoded.mfSame_runs (h : Encoded s₀ w s) (ha : s₀.argsOk = true)
    (hend : s.enc.base + s.enc.e + 5 ≤ s₀.snap.srcN.toNat) (hc : s.mf.cand < s.enc.p) {j : Nat}
    (hj : s.enc.p + j ≤ s.enc.e + 4) : (mfSame j s).Runs s₀ N fun b t => t = s ∧ (b = true ↔ s.AgreesAt j) := by
  unfold mfSame
  refine (h.inByte_runs ha (by omega)).andThen ?_
  rintro x s ⟨rfl, hx⟩
  refine (h.inByte_runs ha (by omega)).andThen ?_
  rintro y s ⟨rfl, hy⟩
  refine ⟨rfl, ?_⟩
  rw [beq_iff_eq, State.AgreesAt, h.inAt_eq ha (by omega), h.inAt_eq ha (by omega), hx, hy]

/-- The loop of MF_LENGTH grows MLEN as far as the match goes, where it goes on. -/
theorem Encoded.mfExtend_runs (fuel : Nat) (h : Encoded s₀ w s) (ha : s₀.argsOk = true)
    (hend : s.enc.base + s.enc.e + 5 ≤ s₀.snap.srcN.toNat) (hc : s.mf.cand < s.enc.p)
    (hfuel : s.enc.e ≤ s.enc.p + s.mf.mlen + (fuel + 1)) :
    (mfExtend (fuel + 1) s).Runs s₀ N fun _ t => Encoded s₀ w t ∧ s.ExtendsTo s.mf.mlen t.mf.mlen := by
  induction fuel generalizing s with
  | zero =>
    unfold mfExtend
    dsimp only
    rw [if_pos (show s.enc.e ≤ s.enc.p + (s.mf.mlen + 1) from hfuel)]
    exact ⟨h.setRegs rfl rfl, State.extendsTo_succ (.inl hfuel)⟩
  | succ fuel ih =>
    have h' : Encoded s₀ w { s with mf := { s.mf with mlen := s.mf.mlen + 1 } } := h.setRegs rfl rfl
    unfold mfExtend
    dsimp only
    by_cases he : s.enc.e ≤ s.enc.p + (s.mf.mlen + 1)
    · rw [if_pos he]
      exact ⟨h', State.extendsTo_succ (.inl he)⟩
    · rw [if_neg he]
      refine (h'.mfSame_runs ha hend hc (by dsimp only; omega)).andThen ?_
      rintro b _ ⟨rfl, hagree⟩
      cases b with
      | false => exact ⟨h', State.extendsTo_succ (.inr fun h => Bool.false_ne_true (hagree.2 h))⟩
      | true =>
        refine (ih h' hend hc (by dsimp only; omega)).mono ?_
        rintro _ t ⟨ht, hext⟩
        exact ⟨ht, hext.of_setMlen.of_agreesAt (Nat.lt_of_not_le he) (hagree.1 rfl)⟩

/-- MF_LENGTH measures the match of the parse (41_match_finder.md R204). -/
theorem Encoded.mfLength_runs (h : Encoded s₀ w s) (ha : s₀.argsOk = true)
    (hend : s.enc.base + s.enc.e + 5 ≤ s₀.snap.srcN.toNat) (hc : s.mf.cand < s.enc.p) (hp : s.enc.p < s.enc.e) :
    (mfLength s).Runs s₀ N fun _ t => Encoded s₀ w t ∧ IsMatchLen s₀.inputList (s.enc.base + s.enc.p)
      (s.enc.base + s.mf.cand) (s.enc.base + s.enc.e) t.mf.mlen := by
  have hagree {j : Nat} (hj : s.enc.p + j ≤ s.enc.e + 4) : s.AgreesAt j ↔
      s₀.inputList.getD (s.enc.base + s.enc.p + j) 0 = s₀.inputList.getD (s.enc.base + s.mf.cand + j) 0 := by
    rw [State.AgreesAt, h.inAt_eq ha (by omega), h.inAt_eq ha (by omega)]
  have h4 : Encoded s₀ w { s with mf := { s.mf with mlen := Config.minMatch } } := h.setRegs rfl rfl
  unfold mfLength
  refine Res.Runs.andThen (Q := fun _ t => Encoded s₀ w t ∧ IsMatchLen s₀.inputList (s.enc.base + s.enc.p)
    (s.enc.base + s.mf.cand) (s.enc.base + s.enc.e) t.mf.mlen) ?_ fun _ t ht => ⟨ht.1.setRegs rfl rfl, ht.2⟩
  refine (h4.mfSame_runs ha hend hc (by dsimp only [Config.minMatch]; omega)).andThen ?_
  rintro b _ ⟨rfl, hb⟩
  have hb : b = true ↔ s.AgreesAt 4 := hb
  rw [hagree (by omega)] at hb
  cases b with
  | false => exact ⟨h4, .inl ⟨fun hsame => Bool.false_ne_true (hb.2 hsame), rfl⟩⟩
  | true =>
    refine (h4.mfExtend_runs s.enc.e ha hend hc (by dsimp only; omega)).mono ?_
    rintro _ t ⟨ht, hext⟩
    have hext : s.ExtendsTo 4 t.mf.mlen := hext.of_setMlen
    have hle := hext.le_limit (by omega)
    refine ⟨ht, .inr ⟨hb.1 rfl, hext.gt, fun j hj hlt => ?_, ?_⟩⟩
    · obtain ⟨hlim, hsame⟩ := hext.least j hj hlt
      exact ⟨by omega, (hagree (by omega)).1 hsame⟩
    · exact hext.ends.imp (by omega) fun hdiff => mt (hagree hle).2 hdiff

end

/-! ### The scan of a block -/

/-- The state at the probe of a pass: after the skip step, or none after a match (42_compressor.md R232). -/
def State.skipped (skip : Bool) (s : State) : State := if skip then skipStep s else s

theorem scanLoop_succ (fuel : Nat) (skip : Bool) (s : State) : scanLoop (fuel + 1) skip s =
    if (s.skipped skip).enc.e ≤ (s.skipped skip).enc.p then .ok () (s.skipped skip)
    else (probe (s.skipped skip)).andThen fun hit t =>
      if hit then (emitMatch t).andThen fun _ t => scanLoop fuel false t else scanLoop fuel true t := rfl

/-- The scan of the block whose registers are `r₀` stands at source byte `p`: the literals from `lit` on and the
matches `fs` are left of the stream `z`, and the last match of the block, or the block, ends or starts at `ii`. -/
structure InScan (s₀ : State) (z : List Byte) (r₀ : EncRegs) (w : List Byte) (lit ii p : Nat) (fs : List Found)
    (s : State) : Prop where
  encoded : Encoded s₀ w s
  block : s.enc.base = r₀.base ∧ s.enc.l = r₀.l ∧ s.enc.bl = r₀.bl ∧ s.enc.e = r₀.e
  p_eq : r₀.base + s.enc.p = p
  ii_eq : (r₀.base : Int) + s.enc.ii = ii
  lit_eq : (r₀.base : Int) + s.enc.ii - s.enc.ti = lit
  lit_le : lit ≤ p
  first : lit = 0 → 4 ≤ p
  begun : Begun w lit
  chained : Chained s₀.inputList lit fs
  emits : Emits s₀.inputList z w lit fs

section
variable {s₀ s : State} {z w : List Byte} {r₀ : EncRegs} {lit ii p : Nat} {fs gs : List Found}

theorem InScan.skipped (h : InScan s₀ z r₀ w lit ii p fs s) (skip : Bool) :
    InScan s₀ z r₀ w lit ii (nextProbe skip ii p) fs (s.skipped skip) := by
  cases skip with
  | false => exact h
  | true =>
    have hle := le_nextProbe true ii p
    obtain ⟨henc, hblk, hp, hii, hlit, hle', hfirst, hbegun, hch, hem⟩ := h
    refine ⟨henc.setRegs rfl rfl, hblk, ?_, hii, hlit, hle'.trans hle, fun h0 => (hfirst h0).trans hle, hbegun, hch, hem⟩
    rw [State.skipped, if_pos rfl, skipStep_enc, nextProbe, if_pos rfl]
    dsimp only
    omega

variable (ha : s₀.argsOk = true) (hlim : r₀.e + 20 = r₀.bl) (hwhole : r₀.base + r₀.bl ≤ s₀.snap.srcN.toNat)
include ha hlim hwhole

/-- A match at P is written as the parse has it, and the scan stands past it (42_compressor.md R234). -/
theorem InScan.emitMatch_runs {n c : Nat} (h : InScan s₀ z r₀ w lit ii p (⟨p, n, p - c⟩ :: fs) s)
    (hp : s.enc.p < s.enc.e) (hc : r₀.base + s.mf.cand = c) (hcp : c < p)
    (hn : IsMatchLen s₀.inputList p c (r₀.base + r₀.e) n) :
    (emitMatch s).Runs s₀ z.length fun _ t =>
      (∃ w, InScan s₀ z r₀ w (p + n) (p + n) (p + n) fs t) ∧ t.table = s.table := by
  obtain ⟨henc, ⟨hbase, hl, hbl, he⟩, rfl, hii, hlit, hle, hfirst, hbegun, hch, hem⟩ := h
  subst hc
  obtain ⟨-, -, hrep, hch⟩ := hch
  have hem' := hem.match hrep.window
  have hlen := hem'.length_eq
  simp only [List.length_append, length_countedIn] at hlen
  have hfrom : ((s.enc.base : Int) + (s.enc.ii - s.enc.ti)).toNat = lit := by omega
  have hcount : ((s.enc.p : Int) - (s.enc.ii - s.enc.ti)).toNat = r₀.base + s.enc.p - lit := by omega
  unfold emitMatch
  dsimp only
  rw [hfrom, hcount]
  have hstart : Encoded s₀ w { s with enc := { s.enc with ii := s.enc.ii - s.enc.ti, ti := 0 } } :=
    henc.setRegs rfl rfl
  refine Res.Runs.andThen (hstart.encLit_runs (a := lit) (b := r₀.base + s.enc.p) ha hle (by omega) hfirst hbegun
    (N := z.length) (by omega)).with_eq ?_
  rintro _ t ⟨ht, hshape⟩
  have hshape := (encLit_shape hshape).1
  have ht_enc : t.enc = { s.enc with ii := s.enc.ii - s.enc.ti, ti := 0, opos := t.enc.opos } := by rw [hshape]
  have ht_mf : t.mf = s.mf := by rw [hshape]
  have ht_table : t.table = s.table := by rw [hshape]
  refine Res.Runs.andThen (ht.mfLength_runs ha (by rw [ht_enc]; dsimp only; omega) (by rw [ht_enc, ht_mf]; dsimp only; omega)
    (by rw [ht_enc]; exact hp)).with_eq ?_
  rintro _ u ⟨⟨hu, hlen_u⟩, hshape_u⟩
  have hshape_u := (mfLength_shape hshape_u).1
  have hu_enc : u.enc = t.enc := by rw [hshape_u]
  have hu_table : u.table = t.table := by rw [hshape_u]
  have hu_moff : u.mf.moff = s.enc.p - s.mf.cand := by rw [hshape_u, ht_mf, ht_enc]
  rw [ht_enc, ht_mf, hbase, he] at hlen_u
  have hmlen : u.mf.mlen = n := hlen_u.unique hn
  have hdist : s.enc.p - s.mf.cand = r₀.base + s.enc.p - (r₀.base + s.mf.cand) := by omega
  rw [hu_moff, hmlen, hdist]
  have hpast : Encoded s₀ (countedIn w (r₀.base + s.enc.p - lit) ++ runBytes s₀.inputList lit (r₀.base + s.enc.p))
      { u with enc := { u.enc with p := u.enc.p + n, ii := ((u.enc.p + n : Nat) : Int) } } := hu.setRegs rfl rfl
  refine Res.Runs.mono (hpast.emitBytes_runs _ ?_).with_eq ?_
  · rw [List.length_append, length_countedIn]; omega
  · rintro _ v ⟨hv, hshape_v⟩
    have hshape_v := emitBytes_shape hshape_v
    have hv_enc : v.enc = { s.enc with
        p := s.enc.p + n, ii := ((s.enc.p + n : Nat) : Int), ti := 0, opos := v.enc.opos } := by
      rw [hshape_v, hu_enc, ht_enc]
    have h4 := hrep.four_le
    have h2 := two_le_matchBytes_length n (r₀.base + s.enc.p - (r₀.base + s.mf.cand))
    dsimp only at h4
    refine ⟨⟨_, hv, ?_, ?_, ?_, ?_, Nat.le_refl _, fun _ => ?_, .inr ⟨?_, ?_⟩, hch, hem'⟩, ?_⟩
    · rw [hv_enc]; exact ⟨hbase, hl, hbl, he⟩
    · rw [hv_enc]; dsimp only; omega
    · rw [hv_enc]; dsimp only; omega
    · rw [hv_enc]; dsimp only; omega
    · omega
    · omega
    · simp only [List.length_append]; omega
    · rw [hshape_v, ← ht_table, ← hu_table]

/-- The probe of a pass, as the parse has it. -/
theorem InScan.probe_runs {q : Nat} {probed : List Nat} (hsmall : r₀.bl ≤ 49152)
    (h : InScan s₀ z r₀ w lit ii q fs s) (ht : TableOf s₀.inputList r₀.base probed s.table)
    (hq : q < r₀.base + r₀.e) (hp : ProbedBefore r₀.base q probed) :
    (probe s).Runs s₀ z.length fun hit t => InScan s₀ z r₀ w lit ii q fs t ∧
      TableOf s₀.inputList r₀.base (q :: probed) t.table ∧ t.enc = s.enc ∧
      r₀.base + t.mf.cand = candidate s₀.inputList r₀.base probed q ∧
      (hit = true ↔ keyAt s₀.inputList (candidate s₀.inputList r₀.base probed q) = keyAt s₀.inputList q) := by
  obtain ⟨henc, hblk, hpeq, hii, hlit, hle, hfirst, hbegun, hch, hem⟩ := h
  have hbase := hblk.1
  refine (henc.probe_runs ha hbase (by rw [hbase]; exact hpeq) (by omega) ht hp (by omega)).with_eq.mono ?_
  rintro hit t ⟨⟨hte, hcand, htab, hhit⟩, hshape⟩
  have ht_enc : t.enc = s.enc := by rw [probe_shape hshape]
  rw [hbase] at hcand
  refine ⟨⟨hte, ?_, ?_, ?_, ?_, hle, hfirst, hbegun, hch, hem⟩, htab, ht_enc, hcand, hhit⟩ <;> rw [ht_enc] <;>
    assumption

/-- The scan finds the matches of the parse, and leaves what comes after them. -/
theorem scanLoop_runs {base e : Nat} {skip : Bool} {probed : List Nat} (hsmall : r₀.bl ≤ 49152) (hb : base = r₀.base)
    (he : e = r₀.base + r₀.e) (hscan : Scans s₀.inputList base e skip ii p probed fs) {fuel : Nat}
    (hf : scanFuel e skip p fuel) (h : InScan s₀ z r₀ w lit ii p (fs ++ gs) s)
    (ht : TableOf s₀.inputList base probed s.table) (hp : ProbedBefore base (nextProbe skip ii p) probed) :
    (scanLoop fuel skip s).Runs s₀ z.length fun _ t =>
      ∃ w ii p, InScan s₀ z r₀ w (litStart lit fs) ii p gs t := by
  subst hb he
  induction hscan generalizing fuel s w lit with
  | @limit skip ii p _ hlimit =>
    cases fuel with
    | zero => exact ⟨_, _, _, h⟩
    | succ fuel =>
      have hu := h.skipped skip
      obtain ⟨-, -, -, hue⟩ := hu.block
      have hup := hu.p_eq
      rw [scanLoop_succ, if_pos (by omega)]
      exact ⟨_, _, _, hu⟩
  | @miss skip ii p q _ _ hq he hk hscan' ih =>
    subst hq
    have hle := le_nextProbe skip ii p
    cases fuel with
    | zero => have := hf.limit; omega
    | succ fuel =>
      have hu := h.skipped skip
      obtain ⟨-, -, -, hue⟩ := hu.block
      have hup := hu.p_eq
      rw [scanLoop_succ, if_neg (by omega)]
      refine (hu.probe_runs ha hlim hwhole hsmall (by cases skip <;> exact ht) he hp).andThen ?_
      rintro hit t ⟨htscan, httab, -, -, hhit⟩
      rw [if_neg (mt hhit.1 hk)]
      exact ih htscan httab (hp.cons (lt_nextProbe_true ..)) (hf.miss hle (lt_nextProbe _ _))
  | @hit skip ii p q n _ _ hq he hk hn hscan' ih =>
    subst hq
    have hle := le_nextProbe skip ii p
    have h4 := hn.four_le
    cases fuel with
    | zero => have := hf.limit; omega
    | succ fuel =>
      have hu := h.skipped skip
      obtain ⟨-, -, -, hue⟩ := hu.block
      have hup := hu.p_eq
      rw [scanLoop_succ, if_neg (by omega)]
      refine (hu.probe_runs ha hlim hwhole hsmall (by cases skip <;> exact ht) he hp).andThen ?_
      rintro hit t ⟨htscan, httab, ht_enc, hcand, hhit⟩
      rw [if_pos (hhit.2 hk)]
      refine (htscan.emitMatch_runs ha hlim hwhole (by rw [ht_enc]; omega) hcand (hp.candidate _ _).2 hn).andThen ?_
      rintro _ v ⟨⟨w', hv⟩, hvt⟩
      rw [litStart_cons]
      exact ih hv (hvt ▸ httab) (hp.cons (by rw [nextProbe_false]; omega)) (hf.hit hle h4)

end

/-! ### The blocks -/

/-- COMPRESS between two blocks: the literals from `lit` on and the matches `fs` are left of the stream `z`. -/
structure BetweenBlocks (s₀ : State) (z w : List Byte) (base lit : Nat) (fs : List Found) (s : State) : Prop where
  encoded : Encoded s₀ w s
  base_eq : s.enc.base = base
  whole : s.enc.base + s.enc.l = s₀.snap.srcN.toNat
  pending : lit + s.enc.ti = s.enc.base
  begun : Begun w lit
  chained : Chained s₀.inputList lit fs
  emits : Emits s₀.inputList z w lit fs

section
variable {s₀ s : State} {z w : List Byte} {base lit : Nat} {fs gs : List Found} (ha : s₀.argsOk = true)
include ha

/-- A block writes the matches that its scan finds, and carries the literals after them (42_compressor.md R235). -/
theorem BetweenBlocks.encBlock_runs {n : Nat} (h : BetweenBlocks s₀ z w base lit (fs ++ gs) s) (hbl : s.enc.bl = n)
    (hbig : 20 < n) (hle : n ≤ s.enc.l) (hsmall : n ≤ 49152)
    (hscan : Scans s₀.inputList base (base + n - 20) true base (base + (4 - (base - lit))) [] fs) :
    (encBlock s).Runs s₀ z.length fun _ t => ∃ w, BetweenBlocks s₀ z w (base + n) (litStart lit fs) gs
      { t with enc := { t.enc with base := t.enc.base + t.enc.bl, l := t.enc.l - t.enc.bl } } := by
  obtain ⟨henc, rfl, hwhole, hpend, hbegun, hch, hem⟩ := h
  subst hbl
  have hstart : InScan s₀ z (startBlock s).enc w lit s.enc.base (s.enc.base + (4 - (s.enc.base - lit))) (fs ++ gs)
      (startBlock s) := by
    refine ⟨henc.setRegs rfl rfl, ⟨rfl, rfl, rfl, rfl⟩, ?_, ?_, ?_, by omega, by omega, hbegun, hch, hem⟩
    all_goals rw [startBlock_enc]; dsimp only
    · split <;> omega
    all_goals omega
  have hend := hscan.litStart_le (lit := lit) (by omega)
  unfold encBlock
  refine Res.Runs.andThen (scanLoop_runs (z := z) (w := w) (gs := gs) ha ?_ ?_ ?_ ?_ ?_ hscan ?_ hstart
    (tableOf_nil _ _) (probedBefore_start _ (Nat.le_add_right ..))) ?_
  · rw [startBlock_enc]; dsimp only [Config.tailReserve]; omega
  · rw [startBlock_enc]; dsimp only; omega
  · rw [startBlock_enc]; exact hsmall
  · rw [startBlock_enc]
  · rw [startBlock_enc]; dsimp only [Config.tailReserve]; omega
  · unfold scanFuel; rw [if_pos rfl]; omega
  · rintro _ t ⟨w', ii', p', ht, ⟨hbase, hl, htbl, -⟩, -, -, hlit, -, -, hbegun', hch', hem'⟩
    rw [startBlock_enc] at hbase hl htbl hlit
    dsimp only at hbase hl htbl hlit
    refine ⟨w', ht.setRegs rfl rfl, ?_, ?_, ?_, hbegun', hch', hem'⟩ <;> dsimp only
    · omega
    · omega
    · omega

/-- The blocks write all matches of the parse; the literals after the last one are left to the tail. -/
theorem blockLoop_runs (hparse : Parses s₀.inputList base lit fs) {fuel : Nat} (hf : s.enc.l ≤ fuel)
    (h : BetweenBlocks s₀ z w base lit fs s) :
    (blockLoop fuel s).Runs s₀ z.length fun _ t => ∃ w base lit, BetweenBlocks s₀ z w base lit [] t := by
  have hlen := inputList_length s₀
  induction hparse generalizing fuel s w with
  | tail hshort =>
    cases fuel with
    | zero => exact ⟨_, _, _, h⟩
    | succ fuel =>
      have hbase := h.base_eq
      have hwhole := h.whole
      rw [blockLoop, if_pos (by dsimp only [Config.tailReserve]; omega)]
      exact ⟨_, _, _, h⟩
  | @block base lit n fs gs hl hn hscan _ ih =>
    have hbase := h.base_eq
    have hwhole := h.whole
    cases fuel with
    | zero => omega
    | succ fuel =>
      have hmin : min s.enc.l Config.blockMax = n := by dsimp only [Config.blockMax]; omega
      rw [blockLoop, if_neg (by dsimp only [Config.tailReserve]; omega), hmin]
      have h' : BetweenBlocks s₀ z w base lit (fs ++ gs) { s with enc := { s.enc with bl := n } } :=
        ⟨h.encoded.setRegs rfl rfl, hbase, hwhole, h.pending, h.begun, h.chained, h.emits⟩
      refine (h'.encBlock_runs (n := n) ha rfl (by omega) (by dsimp only; omega) (by omega) hscan).andThen ?_
      rintro _ t ⟨w', ht⟩
      refine ih ?_ ht
      have hb := ht.base_eq
      have hw := ht.whole
      dsimp only at hb hw ⊢
      omega

/-- COMPRESS writes the stream of the parse of its source (42_compressor.md R230). -/
theorem compressStream_runs (hparse : Parses s₀.inputList 0 0 fs) :
    (compressStream s₀).Runs s₀ (parsedBytes s₀.inputList 0 fs).length fun _ t =>
      Encoded s₀ (parsedBytes s₀.inputList 0 fs) t := by
  have hstart : BetweenBlocks s₀ (parsedBytes s₀.inputList 0 fs) [] 0 0 fs (startCompress s₀) :=
    ⟨encoded_start s₀, rfl, Nat.zero_add _, rfl, .inl ⟨rfl, rfl⟩, hparse.chained (Nat.le_refl _) (Nat.zero_le _),
      emits_start _ _⟩
  unfold compressStream
  refine (blockLoop_runs ha hparse (Nat.le_refl _) hstart).andThen ?_
  rintro _ t ⟨w, base, lit, ht, -, hwhole, hpend, hbegun, -, hem⟩
  have hlen := hem.length_eq
  have hcount : nextStop s₀.inputList [] - lit = t.enc.ti + t.enc.l := by
    rw [nextStop, inputList_length]; omega
  rw [Emits, hcount] at hem
  refine (ht.encTail_runs ha (a := lit) (by omega) hbegun hlen.ge).andThen fun _ u hu => ?_
  rw [parsedBytes_nil, ← List.append_assoc] at hem
  rw [hem]
  exact hu.emitBytes_runs _ (by rw [List.length_append, headerBytes_eos]; rw [List.length_append, List.length_append])

end

end Sys2Proof.Machine
end

section
/-! How COMPRESS ends (42_compressor.md R246 to R249): with the stream of its parse, with a bus error, or with a full
output buffer. -/

namespace Sys2Proof.Machine

/-! ### The ends of the command -/

/-- A COMPRESS that ran to its end left its stream, and nothing else but its registers and the completion. -/
theorem Encoded.finishOk_eq {s v : State} {t : Bool} {w : List Byte} (h : Encoded (s.latch 2#4 t) w v) :
    v.finishOk w.length =
      { s.ended 2#4 t 0 w.length with mem := v.mem, enc := v.enc, mf := v.mf, table := v.table } := by
  rw [Machine.finishOk_eq, h.frame]
  simp [State.complete, State.ended, State.latch, viewComplete_eq_after, hasOutput, Status.code, codeOf]

theorem Encoded.outLen_toNat {s v : State} {t : Bool} {w : List Byte} (h : Encoded (s.latch 2#4 t) w v) :
    (v.finishOk w.length).regs.outLen.toNat = w.length := by
  rw [h.finishOk_eq]
  have hfits : w.length ≤ s.snap.dstN.toNat := h.stored.fits
  exact (BitVec.toNat_ofNat ..).trans (Nat.mod_eq_of_lt (hfits.trans_lt s.snap.dstN.isLt))

/-- The three ends of a COMPRESS past its checks. -/
inductive CompressEnd (s : State) (t : Bool) (z : List Byte) (u : State) : Prop where
  | stream (v : State) (hrun : compressStream (s.latch 2#4 t) = .ok () v) (h : Encoded (s.latch 2#4 t) z v)
      (hu : u = v.finishOk z.length)
  | busError (hu : u.regs.code = codeOf (-1)) (h : ¬(s.inputReadable ∧ s.outputWritable))
  | full (hu : u.regs.code = codeOf (-2)) (hlen : u.regs.outLen = 0) (h : s.snap.dstN.toNat < z.length)

section
variable {s u : State} {t : Bool} {fs : List Found}

theorem performCompress_pastChecks_eq {s : State} (hi : s.regs.initDone = true) (ha : s.argsOk = true) :
    performCompress s = (compressStream s).finish fun _ s => s.finishOk s.enc.opos := by
  unfold performCompress
  rw [if_neg (by simp [hi]), if_neg (by simp [ha])]

theorem performCompress_compressEnd (hi : s.regs.initDone = true) (ha : s.argsOk = true)
    (hparse : Parses s.inputList 0 0 fs) :
    CompressEnd s t (parsedBytes s.inputList 0 fs) (performCompress (s.latch 2#4 t)) := by
  rw [performCompress_pastChecks_eq (s := s.latch 2#4 t) hi ha]
  have hruns := compressStream_runs (s₀ := s.latch 2#4 t) ha hparse
  cases hr : compressStream (s.latch 2#4 t) with
  | ok _ v =>
    rw [hr, runs_ok] at hruns
    exact .stream v hr hruns (by rw [finish_ok, hruns.opos]; rfl)
  | stop e v =>
    rw [hr] at hruns
    rcases hruns with ⟨rfl, hbad⟩ | ⟨rfl, hfull⟩
    · exact .busError (by rw [finish_stop, endStop_status, raiseLate_regs]; rfl) hbad
    · exact .full (by rw [finish_stop, endStop_status, raiseLate_regs]; rfl)
        (by rw [finish_stop, endStop_status, raiseLate_regs]; rfl) hfull

/-- A COMPRESS that ended with OK had passed its checks and left its stream. -/
theorem compress_ok (h : exec (.compress t) s = .next u) (hok : u.regs.code = 0) : s.regs.initDone = true ∧
    s.argsOk = true ∧ ∃ fs, Parses s.inputList 0 0 fs ∧
      ∃ v, Encoded (s.latch 2#4 t) (parsedBytes s.inputList 0 fs) v ∧
        u = v.finishOk (parsedBytes s.inputList 0 fs).length := by
  obtain rfl : performCompress (s.latch 2#4 t) = u := by cases h; rfl
  cases hi : s.regs.initDone with
  | false => 
    rw [performCompress_uninit (s := s.latch 2#4 t) hi] at hok
    exact absurd (show Status.error.code = 0 from hok) (by decide)
  | true =>
    cases ha : s.argsOk with
    | false => 
      rw [performCompress_rejected (s := s.latch 2#4 t) hi ha] at hok
      exact absurd (show Status.invalidArgument.code = 0 from hok) (by decide)
    | true =>
      obtain ⟨fs, hparse⟩ := exists_parses s.inputList 0 0
      refine ⟨rfl, rfl, fs, hparse, ?_⟩
      cases performCompress_compressEnd (t := t) hi ha hparse with
      | stream v _ hv hu => exact ⟨v, hv, hu⟩
      | busError hu => rw [hu] at hok; exact absurd hok (by decide)
      | full hu => rw [hu] at hok; exact absurd hok (by decide)

end

/-! ### The worst-case bound -/

/-- The state with another output capacity. -/
def State.withDstN (m : Word) (s : State) : State := { s with snap := { s.snap with dstN := m } }

/-- A smaller output buffer is accepted where the larger one is (40_commands.md R163). -/
theorem argsOk_withDstN {s : State} {m : Word} (ha : s.argsOk = true) (hm : m.toNat ≤ s.snap.dstN.toNat) :
    (s.withDstN m).argsOk = true := by
  by_contra hbad
  have h := argsOk_eq_false_iff.1 (Bool.eq_false_iff.2 hbad)
  have hrej := argsOk_eq_false_iff (s := s).2 (by simp only [State.withDstN] at h; omega)
  rw [ha] at hrej
  cases hrej

theorem outputWritable_withDstN {s : State} {m : Word} (h : s.outputWritable) (hm : m.toNat ≤ s.snap.dstN.toNat) :
    (s.withDstN m).outputWritable := fun j hj => h j (Nat.lt_of_lt_of_le hj hm)

/-- The stream of a source has at most BOUND(n) bytes (42_compressor.md R249): a COMPRESS with just that room
does not run out of it. -/
theorem parsedBytes_length_le_bound {s : State} {fs : List Found} (hi : s.regs.initDone = true) (ha : s.argsOk = true)
    (hr : s.inputReadable) (hw : s.outputWritable) (hroom : Config.bound s.snap.srcN.toNat ≤ s.snap.dstN.toNat)
    (hparse : Parses s.inputList 0 0 fs) :
    (parsedBytes s.inputList 0 fs).length ≤ Config.bound s.snap.srcN.toNat := by
  have hm : (BitVec.ofNat 64 (Config.bound s.snap.srcN.toNat)).toNat = Config.bound s.snap.srcN.toNat :=
    (BitVec.toNat_ofNat ..).trans (Nat.mod_eq_of_lt (hroom.trans_lt s.snap.dstN.isLt))
  generalize BitVec.ofNat 64 (Config.bound s.snap.srcN.toNat) = m at hm
  rw [← hm] at hroom ⊢
  have ha' := argsOk_withDstN ha hroom
  have hroom' : 17 * s.snap.srcN.toNat + 68 ≤ 16 * m.toNat := by rw [hm, Config.bound]; omega
  have hends := performCompress_busEnded_or_ok (s₀ := (s.withDstN m).latch 2#4 true) hroom' hi ha'
  cases performCompress_compressEnd (s := s.withDstN m) (t := true) hi ha' hparse with
  | stream v _ hv => exact hv.stored.fits
  | busError _ hbad => exact absurd ⟨hr, outputWritable_withDstN hw hroom⟩ hbad
  | full hu =>
    rw [hu] at hends
    rcases hends with ⟨hcode, -⟩ | ⟨hcode, -⟩
    · rw [hu] at hcode; exact absurd hcode (by decide)
    · exact absurd hcode (by decide)

theorem three_le_parsedBytes_length (src : List Byte) (a : Nat) (fs : List Found) : 3 ≤ (parsedBytes src a fs).length := by
  induction fs generalizing a with
  | nil => rw [parsedBytes_nil, List.length_append, headerBytes_eos]; exact Nat.le_add_left ..
  | cons f fs ih => rw [parsedBytes_cons, List.length_append]; exact (ih _).trans (Nat.le_add_left ..)

/-! ### Equal sources -/

theorem inputList_congr {s s' : State} (hn : s'.snap.srcN = s.snap.srcN)
    (h : ∀ k < s.snap.srcN.toNat, s'.inAt k = s.inAt k) : s'.inputList = s.inputList := by
  unfold State.inputList
  rw [hn]
  exact List.map_congr_left fun k hk => h k (List.mem_range.1 hk)

/-- What a COMPRESS that ended with OK leaves in the output buffer. -/
theorem compress_output {s u : State} {t : Bool} (hwf : s.mem.wf = true) (h : exec (.compress t) s = .next u)
    (hok : u.regs.code = 0) : ∃ fs, Parses s.inputList 0 0 fs ∧
      u.regs.outLen.toNat = (parsedBytes s.inputList 0 fs).length ∧
      ∀ j < u.regs.outLen.toNat, u.outAt j = (parsedBytes s.inputList 0 fs).getD j 0 := by
  obtain ⟨-, -, fs, hparse, v, hv, rfl⟩ := compress_ok h hok
  refine ⟨fs, hparse, hv.outLen_toNat, ?_⟩
  rw [hv.outLen_toNat]
  intro j hj
  rw [← (hv.stored.bytes hwf).2 j hj, hv.finishOk_eq]
  rfl

end Sys2Proof.Machine

namespace Sys2Proof.Proofs
open Sys2Proof.Machine

/-- Settles O32: with accessible buffers COMPRESS can only end with its stream or run out of room, and its stream
has at most BOUND(n) bytes. -/
theorem compressFitsBound : Obligations.CompressFitsBound := by
  unfold Obligations.CompressFitsBound
  intro t s hi ha hr hw hroom
  obtain ⟨fs, hparse⟩ := exists_parses s.inputList 0 0
  have hbound := parsedBytes_length_le_bound hi ha hr hw hroom hparse
  refine ⟨_, rfl, ?_⟩
  cases performCompress_compressEnd (t := t) hi ha hparse with
  | stream v _ hv hu =>
    rw [hu, hv.outLen_toNat]
    exact ⟨rfl, rfl, three_le_parsedBytes_length _ _ _, hbound⟩
  | busError _ hbad => exact absurd ⟨hr, hw⟩ hbad
  | full _ _ hfull => exact absurd (hbound.trans hroom) (Nat.not_le.2 hfull)

/-- Settles O34: the encoder goes along the one parse of its source, so equal sources have equal streams. -/
theorem compressIsDeterministic : Obligations.CompressIsDeterministic := by
  unfold Obligations.CompressIsDeterministic
  refine ⟨fun t s u hwf h hok => ?_, fun t t' s s' u u' hwf hwf' hn hsrc h h' hok hok' => ?_⟩
  · obtain ⟨fs, hparse, hlen, hout⟩ := compress_output hwf h hok
    exact ⟨fs, hparse, fun gs hgs => hgs.unique hparse, hlen, hout⟩
  · obtain ⟨fs, hparse, hlen, hout⟩ := compress_output hwf h hok
    obtain ⟨fs', hparse', hlen', hout'⟩ := compress_output hwf' h' hok'
    rw [inputList_congr hn hsrc] at hparse' hlen' hout'
    obtain rfl := hparse'.unique hparse
    have heq : u'.regs.outLen.toNat = u.regs.outLen.toNat := hlen'.trans hlen.symm
    exact ⟨BitVec.eq_of_toNat_eq heq, fun j hj => (hout' j (heq ▸ hj)).trans (hout j hj).symm⟩

/-- Settles O33: what the encoder writes stands in the first OUT_LEN bytes of the output buffer. -/
theorem compressWritesOnlyItsStream : Obligations.CompressWritesOnlyItsStream := by
  unfold Obligations.CompressWritesOnlyItsStream
  intro t s u h hok
  obtain ⟨-, -, fs, -, v, hv, rfl⟩ := compress_ok h hok
  rw [hv.outLen_toNat]
  refine ⟨hv.stored.fits, fun b hb => ?_, ?_⟩
  · rw [hv.finishOk_eq]; exact hv.stored.outside b hb
  · rw [hv.finishOk_eq]

end Sys2Proof.Proofs
end

section
/-! COMPRESS with less room (42_compressor.md R246): where it goes on with one output capacity, it goes on alike with
another, or runs out of room. -/

namespace Sys2Proof.Machine

/-- Where the first action goes on, the second, which has room for `m` bytes, goes on alike or finds it full. -/
def Res.GoesOnAlike {α : Type} (m : Word) (r r' : Res α) : Prop :=
  ∀ a t, r = .ok a t → r' = .ok a (t.withDstN m) ∨ ∃ w, r' = .stop (.status .outOfMemory) w

section
variable {α β : Type} {m : Word} {r r' : Res α}

theorem goesOnAlike_ok (a : α) (t : State) : Res.GoesOnAlike m (.ok a t) (.ok a (t.withDstN m)) := by
  rintro _ _ ⟨⟩; exact .inl rfl

theorem Res.GoesOnAlike.andThen {f g : α → State → Res β} (h : r.GoesOnAlike m r')
    (hf : ∀ a t, (f a t).GoesOnAlike m (g a (t.withDstN m))) : (r.andThen f).GoesOnAlike m (r'.andThen g) := by
  intro b v hb
  obtain ⟨a, t, rfl, hb⟩ := andThen_eq_ok.1 hb
  rcases h a t rfl with rfl | ⟨w, rfl⟩
  · exact hf a t b v hb
  · exact .inr ⟨w, rfl⟩

/-- A choice that does not depend on the room is made alike. -/
theorem Res.GoesOnAlike.ite {c : Prop} [Decidable c] {q q' : Res α} (h : r.GoesOnAlike m r') (h' : q.GoesOnAlike m q') :
    Res.GoesOnAlike m (if c then r else q) (if c then r' else q') := by
  split
  · exact h
  · exact h'

end

/-! ### Accesses -/

section
variable (m : Word) (s : State)

theorem inByte_goesOnAlike (i : Nat) : (inByte i s).GoesOnAlike m (inByte i (s.withDstN m)) := by
  intro b t h
  obtain ⟨hd, rfl, rfl⟩ := inByte_eq_ok.1 h
  exact .inl (inByte_eq_ok.2 ⟨hd, rfl, rfl⟩)

theorem outByte_goesOnAlike (j : Nat) : (outByte j s).GoesOnAlike m (outByte j (s.withDstN m)) := by
  intro b t h
  obtain ⟨hd, rfl, rfl⟩ := outByte_eq_ok.1 h
  exact .inl (outByte_eq_ok.2 ⟨hd, rfl, rfl⟩)

theorem setOut_goesOnAlike (j : Nat) (v : Byte) : (setOut j v s).GoesOnAlike m (setOut j v (s.withDstN m)) := by
  intro b t h
  obtain ⟨hd, rfl⟩ := setOut_eq_ok.1 h
  exact .inl (setOut_eq_ok.2 ⟨hd, rfl⟩)

theorem le32_goesOnAlike (i : Nat) : (le32 i s).GoesOnAlike m (le32 i (s.withDstN m)) :=
  (inByte_goesOnAlike m s i).andThen fun _ s => (inByte_goesOnAlike m s (i + 1)).andThen fun _ s =>
    (inByte_goesOnAlike m s (i + 2)).andThen fun _ s => (inByte_goesOnAlike m s (i + 3)).andThen fun _ _ =>
      goesOnAlike_ok _ _

/-! ### Emission -/

/-- The capacity check is the one place where the room counts. -/
theorem emit_goesOnAlike (v : Byte) : (emit v s).GoesOnAlike m (emit v (s.withDstN m)) := by
  intro _ t h
  obtain ⟨-, hd, rfl⟩ := emit_eq_ok.1 h
  rcases Nat.lt_or_ge s.enc.opos m.toNat with hroom | hfull
  · exact .inl (emit_eq_ok.2 ⟨hroom, hd, rfl⟩)
  · exact .inr ⟨_, if_pos hfull⟩

theorem emitBytes_goesOnAlike (bs : List Byte) : (emitBytes bs s).GoesOnAlike m (emitBytes bs (s.withDstN m)) := by
  induction bs generalizing s with
  | nil => exact goesOnAlike_ok _ _
  | cons b bs ih => exact (emit_goesOnAlike m s b).andThen fun _ s => ih s

theorem emitLits_goesOnAlike (n src : Nat) : (emitLits n src s).GoesOnAlike m (emitLits n src (s.withDstN m)) := by
  induction n generalizing src s with
  | zero => exact goesOnAlike_ok _ _
  | succ n ih =>
    exact (inByte_goesOnAlike m s src).andThen fun b s => (emit_goesOnAlike m s b).andThen fun _ s => ih s _

theorem backPatch_goesOnAlike (n : Nat) : (backPatch n s).GoesOnAlike m (backPatch n (s.withDstN m)) :=
  (outByte_goesOnAlike m s _).andThen fun _ s => setOut_goesOnAlike m s _ _

theorem encLit_goesOnAlike (src n : Nat) : (encLit src n s).GoesOnAlike m (encLit src n (s.withDstN m)) :=
  .ite (goesOnAlike_ok _ _) ((Res.GoesOnAlike.ite (backPatch_goesOnAlike m s n) (emitBytes_goesOnAlike m s _)).andThen
    fun _ s => emitLits_goesOnAlike m s n src)

theorem encTail_goesOnAlike (n : Nat) : (encTail n s).GoesOnAlike m (encTail n (s.withDstN m)) :=
  .ite (goesOnAlike_ok _ _) ((Res.GoesOnAlike.ite (emitBytes_goesOnAlike m s _)
    (.ite (backPatch_goesOnAlike m s n) (emitBytes_goesOnAlike m s _))).andThen
    fun _ s => emitLits_goesOnAlike m s n _)

/-! ### The match finder -/

theorem probe_goesOnAlike : (probe s).GoesOnAlike m (probe (s.withDstN m)) :=
  (le32_goesOnAlike m s _).andThen fun dv s => (le32_goesOnAlike m (mfProbe (mfHash dv) s) _).andThen fun _ _ =>
    goesOnAlike_ok _ _

theorem mfSame_goesOnAlike (j : Nat) : (mfSame j s).GoesOnAlike m (mfSame j (s.withDstN m)) :=
  (inByte_goesOnAlike m s _).andThen fun _ s => (inByte_goesOnAlike m s _).andThen fun _ _ => goesOnAlike_ok _ _

theorem mfExtend_goesOnAlike (fuel : Nat) : (mfExtend fuel s).GoesOnAlike m (mfExtend fuel (s.withDstN m)) := by
  induction fuel generalizing s with
  | zero => exact goesOnAlike_ok _ _
  | succ fuel ih =>
    exact .ite (goesOnAlike_ok _ _) ((mfSame_goesOnAlike m _ _).andThen fun _ s => .ite (ih s) (goesOnAlike_ok _ s))

theorem mfLength_goesOnAlike : (mfLength s).GoesOnAlike m (mfLength (s.withDstN m)) :=
  ((mfSame_goesOnAlike m { s with mf := { s.mf with mlen := Config.minMatch } } _).andThen fun _ s =>
    .ite (mfExtend_goesOnAlike m s _) (goesOnAlike_ok _ s)).andThen fun _ _ => goesOnAlike_ok _ _

/-! ### The blocks and the command -/

theorem emitMatch_goesOnAlike : (emitMatch s).GoesOnAlike m (emitMatch (s.withDstN m)) :=
  (encLit_goesOnAlike m { s with enc := { s.enc with ii := s.enc.ii - s.enc.ti, ti := 0 } } _ _).andThen fun _ s =>
    (mfLength_goesOnAlike m s).andThen fun _ s => emitBytes_goesOnAlike m { s with
      enc := { s.enc with p := s.enc.p + s.mf.mlen, ii := ((s.enc.p + s.mf.mlen : Nat) : Int) } } _

theorem scanLoop_goesOnAlike (fuel : Nat) (skip : Bool) :
    (scanLoop fuel skip s).GoesOnAlike m (scanLoop fuel skip (s.withDstN m)) := by
  induction fuel generalizing skip s with
  | zero => exact goesOnAlike_ok _ _
  | succ fuel ih =>
    have hskip : (s.withDstN m).skipped skip = (s.skipped skip).withDstN m := by cases skip <;> rfl
    rw [scanLoop_succ, scanLoop_succ, hskip]
    exact .ite (goesOnAlike_ok _ _) ((probe_goesOnAlike m _).andThen fun hit s =>
      .ite ((emitMatch_goesOnAlike m s).andThen fun _ s => ih s false) (ih s true))

theorem encBlock_goesOnAlike : (encBlock s).GoesOnAlike m (encBlock (s.withDstN m)) :=
  (scanLoop_goesOnAlike m (startBlock s) _ _).andThen fun _ _ => goesOnAlike_ok _ _

theorem blockLoop_goesOnAlike (fuel : Nat) : (blockLoop fuel s).GoesOnAlike m (blockLoop fuel (s.withDstN m)) := by
  induction fuel generalizing s with
  | zero => exact goesOnAlike_ok _ _
  | succ fuel ih =>
    exact .ite (goesOnAlike_ok _ _)
      ((encBlock_goesOnAlike m { s with enc := { s.enc with bl := min s.enc.l Config.blockMax } }).andThen
        fun _ s => ih { s with enc := { s.enc with base := s.enc.base + s.enc.bl, l := s.enc.l - s.enc.bl } })

theorem compressStream_goesOnAlike : (compressStream s).GoesOnAlike m (compressStream (s.withDstN m)) :=
  (blockLoop_goesOnAlike m (startCompress s) _).andThen fun _ s => (encTail_goesOnAlike m s _).andThen fun _ s =>
    emitBytes_goesOnAlike m s _

end

theorem latch_withDstN (s : State) (m : Word) (c : BitVec 4) (t : Bool) :
    (s.latch c t).withDstN m = (s.withDstN m).latch c t := rfl

/-- With another output capacity, a COMPRESS that ends with OK leaves the same memory, or ends with OutOfMemory. -/
theorem performCompress_withDstN {s : State} {m : Word} (hi : s.regs.initDone = true) (ha : s.argsOk = true)
    (ha' : (s.withDstN m).argsOk = true) (hok : (performCompress s).regs.code = 0) :
    (performCompress (s.withDstN m)).regs.code = 0 ∧
      (performCompress (s.withDstN m)).mem = (performCompress s).mem ∨
    (performCompress (s.withDstN m)).regs.code = codeOf (-2) := by
  rw [performCompress_pastChecks_eq hi ha] at hok ⊢
  rw [performCompress_pastChecks_eq (s := s.withDstN m) hi ha']
  have halike := EncTwin.compressStream (s := s) (t := s) rfl
  cases hr : compressStream s with
  | ok _ v =>
    rcases compressStream_goesOnAlike m s _ v hr with hr' | ⟨w, hr'⟩
    · rw [hr']; exact .inl ⟨rfl, rfl⟩
    · rw [hr', finish_stop, endStop_status, raiseLate_regs]; exact .inr rfl
  | stop e v =>
    rw [hr] at halike hok
    obtain ⟨-, he, -⟩ := halike
    rcases he with rfl | rfl
    · rw [finish_stop, endStop_status, raiseLate_regs] at hok
      exact absurd (show Status.error.code = 0 from hok) (by decide)
    · rw [finish_stop, endStop_status, raiseLate_regs] at hok
      exact absurd (show Status.outOfMemory.code = 0 from hok) (by decide)

end Sys2Proof.Machine

namespace Sys2Proof.Proofs
open Sys2Proof.Machine

/-- Settles O35: less room changes nothing before it is used up, and it is used up exactly when the stream is longer. -/
theorem outOfMemoryExactlyWhenTooLong : Obligations.OutOfMemoryExactlyWhenTooLong := by
  unfold Obligations.OutOfMemoryExactlyWhenTooLong
  intro t s u u' m h hok hm h'
  obtain ⟨hi, ha, fs, hparse, v, hv, hu⟩ := compress_ok h hok
  have ha' := argsOk_withDstN ha hm
  have hlen : u.regs.outLen.toNat = (parsedBytes s.inputList 0 fs).length := by rw [hu, hv.outLen_toNat]
  obtain rfl : performCompress (s.latch 2#4 t) = u := by cases h; rfl
  obtain rfl : performCompress ((s.withDstN m).latch 2#4 t) = u' := by cases h'; rfl
  have hmem := performCompress_withDstN (s := s.latch 2#4 t) (m := m) hi ha ha' hok
  rw [latch_withDstN] at hmem
  rw [hlen]
  cases performCompress_compressEnd (s := s.withDstN m) (t := t) hi ha' hparse with
  | stream v' _ hv' hu' =>
    rw [hu'] at hmem ⊢
    have hfits : (parsedBytes s.inputList 0 fs).length ≤ m.toNat := hv'.stored.fits
    refine ⟨fun hlt => by omega, fun _ => ⟨rfl, ?_, (hmem.resolve_right ?_).2⟩⟩
    · exact BitVec.eq_of_toNat_eq (hv'.outLen_toNat.trans hlen.symm)
    · exact fun hcode => absurd (show Status.ok.code = codeOf (-2) from hcode) (by decide)
  | busError hu' =>
    rw [hu'] at hmem
    rcases hmem with ⟨hcode, -⟩ | hcode <;> exact absurd hcode (by decide)
  | full hu' hout hfull =>
    have hfull : m.toNat < (parsedBytes s.inputList 0 fs).length := hfull
    exact ⟨fun _ => ⟨hu', hout⟩, fun hle => by omega⟩

end Sys2Proof.Proofs
end

section
/-! The bounds on the passes of the encoder's loops (log 15), and the sources that no scan probes (42_compressor.md
R230, R232, R235, R252). -/

namespace Sys2Proof.Machine

variable {s t : State} {u : Unit}

/-! ### The loops run to their ends -/

/-- The encoder registers that a scan leaves alone (42_compressor.md R232). -/
def EncRegs.block (r : EncRegs) : Nat × Nat × Nat × Nat := (r.base, r.l, r.bl, r.e)

theorem block_eq_mk {r : EncRegs} {b l n e : Nat} :
    r.block = (b, l, n, e) ↔ r.base = b ∧ r.l = l ∧ r.bl = n ∧ r.e = e := by simp [EncRegs.block]

theorem mfLength_le (h : mfLength s = .ok u t) (hp : s.enc.p < s.enc.e) : s.enc.p + t.mf.mlen ≤ s.enc.e + 4 := by
  have hmeets := mfLength_meets (s₀ := s) rfl hp
  rw [h] at hmeets
  exact hmeets.2.1

/-- A match ends at most 4 bytes past the scan limit, and its literals and bytes leave the block as it is. -/
theorem emitMatch_le (h : emitMatch s = .ok u t) (hp : s.enc.p < s.enc.e) :
    t.enc.block = s.enc.block ∧ t.enc.p ≤ s.enc.e + 4 := by
  simp only [emitMatch, andThen_eq_ok] at h
  obtain ⟨_, s1, h1, _, s2, h2, h3⟩ := h
  have e1 : s1.enc = { s.enc with ii := s.enc.ii - s.enc.ti, ti := 0, opos := s1.enc.opos } := by
    rw [(encLit_shape h1).1]
  have e2 : s2.enc = s1.enc := by rw [(mfLength_shape h2).1]
  have hle := mfLength_le h2 (by rw [e1]; exact hp)
  have e3 : t.enc = { s2.enc with
      p := s2.enc.p + s2.mf.mlen, ii := ((s2.enc.p + s2.mf.mlen : Nat) : Int), opos := t.enc.opos } := by
    rw [encMatch_shape h3]
  rw [e3, e2, e1]
  rw [e1] at hle
  exact ⟨rfl, hle⟩

/-- A scan with passes enough ends past its limit. -/
theorem scanLoop_end {fuel : Nat} {skip : Bool} (hf : scanFuel s.enc.e skip s.enc.p fuel)
    (hii : s.enc.ii ≤ s.enc.e + 4) (h : scanLoop fuel skip s = .ok u t) :
    t.enc.block = s.enc.block ∧ t.enc.e ≤ t.enc.p ∧ t.enc.ii ≤ t.enc.e + 4 := by
  induction fuel generalizing skip s with
  | zero => cases h; exact ⟨rfl, hf.limit, hii⟩
  | succ fuel ih =>
    have hblk : (s.skipped skip).enc.block = s.enc.block := by cases skip <;> rfl
    have hii' : (s.skipped skip).enc.ii = s.enc.ii := by cases skip <;> rfl
    have hle : s.enc.p ≤ (s.skipped skip).enc.p ∧ (skip = true → s.enc.p < (s.skipped skip).enc.p) := by
      cases skip with
      | false => exact ⟨Nat.le_refl _, nofun⟩
      | true => rw [State.skipped, if_pos rfl, skipStep_enc]; dsimp only; omega
    rw [scanLoop_succ] at h
    generalize s.skipped skip = v at hblk hii' hle h
    have he : v.enc.e = s.enc.e := (block_eq_mk.1 hblk).2.2.2
    rw [← hblk]
    split at h
    · next hlim => cases h; exact ⟨rfl, hlim, by omega⟩
    · next hlim =>
      obtain ⟨hit, w, hw, h⟩ := andThen_eq_ok.1 h
      have hwe : w.enc = v.enc := by rw [probe_shape hw]
      rw [← hwe] at he hle hii' hlim ⊢
      rw [← he] at hf
      split at h
      · obtain ⟨_, x, hx, h⟩ := andThen_eq_ok.1 h
        obtain ⟨hxblk, hxp⟩ := emitMatch_le hx (Nat.lt_of_not_le hlim)
        obtain ⟨-, hgrow, hxii, -, hxe, -⟩ := emitMatch_shape hx
        obtain ⟨n, hn⟩ := Nat.exists_eq_add_of_le hgrow
        rw [← hxblk]
        refine ih ?_ (by rw [hxii, hxe]; omega) h
        rw [hn, hxe, Nat.add_assoc]
        exact hf.hit hle.1 (Nat.le_add_right 4 n)
      · exact ih (hf.miss hle.1 hle.2) (by rw [hii', he]; exact hii) h

theorem startBlock_scanFuel (s : State) (hbig : 20 < s.enc.bl) :
    scanFuel (startBlock s).enc.e true (startBlock s).enc.p (s.enc.bl + 1) := by
  rw [startBlock_enc]
  unfold scanFuel
  dsimp only [Config.tailReserve]
  rw [if_pos rfl]
  omega

/-- The scan of a block of more than 20 bytes ends past its limit, within 16 bytes of the block's end. -/
theorem scanLoop_startBlock (hbig : 20 < s.enc.bl) (h : scanLoop (s.enc.bl + 1) true (startBlock s) = .ok u t) :
    t.enc.block = (s.enc.base, s.enc.l, s.enc.bl, s.enc.bl - 20) ∧ t.enc.e ≤ t.enc.p ∧
      t.enc.ii ≤ (s.enc.bl : Int) - 16 := by
  obtain ⟨hblk, hp, hii⟩ := scanLoop_end (startBlock_scanFuel s hbig) (by rw [startBlock_enc]; dsimp only; omega) h
  have he : t.enc.e = s.enc.bl - 20 := (block_eq_mk.1 hblk).2.2.2
  exact ⟨hblk, hp, by omega⟩

/-- A block carries at least 16 literals on (42_compressor.md R235). -/
theorem encBlock_end (hbig : 20 < s.enc.bl) (h : encBlock s = .ok u t) :
    t.enc.block = (s.enc.base, s.enc.l, s.enc.bl, s.enc.bl - 20) ∧ 16 ≤ t.enc.ti := by
  obtain ⟨_, v, hv, h⟩ := andThen_eq_ok.1 h
  cases h
  obtain ⟨hblk, -, hii⟩ := scanLoop_startBlock hbig hv
  have hbl : v.enc.bl = s.enc.bl := (block_eq_mk.1 hblk).2.2.1
  exact ⟨hblk, by dsimp only; omega⟩

/-- The blocks leave at most 20 bytes (42_compressor.md R231). -/
theorem blockLoop_end {fuel : Nat} (hf : s.enc.l ≤ fuel) (h : blockLoop fuel s = .ok u t) :
    t.enc.l ≤ 20 ∧ t.enc.base + t.enc.l = s.enc.base + s.enc.l := by
  induction fuel generalizing s with
  | zero => cases h; exact ⟨by omega, rfl⟩
  | succ fuel ih =>
    rw [blockLoop] at h
    split at h
    · next hl => cases h; exact ⟨hl, rfl⟩
    · next hl =>
      have hl : 20 < s.enc.l := Nat.lt_of_not_le hl
      obtain ⟨_, v, hv, h⟩ := andThen_eq_ok.1 h
      have hbig : 20 < min s.enc.l Config.blockMax := lt_min hl (by decide)
      have hle : min s.enc.l Config.blockMax ≤ s.enc.l := Nat.min_le_left ..
      obtain ⟨hblk, -⟩ := encBlock_end hbig hv
      obtain ⟨hbase, hvl, hbl, -⟩ := block_eq_mk.1 hblk
      dsimp only at hbase hvl hbl
      obtain ⟨hend, hsum⟩ := ih (by dsimp only; omega) h
      exact ⟨hend, by rw [hsum]; dsimp only; omega⟩

/-! ### Short sources -/

/-- A source of at most 21 bytes has no matches: its one scan, if any, starts past its limit. -/
theorem parses_short {src : List Byte} (h : src.length ≤ 21) : Parses src 0 0 [] := by
  rcases Nat.lt_or_ge 20 (src.length - 0) with hl | hl
  · refine .block (fs := []) (gs := []) hl rfl (.limit ?_) (.tail (by omega))
    rw [nextProbe, if_pos rfl]; omega
  · exact .tail hl

/-- Its stream is its literals under a LIT_FIRST, and EOS (42_compressor.md R252). -/
theorem parsedBytes_short {src : List Byte} (h : src.length ≤ 21) : parsedBytes src 0 [] =
    (if src.length = 0 then [] else byteOf (17 + src.length) :: src) ++ [0x11#8, 0x00#8, 0x00#8] := by
  rw [parsedBytes_nil, headerBytes_eos]
  split
  · next h0 => rw [lastBytes_run (by omega), h0, runBytes_self]; rfl
  · next h0 => rw [lastBytes_first (by omega) (by omega), headerBytes_litFirst]; rfl

/-- The blocks of a short source probe nothing. -/
theorem blockLoop_short {fuel : Nat} (hl : s.enc.l ≤ 21) (hti : s.enc.ti = 0) (h : blockLoop fuel s = .ok u t) :
    t.mf = s.mf := by
  cases fuel with
  | zero => cases h; rfl
  | succ fuel =>
    rw [blockLoop] at h
    split at h
    · cases h; rfl
    · next hbig =>
      have hl : s.enc.l = 21 := Nat.le_antisymm hl (Nat.lt_of_not_le hbig)
      obtain ⟨_, v, hv, h⟩ := andThen_eq_ok.1 h
      obtain ⟨_, x, hx, hv⟩ := andThen_eq_ok.1 hv
      cases hv
      rw [scanLoop_succ, if_pos] at hx
      · cases hx
        cases fuel with
        | zero => cases h; rfl
        | succ fuel =>
          rw [blockLoop, if_pos] at h
          · cases h; rfl
          · simp [State.skipped, hl, Config.blockMax]
      · simp [State.skipped, hl, hti, Config.blockMax, Config.tailReserve]

theorem encTail_mf {n : Nat} (h : encTail n s = .ok u t) : t.mf = s.mf := by
  unfold encTail at h
  split at h
  · cases h; rfl
  · obtain ⟨_, v, hv, h⟩ := andThen_eq_ok.1 h
    rw [emitLits_shape h]
    split at hv
    · rw [emitBytes_shape hv]
    · split at hv
      · rw [backPatch_shape hv]
      · rw [emitBytes_shape hv]

theorem compressStream_short_mf (hn : s.snap.srcN.toNat ≤ 21) (h : compressStream s = .ok u t) : t.mf = s.mf := by
  obtain ⟨_, v, hv, h⟩ := andThen_eq_ok.1 h
  obtain ⟨_, w, hw, h⟩ := andThen_eq_ok.1 h
  rw [emitBytes_shape h]
  exact (encTail_mf hw).trans (blockLoop_short (s := startCompress s) hn rfl hv)

end Sys2Proof.Machine

namespace Sys2Proof.Proofs
open Sys2Proof.Machine

/-- Settles O30: every pass of a loop moves P or L on, so the passes of the model are enough. -/
theorem scanRunsToItsLimit : Obligations.ScanRunsToItsLimit := by
  unfold Obligations.ScanRunsToItsLimit
  refine ⟨fun s t hbig h => ?_, fun s t hbig h => (encBlock_end hbig h).2, fun s t h => ?_⟩
  · obtain ⟨hblk, hp, hii⟩ := scanLoop_startBlock hbig h
    exact ⟨(block_eq_mk.1 hblk).2.2.2, hp, hii⟩
  · obtain ⟨hl, hsum⟩ := blockLoop_end (s := startCompress s) (Nat.le_refl _) h
    exact ⟨hl, hsum.trans (Nat.zero_add _)⟩

/-- Settles O31: a short source has the empty parse, and its stream fits. -/
theorem compressShortSources : Obligations.CompressShortSources := by
  unfold Obligations.CompressShortSources
  intro t s hwf hi ha hr hw hn
  dsimp only
  rw [← inputList_length s]
  have hn' : s.inputList.length ≤ 21 := (inputList_length s).le.trans hn
  have hparse := parses_short hn'
  rw [← parsedBytes_short hn']
  intro hroom
  refine ⟨_, rfl, ?_⟩
  cases performCompress_compressEnd (t := t) hi ha hparse with
  | stream v hrun hv hu =>
    have hmf : v.mf = s.mf := compressStream_short_mf (s := s.latch 2#4 t) hn hrun
    rw [hu, hv.finishOk_eq]
    exact ⟨by rw [hmf]; rfl, (hv.stored.bytes hwf).2, hv.stored.outside⟩
  | busError _ hbad => exact absurd ⟨hr, hw⟩ hbad
  | full _ _ hfull => exact absurd hroom (Nat.not_le.2 hfull)

end Sys2Proof.Proofs
end

section
/-! The decoders compute what `Expands` says (44_decompressors.md R310 to R315): each pass of the loop is one step of the
relation, on memory as on lists. -/

namespace Sys2Proof

/-- A match that can be read has a distance of at least 1 (30_encoding.md R122 to R124). -/
theorem Instr.dist_pos {xlen len dist s : Nat} {i : Instr} (hwf : i.wf xlen = true)
    (h : i.matchParts = some (len, dist, s)) : 1 ≤ dist := by
  cases i with
  | m1n | m1f | m2s | m2l | m3 | m4 =>
    cases h
    simp only [Instr.wf, Bool.and_eq_true, decide_eq_true_eq] at hwf
    omega
  | _ => cases h

end Sys2Proof

namespace Sys2Proof.Machine

/-! ### A match on lists -/

theorem periodCopy_length (out : List Byte) (len dist : Nat) : (periodCopy out len dist).length = len := by
  simp [periodCopy]

/-- A match copies its first byte, and then goes on as a match that starts one byte later. -/
theorem periodCopy_succ {out : List Byte} {dist : Nat} (n : Nat) (h1 : 1 ≤ dist) (hd : dist ≤ out.length) :
    periodCopy out (n + 1) dist = out.getD (out.length - dist) 0 ::
      periodCopy (out ++ [out.getD (out.length - dist) 0]) n dist := by
  rw [periodCopy, List.range_succ_eq_map, List.map_cons, List.map_map, Nat.zero_mod, Nat.add_zero, periodCopy]
  congr 1
  refine List.map_congr_left fun k _ => ?_
  have hlt := Nat.mod_lt k h1
  simp only [Function.comp_apply, List.length_append, List.length_singleton]
  rcases Nat.lt_or_ge (k % dist + 1) dist with hk | hk
  · have hsucc : (k + 1) % dist = k % dist + 1 := by rw [Nat.add_mod, Nat.mod_eq_of_lt (a := 1) (by omega),
      Nat.mod_eq_of_lt hk]
    rw [Nat.succ_eq_add_one, hsucc, List.getD_append _ _ _ _ (by omega)]
    congr 1
    omega
  · have hsucc : (k + 1) % dist = 0 := by
      have hmod : k % dist = dist - 1 := by omega
      rw [← Nat.mod_add_mod, hmod, Nat.sub_add_cancel h1, Nat.mod_self]
    have hidx : out.length + 1 - dist + k % dist = out.length := by omega
    rw [Nat.succ_eq_add_one, hsucc, hidx, List.getD_append_right _ _ _ _ (Nat.le_refl _), Nat.sub_self]
    rfl

/-- What is expanded stays expanded. -/
theorem Expands.length_le {xlen : Nat} {st : DecState} {out inp fin rest : List Byte}
    (h : Expands xlen st out inp fin rest) : out.length ≤ fin.length := by
  induction h with
  | eos => exact Nat.le_refl _
  | literals _ _ _ _ ih => rw [List.length_append] at ih; omega
  | copy _ _ _ _ _ ih => simp only [List.length_append] at ih; omega

/-- More than 3 literals leave the decoder in state 4 (43_stream_opcodes.md R280). -/
theorem stAfter_eq_ite (k : Nat) : (if k < 4 then stAfter k else .st4) = stAfter k := by
  match k with
  | 0 | 1 | 2 | 3 => rfl
  | k + 4 => exact if_neg (by omega)

/-! ### The copies -/

/-- The decode that began in `s₀` has written `out`; its next byte is at `ip` and its state is `st`. -/
structure Decoded (s₀ : State) (out : List Byte) (ip : Nat) (st : DecState) (s : State) : Prop where
  frame : s = { s₀ with mem := s.mem, dec := { ip := ip, op := out.length, st := st }, decoding := true }
  stored : Stored s₀ out s.mem

section
variable {s₀ s : State} {out : List Byte} {ip : Nat} {st : DecState}

theorem Decoded.snap_eq (h : Decoded s₀ out ip st s) : s.snap = s₀.snap := by rw [h.frame]

theorem Decoded.dec_eq (h : Decoded s₀ out ip st s) : s.dec = { ip := ip, op := out.length, st := st } := by
  rw [h.frame]

theorem Decoded.decoding_eq (h : Decoded s₀ out ip st s) : s.decoding = true := by rw [h.frame]

theorem Decoded.dmaOk_eq (h : Decoded s₀ out ip st s) (a : Nat) : s.dmaOk a = s₀.dmaOk a := by rw [h.frame]; rfl

theorem Decoded.inAddr_eq (h : Decoded s₀ out ip st s) (i : Nat) : s.inAddr i = s₀.inAddr i := by rw [h.frame]; rfl

theorem Decoded.outAddr_eq (h : Decoded s₀ out ip st s) (j : Nat) : s.outAddr j = s₀.outAddr j := by rw [h.frame]; rfl

theorem decoded_start (s₀ : State) : Decoded s₀ [] 0 .start (startDecode s₀) := ⟨rfl, stored_nil s₀⟩

/-- The decoder's registers move. -/
theorem Decoded.setDec (h : Decoded s₀ out ip st s) (ip' : Nat) (st' : DecState) :
    Decoded s₀ out ip' st' { s with dec := { ip := ip', op := out.length, st := st' } } :=
  ⟨congrArg (fun u : State => { u with dec := { ip := ip', op := out.length, st := st' } }) h.frame, h.stored⟩

theorem Decoded.setSt (h : Decoded s₀ out ip st s) (st' : DecState) : Decoded s₀ out ip st' (s.setSt st') := by
  have := h.setDec ip st'
  rwa [State.setSt, h.dec_eq]

variable (hr : s₀.inputReadable) (hw : s₀.outputWritable)

include hw in
/-- SetOut appends a byte. -/
theorem Decoded.setOut_eq (h : Decoded s₀ out ip st s) (v : Byte) (ip' : Nat)
    (hroom : out.length < s₀.snap.dstN.toNat) : ∃ t, setOut s.dec.op v s = .ok () t ∧
      Decoded s₀ (out ++ [v]) ip' st { t with dec := { t.dec with op := t.dec.op + 1, ip := ip' } } := by
  have hop : s.outAddr s.dec.op = s₀.outAddr out.length := by rw [h.outAddr_eq, h.dec_eq]
  refine ⟨_, setOut_eq_ok.2 ⟨?_, rfl⟩, ?_, ?_⟩
  · rw [hop, h.dmaOk_eq]; exact hw _ hroom
  · rw [hop]
    refine congrArg (fun u : State => { u with
      mem := s.mem.write (s₀.outAddr out.length) v, dec := { s.dec with op := s.dec.op + 1, ip := ip' } }) h.frame |>.trans ?_
    simp [h.dec_eq]
  · rw [hop]; exact h.stored.push v hroom

include hr hw in
/-- CopyLit appends the next input bytes (43_stream_opcodes.md R275). -/
theorem Decoded.copyLitLoop_eq (ha : s₀.argsOk = true) (n : Nat) (h : Decoded s₀ out ip st s)
    (hout : out.length + n ≤ s₀.snap.dstN.toNat) (hin : ip + n ≤ s₀.snap.srcN.toNat) :
    ∃ t, copyLitLoop n s = .ok () t ∧ Decoded s₀ (out ++ (s₀.inputList.drop ip).take n) (ip + n) st t := by
  induction n generalizing s out ip with
  | zero => exact ⟨s, rfl, by rwa [List.take_zero, List.append_nil]⟩
  | succ n ih =>
    have hip : s.dec.ip = ip := by rw [h.dec_eq]
    have hb : inByte s.dec.ip s = .ok (s₀.inputList.getD ip 0) s := by
      refine inByte_eq_ok.2 ⟨?_, ?_, rfl⟩
      · rw [hip, h.inAddr_eq, h.dmaOk_eq]; exact hr _ (by omega)
      · rw [hip, h.inAddr_eq]; exact (h.stored.read_source ha (by omega)).symm
    obtain ⟨t, ht, hdec⟩ := h.setOut_eq hw (s₀.inputList.getD ip 0) (ip + 1) (by omega)
    have hlt : ip < s₀.inputList.length := by rw [inputList_length]; omega
    obtain ⟨v, hv, hvdec⟩ := ih hdec (by rw [List.length_append, List.length_singleton]; omega) (by omega)
    have htip : t.dec.ip = ip := by obtain ⟨-, rfl⟩ := setOut_eq_ok.1 ht; exact hip
    refine ⟨v, ?_, ?_⟩
    · rw [copyLitLoop, hb, andThen_ok, ht, andThen_ok, htip]; exact hv
    · rw [List.append_assoc, List.getD_eq_getElem _ _ hlt] at hvdec
      rw [List.drop_eq_getElem_cons hlt, List.take_succ_cons, Nat.add_comm n 1, ← Nat.add_assoc]
      exact hvdec

include hw in
/-- CopyMatch appends the last `dist` bytes as a period (43_stream_opcodes.md R274). -/
theorem Decoded.copyMatchLoop_eq (hwf : s₀.mem.wf = true) (n : Nat) {dist : Nat} (h : Decoded s₀ out ip st s)
    (h1 : 1 ≤ dist) (hd : dist ≤ out.length) (hout : out.length + n ≤ s₀.snap.dstN.toNat) :
    ∃ t, copyMatchLoop n dist s = .ok () t ∧ Decoded s₀ (out ++ periodCopy out n dist) ip st t := by
  induction n generalizing s out with
  | zero => exact ⟨s, rfl, by rw [periodCopy, List.range_zero, List.map_nil, List.append_nil]; exact h⟩
  | succ n ih =>
    have hop : s.dec.op = out.length := by rw [h.dec_eq]
    have hb : outByte (s.dec.op - dist) s = .ok (out.getD (out.length - dist) 0) s := by
      refine outByte_eq_ok.2 ⟨?_, ?_, rfl⟩
      · rw [hop, h.outAddr_eq, h.dmaOk_eq]; exact hw _ (by omega)
      · rw [hop, h.outAddr_eq]; exact ((h.stored.bytes hwf).2 _ (by omega)).symm
    obtain ⟨t, ht, hdec⟩ := h.setOut_eq hw (out.getD (out.length - dist) 0) ip (by omega)
    have htip : t.dec.ip = ip := by obtain ⟨-, rfl⟩ := setOut_eq_ok.1 ht; rw [h.dec_eq]
    have hlen : (out ++ [out.getD (out.length - dist) 0]).length = out.length + 1 := by simp
    obtain ⟨v, hv, hvdec⟩ := ih hdec (by omega) (by omega)
    refine ⟨v, ?_, ?_⟩
    · rw [copyMatchLoop, hb, andThen_ok, ht, andThen_ok]
      rw [← htip] at hv
      exact hv
    · rw [periodCopy_succ n h1 hd]
      rwa [List.append_assoc] at hvdec

/-! ### The header -/

include hr in
/-- The bytes from IP on are those of the input (43_stream_opcodes.md R271). -/
theorem Decoded.streamBytes_eq (ha : s₀.argsOk = true) (h : Decoded s₀ out ip st s) :
    s.streamBytes = s₀.inputList.drop ip := by
  have hip : s.dec.ip = ip := by rw [h.dec_eq]
  rw [State.streamBytes, h.snap_eq, hip, inBytes_of_readable fun j hj => ?_]
  · refine List.ext_getElem (by simp [inputList_length]) fun j h1 h2 => ?_
    rw [List.length_map, List.length_range] at h1
    rw [List.getElem_map, List.getElem_range, List.getElem_drop, h.inAddr_eq, h.stored.read_source ha (by omega),
      List.getD_eq_getElem]
  · rw [h.inAddr_eq, h.dmaOk_eq]; exact hr _ (by omega)

include hr in
/-- A pass runs the instruction that the relation reads (44_decompressors.md R312). -/
theorem Decoded.streamStep_eq (ha : s₀.argsOk = true) (h : Decoded s₀ out ip st s) {i : Instr} {n : Nat}
    (hdec : decodeStream s₀.platform.xlen st (s₀.inputList.drop ip) = .ok (i, n)) :
    streamStep s = runStream i (s.advanceIp n) ∧ Decoded s₀ out (ip + n) st (s.advanceIp n) := by
  have hip : ip < s₀.snap.srcN.toNat := by
    by_contra hge
    rw [List.drop_eq_nil_of_le (by rw [inputList_length]; omega)] at hdec
    cases hdec
  have hf : fetchStream s = .header i n := by
    refine fetchStream_eq_header.2 ⟨by rw [h.dec_eq, h.snap_eq]; exact hip, ?_⟩
    rw [h.streamBytes_eq hr ha, h.dec_eq]
    rw [h.frame]
    exact hdec
  refine ⟨by rw [streamStep, hf], ?_⟩
  have := h.setDec (ip + n) st
  rwa [State.advanceIp, h.dec_eq]

/-! ### The instructions -/

include hr hw

theorem Decoded.copyLit_eq (ha : s₀.argsOk = true) {n : Nat} (h : Decoded s₀ out ip st s)
    (hout : out.length + n ≤ s₀.snap.dstN.toNat) (hin : ip + n ≤ s₀.snap.srcN.toNat) :
    ∃ t, copyLit n s = .ok () t ∧ Decoded s₀ (out ++ (s₀.inputList.drop ip).take n) (ip + n) st t := by
  rw [copyLit_of_checks (by rw [h.dec_eq, h.snap_eq]; exact hout) (by rw [h.dec_eq, h.snap_eq]; exact hin)]
  exact h.copyLitLoop_eq hr hw ha n hout hin

/-- A literal instruction (43_stream_opcodes.md R280, R281). -/
theorem Decoded.runStream_literals (ha : s₀.argsOk = true) {i : Instr} {k : Nat} (hk : i.litCount = some k)
    (hwf : i.wf s₀.platform.xlen = true) (h : Decoded s₀ out ip st s)
    (hout : out.length + k ≤ s₀.snap.dstN.toNat) (hin : ip + k ≤ s₀.snap.srcN.toNat) :
    Decoded s₀ (out ++ (s₀.inputList.drop ip).take k) (ip + k) (if k < 4 then stAfter k else .st4) (runStream i s) := by
  obtain ⟨t, ht, hdec⟩ := h.copyLit_eq hr hw ha hout hin
  cases i with
  | litFirst n =>
    cases hk
    rw [runStream, runLitFirst, ht, stAfter_eq_ite]
    exact hdec.setSt _
  | litRun n =>
    cases hk
    simp only [Instr.wf, Bool.and_eq_true, decide_eq_true_eq] at hwf
    rw [runStream, runLitRun, ht, if_neg (by omega)]
    exact hdec.setSt _
  | _ => cases hk

/-- Trail(S) (43_stream_opcodes.md R288). -/
theorem Decoded.trail_eq (ha : s₀.argsOk = true) {n : Nat} (h : Decoded s₀ out ip st s)
    (hout : out.length + n ≤ s₀.snap.dstN.toNat) (hin : ip + n ≤ s₀.snap.srcN.toNat) :
    ∃ t, trail n s = .ok () t ∧ Decoded s₀ (out ++ (s₀.inputList.drop ip).take n) (ip + n) (stAfter n) t := by
  unfold trail
  split
  · obtain ⟨t, ht, hdec⟩ := h.copyLit_eq hr hw ha hout hin
    exact ⟨_, by rw [ht, andThen_ok], hdec.setSt _⟩
  · obtain rfl : n = 0 := by omega
    exact ⟨_, rfl, by rw [List.take_zero, List.append_nil]; exact h.setSt _⟩

/-- A match instruction (43_stream_opcodes.md R282 to R288). -/
theorem Decoded.runStream_match (ha : s₀.argsOk = true) (hmem : s₀.mem.wf = true) {i : Instr} {len dist n : Nat}
    (hm : i.matchParts = some (len, dist, n)) (hwf : i.wf s₀.platform.xlen = true) (h : Decoded s₀ out ip st s)
    (hd : dist ≤ out.length) (hout : out.length + len + n ≤ s₀.snap.dstN.toNat)
    (hin : ip + n ≤ s₀.snap.srcN.toNat) :
    Decoded s₀ (out ++ periodCopy out len dist ++ (s₀.inputList.drop ip).take n) (ip + n) (stAfter n)
      (runStream i s) := by
  have hrun : runStream i s = afterStream (matchActions len dist n s) := by
    cases i with
    | m1n | m1f | m2s | m2l | m3 | m4 => cases hm; rfl
    | _ => cases hm
  have hdist := Instr.dist_pos hwf hm
  obtain ⟨t, ht, hdec⟩ := h.copyMatchLoop_eq hw hmem len hdist hd (by omega)
  obtain ⟨u, hu, hudec⟩ := hdec.trail_eq hr hw ha (n := n)
    (by rw [List.length_append, periodCopy_length]; exact hout) hin
  rw [hrun, matchActions, copyMatch_of_checks (by rw [h.dec_eq]; exact hd) (by rw [h.dec_eq, h.snap_eq]; dsimp only; omega),
    ht, andThen_ok, hu]
  exact hudec

/-! ### The loop -/

/-- The loop goes on to the EOS of the relation, and the final checks end it. -/
theorem decodeLoop_expands (ha : s₀.argsOk = true) (hmem : s₀.mem.wf = true) {inp fin rest : List Byte}
    (hexp : Expands s₀.platform.xlen st out inp fin rest) (hfin : fin.length ≤ s₀.snap.dstN.toNat)
    (hinp : inp = s₀.inputList.drop ip) (hip : ip ≤ s₀.snap.srcN.toNat) {fuel : Nat} (hf : inp.length < fuel)
    (h : Decoded s₀ out ip st s) : ∃ u ip' st', Decoded s₀ fin ip' st' u ∧ rest = s₀.inputList.drop ip' ∧
      ip' ≤ s₀.snap.srcN.toNat ∧ decodeLoop fuel s = finalChecks u := by
  induction hexp generalizing s ip fuel with
  | @eos st out inp len s' n hdec =>
    subst hinp
    obtain ⟨hstep, hadv⟩ := h.streamStep_eq hr ha hdec
    obtain ⟨-, hn⟩ := decodeStream_header hdec
    rw [List.length_drop, inputList_length] at hn
    obtain ⟨fuel, rfl⟩ := Nat.exists_eq_succ_of_ne_zero (Nat.ne_zero_of_lt hf)
    refine ⟨_, _, _, hadv, List.drop_drop, by omega, ?_⟩
    rw [decodeLoop_succ _ h.decoding_eq, hstep]
    exact decodeLoop_of_outside _ (finalChecks_ended _).choose_spec.2.outside
  | @literals st out inp fin rest i k n hdec hk hin hnext ih =>
    subst hinp
    obtain ⟨hstep, hadv⟩ := h.streamStep_eq hr ha hdec
    obtain ⟨hwf, -⟩ := beginsWith_of_decodeStream hdec
    have hpos := decodeStream_pos hdec
    have hle := hnext.length_le
    rw [List.length_drop, inputList_length] at hin
    simp only [List.length_append, List.length_take, List.length_drop, inputList_length] at hle
    obtain ⟨fuel, rfl⟩ := Nat.exists_eq_succ_of_ne_zero (Nat.ne_zero_of_lt hf)
    have hrun := hadv.runStream_literals hr hw ha hk hwf (by omega) (by omega)
    rw [decodeLoop_succ _ h.decoding_eq, hstep]
    refine ih hfin ?_ (ip := ip + n + k) (by omega) ?_ ?_
    · rw [List.drop_drop, Nat.add_assoc]
    · simp only [List.length_drop, inputList_length] at hf ⊢; omega
    · rwa [List.drop_drop]
  | @copy st out inp fin rest i len dist k n hdec hm hd hin hnext ih =>
    subst hinp
    obtain ⟨hstep, hadv⟩ := h.streamStep_eq hr ha hdec
    obtain ⟨hwf, -⟩ := beginsWith_of_decodeStream hdec
    have hpos := decodeStream_pos hdec
    have hle := hnext.length_le
    rw [List.length_drop, inputList_length] at hin
    simp only [List.length_append, List.length_take, List.length_drop, inputList_length, periodCopy_length] at hle
    obtain ⟨fuel, rfl⟩ := Nat.exists_eq_succ_of_ne_zero (Nat.ne_zero_of_lt hf)
    have hrun := hadv.runStream_match hr hw ha hmem hm hwf hd (by omega) (by omega)
    rw [decodeLoop_succ _ h.decoding_eq, hstep]
    refine ih hfin ?_ (ip := ip + n + k) (by omega) ?_ ?_
    · rw [List.drop_drop, Nat.add_assoc]
    · simp only [List.length_drop, inputList_length] at hf ⊢; omega
    · rwa [List.drop_drop]

/-- A decoder whose input expands to as many bytes as its output buffer holds ends with OK and leaves them there. -/
theorem performDecode_expands (ha : s₀.argsOk = true) (hmem : s₀.mem.wf = true) {fin rest : List Byte}
    (hexp : Expands s₀.platform.xlen .start [] s₀.inputList fin rest) (hfin : fin.length = s₀.snap.dstN.toNat)
    (hstrict : s₀.snap.strictV = true → rest = []) :
    ∃ u ip st, Decoded s₀ fin ip st u ∧ performDecode s₀ = u.finishOk fin.length := by
  obtain ⟨u, ip, st, hu, hrest, hip, hloop⟩ := decodeLoop_expands hr hw ha hmem hexp hfin.le
    List.drop_zero.symm (Nat.zero_le _) (fuel := s₀.snap.srcN.toNat + 1) (by rw [inputList_length]; omega)
    (decoded_start s₀)
  refine ⟨u, ip, st, hu, ?_⟩
  rw [performDecode_accepted ha, hloop, finalChecks, hu.dec_eq, hu.snap_eq, if_neg, if_neg (by dsimp only; omega)]
  rintro ⟨hlt, hs⟩
  have hnil := congrArg List.length (hrest.symm.trans (hstrict hs))
  rw [List.length_drop, inputList_length, List.length_nil] at hnil
  dsimp only at hlt
  omega

end

end Sys2Proof.Machine
end

section
/-! The round trip (42_compressor.md R250): the stream of a parse expands to its source, instruction by instruction. -/

namespace Sys2Proof.Machine

/-! ### One instruction -/

/-- The literal bytes of a match or a literal run follow its header in the stream. -/
theorem encode_headerBytes {i : Instr} (h : i.isCommand = false) : encode i = .stream (headerBytes i) := by
  cases i with
  | litFirst | litRun | m1n | m1f | m2s | m2l | m3 | m4 | eos => rfl
  | _ => cases h

section
variable {xlen : Nat} {st : DecState} {out lits inp fin rest : List Byte} {i : Instr}

theorem decodeStream_headerBytes (hc : i.isCommand = false) (hwf : i.wf xlen = true) (hadm : i.admits st = true)
    (inp : List Byte) : decodeStream xlen st (headerBytes i ++ inp) = .ok (i, (headerBytes i).length) :=
  decodeStream_encode hwf hadm (encode_headerBytes hc) inp

theorem expands_literals {k : Nat} (hc : i.isCommand = false) (hwf : i.wf xlen = true) (hadm : i.admits st = true)
    (hk : i.litCount = some k) (hlits : lits.length = k)
    (next : Expands xlen (stAfter k) (out ++ lits) inp fin rest) :
    Expands xlen st out (headerBytes i ++ (lits ++ inp)) fin rest := by
  subst hlits
  refine .literals (decodeStream_headerBytes hc hwf hadm _) hk (by simp) ?_
  rw [stAfter_eq_ite, ← List.drop_drop, List.drop_left, List.take_left, List.drop_left]
  exact next

theorem expands_copy {len dist s : Nat} (hc : i.isCommand = false) (hwf : i.wf xlen = true)
    (hadm : i.admits st = true) (hm : i.matchParts = some (len, dist, s)) (hd : dist ≤ out.length)
    (hlits : lits.length = s)
    (next : Expands xlen (stAfter s) (out ++ periodCopy out len dist ++ lits) inp fin rest) :
    Expands xlen st out (headerBytes i ++ (lits ++ inp)) fin rest := by
  subst hlits
  refine .copy (decodeStream_headerBytes hc hwf hadm _) hm hd (by simp) ?_
  rw [← List.drop_drop, List.drop_left, List.take_left, List.drop_left]
  exact next

/-- EOS can be read in any state, and ends the expansion (30_encoding.md R127). -/
theorem expands_eos (st : DecState) (out : List Byte) : Expands xlen st out (headerBytes (.eos 3 0)) out [] := by
  have hwf : (Instr.eos 3 0).wf xlen = true := by simp [Instr.wf, extFits, extZeros]
  have hadm : (Instr.eos 3 0).admits st = true := by simp [Instr.admits, m4LenField]
  have h := decodeStream_headerBytes (st := st) rfl hwf hadm []
  rw [List.append_nil] at h
  have := Expands.eos (out := out) h
  rwa [List.drop_length] at this

/-! ### Runs and matches -/

/-- A literal run of at most half the address space passes the extension guard (43_stream_opcodes.md R270). -/
theorem extFits_of_le {base n : Nat} (hx : 32 ≤ xlen) (hn : 2 * n ≤ 2 ^ xlen) : extFits xlen base n = true := by
  have hpow : 2 ^ 32 ≤ 2 ^ xlen := Nat.pow_le_pow_right (by decide) hx
  rw [extFits_iff]
  omega

/-- The match instruction of a class has the operands it was chosen for. -/
theorem matchInstr_parts (len dist s : Nat) : (matchInstr len dist s).matchParts = some (len, dist, s) ∧
    (matchInstr len dist s).isCommand = false := by
  unfold matchInstr
  split
  · split <;> exact ⟨rfl, rfl⟩
  split <;> exact ⟨rfl, rfl⟩

/-- It is read in every state but START, and its operands are in range (42_compressor.md R241). -/
theorem matchInstr_wf_admits {len dist s : Nat} (hx : 32 ≤ xlen) (h4 : 4 ≤ len) (hlen : len ≤ 49152) (h1 : 1 ≤ dist)
    (hd : dist ≤ 49151) (hs : s ≤ 3) (hst : st ≠ .start) :
    (matchInstr len dist s).wf xlen = true ∧ (matchInstr len dist s).admits st = true := by
  have hpow : 2 ^ 32 ≤ 2 ^ xlen := Nat.pow_le_pow_right (by decide) hx
  have hfit (base : Nat) : extFits xlen base len = true := extFits_of_le hx (by omega)
  unfold matchInstr
  split
  · split
    · simp [Instr.wf, Instr.admits, hst]; omega
    · simp [Instr.wf, Instr.admits, hst]; omega
  split
  · simp [Instr.wf, Instr.admits, hst, hfit]; omega
  · simp [Instr.wf, Instr.admits, hst, hfit]; omega

end

section
variable {xlen : Nat} {st : DecState} {src rest : List Byte} {a b : Nat}

/-- A match of the parse copies the source bytes that it stands for. -/
theorem Found.Repeats.periodCopy_eq {f : Found} (h : f.Repeats src) (hle : f.pos + f.len ≤ src.length) :
    src.take f.pos ++ periodCopy (src.take f.pos) f.len f.dist = src.take (f.pos + f.len) := by
  have hd := h.dist_le
  have h1 := h.dist_pos
  -- going back by whole periods stays inside what the match repeats
  have hperiod (k : Nat) (hk : k < f.len) :
      src.getD (f.pos - f.dist + k % f.dist) 0 = src.getD (f.pos + k) 0 := by
    induction k using Nat.strong_induction_on with
    | _ k ih =>
      rcases Nat.lt_or_ge k f.dist with hlt | hge
      · rw [Nat.mod_eq_of_lt hlt, h.same k hk]
      · rw [h.same k hk, Nat.mod_eq_sub_mod hge, ih (k - f.dist) (by omega) (by omega)]
        congr 1
        omega
  rw [List.take_add]
  congr 1
  refine List.ext_getElem ?_ fun k hk hk' => ?_
  · rw [periodCopy_length, List.length_take, List.length_drop]; omega
  · rw [periodCopy_length] at hk
    have hlen : (src.take f.pos).length = f.pos := by rw [List.length_take]; omega
    have hmod := Nat.mod_lt k h1
    have hget : (src.take f.pos).getD (f.pos - f.dist + k % f.dist) 0 = src.getD (f.pos + k) 0 := by
      rw [← hperiod k hk, List.getD_eq_getElem _ _ (by omega), List.getD_eq_getElem _ _ (by omega), List.getElem_take]
    simp only [periodCopy, List.getElem_map, List.getElem_range, List.getElem_take, List.getElem_drop, hlen, hget]
    exact List.getD_eq_getElem _ _ (by omega)

/-- Literals under a LIT_RUN (43_stream_opcodes.md R281). -/
theorem expands_run (hst : st = .start ∨ st = .st0) (hab : a + 4 ≤ b) (hb : b ≤ src.length)
    (hfit : extFits xlen 18 (b - a) = true) (next : Expands xlen .st4 (src.take b) rest src []) :
    Expands xlen st (src.take a) (runBytes src a b ++ rest) src [] := by
  have htake : src.take a ++ (src.drop a).take (b - a) = src.take b := by
    rw [← List.take_add, Nat.add_sub_cancel' (by omega)]
  have hst4 : stAfter (b - a) = .st4 := by rw [← stAfter_eq_ite, if_neg (by omega)]
  rw [runBytes, if_neg (by omega), List.append_assoc]
  refine expands_literals (k := b - a) rfl ?_ (by simpa [Instr.admits] using hst) rfl ?_ ?_
  · simp [Instr.wf, hfit]; omega
  · rw [List.length_take, List.length_drop]; omega
  · rwa [htake, hst4]

end

/-! ### The stream -/

/-- What follows the literals before the matches `fs`: the first of them and what comes after it, or EOS. -/
def afterRun (src : List Byte) : List Found → List Byte
  | [] => headerBytes (.eos 3 0)
  | f :: fs => headerBytes (matchInstr f.len f.dist (if nextStop src fs - (f.pos + f.len) ≤ 3
      then nextStop src fs - (f.pos + f.len) else 0)) ++ parsedBytes src (f.pos + f.len) fs

section
variable {xlen : Nat} {src : List Byte} {a : Nat} {fs : List Found}

theorem parsedBytes_eq_run (h : ¬(fs = [] ∧ a = 0 ∧ 1 ≤ src.length ∧ src.length ≤ 238)) :
    parsedBytes src a fs = runBytes src a (nextStop src fs) ++ afterRun src fs := by
  cases fs with
  | nil => rw [parsedBytes_nil, lastBytes_run fun hc => h ⟨rfl, hc⟩]; rfl
  | cons f fs => rw [parsedBytes_cons, List.append_assoc]; rfl

theorem Chained.nextStop (h : Chained src a fs) : a ≤ nextStop src fs ∧ nextStop src fs ≤ src.length := by
  induction fs generalizing a with
  | nil => exact ⟨h, Nat.le_refl _⟩
  | cons f fs ih =>
    obtain ⟨hle, -, -, hch⟩ := h
    have := ih hch
    exact ⟨hle, by rw [Machine.nextStop]; omega⟩

variable (hx : 32 ≤ xlen)
include hx

/-- After their literals, the matches and EOS expand to the rest of the source. -/
theorem expands_afterRun {st : DecState} (hch : Chained src a fs)
    (hroom : src.length + (afterRun src fs).length ≤ 2 ^ xlen) (hst : fs = [] ∨ st ≠ .start) :
    Expands xlen st (src.take (nextStop src fs)) (afterRun src fs) src [] := by
  induction fs generalizing a st with
  | nil => rw [nextStop, List.take_length]; exact expands_eos st src
  | cons f fs ih =>
    have hst := hst.resolve_left nofun
    obtain ⟨-, -, hrep, hch⟩ := hch
    obtain ⟨hle, hend⟩ := hch.nextStop
    have h4 := hrep.four_le
    have hd := hrep.dist_le
    have hcopy := hrep.periodCopy_eq (hle.trans hend)
    have hpos : (src.take f.pos).length = f.pos := by rw [List.length_take]; omega
    rw [afterRun, parsedBytes_eq_run (by omega)] at hroom ⊢
    simp only [List.length_append, runBytes_length hend] at hroom
    rw [nextStop]
    obtain ⟨hparts, hcmd⟩ := matchInstr_parts f.len f.dist (if nextStop src fs - (f.pos + f.len) ≤ 3
      then nextStop src fs - (f.pos + f.len) else 0)
    obtain ⟨hwf, hadm⟩ := matchInstr_wf_admits (st := st) (s := if nextStop src fs - (f.pos + f.len) ≤ 3
      then nextStop src fs - (f.pos + f.len) else 0) hx h4 hrep.len_le hrep.dist_pos hrep.window (by split <;> omega) hst
    by_cases hk : nextStop src fs - (f.pos + f.len) ≤ 3
    · rw [if_pos hk] at hparts hcmd hwf hadm ⊢
      rw [runBytes, if_pos hk, List.nil_append]
      refine expands_copy hcmd hwf hadm hparts (hpos.symm ▸ hd) ?_ ?_
      · rw [List.length_take, List.length_drop]; omega
      · rw [hcopy, ← List.take_add, Nat.add_sub_cancel' hle]
        refine ih hch (by omega) (.inr ?_)
        match nextStop src fs - (f.pos + f.len), hk with
        | 0, _ | 1, _ | 2, _ | 3, _ => exact nofun
    · rw [if_neg hk] at hparts hcmd hwf hadm ⊢
      refine expands_copy (lits := []) hcmd hwf hadm hparts (hpos.symm ▸ hd) rfl ?_
      rw [hcopy, List.append_nil]
      refine expands_run (.inr rfl) (by omega) hend (extFits_of_le hx (by omega)) ?_
      exact ih hch (by omega) (.inr nofun)

/-- The stream of a parse expands to its source. -/
theorem expands_parsedBytes (hch : Chained src 0 fs) (hroom : src.length + (parsedBytes src 0 fs).length ≤ 2 ^ xlen) :
    Expands xlen .start [] (parsedBytes src 0 fs) src [] := by
  obtain ⟨-, hend⟩ := hch.nextStop
  by_cases hfirst : fs = [] ∧ 0 = 0 ∧ 1 ≤ src.length ∧ src.length ≤ 238
  · obtain ⟨rfl, -, h1, h238⟩ := hfirst
    rw [parsedBytes_nil, lastBytes_first h1 h238, List.append_assoc]
    refine expands_literals (k := src.length) rfl ?_ rfl rfl rfl (expands_eos _ _)
    simp [Instr.wf]; omega
  · rw [parsedBytes_eq_run hfirst, List.length_append, runBytes_length hend] at hroom
    rw [parsedBytes_eq_run hfirst, ← List.take_zero (l := src)]
    rcases Nat.eq_zero_or_pos (nextStop src fs) with h0 | hpos
    · have hnil : fs = [] := by
        cases fs with
        | nil => rfl
        | cons f fs => have h4 := hch.2.1 rfl; rw [nextStop] at h0; omega
      have := expands_afterRun hx (st := .start) hch (by omega) (.inl hnil)
      rw [h0] at this ⊢
      rwa [runBytes_self, List.nil_append]
    · have h4 : 4 ≤ nextStop src fs := by
        cases fs with
        | nil => rw [nextStop] at hpos ⊢; have : ¬src.length ≤ 238 := fun h => hfirst ⟨rfl, rfl, hpos, h⟩; omega
        | cons f fs => exact hch.2.1 rfl
      exact expands_run (.inl rfl) (by omega) hend (extFits_of_le hx (by omega))
        (expands_afterRun hx hch (by omega) (.inr nofun))

end

/-- Two accepted buffers fit into the address space side by side (40_commands.md R163). -/
theorem srcN_add_dstN_le {s : State} (ha : s.argsOk = true) (hn : 0 < s.snap.srcN.toNat) :
    s.snap.dstN.toNat + s.snap.srcN.toNat ≤ 2 ^ s.platform.xlen := by
  by_contra hc
  have hrej := argsOk_eq_false_iff (s := s).2 (by omega)
  rw [ha] at hrej
  cases hrej

end Sys2Proof.Machine

namespace Sys2Proof.Proofs
open Sys2Proof.Machine

/-- Settles O36: the stream expands to the source, and both decoders compute the expansion. -/
theorem compressRoundTrip : Obligations.CompressRoundTrip := by
  unfold Obligations.CompressRoundTrip
  intro t b s u d hwf h hok hplat hdwf hmark ha hr hw hn hm hbytes i hi
  obtain ⟨fs, hparse, hlen, hout⟩ := compress_output hwf h hok
  have hsrc := inputList_length s
  have hinput : d.inputList = parsedBytes s.inputList 0 fs := by
    refine List.ext_getElem (by rw [inputList_length, hn, hlen]) fun j h1 h2 => ?_
    have hj : j < d.snap.srcN.toNat := by rwa [inputList_length] at h1
    rw [← List.getD_eq_getElem _ 0 h1, ← List.getD_eq_getElem _ 0 h2, inputList_getD hj, hbytes j hj,
      hout j (hn ▸ hj)]
  have hthree := three_le_parsedBytes_length s.inputList 0 fs
  have hroom := srcN_add_dstN_le ha (by rw [hn, hlen]; omega)
  rw [hn, hlen, hm, ← hsrc] at hroom
  have hx : 32 ≤ d.platform.xlen := by
    simp only [Platform.wf, Bool.and_eq_true, decide_eq_true_eq] at hplat
    exact hplat.1
  have hexp := expands_parsedBytes hx (hparse.chained (Nat.le_refl _) (Nat.zero_le _)) hroom
  rw [← hinput] at hexp
  have hd (op : BitVec 4) (hop : op = 3#4 ∨ op = 4#4) : ∃ v, performDecode (d.latch op b) = v ∧
      v.undefinedMark = false ∧ v.regs.code = 0 ∧ v.regs.outLen = s.snap.srcN ∧
      ∀ j < s.snap.srcN.toNat, v.outAt j = s.inAt j := by
    obtain ⟨v, ip, st, hv, heq⟩ := performDecode_expands (s₀ := d.latch op b) hr hw ha hdwf hexp
      (by rw [hsrc, ← hm]; rfl) fun _ => rfl
    refine ⟨_, heq, ?_, rfl, ?_, fun j hj => ?_⟩
    · rw [hv.frame]; exact hmark
    · rw [hv.frame, hsrc]
      rcases hop with rfl | rfl <;> exact BitVec.ofNat_toNat ..
    · rw [← inputList_getD hj, ← (hv.stored.bytes hdwf).2 j (hsrc.symm ▸ hj)]
      rw [hv.frame]
      rfl
  rcases List.mem_cons.1 hi with rfl | hi
  · obtain ⟨v, heq, hv⟩ := hd 4#4 (.inr rfl)
    exact ⟨v, by rw [exec_decompressSafe, heq], hv⟩
  · obtain rfl := List.mem_singleton.1 hi
    obtain ⟨v, heq, hv⟩ := hd 3#4 (.inl rfl)
    exact ⟨v, by rw [exec_decompress, heq], hv⟩

end Sys2Proof.Proofs
end

section
/-! How a decode ends (43_stream_opcodes.md R270 to R276, R289): the final checks of EOS, the failed checks of the
copies, and the fetch that finds no header. -/

namespace Sys2Proof.Machine

/-! ### Bytes of memory that an action changes -/

/-- From `m` to `m'` no byte but the `n` bytes from address `a` on has changed. -/
structure Memory.ChangedIn (a n : Nat) (m m' : Memory) : Prop where
  outside : ∀ x, x < a ∨ a + n ≤ x → m'.read x = m.read x
  wf : m.wf = true → m'.wf = true

section
variable {a n k : Nat} {m m' m'' : Memory}

theorem Memory.changedIn_refl (a n : Nat) (m : Memory) : ChangedIn a n m m := ⟨fun _ _ => rfl, id⟩

/-- A byte is written, and then bytes after it. -/
theorem Memory.ChangedIn.cons {v : Byte} (h : ChangedIn (a + 1) n (m.write a v) m') : ChangedIn a (n + 1) m m' where
  outside x hx := (h.outside x (by omega)).trans (read_write_other _ _ (by omega))
  wf hm := h.wf (wf_write _ _ hm)

theorem Memory.ChangedIn.append (h : ChangedIn a n m m') (h' : ChangedIn (a + n) k m' m'') :
    ChangedIn a (n + k) m m'' where
  outside x hx := (h'.outside x (by omega)).trans (h.outside x (by omega))
  wf hm := h'.wf (h.wf hm)

end

section
variable {s t : State} {n dist : Nat} {u : Unit}

/-- CopyMatch stores bytes from OP on (43_stream_opcodes.md R274). -/
theorem copyMatchLoop_changedIn (h : copyMatchLoop n dist s = .ok u t) :
    Memory.ChangedIn (s.outAddr s.dec.op) n s.mem t.mem := by
  induction n generalizing s with
  | zero => cases h; exact Memory.changedIn_refl _ _ _
  | succ n ih =>
    simp only [copyMatchLoop, andThen_eq_ok, outByte_eq_ok, setOut_eq_ok] at h
    obtain ⟨_, _, ⟨-, rfl, rfl⟩, _, _, ⟨-, rfl⟩, h⟩ := h
    exact (ih h).cons

/-- CopyLit stores bytes from OP on (43_stream_opcodes.md R275). -/
theorem copyLitLoop_changedIn (h : copyLitLoop n s = .ok u t) :
    Memory.ChangedIn (s.outAddr s.dec.op) n s.mem t.mem := by
  induction n generalizing s with
  | zero => cases h; exact Memory.changedIn_refl _ _ _
  | succ n ih =>
    simp only [copyLitLoop, andThen_eq_ok, inByte_eq_ok, setOut_eq_ok] at h
    obtain ⟨_, _, ⟨-, rfl, rfl⟩, _, _, ⟨-, rfl⟩, h⟩ := h
    exact (ih h).cons

/-- CopyMatch goes on where the block may access the bytes from OP - dist on. -/
theorem copyMatchLoop_goesOn (hd : dist ≤ s.dec.op) (h : OutputOk s (s.dec.op - dist) (s.dec.op + n)) :
    ∃ t, copyMatchLoop n dist s = .ok () t := by
  induction n generalizing s with
  | zero => exact ⟨s, rfl⟩
  | succ n ih =>
    have hread := outByte_eq_ok (j := s.dec.op - dist).2 ⟨h _ (Nat.le_refl _) (by omega), rfl, rfl⟩
    have hwrite := setOut_eq_ok (v := s.mem.read (s.outAddr (s.dec.op - dist))) (u := ()).2
      ⟨h s.dec.op (by omega) (by omega), rfl⟩
    rw [copyMatchLoop, hread, andThen_ok, hwrite, andThen_ok]
    exact ih (Nat.le_succ_of_le hd) fun j h1 h2 => h j (by dsimp only at h1; omega) (by dsimp only at h2; omega)

/-- CopyLit goes on where the block may access the bytes it reads and writes. -/
theorem copyLitLoop_goesOn (hin : SourceOk s s.dec.ip (s.dec.ip + n)) (hout : OutputOk s s.dec.op (s.dec.op + n)) :
    ∃ t, copyLitLoop n s = .ok () t := by
  induction n generalizing s with
  | zero => exact ⟨s, rfl⟩
  | succ n ih =>
    have hread := inByte_eq_ok.2 ⟨hin s.dec.ip (Nat.le_refl _) (by omega), rfl, rfl⟩
    have hwrite := setOut_eq_ok (v := s.mem.read (s.inAddr s.dec.ip)) (u := ()).2
      ⟨hout s.dec.op (Nat.le_refl _) (by omega), rfl⟩
    rw [copyLitLoop, hread, andThen_ok, hwrite, andThen_ok]
    exact ih (fun i h1 h2 => hin i (by dsimp only at h1; omega) (by dsimp only at h2; omega))
      fun j h1 h2 => hout j (by dsimp only at h1; omega) (by dsimp only at h2; omega)

/-- Where its checks pass and the output is writable, CopyMatch moves OP and changes the bytes it passes. -/
theorem copyMatch_goesOn {len : Nat} (hd : dist ≤ s.dec.op) (ho : s.dec.op + len ≤ s.snap.dstN.toNat)
    (hw : s.outputWritable) : ∃ m, copyMatch len dist s =
        .ok () { s with mem := m, dec := { s.dec with op := s.dec.op + len } } ∧
      Memory.ChangedIn (s.outAddr s.dec.op) len s.mem m := by
  obtain ⟨t, ht⟩ := copyMatchLoop_goesOn (n := len) hd fun j _ hj => hw j (by omega)
  rw [copyMatch_of_checks hd ho]
  exact ⟨t.mem, ht.trans (congrArg _ (copyMatchLoop_shape ht)), copyMatchLoop_changedIn ht⟩

end

/-! ### The completions of a decoder -/

section
variable {s t : State} {c : Status} {n : Int}

/-- An error after the first access leaves the completion over free output bytes, and nothing else (60_exceptions.md
R403, R405). -/
theorem raiseLate_eq (hc : c.code = codeOf n) (hne : c ≠ .ok) : s.raiseLate c = { s with
    decoding := false, mem := s.havocOutput.mem, draws := s.havocOutput.draws, view := s.view.after s.snap
    regs := { s.regs with code := codeOf n, outLen := 0, busy := false } } := by
  simp [raiseLate_shape, State.complete, viewComplete_eq_after, hc, hne]

/-- What a late error leaves: a code that is not OK, and free bytes in the output buffer only. -/
theorem raiseLate_ended (hc : c.code = codeOf n) (hne : c ≠ .ok) (hn : codeOf n ≠ 0) :
    s.raiseLate c = { s with
      decoding := false, mem := (s.raiseLate c).mem, draws := (s.raiseLate c).draws, view := s.view.after s.snap
      regs := { s.regs with code := codeOf n, outLen := 0, busy := false } } ∧
    ((s.raiseLate c).regs.code = 0 → (s.raiseLate c).mem = s.mem ∧ (s.raiseLate c).draws = s.draws) ∧
    sameOutside s (s.raiseLate c) s.snap.dstBase.toNat s.snap.dstN.toNat := by
  rw [raiseLate_eq hc hne]
  exact ⟨rfl, fun h => absurd h hn, havocOutput_read_outside s⟩

/-- A decoder that ends with OK leaves the completion, and nothing else. -/
theorem finishOk_decoder (ho : s.snap.opv = 3#4 ∨ s.snap.opv = 4#4) (n : Nat) : s.finishOk n = { s with
    decoding := false, view := s.view.after s.snap
    regs := { s.regs with code := 0, outLen := BitVec.ofNat 64 n, busy := false } } := by
  rcases ho with h | h <;> simp [State.complete, viewComplete_eq_after, hasOutput, Status.code, h]

/-- A failed check ends the decode in the way of its mode (43_stream_opcodes.md R276). -/
theorem failed_endStop (ho : s.snap.opv = 3#4 ∨ s.snap.opv = 4#4)
    (ht : t = { s with mem := t.mem, dec := t.dec })
    (hm : sameOutside s t s.snap.dstBase.toNat s.snap.dstN.toNat) (hc : c.code = codeOf n) (hne : c ≠ .ok) :
    s.failed (t.endStop (failStop t.mode c)) n := by
  have hsnap : t.snap = s.snap := by rw [ht]
  rcases ho with h | h
  · have hmode : t.mode = .unchecked := if_pos (by rw [hsnap, h])
    refine ⟨by rw [hmode]; exact hm, ?_⟩
    rw [hmode, failStop, endStop_undefined, State.markUndefined, ht]
    simp [h]
  · have hmode : t.mode = .safe := if_neg (by rw [hsnap, h]; decide)
    refine ⟨fun a ha => ?_, ?_⟩
    · rw [hmode, failStop, endStop_status, raiseLate_mem, havocOutput_read_outside _ _ (by rwa [hsnap])]
      exact hm a ha
    · rw [hmode, failStop, endStop_status, raiseLate_eq hc hne, ht]
      simp [h]

/-- A check that fails before anything is done. -/
theorem failed_here (ho : s.snap.opv = 3#4 ∨ s.snap.opv = 4#4) (hc : c.code = codeOf n) (hne : c ≠ .ok) :
    s.failed (s.endStop (failStop s.mode c)) n := failed_endStop ho rfl (fun _ _ => rfl) hc hne

@[simp] theorem endStop_dec (e : Stop) (s : State) : (s.endStop e).dec = s.dec := by
  cases e with
  | undefined => rfl
  | status c => rw [endStop_status, raiseLate_shape]; rfl

end

/-! ### The fetch -/

/-- The bytes a decoder of readable input can read are those of the input (43_stream_opcodes.md R271). -/
theorem streamBytes_of_readable {s : State} (hr : s.inputReadable) (hip : s.dec.ip ≤ s.snap.srcN.toNat) :
    s.streamBytes = s.inputList.drop s.dec.ip := by
  have hfull : (s.inputList.drop s.dec.ip).length = s.snap.srcN.toNat - s.dec.ip := by
    rw [List.length_drop, inputList_length]
  calc s.streamBytes
    _ = (List.range (s.snap.srcN.toNat - s.dec.ip)).map fun j => s.inAt (s.dec.ip + j) :=
      inBytes_of_readable fun j hj => hr _ (by omega)
    _ = (s.inputList.drop s.dec.ip).take (s.snap.srcN.toNat - s.dec.ip) := (inputList_slice (by omega)).symm
    _ = s.inputList.drop s.dec.ip := List.take_of_length_le hfull.le

/-- A header of readable input that does not decode stops the fetch. -/
theorem fetchStream_of_error {s : State} {e : DecodeError} (hr : s.inputReadable) (hip : s.dec.ip < s.snap.srcN.toNat)
    (he : decodeStream s.platform.xlen s.dec.st (s.inputList.drop s.dec.ip) = .error e) :
    fetchStream s = .stop (headerStop e s) := by
  rw [fetchStream, if_neg (by omega), streamBytes_of_readable hr hip.le, he]

/-- In readable input a header is cut short by the end of the input only (43_stream_opcodes.md R271). -/
theorem headerStop_cut {s : State} (hr : s.inputReadable) (hip : s.dec.ip ≤ s.snap.srcN.toNat) :
    headerStop .cut s = failStop s.mode .inputOverrun :=
  if_pos (by rw [streamBytes_of_readable hr hip, List.length_drop, inputList_length])

end Sys2Proof.Machine

namespace Sys2Proof.Proofs
open Sys2Proof.Machine

/-- Settles O47: the first two checks fail before anything is done, those of the S literals after the copy. -/
theorem failedMatchChecks : Obligations.FailedMatchChecks := by
  unfold Obligations.FailedMatchChecks
  intro i len dist n s hi ho
  have stopped {c : Status} {k : Int} {t : State} (hstop : matchActions len dist n s = .stop (failStop t.mode c) t)
      (hfail : s.failed (t.endStop (failStop t.mode c)) k) : ∃ u, exec i s = .next u ∧ s.failed u k :=
    ⟨_, by rw [exec_of_matchParts hi, hstop]; rfl, hfail⟩
  have inTrail {c : Status} {k : Int} (hd : dist ≤ s.dec.op) (hlen : s.dec.op + len ≤ s.snap.dstN.toNat)
      (hw : s.outputWritable) (hc : c.code = codeOf k) (hne : c ≠ .ok)
      (htrail : ∀ t : State, t.dec = { s.dec with op := s.dec.op + len } → t.snap = s.snap → trail n t = fail c t) :
      ∃ u, exec i s = .next u ∧ s.failed u k := by
    obtain ⟨m, hcopy, hm⟩ := copyMatch_goesOn hd hlen hw
    refine stopped (by rw [matchActions, hcopy, andThen_ok]; exact htrail _ rfl rfl) (failed_endStop ho rfl ?_ hc hne)
    exact fun a ha => hm.outside a (by unfold State.outAddr; omega)
  refine ⟨fun hd => ?_, fun hd hop hlen => ?_, fun hd hlen hw hn hout => ?_, fun hd hout hw hn hip hin => ?_⟩
  · exact stopped (t := s) (by rw [matchActions, copyMatch, if_pos hd]; rfl)
      (failed_here (c := .lookbehindOverrun) ho rfl nofun)
  · exact stopped (t := s) (by rw [matchActions, copyMatch, if_neg (by omega), if_pos (by omega)]; rfl)
      (failed_here (c := .outputOverrun) ho rfl nofun)
  · refine inTrail (c := .outputOverrun) hd hlen hw rfl nofun fun t hdec hsnap => ?_
    rw [trail, if_pos hn, copyLit, hdec, hsnap, if_pos (by dsimp only; omega)]
    rfl
  · refine inTrail (c := .inputOverrun) hd (by omega) hw rfl nofun fun t hdec hsnap => ?_
    rw [trail, if_pos hn, copyLit, hdec, hsnap, if_neg (by dsimp only; omega), if_pos (by dsimp only; omega)]
    rfl

/-- Settles O48: CopyLit makes both its checks before it copies. -/
theorem failedLiteralChecks : Obligations.FailedLiteralChecks := by
  unfold Obligations.FailedLiteralChecks
  intro i k s hi ho
  obtain ⟨st, hexec⟩ := exec_of_litCount hi s
  have stopped {c : Status} {n : Int} (hstop : copyLit k s = fail c s) (hc : c.code = codeOf n) (hne : c ≠ .ok) :
      ∃ u, exec i s = .next u ∧ s.failed u n ∧ u.dec = s.dec :=
    ⟨_, by rw [hexec, hstop]; rfl, failed_here ho hc hne, endStop_dec _ s⟩
  refine ⟨fun hop hout => ?_, fun hout hip hin => ?_⟩
  · exact stopped (c := .outputOverrun) (if_pos (by omega)) rfl nofun
  · exact stopped (c := .inputOverrun) ((if_neg (by omega)).trans (if_pos (by omega))) rfl nofun

/-- Settles O49: the fetch of the step stops the decode. -/
theorem failedFetches : Obligations.FailedFetches := by
  unfold Obligations.FailedFetches
  intro s hrace hmark hd ho hr
  have stopped {c : Status} {n : Int} (hf : fetchStream s = .stop (failStop s.mode c)) (hc : c.code = codeOf n)
      (hne : c ≠ .ok) : ∃ u, step s = .next u ∧ s.failed u n :=
    ⟨_, by rw [step_of_decoding hrace hmark hd, streamStep, hf], failed_here ho hc hne⟩
  refine ⟨fun hip => ?_, fun hip => ⟨fun he => ?_, fun he => ?_, fun he => ?_⟩⟩
  · exact stopped (c := .eofNotFound) (if_pos hip.ge) rfl nofun
  · exact stopped (c := .inputOverrun) (by rw [fetchStream_of_error hr hip he, headerStop_cut hr hip.le]) rfl nofun
  · exact stopped (c := .inputOverrun) (fetchStream_of_error hr hip he) rfl nofun
  · exact stopped (c := .outputOverrun) (fetchStream_of_error hr hip he) rfl nofun

/-- Settles O46, by the branches of the final checks. -/
theorem eosFinishes : Obligations.EosFinishes := by
  unfold Obligations.EosFinishes
  intro len n s ho
  refine ⟨finalChecks s, rfl, ?_⟩
  unfold finalChecks
  split
  · next hin =>
    rw [if_pos (.inl hin)]
    exact raiseLate_ended (n := -8) rfl nofun (by decide)
  · next hin =>
    split
    · next hout =>
      rw [if_pos (.inr hout)]
      exact raiseLate_ended (n := -12) rfl nofun (by decide)
    · next hout =>
      rw [if_neg (by tauto), finishOk_decoder ho]
      exact ⟨rfl, fun _ => ⟨rfl, rfl⟩, fun _ _ => rfl⟩

end Sys2Proof.Proofs
end

section
/-! What the literal and the match instructions leave in memory (43_stream_opcodes.md R274, R275, R280 to R288). -/

namespace Sys2Proof.Machine

section
variable {s t : State} {n dist : Nat} {u : Unit}

/-! ### The bytes copied -/

theorem outAddr_add (s : State) (j k : Nat) : s.outAddr (j + k) = s.outAddr j + k := (Nat.add_assoc ..).symm

/-- A match repeats the bytes before OP as a period (43_stream_opcodes.md R274): `b` is the sequence of period `dist`
that begins with them. -/
theorem copyMatchLoop_period {b : Nat → Byte} (h : copyMatchLoop n dist s = .ok u t) (hwf : s.mem.wf = true)
    (h1 : 1 ≤ dist) (hd : dist ≤ s.dec.op) (hper : ∀ j, b (j + dist) = b j)
    (hsrc : ∀ j < dist, s.outAt (s.dec.op - dist + j) = b j) :
    ∀ j < n, t.mem.read (s.outAddr (s.dec.op + j)) = b j := by
  induction n generalizing s b with
  | zero => nofun
  | succ n ih =>
    simp only [copyMatchLoop, andThen_eq_ok, outByte_eq_ok, setOut_eq_ok] at h
    obtain ⟨_, s, ⟨-, rfl, rfl⟩, _, _, ⟨-, rfl⟩, h⟩ := h
    have hfirst : s.mem.read (s.outAddr (s.dec.op - dist)) = b 0 := hsrc 0 h1
    rw [hfirst] at h
    intro j hj
    cases j with
    | zero =>
      refine ((copyMatchLoop_changedIn h).outside _ ?_).trans (Memory.read_write_same _ _ hwf)
      exact .inl (Nat.lt_succ_self _)
    | succ j =>
      rw [Nat.add_comm j 1, ← Nat.add_assoc, Nat.add_comm 1 j]
      refine ih (b := fun j => b (j + 1)) h (Memory.wf_write _ _ hwf) (Nat.le_succ_of_le hd) (fun j => ?_)
        (fun j hj => ?_) j (Nat.lt_of_succ_lt_succ hj)
      · rw [Nat.add_right_comm]; exact hper (j + 1)
      · rcases Nat.lt_or_ge (j + 1) dist with hlt | hge
        · have hidx : s.dec.op + 1 - dist + j = s.dec.op - dist + (j + 1) := by omega
          rw [← hsrc (j + 1) hlt, ← hidx]
          exact Memory.read_write_other _ _ (by unfold State.outAddr; dsimp only; omega)
        · have hidx : s.dec.op + 1 - dist + j = s.dec.op := by omega
          have hlast : b (j + 1) = b 0 := by rw [← hper 0]; congr 1; omega
          rw [hlast]
          dsimp only
          rw [hidx]
          exact Memory.read_write_same _ _ hwf

/-- Literals are the input bytes from IP on (43_stream_opcodes.md R275). -/
theorem copyLitLoop_bytes (h : copyLitLoop n s = .ok u t) (hwf : s.mem.wf = true) (ha : s.argsOk = true)
    (hin : s.dec.ip + n ≤ s.snap.srcN.toNat) (hout : s.dec.op + n ≤ s.snap.dstN.toNat) :
    ∀ j < n, t.mem.read (s.outAddr (s.dec.op + j)) = s.inAt (s.dec.ip + j) := by
  induction n generalizing s with
  | zero => nofun
  | succ n ih =>
    simp only [copyLitLoop, andThen_eq_ok, inByte_eq_ok, setOut_eq_ok] at h
    obtain ⟨_, s, ⟨-, rfl, rfl⟩, _, _, ⟨-, rfl⟩, h⟩ := h
    intro j hj
    cases j with
    | zero =>
      refine ((copyLitLoop_changedIn h).outside _ ?_).trans (Memory.read_write_same _ _ hwf)
      exact .inl (Nat.lt_succ_self _)
    | succ j =>
      have hsep := inAddr_outside ha (i := s.dec.ip + 1 + j) (by omega) (Nat.le_refl _)
      rw [Nat.add_comm j 1, ← Nat.add_assoc, ← Nat.add_assoc]
      refine (ih h (Memory.wf_write _ _ hwf) ha (by dsimp only; omega) (by dsimp only; omega) j (by omega)).trans ?_
      have hne : s.inAddr (s.dec.ip + 1 + j) ≠ s.outAddr s.dec.op := by unfold State.outAddr; omega
      exact Memory.read_write_other _ _ hne

/-! ### Literals -/

/-- From `s` to `u` the decoder has copied `n` literals and set ST (43_stream_opcodes.md R275, R280, R288). -/
structure LiteralsCopied (s : State) (n : Nat) (u : State) : Prop where
  shape : u = { s with
    mem := u.mem, dec := { ip := s.dec.ip + n, op := s.dec.op + n, st := stAfter n } }
  bytes : ∀ j < n, u.mem.read (s.outAddr (s.dec.op + j)) = s.inAt (s.dec.ip + j)
  changed : Memory.ChangedIn (s.outAddr s.dec.op) n s.mem u.mem

/-- CopyLit and the move of ST after it, where the literals fit and are accessible. -/
theorem copyLit_setSt_copies (hwf : s.mem.wf = true) (ha : s.argsOk = true)
    (hout : s.dec.op + n ≤ s.snap.dstN.toNat) (hin : s.dec.ip + n ≤ s.snap.srcN.toNat)
    (hsrc : SourceOk s s.dec.ip (s.dec.ip + n)) (hdst : OutputOk s s.dec.op (s.dec.op + n)) :
    ∃ u, ((copyLit n s).andThen fun _ t => .ok () (t.setSt (stAfter n))) = .ok () u ∧ LiteralsCopied s n u := by
  obtain ⟨t, ht⟩ := copyLitLoop_goesOn hsrc hdst
  refine ⟨t.setSt (stAfter n), by rw [copyLit_of_checks hout hin, ht, andThen_ok], ?_, ?_, ?_⟩
  · rw [copyLitLoop_shape ht]; rfl
  · exact copyLitLoop_bytes (t := t) ht hwf ha hin hout
  · exact copyLitLoop_changedIn (t := t) ht

/-- A literal instruction sets ST to its count, or to 4 (43_stream_opcodes.md R280, R281). -/
theorem exec_literals {i : Instr} {xlen : Nat} (hi : i.litCount = some n) (hwf : i.wf xlen = true) (s : State) :
    exec i s = .next (afterStream ((copyLit n s).andThen fun _ t => .ok () (t.setSt (stAfter n)))) := by
  cases i with
  | litFirst k => cases hi; rfl
  | litRun k =>
    cases hi
    simp only [Instr.wf, Bool.and_eq_true, decide_eq_true_eq] at hwf
    rw [← stAfter_eq_ite, if_neg (by omega)]
    rfl
  | _ => cases hi

/-- A literal instruction has at least one literal (30_encoding.md R121). -/
theorem litCount_pos {i : Instr} {xlen : Nat} (hi : i.litCount = some n) (hwf : i.wf xlen = true) : 1 ≤ n := by
  cases i with
  | litFirst | litRun =>
    cases hi
    simp only [Instr.wf, Bool.and_eq_true, decide_eq_true_eq] at hwf
    omega
  | _ => cases hi

theorem stAfter_of_pos (h : 1 ≤ n) :
    stAfter n = if n = 1 then .st1 else if n = 2 then .st2 else if n = 3 then .st3 else .st4 := by
  match n with
  | 1 | 2 | 3 => rfl
  | n + 4 => rw [if_neg (by omega), if_neg (by omega), if_neg (by omega)]; rfl

/-! ### Matches -/

/-- Trail(S) is CopyLit and the move of ST, with no literal as with some (43_stream_opcodes.md R288). -/
theorem trail_of_checks (hout : s.dec.op + n ≤ s.snap.dstN.toNat) (hin : s.dec.ip + n ≤ s.snap.srcN.toNat) :
    trail n s = (copyLit n s).andThen fun _ t => .ok () (t.setSt (stAfter n)) := by
  cases n with
  | zero => rw [copyLit_of_checks hout hin]; rfl
  | succ n => exact if_pos n.succ_pos

/-- Trail(S), where its literals fit and are accessible. -/
theorem trail_copies (hwf : s.mem.wf = true) (ha : s.argsOk = true)
    (hout : s.dec.op + n ≤ s.snap.dstN.toNat) (hin : s.dec.ip + n ≤ s.snap.srcN.toNat)
    (hsrc : SourceOk s s.dec.ip (s.dec.ip + n)) (hdst : OutputOk s s.dec.op (s.dec.op + n)) :
    ∃ u, trail n s = .ok () u ∧ LiteralsCopied s n u := by
  rw [trail_of_checks hout hin]
  exact copyLit_setSt_copies hwf ha hout hin hsrc hdst

/-- The S field of a match counts at most 3 literals (30_encoding.md R126). -/
theorem matchParts_trail_lt {i : Instr} {xlen len : Nat} (hi : i.matchParts = some (len, dist, n))
    (hwf : i.wf xlen = true) : n < 4 := by
  cases i with
  | m1n | m1f | m2s | m2l | m3 | m4 =>
    cases hi
    simp only [Instr.wf, Bool.and_eq_true, decide_eq_true_eq] at hwf
    exact hwf.2
  | _ => cases hi

theorem stAfter_of_lt_four (h : n < 4) :
    stAfter n = if n = 0 then .st0 else if n = 1 then .st1 else if n = 2 then .st2 else .st3 := by
  match n with
  | 0 | 1 | 2 | 3 => rfl
  | n + 4 => omega

/-- CopyMatch, where its checks pass and the output is writable: the bytes copied are those `dist` before OP, as a
period. -/
theorem copyMatch_copies {len : Nat} (hwf : s.mem.wf = true) (hw : s.outputWritable) (h1 : 1 ≤ dist)
    (hd : dist ≤ s.dec.op) (ho : s.dec.op + len ≤ s.snap.dstN.toNat) : ∃ m, copyMatch len dist s =
      .ok () { s with mem := m, dec := { s.dec with op := s.dec.op + len } } ∧
    (∀ j < len, m.read (s.outAddr (s.dec.op + j)) = s.outAt (s.dec.op - dist + j % dist)) ∧
    Memory.ChangedIn (s.outAddr s.dec.op) len s.mem m := by
  obtain ⟨m, hm, hchanged⟩ := copyMatch_goesOn hd ho hw
  have hloop := hm
  rw [copyMatch_of_checks hd ho] at hloop
  refine ⟨m, hm, copyMatchLoop_period hloop hwf h1 hd (fun j => ?_) (fun j hj => ?_), hchanged⟩
  · rw [Nat.add_mod_right]
  · rw [Nat.mod_eq_of_lt hj]

end

end Sys2Proof.Machine

namespace Sys2Proof.Proofs
open Sys2Proof.Machine

/-- Settles O44: both instructions are CopyLit and the move of ST. -/
theorem literalInstructionsCopy : Obligations.LiteralInstructionsCopy := by
  unfold Obligations.LiteralInstructionsCopy
  intro i k s hi hwf hmem ha hout hin hsrc hdst
  obtain ⟨u, hu, hshape, hbytes, hchanged⟩ := copyLit_setSt_copies hmem ha hout hin
    (fun i h1 h2 => by simpa [Nat.add_sub_cancel' h1] using hsrc (i - s.dec.ip) (by omega))
    (fun j h1 h2 => by simpa [Nat.add_sub_cancel' h1] using hdst (j - s.dec.op) (by omega))
  refine ⟨u, by rw [exec_literals hi hwf, hu]; rfl, ?_, fun j hj => ?_, hchanged.outside⟩
  · rw [← stAfter_of_pos (litCount_pos hi hwf)]
    exact hshape
  · rw [← hbytes j hj]
    rw [hshape]
    rfl

/-- Settles O45: CopyMatch stores the period, and the literals of Trail follow it. -/
theorem matchInstructionsCopy : Obligations.MatchInstructionsCopy := by
  unfold Obligations.MatchInstructionsCopy
  intro i len dist n s hi hwf hmem ha hr hw hd hout hin
  obtain ⟨m, hcopy, hperiod, hm⟩ := copyMatch_copies (len := len) hmem hw (Instr.dist_pos hwf hi) hd (by omega)
  obtain ⟨u, hu, hshape, hbytes, hchanged⟩ := trail_copies (n := n)
    (s := { s with mem := m, dec := { s.dec with op := s.dec.op + len } }) (hm.wf hmem) ha hout hin
    (fun i _ h => hr i (h.trans_le hin)) (fun j _ h => hw j (h.trans_le hout))
  have hsource {j : Nat} (hj : j < n) : m.read (s.inAddr (s.dec.ip + j)) = s.inAt (s.dec.ip + j) := by
    have hsep := inAddr_outside ha (i := s.dec.ip + j) (by omega) (Nat.le_refl _)
    exact hm.outside _ (by unfold State.outAddr; omega)
  have hu_out (j : Nat) : u.outAt j = u.mem.read (s.outAddr j) := by rw [hshape]; rfl
  have hall : Memory.ChangedIn (s.outAddr s.dec.op) (len + n) s.mem u.mem :=
    hm.append (by rwa [← outAddr_add])
  refine ⟨u, ?_, ?_, fun j hj => ?_, fun j hj => ?_, hall.outside⟩
  · rw [exec_of_matchParts hi, matchActions, hcopy, andThen_ok, hu]
    rfl
  · rw [← stAfter_of_lt_four (matchParts_trail_lt hi hwf)]
    exact hshape
  · rw [hu_out, ← hperiod j hj]
    exact hchanged.outside _ (by unfold State.outAddr; dsimp only; omega)
  · rw [hu_out, ← hsource hj]
    exact hbytes j hj

end Sys2Proof.Proofs
end

section
/-! What a decoder can do (44_decompressors.md R310 to R315): each pass of the loop stays inside the buffers, or stops
the decode in one of a few ways, or finds EOS. -/

namespace Sys2Proof

/-- Whether an instruction ends the loop of 44_decompressors.md R312. -/
def Instr.isEos : Instr → Bool
  | .eos _ _ => true
  | _ => false

end Sys2Proof

namespace Sys2Proof.Machine

/-! ### A decode in progress -/

/-- The decode that began in `s₀` has reached `s`: only memory and the decoder registers have changed, the pointers are
inside their buffers, and so is every byte written (44_decompressors.md R322). -/
structure InDecode (s₀ s : State) : Prop where
  frame : s = { s₀ with mem := s.mem, dec := s.dec, decoding := true }
  input : s.dec.ip ≤ s₀.snap.srcN.toNat
  output : s.dec.op ≤ s₀.snap.dstN.toNat
  outside : sameOutside s₀ s s₀.snap.dstBase.toNat s₀.snap.dstN.toNat

/-- The statuses of the checks that DEC_U leaves out (43_stream_opcodes.md R276, 44_decompressors.md R314). -/
def overruns : List Status := [.inputOverrun, .outputOverrun, .lookbehindOverrun, .eofNotFound]

/-- The ways a decode that began in `s₀` stops before its EOS: a bus error, or a failed check in its mode. -/
def OverrunsOrBusError (s₀ : State) (e : Stop) : Prop :=
  e = .status .error ∨ ∃ c ∈ overruns, e = failStop s₀.mode c

/-- An action of the decode that began in `s₀` goes on inside it, or stops it. -/
def Res.StaysInDecode (s₀ : State) : Res Unit → Prop
  | .ok _ t => InDecode s₀ t
  | .stop e t => InDecode s₀ t ∧ OverrunsOrBusError s₀ e

section
variable {s₀ s : State}

theorem inDecode_start (s₀ : State) : InDecode s₀ (startDecode s₀) :=
  ⟨rfl, Nat.zero_le _, Nat.zero_le _, fun _ _ => rfl⟩

theorem InDecode.snap_eq (h : InDecode s₀ s) : s.snap = s₀.snap := by rw [h.frame]

theorem InDecode.mode_eq (h : InDecode s₀ s) : s.mode = s₀.mode := by rw [State.mode, h.snap_eq]; rfl

theorem InDecode.decoding_eq (h : InDecode s₀ s) : s.decoding = true := by rw [h.frame]

theorem InDecode.outAddr_eq (h : InDecode s₀ s) (j : Nat) : s.outAddr j = s₀.outAddr j := by rw [h.frame]; rfl

/-- The pointers move inside their buffers. -/
theorem InDecode.setDec (h : InDecode s₀ s) {d : DecRegs} (hi : d.ip ≤ s₀.snap.srcN.toNat)
    (ho : d.op ≤ s₀.snap.dstN.toNat) : InDecode s₀ { s with dec := d } :=
  ⟨congrArg (fun u : State => { u with dec := d }) h.frame, hi, ho, h.outside⟩

theorem InDecode.setSt (h : InDecode s₀ s) (st : DecState) : InDecode s₀ (s.setSt st) := h.setDec h.input h.output

/-- The byte at OP is written. -/
theorem InDecode.write (h : InDecode s₀ s) (v : Byte) (ho : s.dec.op < s₀.snap.dstN.toNat) :
    InDecode s₀ { s with mem := s.mem.write (s.outAddr s.dec.op) v } where
  frame := congrArg (fun u : State => { u with mem := s.mem.write (s.outAddr s.dec.op) v }) h.frame
  input := h.input
  output := h.output
  outside b hb := by
    have hne : b ≠ s.outAddr s.dec.op := by rw [h.outAddr_eq]; unfold State.outAddr; omega
    exact (Memory.read_write_other _ _ hne).trans (h.outside b hb)

/-! ### Actions -/

theorem Res.StaysInDecode.andThen {r : Res Unit} {f : Unit → State → Res Unit} (h : r.StaysInDecode s₀)
    (hf : ∀ t, InDecode s₀ t → (f () t).StaysInDecode s₀) : (r.andThen f).StaysInDecode s₀ := by
  cases r with
  | ok _ t => exact hf t h
  | stop e t => exact h

theorem InDecode.memRead_andThen (h : InDecode s₀ s) (a : Nat) {f : Byte → State → Res Unit}
    (hf : ∀ v, (f v s).StaysInDecode s₀) : ((memRead a s).andThen f).StaysInDecode s₀ := by
  unfold memRead
  split
  · exact hf _
  · exact ⟨h, .inl rfl⟩

theorem InDecode.setOut_andThen (h : InDecode s₀ s) (v : Byte) (ho : s.dec.op < s₀.snap.dstN.toNat)
    {f : Unit → State → Res Unit} (hf : ∀ t, InDecode s₀ t → t.dec = s.dec → (f () t).StaysInDecode s₀) :
    ((setOut s.dec.op v s).andThen f).StaysInDecode s₀ := by
  unfold setOut memWrite
  split
  · exact hf _ (h.write v ho) rfl
  · exact ⟨h, .inl rfl⟩

theorem InDecode.fail_stays (h : InDecode s₀ s) {c : Status} (hc : c ∈ overruns) :
    (fail c s : Res Unit).StaysInDecode s₀ := ⟨h, .inr ⟨c, hc, by rw [h.mode_eq]⟩⟩

theorem InDecode.copyMatchLoop_stays (h : InDecode s₀ s) (dist : Nat) {n : Nat}
    (ho : s.dec.op + n ≤ s₀.snap.dstN.toNat) : (copyMatchLoop n dist s).StaysInDecode s₀ := by
  induction n generalizing s with
  | zero => exact h
  | succ n ih =>
    refine h.memRead_andThen _ fun v => h.setOut_andThen v (by omega) fun t ht hdec => ?_
    refine ih (ht.setDec ht.input ?_) ?_ <;> rw [hdec] <;> dsimp only <;> omega

theorem InDecode.copyLitLoop_stays (h : InDecode s₀ s) {n : Nat} (hi : s.dec.ip + n ≤ s₀.snap.srcN.toNat)
    (ho : s.dec.op + n ≤ s₀.snap.dstN.toNat) : (copyLitLoop n s).StaysInDecode s₀ := by
  induction n generalizing s with
  | zero => exact h
  | succ n ih =>
    refine h.memRead_andThen _ fun v => h.setOut_andThen v (by omega) fun t ht hdec => ?_
    refine ih (ht.setDec ?_ ?_) ?_ ?_ <;> rw [hdec] <;> dsimp only <;> omega

theorem InDecode.copyMatch_stays (h : InDecode s₀ s) (len dist : Nat) : (copyMatch len dist s).StaysInDecode s₀ := by
  have ho := h.output
  unfold copyMatch
  rw [h.snap_eq]
  split
  · exact h.fail_stays (by decide)
  split
  · exact h.fail_stays (by decide)
  · exact h.copyMatchLoop_stays dist (by omega)

theorem InDecode.copyLit_stays (h : InDecode s₀ s) (n : Nat) : (copyLit n s).StaysInDecode s₀ := by
  have ho := h.output
  have hi := h.input
  unfold copyLit
  rw [h.snap_eq]
  split
  · exact h.fail_stays (by decide)
  split
  · exact h.fail_stays (by decide)
  · exact h.copyLitLoop_stays (by omega) (by omega)

theorem InDecode.trail_stays (h : InDecode s₀ s) (n : Nat) : (trail n s).StaysInDecode s₀ := by
  unfold trail
  split
  · exact (h.copyLit_stays n).andThen fun t ht => ht.setSt _
  · exact h.setSt _

/-! ### One pass -/

/-- The actions of a stream instruction other than EOS, which has none before the final checks
(43_stream_opcodes.md R280 to R289). -/
def streamActions (i : Instr) (s : State) : Res Unit :=
  match i with
  | .litFirst n => (copyLit n s).andThen fun _ s => .ok () (s.setSt (stAfter n))
  | .litRun n => (copyLit n s).andThen fun _ s => .ok () (s.setSt .st4)
  | .m1n dist n => matchActions 2 dist n s
  | .m1f dist n => matchActions 3 dist n s
  | .m2s len dist n | .m2l len dist n | .m3 len dist n | .m4 len dist n => matchActions len dist n s
  | _ => .ok () s

theorem runStream_eos {i : Instr} (h : i.isEos = true) (s : State) : runStream i s = finalChecks s := by
  cases i with
  | eos => rfl
  | _ => cases h

theorem runStream_actions {i : Instr} (h : i.isEos = false) (s : State) :
    runStream i s = afterStream (streamActions i s) := by
  cases i with
  | eos => cases h
  | _ => rfl

theorem InDecode.streamActions_stays (h : InDecode s₀ s) (i : Instr) : (streamActions i s).StaysInDecode s₀ := by
  cases i with
  | litFirst n | litRun n => exact (h.copyLit_stays n).andThen fun t ht => ht.setSt _
  | m1n | m1f | m2s | m2l | m3 | m4 => exact (h.copyMatch_stays _ _).andThen fun t ht => ht.trail_stays _
  | _ => exact h

theorem InDecode.advanceIp (h : InDecode s₀ s) {i : Instr} {n : Nat} (hf : fetchStream s = .header i n) :
    InDecode s₀ (s.advanceIp n) := by
  have hle := (fetched_header hf).2
  rw [h.snap_eq] at hle
  exact h.setDec hle h.output

theorem InDecode.fetch_stops (h : InDecode s₀ s) {e : Stop} (hf : fetchStream s = .stop e) :
    OverrunsOrBusError s₀ e := by
  have failed {c : Status} (hc : c ∈ overruns) : OverrunsOrBusError s₀ (failStop s.mode c) :=
    .inr ⟨c, hc, by rw [h.mode_eq]⟩
  unfold fetchStream at hf
  split at hf
  · cases hf; exact failed (by decide)
  split at hf
  · cases hf
  · next err _ =>
    cases hf
    cases err with
    | cut =>
      unfold headerStop
      dsimp only
      split
      · exact failed (by decide)
      · exact .inl rfl
    | longLiteral | longMatch => exact failed (by decide)

/-- What a pass of the loop can leave, in the decode that began in `s₀`. -/
inductive AfterPass (s₀ : State) : State → Prop where
  | goesOn {t : State} (ht : InDecode s₀ t) : AfterPass s₀ t
  | stops {t : State} {e : Stop} (ht : InDecode s₀ t) (he : OverrunsOrBusError s₀ e) : AfterPass s₀ (t.endStop e)
  | eos {t : State} (ht : InDecode s₀ t) : AfterPass s₀ (finalChecks t)

theorem InDecode.pass (h : InDecode s₀ s) : AfterPass s₀ (streamStep s) := by
  unfold streamStep
  cases hf : fetchStream s with
  | stop e => exact .stops h (h.fetch_stops hf)
  | header i n =>
    have hadv := h.advanceIp hf
    dsimp only
    cases hi : i.isEos with
    | true => rw [runStream_eos hi]; exact .eos hadv
    | false =>
      have hstays := hadv.streamActions_stays i
      rw [runStream_actions hi]
      cases hr : streamActions i (s.advanceIp n) with
      | ok _ t => rw [hr] at hstays; exact .goesOn hstays
      | stop e t => rw [hr] at hstays; exact .stops hstays.1 hstays.2

@[simp] theorem endStop_decoding (e : Stop) (s : State) : (s.endStop e).decoding = false := by cases e <;> rfl

@[simp] theorem finalChecks_decoding (s : State) : (finalChecks s).decoding = false :=
  (finalChecks_ended s).choose_spec.2.outside

/-! ### The loop -/

/-- The last pass of a loop that ends: what every pass that goes on keeps holds before it. -/
theorem decodeLoop_last {P : State → Prop} {fuel : Nat} (hP : P s) (hd : s.decoding = true)
    (hend : (decodeLoop fuel s).decoding = false)
    (keep : ∀ t, P t → (streamStep t).decoding = true → P (streamStep t)) :
    ∃ t, P t ∧ (streamStep t).decoding = false ∧ decodeLoop fuel s = streamStep t := by
  induction fuel generalizing s with
  | zero => rw [decodeLoop, hd] at hend; cases hend
  | succ fuel ih =>
    rw [decodeLoop_succ _ hd] at hend ⊢
    cases hs : (streamStep s).decoding with
    | true => exact ih (keep s hP hs) hs hend
    | false => exact ⟨s, hP, hs, decodeLoop_of_outside _ hs⟩

theorem performDecode_last {P : State → Prop} (ha : s₀.argsOk = true) (hP : P (startDecode s₀))
    (keep : ∀ t, P t → (streamStep t).decoding = true → P (streamStep t)) :
    ∃ t, P t ∧ (streamStep t).decoding = false ∧ performDecode s₀ = streamStep t := by
  have hend := (performDecode_ended ha).outside
  rw [performDecode_accepted ha] at hend ⊢
  exact decodeLoop_last hP rfl hend keep

/-- A pass after which the loop goes on stays inside the decode. -/
theorem AfterPass.inDecode {u : State} (h : AfterPass s₀ u) (hd : u.decoding = true) : InDecode s₀ u := by
  cases h with
  | goesOn ht => exact ht
  | stops | eos => simp at hd

/-- A decode whose buffers are accepted ends with a pass from inside it. -/
theorem performDecode_afterPass (ha : s₀.argsOk = true) :
    AfterPass s₀ (performDecode s₀) ∧ (performDecode s₀).decoding = false := by
  obtain ⟨t, ht, hd, heq⟩ := performDecode_last ha (inDecode_start s₀) fun t ht => ht.pass.inDecode
  rw [heq]
  exact ⟨ht.pass, hd⟩

end

end Sys2Proof.Machine
end

section
/-! How the decoders end (44_decompressors.md R315 to R319): what they leave when they are not UNDEFINED. -/

namespace Sys2Proof.Machine

/-- The decoder that began in `s` has ended in `u` with code `c` and OUT_LEN `n`: besides, it has changed the output
buffer, the decoder registers and the draws (44_decompressors.md R318, R322). -/
structure DecoderLeft (s : State) (c : BitVec 32) (n : Word) (u : State) : Prop where
  shape : u = { s with
    decoding := false, view := s.view.after s.snap
    regs := { s.regs with code := c, outLen := n, busy := false }
    dec := u.dec, mem := u.mem, draws := u.draws }
  outside : sameOutside s u s.snap.dstBase.toNat s.snap.dstN.toNat

/-- The errors of the decoders (44_decompressors.md R310, R311). -/
def decoderErrors : List Status :=
  [.error, .inputOverrun, .outputOverrun, .lookbehindOverrun, .eofNotFound, .inputNotConsumed, .invalidArgument,
    .outputNotConsumed]

/-- The decoder that began in `s` has ended in `u` with OK: all of the output is there, and, if STRICT, all of the
input was read (44_decompressors.md R315). -/
structure DecoderOk (s u : State) : Prop where
  left : DecoderLeft s 0 s.snap.dstN u
  output : u.dec.op = s.snap.dstN.toNat
  input : u.dec.ip ≤ s.snap.srcN.toNat
  strict : s.snap.strictV = true → u.dec.ip = s.snap.srcN.toNat

/-- How the decoder that began in `s` can end. -/
inductive DecoderEnd (s u : State) : Prop where
  | undefined (h : u.undefinedMark = true)
  | error (c : Status) (hc : c ∈ decoderErrors) (h : DecoderLeft s c.code 0 u)
  | ok (h : DecoderOk s u)

section
variable {s₀ s : State}

theorem code_ne_zero_of_error : ∀ c ∈ decoderErrors, c.code ≠ 0 := by decide

theorem ne_ok_of_error : ∀ c ∈ decoderErrors, c ≠ .ok := by decide

theorem error_of_overrun : ∀ c ∈ overruns, c ∈ decoderErrors := by decide

theorem codeOf_code (c : Status) : codeOf c.code.toInt = c.code := BitVec.ofInt_toInt

/-- An error inside a decode (60_exceptions.md R405). -/
theorem InDecode.raiseLate (h : InDecode s₀ s) {c : Status} (hc : c ∈ decoderErrors) :
    DecoderEnd s₀ (s.raiseLate c) := by
  refine .error c hc ⟨?_, fun b hb => ?_⟩
  · rw [raiseLate_eq (codeOf_code c).symm (ne_ok_of_error c hc), codeOf_code, h.frame]
  · rw [raiseLate_mem, havocOutput_read_outside _ _ (by rwa [h.snap_eq])]
    exact h.outside b hb

theorem InDecode.endStop (h : InDecode s₀ s) {e : Stop} (he : OverrunsOrBusError s₀ e) :
    DecoderEnd s₀ (s.endStop e) := by
  rcases he with rfl | ⟨c, hc, rfl⟩
  · exact h.raiseLate (c := .error) (by decide)
  · cases s₀.mode with
    | unchecked => exact .undefined rfl
    | safe => exact h.raiseLate (error_of_overrun c hc)

/-- The final checks (44_decompressors.md R315): OP is DST_N where they pass. -/
theorem InDecode.finalChecks (h : InDecode s₀ s) (ho : s₀.snap.opv = 3#4 ∨ s₀.snap.opv = 4#4) :
    DecoderEnd s₀ (finalChecks s) := by
  have hin := h.input
  have hout := h.output
  unfold Machine.finalChecks
  rw [h.snap_eq]
  split
  · exact h.raiseLate (by decide)
  split
  · exact h.raiseLate (by decide)
  · next hstrict hshort =>
    have hop : s.dec.op = s₀.snap.dstN.toNat := by omega
    refine .ok ⟨⟨?_, h.outside⟩, hop, hin, fun hs => ?_⟩
    · rw [finishOk_decoder (by rwa [h.snap_eq]), hop, BitVec.ofNat_toNat, BitVec.setWidth_eq, h.frame]
    · have hle : ¬s.dec.ip < s₀.snap.srcN.toNat := fun hlt => hstrict ⟨hlt, hs⟩
      exact Nat.le_antisymm hin (Nat.le_of_not_lt hle)

theorem AfterPass.decoderEnd {u : State} (h : AfterPass s₀ u) (ho : s₀.snap.opv = 3#4 ∨ s₀.snap.opv = 4#4)
    (hd : u.decoding = false) : DecoderEnd s₀ u := by
  cases h with
  | goesOn ht => rw [ht.decoding_eq] at hd; cases hd
  | stops ht he => exact ht.endStop he
  | eos ht => exact ht.finalChecks ho

theorem performDecode_end (ho : s₀.snap.opv = 3#4 ∨ s₀.snap.opv = 4#4) : DecoderEnd s₀ (performDecode s₀) := by
  cases ha : s₀.argsOk with
  | false =>
    rw [performDecode_rejected ha]
    refine .error .invalidArgument (by decide) ⟨?_, fun _ _ => rfl⟩
    simp [State.complete, viewComplete_eq_after]
  | true =>
    obtain ⟨hpass, hd⟩ := performDecode_afterPass ha
    exact hpass.decoderEnd ho hd

theorem DecoderLeft.code_eq {c : BitVec 32} {n : Word} {u : State} (h : DecoderLeft s c n u) : u.regs.code = c := by
  rw [h.shape]

theorem DecoderLeft.outLen_eq {c : BitVec 32} {n : Word} {u : State} (h : DecoderLeft s c n u) : u.regs.outLen = n := by
  rw [h.shape]

/-- Both decoders, by their codes. -/
theorem exec_decoder {t : Bool} {p : Instr × BitVec 4}
    (hp : p ∈ [(Instr.decompress t, 3#4), (Instr.decompressSafe t, 4#4)]) (s : State) :
    exec p.1 s = .next (performDecode (s.latch p.2 t)) ∧ (p.2 = 3#4 ∨ p.2 = 4#4) := by
  simp only [List.mem_cons, List.not_mem_nil, or_false] at hp
  rcases hp with rfl | rfl
  · exact ⟨rfl, .inl rfl⟩
  · exact ⟨rfl, .inr rfl⟩

/-- A decoder that has written all of its output completes with OK. -/
theorem Decoded.finishOk_ended {op : BitVec 4} {t : Bool} {out : List Byte} {ip : Nat} {st : DecState} {u : State}
    (h : Decoded (s.latch op t) out ip st u) (ho : op = 3#4 ∨ op = 4#4) (n : Nat) :
    u.finishOk n = { s.ended op t 0 n with mem := u.mem, dec := u.dec } := by
  rw [finishOk_decoder (by rw [h.snap_eq]; exact ho), h.frame]
  rfl

/-! ### Streams of one pass -/

theorem performDecode_one_pass (ha : s.argsOk = true) (hd : (streamStep (startDecode s)).decoding = false) :
    performDecode s = streamStep (startDecode s) := by
  rw [performDecode_accepted ha, decodeLoop_succ _ (startDecode_decoding s), decodeLoop_of_outside _ hd]

theorem performDecode_empty (ha : s.argsOk = true) (h0 : s.snap.srcN = 0) :
    performDecode s = (startDecode s).endStop (failStop s.mode .eofNotFound) := by
  have hf : fetchStream (startDecode s) = .stop (failStop s.mode .eofNotFound) := if_pos (by simp [h0])
  have hstep : streamStep (startDecode s) = (startDecode s).endStop (failStop s.mode .eofNotFound) := by
    rw [streamStep, hf]
  rw [performDecode_one_pass ha (by rw [hstep, endStop_decoding]), hstep]

/-- The stream 11 00 00 is one EOS (30_encoding.md R127). -/
theorem performDecode_minimal (ho : s.snap.opv = 3#4 ∨ s.snap.opv = 4#4) (ha : s.argsOk = true)
    (h3 : s.snap.srcN = 3) (hr : s.inputReadable) (hb0 : s.inAt 0 = 0x11#8) (hb1 : s.inAt 1 = 0x00#8)
    (hb2 : s.inAt 2 = 0x00#8) : (performDecode s).regs.outLen = 0 ∧
      (performDecode s).regs.code = if s.snap.dstN = 0 then 0 else codeOf (-12) := by
  have hn : s.snap.srcN.toNat = 3 := by rw [h3]; rfl
  have hlist : s.inputList = [0x11#8, 0x00#8, 0x00#8] := by
    simp [State.inputList, hn, List.range_succ, hb0, hb1, hb2]
  have hbytes : (startDecode s).streamBytes = [0x11#8, 0x00#8, 0x00#8] :=
    (streamBytes_of_readable (s := startDecode s) hr (Nat.zero_le _)).trans hlist
  have hf : fetchStream (startDecode s) = .header (.eos 3 0) 3 := by
    rw [fetchStream_eq_header, hbytes]
    exact ⟨by simp [hn], rfl⟩
  have hstep : streamStep (startDecode s) = finalChecks ((startDecode s).advanceIp 3) := by
    rw [streamStep, hf]; rfl
  rw [performDecode_one_pass ha (by rw [hstep, finalChecks_decoding]), hstep, finalChecks]
  rw [if_neg (by simp [hn])]
  split
  · next hpos =>
    have hpos : 0 < s.snap.dstN.toNat := hpos
    rw [if_neg fun h0 => by simp [h0] at hpos]
    exact ⟨rfl, rfl⟩
  · next hzero =>
    have hzero : s.snap.dstN = 0 := BitVec.eq_of_toNat_eq (Nat.eq_zero_of_not_pos hzero)
    rw [if_pos hzero, finishOk_decoder (s := (startDecode s).advanceIp 3) ho]
    exact ⟨rfl, rfl⟩

end

end Sys2Proof.Machine

namespace Sys2Proof.Proofs
open Sys2Proof.Machine

/-- Settles O37: the loop follows the expansion to its EOS, where the final checks pass. -/
theorem decodersExpandStream : Obligations.DecodersExpandStream := by
  unfold Obligations.DecodersExpandStream
  intro t s out rest hexp hlen hstrict hwf ha hr hw p hp
  obtain ⟨hexec, ho⟩ := exec_decoder hp s
  obtain ⟨u, ip, st, hu, heq⟩ := performDecode_expands (s₀ := s.latch p.2 t) hr hw ha hwf hexp hlen hstrict
  rw [heq, hu.finishOk_ended ho] at hexec
  refine ⟨_, hexec, rfl, (hu.stored.bytes hwf).2, fun b hb => hu.stored.outside b ?_⟩
  rwa [hlen]

/-- Settles O40, from the ways a decoder ends. -/
theorem decoderOkMeansWholeOutput : Obligations.DecoderOkMeansWholeOutput := by
  unfold Obligations.DecoderOkMeansWholeOutput
  intro t s u hs hu hexec
  have hcodes : ∀ c ∈ decoderErrors, c.code ∈ [0, codeOf (-1), codeOf (-4), codeOf (-5), codeOf (-6), codeOf (-7),
      codeOf (-8), codeOf (-10), codeOf (-12)] := by decide
  have hend : ∃ op, DecoderEnd (s.latch op t) u := by
    rcases hexec with h | h <;> cases h
    · exact ⟨4#4, performDecode_end (.inr rfl)⟩
    · exact ⟨3#4, performDecode_end (.inl rfl)⟩
  obtain ⟨op, h | ⟨c, hc, h⟩ | h⟩ := hend
  · rw [hu] at h; cases h
  · rw [h.code_eq]
    exact ⟨hcodes c hc, fun h0 => absurd h0 (code_ne_zero_of_error c hc)⟩
  · rw [h.left.code_eq, h.left.outLen_eq]
    exact ⟨by decide, fun _ => ⟨rfl, h.output, h.input, h.strict⟩⟩

/-- Settles O41, from the ways a decoder ends. -/
theorem decodersWriteOnlyOutput : Obligations.DecodersWriteOnlyOutput := by
  unfold Obligations.DecodersWriteOnlyOutput
  intro t s u hu p hp hexec
  obtain ⟨hperf, ho⟩ := exec_decoder hp s
  have hend : DecoderEnd (s.latch p.2 t) u := by
    rw [hperf] at hexec
    cases hexec
    exact performDecode_end ho
  rcases hend with h | ⟨c, hc, h⟩ | ⟨h, -, -, -⟩
  · rw [hu] at h; cases h
  · refine ⟨h.outside, fun _ => h.outLen_eq, ?_⟩
    rw [h.code_eq, h.outLen_eq]
    exact h.shape
  · refine ⟨h.outside, fun hne => absurd h.code_eq hne, ?_⟩
    rw [h.code_eq, h.outLen_eq]
    exact h.shape

/-- Settles O50: the bytes from IP on are those of the input. -/
theorem stepRunsStreamInstruction : Obligations.StepRunsStreamInstruction := by
  unfold Obligations.StepRunsStreamInstruction
  intro s i n hrace hmark hd hip hr hdec
  have hf : fetchStream s = .header i n := fetchStream_eq_header.2 ⟨hip, by rwa [streamBytes_of_readable hr hip.le]⟩
  refine step_run (t := s.advanceIp n) ?_
  rw [nextAction_of_decoding hrace hmark hd, streamTurn, hf]

/-- Settles O43: the first pass ends the decode, for want of a byte or at the EOS. -/
theorem emptyAndMinimalStreams : Obligations.EmptyAndMinimalStreams := by
  unfold Obligations.EmptyAndMinimalStreams
  refine ⟨fun t s ha h0 => ?_, fun t s ha h3 hr hb0 hb1 hb2 i hi => ?_⟩
  · rw [exec_decompressSafe, exec_decompress, performDecode_empty (s := s.latch 4#4 t) ha h0,
      performDecode_empty (s := s.latch 3#4 t) ha h0]
    exact ⟨⟨_, rfl, rfl⟩, ⟨_, rfl, rfl, rfl⟩⟩
  · have minimal {op : BitVec 4} (ho : op = 3#4 ∨ op = 4#4) : (performDecode (s.latch op t)).regs.outLen = 0 ∧
        (performDecode (s.latch op t)).regs.code = if s.snap.dstN = 0 then 0 else codeOf (-12) :=
      performDecode_minimal (s := s.latch op t) ho ha h3 hr hb0 hb1 hb2
    simp only [List.mem_cons, List.not_mem_nil, or_false] at hi
    rcases hi with rfl | rfl
    · exact ⟨_, rfl, minimal (.inl rfl)⟩
    · exact ⟨_, rfl, minimal (.inr rfl)⟩

end Sys2Proof.Proofs
end

section
/-! Two decodes of the same bytes of memory, with snapshots that differ in the decoder, in STRICT, or in how many input
bytes there are (44_decompressors.md R314, R320): pass by pass they do the same, up to the end of the shorter input. -/

namespace Sys2Proof

/-! ### Headers of a longer input -/

/-- The extension guard fires on the bytes read, whatever follows them (43_stream_opcodes.md R270). -/
theorem decodeExt_append {xlen base acc used : Nat} {e err : DecodeError} {bs : List Byte}
    (h : decodeExt xlen base e acc used bs = .error err) (hcut : err ≠ .cut) (more : List Byte) :
    decodeExt xlen base e acc used (bs ++ more) = .error err := by
  induction bs generalizing acc used with
  | nil => cases h; exact absurd rfl hcut
  | cons x bs ih =>
    unfold decodeExt at h
    rw [List.cons_append, decodeExt]
    split at h
    · cases h
    next hx =>
    rw [if_neg hx]
    split at h
    · next hlong => rw [if_pos hlong]; exact h
    · next hfits => rw [if_neg hfits]; exact ih h

theorem decodeLen_append {xlen k base field : Nat} {e err : DecodeError} {bs : List Byte}
    (h : decodeLen xlen k base field e bs = .error err) (hcut : err ≠ .cut) (more : List Byte) :
    decodeLen xlen k base field e (bs ++ more) = .error err := by
  unfold decodeLen at h ⊢
  split at h
  · cases h
  · next hf => rw [if_neg hf]; exact decodeExt_append h hcut more

theorem decodeTwo_error {f : Nat → Instr} {bs : List Byte} {err : DecodeError} (h : decodeTwo f bs = .error err) :
    err = .cut := by
  cases bs <;> cases h
  rfl

theorem decodeM3Tail_error {len used : Nat} {bs : List Byte} {err : DecodeError}
    (h : decodeM3Tail len used bs = .error err) : err = .cut := by
  match bs with
  | [] | [_] => cases h; rfl
  | _ :: _ :: _ => cases h

theorem decodeM4Tail_error {len hb used : Nat} {bs : List Byte} {err : DecodeError}
    (h : decodeM4Tail len hb used bs = .error err) : err = .cut := by
  match bs with
  | [] | [_] => cases h; rfl
  | _ :: _ :: _ => simp only [decodeM4Tail] at h; split at h <;> cases h

theorem decodeStream_append_error {xlen : Nat} {st : DecState} {bs : List Byte} {err : DecodeError}
    (h : decodeStream xlen st bs = .error err) (hcut : err ≠ .cut) (more : List Byte) :
    decodeStream xlen st (bs ++ more) = .error err := by
  cases bs with
  | nil => cases h; exact absurd rfl hcut
  | cons x bs =>
    unfold decodeStream at h
    rw [List.cons_append, decodeStream]
    dsimp only at h ⊢
    split at h
    · cases h
    · split at h
      · cases h
      · next hl => cases h; rw [decodeLen_append hl hcut]
    · exact absurd (decodeTwo_error h) hcut
    · exact absurd (decodeTwo_error h) hcut
    · exact absurd (decodeTwo_error h) hcut
    · exact absurd (decodeTwo_error h) hcut
    · split at h
      · exact absurd (decodeM3Tail_error h) hcut
      · next hl => cases h; rw [decodeLen_append hl hcut]
    · split at h
      · exact absurd (decodeM4Tail_error h) hcut
      · next hl => cases h; rw [decodeLen_append hl hcut]

theorem decodeStream_append_ok {xlen n : Nat} {st : DecState} {bs : List Byte} {i : Instr}
    (h : decodeStream xlen st bs = .ok (i, n)) (more : List Byte) : decodeStream xlen st (bs ++ more) = .ok (i, n) := by
  obtain ⟨hwf, hadm, b, hs, rest, henc, rfl, rfl⟩ := beginsWith_of_decodeStream h
  rw [List.append_assoc]
  exact decodeStream_encode hwf hadm henc _

/-- A header reads the same from fewer bytes, unless they end inside it. -/
theorem decodeStream_take (xlen : Nat) (st : DecState) (bs : List Byte) (k : Nat) :
    decodeStream xlen st (bs.take k) = decodeStream xlen st bs ∨
      k < bs.length ∧ decodeStream xlen st (bs.take k) = .error .cut := by
  rcases Nat.lt_or_ge k bs.length with hk | hk
  · have hsplit := List.take_append_drop k bs
    cases h : decodeStream xlen st (bs.take k) with
    | ok r => left; rw [← hsplit, decodeStream_append_ok h]
    | error err =>
      by_cases hcut : err = .cut
      · exact .inr ⟨hk, by rw [hcut]⟩
      · left; rw [← hsplit, decodeStream_append_error h hcut]
  · left; rw [List.take_of_length_le hk]

end Sys2Proof

namespace Sys2Proof.Machine

/-! ### The second run -/

/-- The state with another argument snapshot. -/
def State.withSnap (c : Snapshot) (s : State) : State := { s with snap := c }

/-- A decode with snapshot `c` is run again with `c'`, on the same buffers but for an input that may be shorter; where
the first run stops with `e` the second stops with `h e`. -/
structure Rerun (h : Stop → Stop) (c c' : Snapshot) : Prop where
  srcBase : c'.srcBase = c.srcBase
  dstBase : c'.dstBase = c.dstBase
  dstN : c'.dstN = c.dstN
  srcN : c'.srcN.toNat ≤ c.srcN.toNat
  busError : h (.status .error) = .status .error
  failed : ∀ s s' : State, s.snap = c → s'.snap = c' → ∀ k ∈ overruns,
    failStop s'.mode k = h (failStop s.mode k)

/-- The answer of the second run where it does as the first one. -/
def Res.again {α : Type} (h : Stop → Stop) (c' : Snapshot) : Res α → Res α
  | .ok a t => .ok a (t.withSnap c')
  | .stop e t => .stop (h e) (t.withSnap c')

/-- The statuses of a decode whose input ends too soon (44_decompressors.md R320). -/
def endsTooSoon : List Status := [.inputOverrun, .eofNotFound]

/-- The input of the second run, with snapshot `c'`, is shorter, and has ended too soon: the run stops with `e` in
`t`. -/
def RunsShort (c c' : Snapshot) (e : Stop) (t : State) : Prop :=
  c'.srcN.toNat < c.srcN.toNat ∧ t.snap = c' ∧ ∃ k ∈ endsTooSoon, e = failStop t.mode k

/-- The second run does as the first, or its input ends too soon. -/
def Res.RunsAgain (h : Stop → Stop) (c c' : Snapshot) (r r' : Res Unit) : Prop :=
  r' = r.again h c' ∨ ∃ e t, RunsShort c c' e t ∧ r' = .stop e t

section
variable {α β : Type} {h : Stop → Stop} {c c' : Snapshot} {s : State}

@[simp] theorem withSnap_dec (c : Snapshot) (s : State) : (s.withSnap c).dec = s.dec := rfl

@[simp] theorem withSnap_snap (c : Snapshot) (s : State) : (s.withSnap c).snap = c := rfl

theorem Res.again_andThen {r : Res α} {f g : α → State → Res β}
    (hf : ∀ a t, r = .ok a t → g a (t.withSnap c') = (f a t).again h c') :
    (r.again h c').andThen g = (r.andThen f).again h c' := by
  cases r with
  | ok a t => exact hf a t rfl
  | stop e t => rfl

theorem Res.RunsAgain.andThen {r r' : Res Unit} {f : Unit → State → Res Unit} (hr : r.RunsAgain h c c' r')
    (hf : ∀ t, r = .ok () t → (f () t).RunsAgain h c c' (f () (t.withSnap c'))) :
    (r.andThen f).RunsAgain h c c' (r'.andThen f) := by
  rcases hr with rfl | ⟨e, t, hshort, rfl⟩
  · cases r with
    | ok a t => exact hf t rfl
    | stop e t => exact .inl rfl
  · exact .inr ⟨e, t, hshort, rfl⟩

variable (R : Rerun h c c')
include R

theorem Rerun.memRead_eq (a : Nat) (s : State) : memRead a (s.withSnap c') = (memRead a s).again h c' := by
  have hd : (s.withSnap c').dmaOk a = s.dmaOk a := rfl
  unfold memRead
  rw [hd]
  split
  · rfl
  · rw [raise, raise, Res.again, R.busError]

theorem Rerun.outAddr_eq (hs : s.snap = c) (j : Nat) : (s.withSnap c').outAddr j = s.outAddr j := by
  unfold State.outAddr
  rw [hs, ← R.dstBase]
  rfl

theorem Rerun.inAddr_eq (hs : s.snap = c) (i : Nat) : (s.withSnap c').inAddr i = s.inAddr i := by
  unfold State.inAddr
  rw [hs, ← R.srcBase]
  rfl

theorem Rerun.inByte_eq (hs : s.snap = c) (i : Nat) : inByte i (s.withSnap c') = (inByte i s).again h c' := by
  unfold inByte
  rw [R.inAddr_eq hs, R.memRead_eq]

theorem Rerun.outByte_eq (hs : s.snap = c) (j : Nat) : outByte j (s.withSnap c') = (outByte j s).again h c' := by
  unfold outByte
  rw [R.outAddr_eq hs, R.memRead_eq]

theorem Rerun.setOut_eq (hs : s.snap = c) (j : Nat) (v : Byte) :
    setOut j v (s.withSnap c') = (setOut j v s).again h c' := by
  have hd : (s.withSnap c').dmaOk (s.outAddr j) = s.dmaOk (s.outAddr j) := rfl
  unfold setOut memWrite
  rw [R.outAddr_eq hs, hd]
  split
  · rfl
  · rw [raise, raise, Res.again, R.busError]

theorem Rerun.fail_eq (hs : s.snap = c) {k : Status} (hk : k ∈ overruns) :
    (fail k (s.withSnap c') : Res Unit) = (fail k s).again h c' := by
  rw [fail, R.failed s _ hs rfl k hk]
  rfl

theorem Rerun.copyMatchLoop_eq (n dist : Nat) (hs : s.snap = c) :
    copyMatchLoop n dist (s.withSnap c') = (copyMatchLoop n dist s).again h c' := by
  induction n generalizing s with
  | zero => rfl
  | succ n ih =>
    unfold copyMatchLoop
    rw [withSnap_dec, R.outByte_eq hs]
    refine Res.again_andThen fun b t ht => ?_
    obtain ⟨-, -, rfl⟩ := outByte_eq_ok.1 ht
    rw [withSnap_dec, R.setOut_eq hs]
    refine Res.again_andThen fun _ u hu => ?_
    obtain ⟨-, rfl⟩ := setOut_eq_ok.1 hu
    exact ih (s := { t with
      mem := t.mem.write (t.outAddr t.dec.op) b
      dec := { t.dec with op := t.dec.op + 1 } }) hs

theorem Rerun.copyLitLoop_eq (n : Nat) (hs : s.snap = c) :
    copyLitLoop n (s.withSnap c') = (copyLitLoop n s).again h c' := by
  induction n generalizing s with
  | zero => rfl
  | succ n ih =>
    unfold copyLitLoop
    rw [withSnap_dec, R.inByte_eq hs]
    refine Res.again_andThen fun b t ht => ?_
    obtain ⟨-, -, rfl⟩ := inByte_eq_ok.1 ht
    rw [withSnap_dec, R.setOut_eq hs]
    refine Res.again_andThen fun _ u hu => ?_
    obtain ⟨-, rfl⟩ := setOut_eq_ok.1 hu
    exact ih (s := { t with
      mem := t.mem.write (t.outAddr t.dec.op) b
      dec := { t.dec with op := t.dec.op + 1, ip := t.dec.ip + 1 } }) hs

theorem Rerun.copyMatch_eq (len dist : Nat) (hs : s.snap = c) :
    copyMatch len dist (s.withSnap c') = (copyMatch len dist s).again h c' := by
  have hdst : (s.withSnap c').snap.dstN = s.snap.dstN := by rw [hs, ← R.dstN]; rfl
  unfold copyMatch
  rw [hdst, withSnap_dec]
  split
  · exact R.fail_eq hs (by decide)
  split
  · exact R.fail_eq hs (by decide)
  · exact R.copyMatchLoop_eq len dist hs

/-- The input check of CopyLit is where a shorter input counts (43_stream_opcodes.md R275). -/
theorem Rerun.copyLit_again (n : Nat) (hs : s.snap = c) :
    (copyLit n s).RunsAgain h c c' (copyLit n (s.withSnap c')) := by
  have hdst : (s.withSnap c').snap.dstN = s.snap.dstN := by rw [hs, ← R.dstN]; rfl
  have hsrc : (s.withSnap c').snap.srcN.toNat ≤ s.snap.srcN.toNat := by rw [hs]; exact R.srcN
  unfold copyLit
  rw [hdst, withSnap_dec]
  split
  · exact .inl (R.fail_eq hs (by decide))
  split
  · next hin =>
    rw [if_pos (by omega)]
    exact .inl (R.fail_eq hs (by decide))
  · next hin =>
    split
    · next hin' =>
      have hlt : (s.withSnap c').snap.srcN.toNat < s.snap.srcN.toNat := by omega
      rw [hs] at hlt
      exact .inr ⟨_, s.withSnap c', ⟨hlt, rfl, .inputOverrun, by decide, rfl⟩, rfl⟩
    · exact .inl (R.copyLitLoop_eq n hs)

theorem Rerun.trail_again (n : Nat) (hs : s.snap = c) : (trail n s).RunsAgain h c c' (trail n (s.withSnap c')) := by
  unfold trail
  split
  · exact (R.copyLit_again n hs).andThen fun t _ => .inl rfl
  · exact .inl rfl

theorem Rerun.matchActions_again (len dist n : Nat) (hs : s.snap = c) :
    (matchActions len dist n s).RunsAgain h c c' (matchActions len dist n (s.withSnap c')) := by
  refine Res.RunsAgain.andThen (.inl (R.copyMatch_eq len dist hs)) fun t ht => R.trail_again n ?_
  rw [(copyMatch_shape ht).2.2]
  exact hs

theorem Rerun.streamActions_again (i : Instr) (hs : s.snap = c) :
    (streamActions i s).RunsAgain h c c' (streamActions i (s.withSnap c')) := by
  cases i with
  | litFirst n | litRun n => exact (R.copyLit_again n hs).andThen fun t _ => .inl rfl
  | m1n | m1f | m2s | m2l | m3 | m4 => exact R.matchActions_again _ _ _ hs
  | _ => exact .inl rfl

/-! ### The fetch -/

theorem Rerun.inBytes_eq (hs : s.snap = c) (n i : Nat) : (s.withSnap c').inBytes n i = s.inBytes n i := by
  induction n generalizing i with
  | zero => rfl
  | succ n ih => unfold State.inBytes; rw [ih, R.inAddr_eq hs]; rfl

end

theorem inBytes_take (s : State) {m n : Nat} (h : m ≤ n) (i : Nat) : s.inBytes m i = (s.inBytes n i).take m := by
  induction m generalizing n i with
  | zero => rw [List.take_zero]; rfl
  | succ m ih =>
    obtain ⟨n, rfl⟩ := Nat.exists_eq_succ_of_ne_zero (Nat.ne_zero_of_lt h)
    unfold State.inBytes
    split
    · rw [List.take_succ_cons, ih (Nat.le_of_succ_le_succ h)]
    · rfl

section
variable {h : Stop → Stop} {c c' : Snapshot} {s : State} (R : Rerun h c c')
include R

theorem Rerun.streamBytes_eq (hs : s.snap = c) :
    (s.withSnap c').streamBytes = s.streamBytes.take (c'.srcN.toNat - s.dec.ip) := by
  have hle := R.srcN
  rw [State.streamBytes, R.inBytes_eq hs, withSnap_dec, withSnap_snap, State.streamBytes, ← inBytes_take]
  rw [hs]
  omega

/-- A header that cannot be read stops both runs alike, unless the bytes of the second end first. -/
theorem Rerun.headerStop_again (hs : s.snap = c) (e : DecodeError) :
    headerStop e (s.withSnap c') = h (headerStop e s) ∨
      RunsShort c c' (headerStop e (s.withSnap c')) (s.withSnap c') := by
  have failed {k : Status} (hk : k ∈ overruns) : failStop (s.withSnap c').mode k = h (failStop s.mode k) :=
    R.failed s _ hs rfl k hk
  cases e with
  | longLiteral | longMatch => exact .inl (failed (by decide))
  | cut =>
    have hlen := congrArg List.length (R.streamBytes_eq hs)
    rw [List.length_take] at hlen
    unfold headerStop
    dsimp only
    rw [withSnap_dec, withSnap_snap, hs]
    split
    · next hend' =>
      split
      · exact .inl (failed (by decide))
      · next hend =>
        have hmost : s.streamBytes.length ≤ c.srcN.toNat - s.dec.ip := by
          rw [← hs]; exact inBytes_length_le _ _ _
        exact .inr ⟨by omega, rfl, .inputOverrun, by decide, rfl⟩
    · next hend' =>
      have hle := R.srcN
      rw [if_neg (by omega)]
      exact .inl R.busError.symm

/-- The second run fetches the same, or its input ends too soon. -/
theorem Rerun.fetchStream_again (hs : s.snap = c) :
    (∃ i n, fetchStream s = .header i n ∧ fetchStream (s.withSnap c') = .header i n) ∨
    (∃ e, fetchStream s = .stop e ∧ fetchStream (s.withSnap c') = .stop (h e)) ∨
    ∃ e, RunsShort c c' e (s.withSnap c') ∧ fetchStream (s.withSnap c') = .stop e := by
  have hle := R.srcN
  have hplat : (s.withSnap c').platform = s.platform := rfl
  have hbytes := R.streamBytes_eq hs
  unfold fetchStream
  rw [withSnap_dec, withSnap_snap, hplat, hs]
  by_cases hip : c.srcN.toNat ≤ s.dec.ip
  · rw [if_pos hip, if_pos (hle.trans hip), R.failed s (s.withSnap c') hs rfl .eofNotFound (by decide)]
    exact .inr (.inl ⟨_, rfl, rfl⟩)
  rw [if_neg hip]
  by_cases hip' : c'.srcN.toNat ≤ s.dec.ip
  · rw [if_pos hip']
    exact .inr (.inr ⟨_, ⟨by omega, rfl, .eofNotFound, by decide, rfl⟩, rfl⟩)
  rw [if_neg hip']
  rcases decodeStream_take s.platform.xlen s.dec.st s.streamBytes (c'.srcN.toNat - s.dec.ip) with heq | ⟨hk, hcut⟩
  · rw [hbytes, heq]
    cases decodeStream s.platform.xlen s.dec.st s.streamBytes with
    | ok r => exact .inl ⟨r.1, r.2, rfl, rfl⟩
    | error e =>
      rcases R.headerStop_again hs e with he | he
      · exact .inr (.inl ⟨_, rfl, congrArg _ he⟩)
      · exact .inr (.inr ⟨_, he, rfl⟩)
  · have hmost : s.streamBytes.length ≤ c.srcN.toNat - s.dec.ip := by rw [← hs]; exact inBytes_length_le _ _ _
    have hend : headerStop .cut (s.withSnap c') = failStop (s.withSnap c').mode .inputOverrun :=
      if_pos (by rw [hbytes, List.length_take, withSnap_dec, withSnap_snap]; omega)
    rw [hbytes, hcut]
    exact .inr (.inr ⟨_, ⟨by omega, rfl, .inputOverrun, by decide, hend⟩, rfl⟩)

/-! ### One pass -/

end

/-- A pass of the first run, of the decode that began in `s₀`, and the same pass of the second run. -/
inductive PassAgain (h : Stop → Stop) (s₀ : State) (c' : Snapshot) : State → State → Prop where
  | short {u t : State} {e : Stop} (he : RunsShort s₀.snap c' e t) : PassAgain h s₀ c' u (t.endStop e)
  | goesOn {t : State} (ht : InDecode s₀ t) : PassAgain h s₀ c' t (t.withSnap c')
  | stops {t : State} {e : Stop} (ht : InDecode s₀ t) (he : OverrunsOrBusError s₀ e) :
      PassAgain h s₀ c' (t.endStop e) ((t.withSnap c').endStop (h e))
  | eos {t : State} (ht : InDecode s₀ t) (hip : t.dec.ip ≤ c'.srcN.toNat) :
      PassAgain h s₀ c' (finalChecks t) (finalChecks (t.withSnap c'))

/-- Both runs make the same pass, or the input of the second ends too soon. -/
theorem Rerun.streamStep_again {h : Stop → Stop} {s₀ s : State} {c' : Snapshot} (R : Rerun h s₀.snap c')
    (hs : InDecode s₀ s) : PassAgain h s₀ c' (streamStep s) (streamStep (s.withSnap c')) := by
  rcases R.fetchStream_again hs.snap_eq with ⟨i, n, hf, hf'⟩ | ⟨e, hf, hf'⟩ | ⟨e, he, hf'⟩
  · have hadv := hs.advanceIp hf
    have hip := (fetched_header hf').2
    have hstep : streamStep s = runStream i (s.advanceIp n) := by rw [streamStep, hf]
    have hstep' : streamStep (s.withSnap c') = runStream i ((s.advanceIp n).withSnap c') := by
      rw [streamStep, hf']; rfl
    rw [hstep, hstep']
    cases hi : i.isEos with
    | true =>
      rw [runStream_eos hi, runStream_eos hi]
      exact .eos hadv hip
    | false =>
      have hstays := hadv.streamActions_stays i
      rw [runStream_actions hi, runStream_actions hi]
      rcases R.streamActions_again i hadv.snap_eq with heq | ⟨e, t, he, heq⟩
      · rw [heq]
        cases hr : streamActions i (s.advanceIp n) with
        | ok _ t => rw [hr] at hstays; exact .goesOn hstays
        | stop e t => rw [hr] at hstays; exact .stops hstays.1 hstays.2
      · rw [heq]
        exact .short he
  · rw [streamStep, streamStep, hf, hf']
    exact .stops hs (hs.fetch_stops hf)
  · have hstep' : streamStep (s.withSnap c') = (s.withSnap c').endStop e := by rw [streamStep, hf']
    rw [hstep']
    exact .short he

/-! ### The two decodes -/

section
variable {h : Stop → Stop} {s₀ s : State} {c' : Snapshot}

/-- The second run ends no later than the first. -/
theorem PassAgain.outside {u w : State} (hp : PassAgain h s₀ c' u w) (hu : u.decoding = false) :
    w.decoding = false := by
  cases hp with
  | short | stops => exact endStop_decoding _ _
  | goesOn ht => exact hu
  | eos => exact finalChecks_decoding _

/-- Where the first run goes on, the second does, or its input ends too soon. -/
theorem PassAgain.next {u w : State} (hp : PassAgain h s₀ c' u w) (hu : u.decoding = true) :
    w = u.withSnap c' ∨ ∃ e t, RunsShort s₀.snap c' e t ∧ w = t.endStop e := by
  cases hp with
  | short he => exact .inr ⟨_, _, he, rfl⟩
  | goesOn => exact .inl rfl
  | stops | eos => simp at hu

/-- The second decode has ended too soon. -/
def EndedShort (s₀ : State) (c' : Snapshot) : Prop :=
  ∃ e t, RunsShort s₀.snap c' e t ∧ performDecode (s₀.withSnap c') = t.endStop e

/-- The first decode has reached `t`; the second has its passes from there on still to make, or has ended too soon. -/
structure Reached (s₀ : State) (c' : Snapshot) (t : State) : Prop where
  first : InDecode s₀ t
  second : (∃ fuel, performDecode (s₀.withSnap c') = decodeLoop fuel (t.withSnap c')) ∨ EndedShort s₀ c'

variable (R : Rerun h s₀.snap c') (ha' : (s₀.withSnap c').argsOk = true)
include R ha'

/-- The next pass is made by both decodes, unless the second has ended too soon. -/
theorem Reached.pass (ht : Reached s₀ c' s) : EndedShort s₀ c' ∨
    ∃ fuel w, PassAgain h s₀ c' (streamStep s) w ∧ performDecode (s₀.withSnap c') = decodeLoop fuel w := by
  obtain ⟨hs, ⟨fuel, hfuel⟩ | hshort⟩ := ht
  · have hd : (s.withSnap c').decoding = true := hs.decoding_eq
    cases fuel with
    | zero =>
      have hend := (performDecode_ended ha').outside
      rw [hfuel, decodeLoop, hd] at hend
      cases hend
    | succ fuel => exact .inr ⟨fuel, _, R.streamStep_again hs, by rw [hfuel, decodeLoop_succ _ hd]⟩
  · exact .inl hshort

theorem Reached.next (ht : Reached s₀ c' s) (hd : (streamStep s).decoding = true) : Reached s₀ c' (streamStep s) := by
  refine ⟨ht.first.pass.inDecode hd, ?_⟩
  rcases ht.pass R ha' with hshort | ⟨fuel, w, hp, hfuel⟩
  · exact .inr hshort
  · rcases hp.next hd with rfl | ⟨e, t, he, rfl⟩
    · exact .inl ⟨fuel, hfuel⟩
    · exact .inr ⟨e, t, he, by rw [hfuel, decodeLoop_of_outside _ (endStop_decoding e t)]⟩

/-- Both decodes make the same passes to the end, unless the input of the second ends too soon. -/
theorem Rerun.performDecode_again (ha : s₀.argsOk = true) :
    PassAgain h s₀ c' (performDecode s₀) (performDecode (s₀.withSnap c')) := by
  have hstart : Reached s₀ c' (startDecode s₀) := ⟨inDecode_start s₀, .inl ⟨_, performDecode_accepted ha'⟩⟩
  obtain ⟨t, ht, hd, heq⟩ := performDecode_last ha hstart fun t ht => ht.next R ha'
  rw [heq]
  rcases ht.pass R ha' with ⟨e, w, he, hw⟩ | ⟨fuel, w, hp, hfuel⟩
  · rw [hw]
    exact .short he
  · rwa [hfuel, decodeLoop_of_outside _ (hp.outside hd)]

end

end Sys2Proof.Machine
end

section
/-! The equivalence of the two decoders (44_decompressors.md R314) and truncated streams (R320): two cases of a decode
that is run again with another snapshot. -/

namespace Sys2Proof.Machine

/-! ### DECOMPRESS and DECOMPRESS_SAFE -/

/-- How DEC_U stops where DEC_S stops with `e` (43_stream_opcodes.md R276). -/
def Stop.unchecked : Stop → Stop
  | .status c => if c ∈ overruns then .undefined else .status c
  | .undefined => .undefined

/-- The operands of DECOMPRESS for those of DECOMPRESS_SAFE. -/
def Snapshot.unchecked (c : Snapshot) : Snapshot := { c with opv := 3#4 }

/-- DECOMPRESS_SAFE has ended in `v` and DECOMPRESS in `u`, both from a state with the view `w` (44_decompressors.md
R314). -/
structure ModesAgree (w : HostView) (v u : State) : Prop where
  undefined : u.undefinedMark = true ↔ v.regs.code ∈ [codeOf (-4), codeOf (-5), codeOf (-6), codeOf (-7)]
  same : u.undefinedMark = false → u = { v with snap := v.snap.unchecked, view := w.after v.snap.unchecked }

theorem mode_safe {s : State} (ho : s.snap.opv = 4#4) : s.mode = .safe := if_neg (by rw [ho]; decide)

theorem rerun_unchecked {c : Snapshot} (ho : c.opv = 4#4) : Rerun Stop.unchecked c c.unchecked where
  srcBase := rfl
  dstBase := rfl
  dstN := rfl
  srcN := Nat.le_refl _
  busError := rfl
  failed s s' hs hs' k hk := by
    have hmode' : s'.mode = .unchecked := if_pos (by rw [hs']; rfl)
    rw [hmode', mode_safe (s := s) (by rw [hs, ho])]
    exact (if_pos hk).symm

theorem code_mem_overruns (c : Status) :
    c.code ∈ [codeOf (-4), codeOf (-5), codeOf (-6), codeOf (-7)] ↔ c ∈ overruns := by
  cases c <;> decide

section
variable {s₀ s : State} (ho : s.snap.opv = 4#4) (hm : s.undefinedMark = false) {c : Status} (hc : c ∉ overruns)
include ho hm hc

theorem modesAgree_complete (n : Nat) (k : BitVec 32) :
    ModesAgree s.view (s.complete c n k) ((s.withSnap s.snap.unchecked).complete c n k) := by
  refine ⟨iff_of_false ?_ (mt (code_mem_overruns c).1 hc), fun _ => ?_⟩
  · show ¬s.undefinedMark = true
    simp [hm]
  · simp [State.complete, State.withSnap, Snapshot.unchecked, viewComplete_eq_after, hasOutput, ho]

theorem modesAgree_raiseLate :
    ModesAgree s.view (s.raiseLate c) ((s.withSnap s.snap.unchecked).raiseLate c) := by
  have hfree : (s.withSnap s.snap.unchecked).havocOutput = s.havocOutput.withSnap s.snap.unchecked := by
    simp [State.havocOutput, State.withSnap, Snapshot.unchecked, hasOutput, ho, State.outCount]
  have hshape := havocOutput_shape s
  rw [State.raiseLate, State.raiseLate, hfree, ← havocOutput_snap]
  have := modesAgree_complete (s := s.havocOutput) (by rw [havocOutput_snap, ho]) (by rw [hshape]; exact hm) hc 0
    s.havocOutput.regs.cksum
  rw [show s.havocOutput.view = s.view by rw [hshape]] at this
  exact this

end

section
variable {s₀ s : State} (ho : s₀.snap.opv = 4#4) (hm : s₀.undefinedMark = false)
include ho hm

/-- A failed check is UNDEFINED in DEC_U; a bus error is one in both modes. -/
theorem InDecode.endStop_agree (h : InDecode s₀ s) {e : Stop} (he : OverrunsOrBusError s₀ e) :
    ModesAgree s₀.view (s.endStop e) ((s.withSnap s₀.snap.unchecked).endStop e.unchecked) := by
  have hview : s.view = s₀.view := by rw [h.frame]
  have hmark : s.undefinedMark = false := by rw [h.frame]; exact hm
  rcases he with rfl | ⟨c, hc, rfl⟩
  · rw [← h.snap_eq, ← hview]
    exact modesAgree_raiseLate (by rw [h.snap_eq, ho]) hmark (by decide)
  · have hstop : (failStop s₀.mode c).unchecked = .undefined := by rw [mode_safe ho]; exact if_pos hc
    rw [hstop, mode_safe ho]
    refine ⟨iff_of_true rfl ?_, nofun⟩
    rw [failStop, endStop_status, raiseLate_regs]
    exact (code_mem_overruns c).2 hc

/-- The final checks are those of both modes (44_decompressors.md R319). -/
theorem InDecode.finalChecks_agree (h : InDecode s₀ s) :
    ModesAgree s₀.view (Machine.finalChecks s) (Machine.finalChecks (s.withSnap s₀.snap.unchecked)) := by
  have hview : s.view = s₀.view := by rw [h.frame]
  have hmark : s.undefinedMark = false := by rw [h.frame]; exact hm
  have hopv : s.snap.opv = 4#4 := by rw [h.snap_eq, ho]
  rw [← h.snap_eq, ← hview]
  have hchecks : Machine.finalChecks (s.withSnap s.snap.unchecked) =
      if s.dec.ip < s.snap.srcN.toNat ∧ s.snap.strictV then (s.withSnap s.snap.unchecked).raiseLate .inputNotConsumed
      else if s.dec.op < s.snap.dstN.toNat then (s.withSnap s.snap.unchecked).raiseLate .outputNotConsumed
      else (s.withSnap s.snap.unchecked).finishOk s.dec.op := rfl
  rw [hchecks, Machine.finalChecks]
  split
  · exact modesAgree_raiseLate hopv hmark (by decide)
  split
  · exact modesAgree_raiseLate hopv hmark (by decide)
  · exact modesAgree_complete hopv hmark (by decide) _ _

theorem PassAgain.modesAgree {v u : State} (hp : PassAgain Stop.unchecked s₀ s₀.snap.unchecked v u)
    (hend : v.decoding = false) : ModesAgree s₀.view v u := by
  cases hp with
  | short he => exact absurd he.1 (Nat.lt_irrefl _)
  | goesOn ht => rw [ht.decoding_eq] at hend; cases hend
  | stops ht he => exact ht.endStop_agree ho hm he
  | eos ht => exact ht.finalChecks_agree ho hm

theorem performDecode_modesAgree :
    ModesAgree s₀.view (performDecode s₀) (performDecode (s₀.withSnap s₀.snap.unchecked)) := by
  cases ha : s₀.argsOk with
  | false =>
    rw [performDecode_rejected ha, performDecode_rejected (s := s₀.withSnap s₀.snap.unchecked) ha]
    exact modesAgree_complete ho hm (by decide) _ _
  | true =>
    exact ((rerun_unchecked ho).performDecode_again ha ha).modesAgree ho hm (performDecode_ended ha).outside

end

/-! ### Truncated streams -/

/-- The operands of a decoder with another input length and another STRICT. -/
def Snapshot.truncated (c : Snapshot) (m : Word) (t : Bool) : Snapshot := { c with srcN := m, strictV := t }

section
variable {s : State} {m : Word} (ho : s.snap.opv = 4#4) (hm : m.toNat < s.snap.srcN.toNat) (t : Bool)
include ho hm

theorem rerun_truncated : Rerun id s.snap (s.snap.truncated m t) where
  srcBase := rfl
  dstBase := rfl
  dstN := rfl
  srcN := hm.le
  busError := rfl
  failed u u' hu hu' k _ := by
    rw [mode_safe (s := u) (by rw [hu, ho]), mode_safe (s := u') (by rw [hu']; exact ho)]
    rfl

end

@[simp] theorem finalChecks_dec (s : State) : (finalChecks s).dec = s.dec := by
  unfold finalChecks
  split
  · exact endStop_dec (.status _) s
  split
  · exact endStop_dec (.status _) s
  · rfl

/-- An input that is cut short still passes the argument checks (40_commands.md R163). -/
theorem argsOk_truncated {s : State} {m : Word} (ha : s.argsOk = true) (hm : m.toNat < s.snap.srcN.toNat) (t : Bool) :
    (s.withSnap (s.snap.truncated m t)).argsOk = true := by
  refine Bool.eq_true_of_not_eq_false fun hbad => ?_
  have hbad := argsOk_eq_false_iff.1 hbad
  simp only [Snapshot.truncated, State.withSnap] at hbad
  have := argsOk_eq_false_iff (s := s).2 (by omega)
  rw [ha] at this
  cases this

theorem OverrunsOrBusError.status {s : State} {e : Stop} (he : OverrunsOrBusError s e) (ho : s.snap.opv = 4#4) :
    ∃ c ∈ decoderErrors, e = .status c := by
  rcases he with rfl | ⟨c, hc, rfl⟩
  · exact ⟨.error, by decide, rfl⟩
  · exact ⟨c, error_of_overrun c hc, by rw [mode_safe ho]; rfl⟩

/-- Where the first run ends with OK at the end of its input, the shorter input ends before. -/
theorem PassAgain.tooSoon {s u v : State} {m : Word} {t : Bool} (hp : PassAgain id s (s.snap.truncated m t) u v)
    (ho : s.snap.opv = 4#4) (hm : m.toNat < s.snap.srcN.toNat) (hend : u.decoding = false) (hok : u.regs.code = 0)
    (hip : u.dec.ip = s.snap.srcN.toNat) : ∃ c ∈ endsTooSoon, ∃ w : State, v = w.raiseLate c := by
  cases hp with
  | short he =>
    obtain ⟨-, hsnap, c, hc, rfl⟩ := he
    exact ⟨c, hc, _, by rw [mode_safe (by rw [hsnap]; exact ho)]; rfl⟩
  | goesOn ht => rw [ht.decoding_eq] at hend; cases hend
  | stops ht he =>
    obtain ⟨c, hc, rfl⟩ := he.status ho
    rw [endStop_status, raiseLate_regs] at hok
    exact absurd hok (code_ne_zero_of_error c hc)
  | eos ht hle =>
    rw [finalChecks_dec] at hip
    exact absurd (hip ▸ hle) (Nat.not_le.2 hm)

theorem performDecode_truncated {s : State} {m : Word} (ho : s.snap.opv = 4#4)
    (hm : m.toNat < s.snap.srcN.toNat) (t : Bool) (hok : (performDecode s).regs.code = 0)
    (hip : (performDecode s).dec.ip = s.snap.srcN.toNat) :
    ∃ c ∈ endsTooSoon, ∃ w : State, performDecode (s.withSnap (s.snap.truncated m t)) = w.raiseLate c := by
  have ha : s.argsOk = true := by
    refine Bool.eq_true_of_not_eq_false fun ha => ?_
    rw [performDecode_rejected ha] at hok
    exact absurd hok (by decide : Status.invalidArgument.code ≠ 0)
  have hp := (rerun_truncated ho hm t).performDecode_again (argsOk_truncated ha hm t) ha
  exact hp.tooSoon ho hm (performDecode_ended ha).outside hok hip

end Sys2Proof.Machine

namespace Sys2Proof.Proofs
open Sys2Proof.Machine

/-- Settles O38: DECOMPRESS is DECOMPRESS_SAFE run again in the other mode. -/
theorem safeAndUncheckedAgree : Obligations.SafeAndUncheckedAgree := by
  unfold Obligations.SafeAndUncheckedAgree
  intro t s hm
  obtain ⟨hundef, hsame⟩ := performDecode_modesAgree (s₀ := s.latch 4#4 t) rfl hm
  exact ⟨_, _, exec_decompress t s, exec_decompressSafe t s, hundef, hsame⟩

/-- Settles O42: the decoder is run again on an input that ends before the EOS does. -/
theorem truncatedStreams : Obligations.TruncatedStreams := by
  unfold Obligations.TruncatedStreams
  intro t t' s u m hexec hok hip hm
  rw [exec_decompressSafe] at hexec
  cases hexec
  obtain ⟨c, hc, w, hw⟩ := performDecode_truncated (s := s.latch 4#4 t) rfl hm t' hok hip
  have hcode : ∀ c ∈ endsTooSoon, c.code = codeOf (-4) ∨ c.code = codeOf (-7) := by decide
  have hne : ∀ c ∈ endsTooSoon, c ≠ .ok := by decide
  refine ⟨_, congrArg Host.Outcome.next hw, ?_⟩
  rw [raiseLate_eq (codeOf_code c).symm (hne c hc), codeOf_code]
  exact ⟨hcode c hc, rfl⟩

end Sys2Proof.Proofs
end

section
/-! What CHECKSUM computes (45_checksum.md R350, R353): the byte step folded over the input, from the halves of the
seed. -/

namespace Sys2Proof.Machine

/-! ### The accumulators -/

/-- S1 and S2 as numbers. -/
def CksRegs.toNats (c : CksRegs) : Nat × Nat := (c.s1.toNat, c.s2.toNat)

theorem CksRegs.toNats_step (c : CksRegs) (b : Byte) : (c.step b).toNats = adlerStep c.toNats b := by
  simp only [toNats, step, adlerStep, Config.adlerBase, BitVec.toNat_ofNat, Prod.mk.injEq]
  omega

theorem CksRegs.toNats_foldl_step (c : CksRegs) (bs : List Byte) :
    (bs.foldl step c).toNats = bs.foldl adlerStep c.toNats :=
  (List.foldl_hom toNats fun c b => (toNats_step c b).symm).symm

theorem CksRegs.toNats_ofSeed (seed : BitVec 32) :
    (ofSeed seed).toNats = (seed.toNat % 2 ^ 16, seed.toNat / 2 ^ 16) := by
  simp only [toNats, ofSeed, BitVec.extractLsb'_toNat, Nat.shiftRight_eq_div_pow, Prod.mk.injEq]
  omega

theorem CksRegs.pack_toNat (c : CksRegs) : c.pack.toNat = c.toNats.2 * 2 ^ 16 + c.toNats.1 := by
  rw [pack, BitVec.toNat_append, ← Nat.shiftLeft_add_eq_or_of_lt c.s1.isLt, Nat.shiftLeft_eq, toNats]

theorem CksRegs.ofNat_pack (c : CksRegs) : BitVec.ofNat 32 (c.toNats.2 * 2 ^ 16 + c.toNats.1) = c.pack := by
  rw [← pack_toNat, BitVec.ofNat_toNat, BitVec.setWidth_eq]

theorem CksRegs.ofNat_toNats (c : CksRegs) :
    { s1 := BitVec.ofNat 16 c.toNats.1, s2 := BitVec.ofNat 16 c.toNats.2 } = c := by
  simp [toNats]

/-- The seed is what its own halves pack to, so an empty buffer needs no case of its own (45_checksum.md R353). -/
theorem CksRegs.pack_ofSeed (seed : BitVec 32) : (ofSeed seed).pack = seed := by
  apply BitVec.eq_of_toNat_eq
  rw [pack_toNat, toNats_ofSeed]
  omega

/-- The accumulators after the whole input, where it is readable. -/
def State.cksFinal (s : State) : CksRegs := s.inputList.foldl CksRegs.step (.ofSeed s.snap.seedV)

theorem cksFinal_toNats (s : State) : s.cksFinal.toNats =
    s.inputList.foldl adlerStep (s.snap.seedV.toNat % 2 ^ 16, s.snap.seedV.toNat / 2 ^ 16) := by
  rw [State.cksFinal, CksRegs.toNats_foldl_step, CksRegs.toNats_ofSeed]

/-! ### The loop -/

variable {s : State}

/-- Over bytes that it may read the loop folds the byte step. -/
theorem checksumLoop_of_readable {n i : Nat} (h : SourceOk s i (i + n)) : checksumLoop n i s =
    .ok () { s with cks := ((List.range n).map fun j => s.inAt (i + j)).foldl CksRegs.step s.cks } := by
  induction n generalizing i s with
  | zero => rfl
  | succ n ih =>
    have hread : inByte i s = .ok (s.inAt i) s := inByte_eq_ok.2 ⟨h i le_rfl (by omega), rfl, rfl⟩
    rw [checksumLoop, hread, List.range_succ_eq_map, List.map_cons, List.map_map]
    refine (ih (s := { s with cks := s.cks.step (s.inAt i) }) fun j hj hn => h j (by omega) (by omega)).trans ?_
    simp only [Function.comp_def, Nat.add_right_comm, Nat.add_zero]
    rfl

/-- At a byte that it may not read the loop stops with Error, having changed the accumulators only. -/
theorem checksumLoop_of_excluded {n i : Nat} (h : ¬SourceOk s i (i + n)) :
    ∃ c, checksumLoop n i s = .stop (.status .error) { s with cks := c } := by
  induction n generalizing i s with
  | zero => exact absurd (sourceOk_empty s i) h
  | succ n ih =>
    by_cases h0 : s.dmaOk (s.inAddr i) = true
    · have hread : inByte i s = .ok (s.inAt i) s := inByte_eq_ok.2 ⟨h0, rfl, rfl⟩
      rw [checksumLoop, hread]
      refine ih (s := { s with cks := s.cks.step (s.inAt i) }) fun hrest => h ?_
      exact (sourceOk_one h0).append (by rwa [Nat.add_right_comm] at hrest)
    · exact ⟨s.cks, by rw [checksumLoop, inByte, memRead, if_neg h0]; rfl⟩

/-! ### The perform step -/

/-- A CHECKSUM that succeeds leaves the completion with its result (60_exceptions.md R403). -/
theorem completeOk_latch_checksum (t : Bool) (k : BitVec 32) : (s.latch 5#4 t).complete .ok 0 k =
    { s.ended 5#4 t 0 0 with regs := { (s.ended 5#4 t 0 0).regs with cksum := k } } := by
  simp [State.complete, State.ended, State.latch, viewComplete_eq_after, hasOutput, Status.code, codeOf]

theorem exec_checksum_rejected (t : Bool) (hi : s.inputOk = false) :
    exec (.checksum t) s = .next (s.ended 5#4 t (-10) 0) := by
  rw [exec_checksum, performChecksum_rejected (s := s.latch 5#4 t) hi,
    raiseEarly_latch (c := .invalidArgument) (n := -10) rfl nofun]

theorem performChecksum_empty (hi : s.inputOk = true) (hn : s.snap.srcN.toNat = 0) :
    performChecksum s = s.complete .ok 0 s.snap.seedV := by
  rw [performChecksum, if_neg (by simp [hi]), if_pos hn]

theorem performChecksum_readable (hi : s.inputOk = true) (hn : s.snap.srcN.toNat ≠ 0) (hr : s.inputReadable) :
    performChecksum s = { s with cks := s.cksFinal }.complete .ok 0 s.cksFinal.pack := by
  have hloop := checksumLoop_of_readable (s := { s with cks := .ofSeed s.snap.seedV }) (n := s.snap.srcN.toNat)
    (i := 0) fun i _ hi => hr i (by omega)
  simp only [Nat.zero_add] at hloop
  rw [performChecksum, if_neg (by simp [hi]), if_neg hn, hloop]
  rfl

/-- A byte that `dma_ok` excludes ends CHECKSUM with Error; it has no output buffer to leave unspecified
(60_exceptions.md R405). -/
theorem performChecksum_excluded (hi : s.inputOk = true) (ho : s.snap.opv = 5#4) (hr : ¬s.inputReadable) :
    ∃ c, performChecksum s = { s with cks := c }.raiseEarly .error := by
  have hn : s.snap.srcN.toNat ≠ 0 := fun h0 => hr fun i hi => by omega
  obtain ⟨c, hloop⟩ := checksumLoop_of_excluded (s := { s with cks := .ofSeed s.snap.seedV }) (n := s.snap.srcN.toNat)
    (i := 0) fun h => hr fun i hi => h i i.zero_le (by omega)
  refine ⟨c, ?_⟩
  rw [performChecksum, if_neg (by simp [hi]), if_neg hn, hloop, Res.finish, endStop_status, State.raiseLate,
    havocOutput_of_no_output (by simp [ho, hasOutput])]

theorem exec_checksum_empty (t : Bool) (hi : s.inputOk = true) (hn : s.snap.srcN.toNat = 0) : exec (.checksum t) s =
    .next { s.ended 5#4 t 0 0 with regs := { (s.ended 5#4 t 0 0).regs with cksum := s.snap.seedV } } := by
  rw [exec_checksum, performChecksum_empty (s := s.latch 5#4 t) hi hn, completeOk_latch_checksum]
  rfl

theorem exec_checksum_readable (t : Bool) (hi : s.inputOk = true) (hn : s.snap.srcN.toNat ≠ 0)
    (hr : s.inputReadable) : exec (.checksum t) s = .next { s.ended 5#4 t 0 0 with
      cks := s.cksFinal, regs := { (s.ended 5#4 t 0 0).regs with cksum := s.cksFinal.pack } } := by
  rw [exec_checksum, performChecksum_readable (s := s.latch 5#4 t) hi hn hr]
  exact congrArg Host.Outcome.next (completeOk_latch_checksum (s := { s with cks := s.cksFinal }) t _)

theorem exec_checksum_excluded (t : Bool) (hi : s.inputOk = true) (hr : ¬s.inputReadable) :
    ∃ c, exec (.checksum t) s = .next { s.ended 5#4 t (-1) 0 with cks := c } := by
  obtain ⟨c, h⟩ := performChecksum_excluded (s := s.latch 5#4 t) hi rfl hr
  refine ⟨c, ?_⟩
  rw [exec_checksum, h]
  exact congrArg Host.Outcome.next (raiseEarly_latch (s := { s with cks := c }) (c := .error) (n := -1) rfl nofun)

/-- On a readable buffer, empty or not, CHECKSUM succeeds with the packed accumulators. -/
theorem exec_checksum_ok (t : Bool) (hi : s.inputOk = true) (hr : s.inputReadable) :
    ∃ u, exec (.checksum t) s = .next u ∧ u.regs.code = 0 ∧ u.regs.cksum = s.cksFinal.pack := by
  by_cases hn : s.snap.srcN.toNat = 0
  · refine ⟨_, exec_checksum_empty t hi hn, rfl, ?_⟩
    rw [State.cksFinal, State.inputList, hn]
    exact (CksRegs.pack_ofSeed _).symm
  · exact ⟨_, exec_checksum_readable t hi hn hr, rfl, rfl⟩

theorem cksum_of_exec {u : State} {t : Bool} (hi : s.inputOk = true) (hr : s.inputReadable)
    (h : exec (.checksum t) s = .next u) : u.regs.cksum = s.cksFinal.pack := by
  obtain ⟨v, hv, -, hck⟩ := exec_checksum_ok t hi hr
  cases hv.symm.trans h
  exact hck

end Sys2Proof.Machine

namespace Sys2Proof.Proofs
open Sys2Proof.Machine

/-- Settles O24: the range check, then the loop over a readable input or up to an excluded byte. -/
theorem checksumResult : Obligations.ChecksumResult := by
  unfold Obligations.ChecksumResult
  intro t s
  rw [← cksFinal_toNats]
  refine ⟨fun hbad => exec_checksum_rejected t (inputOk_eq_false_iff.2 hbad), fun hle => ?_⟩
  have hi : s.inputOk = true := Bool.eq_true_of_not_eq_false (mt inputOk_eq_false_iff.1 (Nat.not_lt.2 hle))
  refine ⟨fun h0 => exec_checksum_empty t hi (by simp [h0]), fun hn hr => ?_, exec_checksum_excluded t hi⟩
  dsimp only
  rw [CksRegs.ofNat_toNats, CksRegs.ofNat_pack]
  exact exec_checksum_readable t hi (fun h => hn (BitVec.eq_of_toNat_eq h)) hr

end Sys2Proof.Proofs
end

section
/-! The checksum in closed form, and the changes of its input that it detects (45_checksum.md R354, R355). -/

namespace Sys2Proof.Machine

/-- The sum of the first `n` bytes of `f`. -/
def byteSum (f : Nat → Byte) (n : Nat) : Nat := ∑ i ∈ Finset.range n, (f i).toNat

/-- The same sum with each byte weighted by its distance from the end (45_checksum.md R355). -/
def weightedSum (f : Nat → Byte) (n : Nat) : Nat := ∑ i ∈ Finset.range n, (n - i) * (f i).toNat

variable {f g : Nat → Byte} {n : Nat}

theorem byteSum_succ (f : Nat → Byte) (n : Nat) : byteSum f (n + 1) = byteSum f n + (f n).toNat :=
  Finset.sum_range_succ _ n

/-- One more byte moves each byte one place further from the end. -/
theorem weightedSum_succ (f : Nat → Byte) (n : Nat) :
    weightedSum f (n + 1) = weightedSum f n + byteSum f (n + 1) := by
  have hweight : ∀ i ∈ Finset.range n, (n + 1 - i) * (f i).toNat = (n - i) * (f i).toNat + (f i).toNat := by
    intro i hi
    rw [Nat.sub_add_comm (Finset.mem_range.1 hi).le, Nat.succ_mul]
  rw [byteSum_succ, weightedSum, Finset.sum_range_succ, Finset.sum_congr rfl hweight, Finset.sum_add_distrib,
    Nat.add_sub_cancel_left, Nat.one_mul, Nat.add_assoc]
  rfl

/-- The fold of the two additions in closed form. -/
theorem foldl_adlerStep_eq (f : Nat → Byte) (p : Nat × Nat) (hn : 0 < n) :
    ((List.range n).map f).foldl adlerStep p =
      ((p.1 + byteSum f n) % 65521, (p.2 + n * p.1 + weightedSum f n) % 65521) := by
  induction n, hn using Nat.le_induction with
  | base => simp [adlerStep, byteSum, weightedSum, Nat.add_assoc]
  | succ n _ ih =>
    rw [List.range_succ, List.map_append, List.foldl_append, ih, weightedSum_succ, byteSum_succ, Nat.succ_mul]
    simp only [List.map_cons, List.map_nil, List.foldl_cons, List.foldl_nil, adlerStep, Prod.mk.injEq]
    omega

theorem cksFinal_closedForm {s : State} (hn : 0 < s.snap.srcN.toNat) : s.cksFinal.toNats =
    ((s.snap.seedV.toNat % 2 ^ 16 + byteSum s.inAt s.snap.srcN.toNat) % 65521,
      (s.snap.seedV.toNat / 2 ^ 16 + s.snap.srcN.toNat * (s.snap.seedV.toNat % 2 ^ 16) +
        weightedSum s.inAt s.snap.srcN.toNat) % 65521) := by
  rw [cksFinal_toNats, State.inputList, foldl_adlerStep_eq _ _ hn]

/-! ### The halves of CKSUM -/

theorem CksRegs.pack_low (c : CksRegs) : c.pack.toNat % 2 ^ 16 = c.toNats.1 := by
  have : c.toNats.1 < 2 ^ 16 := c.s1.isLt
  rw [pack_toNat]
  omega

theorem CksRegs.pack_high (c : CksRegs) : c.pack.toNat / 2 ^ 16 = c.toNats.2 := by
  have : c.toNats.1 < 2 ^ 16 := c.s1.isLt
  rw [pack_toNat]
  omega

theorem CksRegs.toNats_of_pack {c d : CksRegs} (h : c.pack = d.pack) : c.toNats = d.toNats :=
  Prod.ext (by rw [← pack_low, h, pack_low]) (by rw [← pack_high, h, pack_high])

/-! ### What a change of the input does to the sums -/

theorem byteSum_sub_of_one_changed {k : Nat} (hk : k < n) (h : ∀ m < n, m ≠ k → g m = f m) :
    (byteSum g n - byteSum f n : ℤ) = (g k).toNat - (f k).toNat := by
  rw [byteSum, byteSum, Nat.cast_sum, Nat.cast_sum, ← Finset.sum_sub_distrib]
  refine Finset.sum_eq_single_of_mem k (Finset.mem_range.2 hk) fun m hm hne => ?_
  rw [h m (Finset.mem_range.1 hm) hne, sub_self]

theorem weightedSum_sub_of_swapped {i j : Nat} (hij : i < j) (hj : j < n) (hi' : g i = f j) (hj' : g j = f i)
    (h : ∀ m < n, m ≠ i → m ≠ j → g m = f m) :
    (weightedSum g n - weightedSum f n : ℤ) = ((j - i : ℕ) : ℤ) * ((f j).toNat - (f i).toNat) := by
  rw [weightedSum, weightedSum, Nat.cast_sum, Nat.cast_sum, ← Finset.sum_sub_distrib,
    Finset.sum_eq_add_of_mem i j (Finset.mem_range.2 (hij.trans hj)) (Finset.mem_range.2 hj) hij.ne, hi', hj']
  · push_cast [hij.le, hj.le, (hij.trans hj).le]
    ring
  · rintro m hm ⟨hmi, hmj⟩
    rw [h m (Finset.mem_range.1 hm) hmi hmj, sub_self]

/-- Two sums that are equal mod 65521 after the same addition differ by a multiple of it. -/
theorem dvd_sub_of_add_mod_eq {a x y : Nat} (h : (a + x) % 65521 = (a + y) % 65521) : (65521 : ℤ) ∣ x - y := by
  omega

/-- Two bytes differ by less than 65521. -/
theorem byte_eq_of_dvd_sub {x y : Byte} (h : (65521 : ℤ) ∣ x.toNat - y.toNat) : x = y := by
  have := x.isLt
  have := y.isLt
  exact BitVec.eq_of_toNat_eq (by omega)

theorem byteSum_mod_ne_of_one_changed {a k : Nat} (hk : k < n) (hne : g k ≠ f k)
    (h : ∀ m < n, m ≠ k → g m = f m) : (a + byteSum g n) % 65521 ≠ (a + byteSum f n) % 65521 := by
  intro heq
  have hdvd := dvd_sub_of_add_mod_eq heq
  rw [byteSum_sub_of_one_changed hk h] at hdvd
  exact hne (byte_eq_of_dvd_sub hdvd)

/-- 65521 is prime, so it divides the product of a distance and a difference of bytes only where it divides one. -/
theorem weightedSum_mod_ne_of_swapped {a i j : Nat} (hij : i < j) (hj : j < n) (hdist : (j - i) % 65521 ≠ 0)
    (hne : f i ≠ f j) (hi' : g i = f j) (hj' : g j = f i) (h : ∀ m < n, m ≠ i → m ≠ j → g m = f m) :
    (a + weightedSum g n) % 65521 ≠ (a + weightedSum f n) % 65521 := by
  intro heq
  have hdvd := dvd_sub_of_add_mod_eq heq
  rw [weightedSum_sub_of_swapped hij hj hi' hj' h] at hdvd
  have hprime : Prime ((65521 : ℕ) : ℤ) := Nat.prime_iff_prime_int.1 (by norm_num)
  rcases hprime.dvd_or_dvd hdvd with hd | hd
  · exact hdist (Nat.mod_eq_zero_of_dvd (Int.natCast_dvd_natCast.1 hd))
  · exact hne (byte_eq_of_dvd_sub hd).symm

end Sys2Proof.Machine

namespace Sys2Proof.Proofs
open Sys2Proof.Machine

/-- Settles O25: the fold in closed form; a swap moves the weighted sum by the distance times the difference. -/
theorem checksumClosedForm : Obligations.ChecksumClosedForm := by
  unfold Obligations.ChecksumClosedForm
  refine ⟨fun t s hi hr hn => ?_, fun t s s' u u' i j hi hr hs hp hij hj hdist hne hi' hj' h hu hu' heq => ?_⟩
  · obtain ⟨u, hu, hcode, hck⟩ := exec_checksum_ok t hi hr
    refine ⟨u, hu, hcode, ?_⟩
    rw [hck, CksRegs.pack_low, CksRegs.pack_high, cksFinal_closedForm hn]
    exact ⟨rfl, rfl⟩
  · have hi₂ : s'.inputOk = true := by rwa [State.inputOk, hs, hp]
    have hr₂ : s'.inputReadable := fun k hk => by
      rw [State.dmaOk, State.hasByte, State.inAddr, hs, hp]
      exact hr k (hs ▸ hk)
    rw [cksum_of_exec hi hr hu, cksum_of_exec hi₂ hr₂ hu'] at heq
    have hsums := CksRegs.toNats_of_pack heq
    have hn : 0 < s.snap.srcN.toNat := Nat.zero_lt_of_lt hj
    rw [cksFinal_closedForm hn, cksFinal_closedForm (by rwa [hs]), hs] at hsums
    exact weightedSum_mod_ne_of_swapped hij hj hdist hne hi' hj' h (congrArg Prod.snd hsums)

/-- Settles O26: the result is a fold over the bytes from the seed, and one changed byte moves the low sum. -/
theorem checksumDetectsOneByte : Obligations.ChecksumDetectsOneByte := by
  unfold Obligations.ChecksumDetectsOneByte
  intro t t' s s' u u' hi hi' hr hr' hsrc hseed hu hu'
  rw [cksum_of_exec hi hr hu, cksum_of_exec hi' hr' hu']
  refine ⟨fun hsame => ?_, fun k hk hne h heq => ?_⟩
  · have hlist : s'.inputList = s.inputList := by
      rw [State.inputList, hsrc]
      exact List.map_congr_left fun k hk => hsame k (List.mem_range.1 hk)
    rw [State.cksFinal, hlist, hseed, State.cksFinal]
  · have hsums := CksRegs.toNats_of_pack heq
    have hn : 0 < s.snap.srcN.toNat := Nat.zero_lt_of_lt hk
    rw [cksFinal_closedForm hn, cksFinal_closedForm (by rwa [hsrc]), hsrc, hseed] at hsums
    exact byteSum_mod_ne_of_one_changed hk hne h (congrArg Prod.fst hsums)

end Sys2Proof.Proofs
end

section
/-! What the actions of a command leave, whether they go on or stop (60_exceptions.md R402, R405): the registers of the
units, and bytes of the output buffer. -/

namespace Sys2Proof.Machine

/-! ### Actions -/

/-- The state without what the actions of a command change: T, the working registers of the units and memory. -/
def State.sansActions (s : State) : State := { s.sansUnits with mem := [] }

/-- The actions of the command that began in `s₀` have reached `s`: in memory only bytes of the output buffer have
changed. -/
structure ActedIn (s₀ s : State) : Prop where
  kept : s.sansActions = s₀.sansActions
  written : Memory.ChangedIn s₀.snap.dstBase.toNat s₀.snap.dstN.toNat s₀.mem s.mem

/-- Whether the action goes on or stops, `P` holds of the state it leaves. -/
def Res.Reaches {α : Type} (P : State → Prop) : Res α → Prop
  | .ok _ t => P t
  | .stop _ t => P t

section
variable {α β : Type} {P : State → Prop} {s₀ s : State}

theorem Res.Reaches.mono {Q : State → Prop} {r : Res α} (h : r.Reaches P) (hPQ : ∀ t, P t → Q t) : r.Reaches Q := by
  cases r with
  | ok _ t => exact hPQ t h
  | stop _ t => exact hPQ t h

theorem Res.Reaches.andThen {r : Res α} {f : α → State → Res β} (h : r.Reaches P)
    (hf : ∀ a t, r = .ok a t → P t → (f a t).Reaches P) : (r.andThen f).Reaches P := by
  cases r with
  | ok a t => exact hf a t rfl h
  | stop e t => exact h

theorem memRead_reaches (h : P s) (a : Nat) : (memRead a s).Reaches P := by
  unfold memRead
  split
  · exact h
  · exact h

theorem inByte_reaches (h : P s) (i : Nat) : (inByte i s).Reaches P := memRead_reaches h _

theorem outByte_reaches (h : P s) (j : Nat) : (outByte j s).Reaches P := memRead_reaches h _

theorem le32_reaches (h : P s) (i : Nat) : (le32 i s).Reaches P :=
  (inByte_reaches h i).andThen fun _ _ _ h => (inByte_reaches h (i + 1)).andThen fun _ _ _ h =>
    (inByte_reaches h (i + 2)).andThen fun _ _ _ h => (inByte_reaches h (i + 3)).andThen fun _ _ _ h => h

theorem actedIn_refl (s : State) : ActedIn s s := ⟨rfl, Memory.changedIn_refl _ _ _⟩

theorem ActedIn.snap_eq (h : ActedIn s₀ s) : s.snap = s₀.snap := (congrArg State.snap h.kept :)

/-- The registers of the units may be set. -/
theorem ActedIn.setUnits (h : ActedIn s₀ s) {t : State} (ht : t.sansActions = s.sansActions) (hm : t.mem = s.mem) :
    ActedIn s₀ t := ⟨ht.trans h.kept, hm ▸ h.written⟩

/-- A byte of the output buffer may be written. -/
theorem ActedIn.write (h : ActedIn s₀ s) {j : Nat} (hj : j < s₀.snap.dstN.toNat) (v : Byte) :
    ActedIn s₀ { s with mem := s.mem.write (s.outAddr j) v } where
  kept := h.kept
  written := by
    rw [State.outAddr, h.snap_eq]
    exact ⟨fun x hx => (Memory.read_write_other _ _ (by omega)).trans (h.written.outside x hx),
      fun hm => Memory.wf_write _ _ (h.written.wf hm)⟩

theorem ActedIn.setOut_reaches (h : ActedIn s₀ s) {j : Nat} (hj : j < s₀.snap.dstN.toNat) (v : Byte) :
    (setOut j v s).Reaches (ActedIn s₀) := by
  unfold setOut memWrite
  split
  · exact h.write hj v
  · exact h

end

/-! ### The decoders and CHECKSUM -/

section
variable {s₀ s : State}

theorem ActedIn.setDec (h : ActedIn s₀ s) (d : DecRegs) : ActedIn s₀ { s with dec := d } := h.setUnits rfl rfl

theorem ActedIn.setSt (h : ActedIn s₀ s) (st : DecState) : ActedIn s₀ (s.setSt st) := h.setUnits rfl rfl

theorem ActedIn.setCks (h : ActedIn s₀ s) (c : CksRegs) : ActedIn s₀ { s with cks := c } := h.setUnits rfl rfl

theorem ActedIn.checksumLoop_reaches (h : ActedIn s₀ s) (n i : Nat) : (checksumLoop n i s).Reaches (ActedIn s₀) := by
  induction n generalizing s i with
  | zero => exact h
  | succ n ih => exact (inByte_reaches h i).andThen fun _ _ _ h => ih (h.setCks _) (i + 1)

theorem ActedIn.copyMatchLoop_reaches (h : ActedIn s₀ s) (dist : Nat) {n : Nat}
    (hn : n ≤ s₀.snap.dstN.toNat - s.dec.op) : (copyMatchLoop n dist s).Reaches (ActedIn s₀) := by
  induction n generalizing s with
  | zero => exact h
  | succ n ih =>
    refine (outByte_reaches h _).andThen fun b t ht h => ?_
    obtain ⟨-, -, rfl⟩ := outByte_eq_ok.1 ht
    refine (h.setOut_reaches (by omega) b).andThen fun _ u hu h => ?_
    obtain ⟨-, rfl⟩ := setOut_eq_ok.1 hu
    exact ih (h.setDec _) (by dsimp only; omega)

theorem ActedIn.copyLitLoop_reaches (h : ActedIn s₀ s) {n : Nat} (hn : n ≤ s₀.snap.dstN.toNat - s.dec.op) :
    (copyLitLoop n s).Reaches (ActedIn s₀) := by
  induction n generalizing s with
  | zero => exact h
  | succ n ih =>
    refine (inByte_reaches h _).andThen fun b t ht h => ?_
    obtain ⟨-, -, rfl⟩ := inByte_eq_ok.1 ht
    refine (h.setOut_reaches (by omega) b).andThen fun _ u hu h => ?_
    obtain ⟨-, rfl⟩ := setOut_eq_ok.1 hu
    exact ih (h.setDec _) (by dsimp only; omega)

/-- CopyMatch checks its room before it writes (43_stream_opcodes.md R274). -/
theorem ActedIn.copyMatch_reaches (h : ActedIn s₀ s) (len dist : Nat) :
    (copyMatch len dist s).Reaches (ActedIn s₀) := by
  unfold copyMatch
  rw [h.snap_eq]
  split
  · exact h
  split
  · exact h
  · next hn => exact h.copyMatchLoop_reaches dist (Nat.le_of_not_lt hn)

/-- CopyLit checks its room before it writes (43_stream_opcodes.md R275). -/
theorem ActedIn.copyLit_reaches (h : ActedIn s₀ s) (n : Nat) : (copyLit n s).Reaches (ActedIn s₀) := by
  unfold copyLit
  rw [h.snap_eq]
  split
  · exact h
  · next hn =>
    split
    · exact h
    · exact h.copyLitLoop_reaches (Nat.le_of_not_lt hn)

theorem ActedIn.trail_reaches (h : ActedIn s₀ s) (n : Nat) : (trail n s).Reaches (ActedIn s₀) := by
  unfold trail
  split
  · exact (h.copyLit_reaches n).andThen fun _ _ _ h => h.setSt _
  · exact h.setSt _

theorem ActedIn.streamActions_reaches (h : ActedIn s₀ s) (i : Instr) : (streamActions i s).Reaches (ActedIn s₀) := by
  cases i with
  | litFirst n | litRun n => exact (h.copyLit_reaches n).andThen fun _ _ _ h => h.setSt _
  | m1n | m1f | m2s | m2l | m3 | m4 => exact (h.copyMatch_reaches _ _).andThen fun _ _ _ h => h.trail_reaches _
  | _ => exact h

end

/-! ### The encoder -/

/-- The actions of the COMPRESS that began in `s₀` have reached `s`, with OPOS inside the output buffer. -/
structure EncodingIn (s₀ s : State) : Prop where
  acted : ActedIn s₀ s
  room : s.enc.opos ≤ s₀.snap.dstN.toNat

section
variable {s₀ s t : State}

/-- Encoder registers other than OPOS may be set, and so may the match finder's and T. -/
theorem EncodingIn.setRegs (h : EncodingIn s₀ s) (ht : t.sansActions = s.sansActions) (hm : t.mem = s.mem)
    (ho : t.enc.opos = s.enc.opos) : EncodingIn s₀ t := ⟨h.acted.setUnits ht hm, ho.trans_le h.room⟩

theorem EncodingIn.setEnc (h : EncodingIn s₀ s) {e : EncRegs} (ho : e.opos = s.enc.opos := by rfl) :
    EncodingIn s₀ { s with enc := e } := h.setRegs rfl rfl ho

theorem EncodingIn.setMf (h : EncodingIn s₀ s) (m : MfRegs) : EncodingIn s₀ { s with mf := m } := h.setRegs rfl rfl rfl

theorem EncodingIn.emit_reaches (h : EncodingIn s₀ s) (v : Byte) : (emit v s).Reaches (EncodingIn s₀) := by
  unfold emit setOut memWrite
  split
  · exact h
  · next hfull =>
    rw [h.acted.snap_eq] at hfull
    have hroom := Nat.lt_of_not_le hfull
    split
    · have hw := h.acted.write hroom v
      exact ⟨⟨hw.kept, hw.written⟩, hroom⟩
    · exact h

theorem EncodingIn.emitBytes_reaches (h : EncodingIn s₀ s) (bs : List Byte) :
    (emitBytes bs s).Reaches (EncodingIn s₀) := by
  induction bs generalizing s with
  | nil => exact h
  | cons b bs ih => exact (h.emit_reaches b).andThen fun _ _ _ h => ih h

theorem EncodingIn.emitLits_reaches (h : EncodingIn s₀ s) (n src : Nat) :
    (emitLits n src s).Reaches (EncodingIn s₀) := by
  induction n generalizing s src with
  | zero => exact h
  | succ n ih =>
    exact (inByte_reaches h src).andThen fun b _ _ h => (h.emit_reaches b).andThen fun _ _ _ h => ih h _

/-- The byte before the last one is in the output buffer, once something is written. -/
theorem EncodingIn.backPatch_reaches (h : EncodingIn s₀ s) (n : Nat) (hp : 0 < s.enc.opos) :
    (backPatch n s).Reaches (EncodingIn s₀) := by
  have hroom := h.room
  refine (outByte_reaches h _).andThen fun b t ht h => ?_
  obtain ⟨-, -, rfl⟩ := outByte_eq_ok.1 ht
  unfold setOut memWrite
  split
  · exact ⟨h.acted.write (by omega) _, hroom⟩
  · exact h

/-- The header of a literal run is a back-patch only after a match (42_compressor.md R240). -/
theorem EncodingIn.litHeader_reaches (h : EncodingIn s₀ s) (n : Nat) (hn : s.enc.opos = 0 → 4 ≤ n) :
    (if n ≤ 3 then backPatch n s else emitBytes (litRunHeader n) s).Reaches (EncodingIn s₀) := by
  split
  · exact h.backPatch_reaches n (by omega)
  · exact h.emitBytes_reaches _

theorem EncodingIn.encLit_reaches (h : EncodingIn s₀ s) (src n : Nat) (hn : s.enc.opos = 0 → 4 ≤ n) :
    (encLit src n s).Reaches (EncodingIn s₀) := by
  unfold encLit
  split
  · exact h
  · exact (h.litHeader_reaches n hn).andThen fun _ _ _ h => h.emitLits_reaches n src

/-- A tail of a short source has a header of its own (42_compressor.md R244). -/
theorem EncodingIn.encTail_reaches (h : EncodingIn s₀ s) (n : Nat) : (encTail n s).Reaches (EncodingIn s₀) := by
  unfold encTail
  split
  · exact h
  · refine Res.Reaches.andThen (P := EncodingIn s₀) ?_ fun _ _ _ h => h.emitLits_reaches n _
    split
    · exact h.emitBytes_reaches _
    · exact h.litHeader_reaches n (by omega)

theorem EncodingIn.probe_reaches (h : EncodingIn s₀ s) : (probe s).Reaches (EncodingIn s₀) :=
  (le32_reaches h _).andThen fun dv t _ h =>
    (le32_reaches (s := mfProbe (mfHash dv) t) (h.setRegs rfl rfl rfl) _).andThen fun _ _ _ h => h

theorem mfSame_reaches {P : State → Prop} (h : P s) (j : Nat) : (mfSame j s).Reaches P :=
  (inByte_reaches h _).andThen fun _ _ _ h => (inByte_reaches h _).andThen fun _ _ _ h => h

theorem EncodingIn.mfExtend_reaches (h : EncodingIn s₀ s) (fuel : Nat) :
    (mfExtend fuel s).Reaches (EncodingIn s₀) := by
  induction fuel generalizing s with
  | zero => exact h
  | succ fuel ih =>
    have h' : EncodingIn s₀ { s with mf := { s.mf with mlen := s.mf.mlen + 1 } } := h.setMf _
    unfold mfExtend
    dsimp only
    split
    · exact h'
    · refine (mfSame_reaches h' _).andThen fun same t _ h => ?_
      split
      · exact ih h
      · exact h

theorem EncodingIn.mfLength_reaches (h : EncodingIn s₀ s) : (mfLength s).Reaches (EncodingIn s₀) := by
  have h4 : EncodingIn s₀ { s with mf := { s.mf with mlen := Config.minMatch } } := h.setMf _
  refine Res.Reaches.andThen (P := EncodingIn s₀) ((mfSame_reaches h4 _).andThen fun same t _ h => ?_) fun _ _ _ h =>
    h.setMf _
  split
  · exact h.mfExtend_reaches _
  · exact h

/-- Before the first match is written at least 4 literals are pending at P (42_compressor.md R232). -/
def PendingAtP (s : State) : Prop := s.enc.opos = 0 → s.enc.ii + 4 ≤ s.enc.p + s.enc.ti

theorem pendingAtP_startBlock (s : State) : PendingAtP (startBlock s) := fun _ => by
  rw [startBlock_enc]
  dsimp only
  split <;> omega

theorem PendingAtP.skipStep (h : PendingAtP s) : PendingAtP (skipStep s) := fun h0 => by
  have := h h0
  rw [skipStep_enc]
  dsimp only
  omega

/-- A match that is written leaves OPOS past it. -/
theorem opos_pos_of_emitMatch {u : Unit} (h : emitMatch s = .ok u t) : 0 < t.enc.opos := by
  simp only [emitMatch, andThen_eq_ok] at h
  obtain ⟨_, _, -, _, v, -, h⟩ := h
  rw [encMatch_shape h]
  exact Nat.add_pos_right _ (Nat.lt_of_lt_of_le Nat.two_pos (two_le_matchBytes_length _ _))

theorem EncodingIn.emitMatch_reaches (h : EncodingIn s₀ s) (hp : PendingAtP s) :
    (emitMatch s).Reaches (EncodingIn s₀) := by
  have h' : EncodingIn s₀ { s with enc := { s.enc with ii := s.enc.ii - s.enc.ti, ti := 0 } } := h.setEnc
  unfold emitMatch
  refine (h'.encLit_reaches _ _ fun h0 => ?_).andThen fun _ _ _ h => h.mfLength_reaches.andThen fun _ _ _ h =>
    EncodingIn.emitBytes_reaches h.setEnc _
  have := hp h0
  dsimp only
  omega

theorem EncodingIn.scanLoop_reaches (h : EncodingIn s₀ s) (hp : PendingAtP s) (fuel : Nat) (skip : Bool) :
    (scanLoop fuel skip s).Reaches (EncodingIn s₀) := by
  induction fuel generalizing s skip with
  | zero => exact h
  | succ fuel ih =>
    have hskipped : EncodingIn s₀ (s.skipped skip) ∧ PendingAtP (s.skipped skip) := by
      cases skip with
      | false => exact ⟨h, hp⟩
      | true => exact ⟨h.setRegs rfl rfl rfl, hp.skipStep⟩
    obtain ⟨h, hp⟩ := hskipped
    rw [scanLoop_succ]
    split
    · exact h
    · refine h.probe_reaches.andThen fun hit t ht h => ?_
      have hpt : PendingAtP t := by rw [PendingAtP, probe_shape ht]; exact hp
      split
      · exact (h.emitMatch_reaches hpt).andThen fun _ u hu h =>
          ih h (fun h0 => absurd h0 (opos_pos_of_emitMatch hu).ne') false
      · exact ih h hpt true

theorem EncodingIn.encBlock_reaches (h : EncodingIn s₀ s) : (encBlock s).Reaches (EncodingIn s₀) := by
  have hstart : EncodingIn s₀ (startBlock s) := h.setRegs rfl rfl rfl
  exact (hstart.scanLoop_reaches (pendingAtP_startBlock s) _ _).andThen fun _ _ _ h => h.setEnc

theorem EncodingIn.blockLoop_reaches (h : EncodingIn s₀ s) (fuel : Nat) :
    (blockLoop fuel s).Reaches (EncodingIn s₀) := by
  induction fuel generalizing s with
  | zero => exact h
  | succ fuel ih =>
    unfold blockLoop
    split
    · exact h
    · exact (EncodingIn.encBlock_reaches h.setEnc).andThen fun _ _ _ h => ih h.setEnc

theorem compressStream_reaches (s : State) : (compressStream s).Reaches (EncodingIn s) := by
  have hstart : EncodingIn s (startCompress s) := ⟨(actedIn_refl s).setUnits rfl rfl, Nat.zero_le _⟩
  exact (hstart.blockLoop_reaches _).andThen fun _ _ _ h => (h.encTail_reaches _).andThen fun _ _ _ h =>
    h.emitBytes_reaches _

end

end Sys2Proof.Machine
end

section
/-! How the commands end (60_exceptions.md R403 to R408): in a completion that writes the result registers, over free
output bytes if an action raised an error, or UNDEFINED. -/

namespace Sys2Proof.Machine

/-- How a command whose actions began in `s` ends. -/
inductive CommandEnd (s : State) : State → Prop where
  | ok {t : State} (n : Nat) (k : BitVec 32) (h : ActedIn s t) : CommandEnd s (t.complete .ok n k)
  | error {t : State} (c : Status) (h : ActedIn s t) : CommandEnd s (t.raiseLate c)
  | undefined {t : State} (h : ActedIn s t) : CommandEnd s t.markUndefined

section
variable {s t u : State} {c : Status}

/-! ### The perform steps -/

theorem ActedIn.endStop (h : ActedIn s t) (e : Stop) : CommandEnd s (t.endStop e) := by
  cases e with
  | status c => exact .error c h
  | undefined => exact .undefined h

theorem Res.Reaches.finish {α : Type} {r : Res α} {f : α → State → State} (h : r.Reaches (ActedIn s))
    (hf : ∀ a t, ActedIn s t → CommandEnd s (f a t)) : CommandEnd s (r.finish f) := by
  cases r with
  | ok a t => exact hf a t h
  | stop e t => exact ActedIn.endStop h e

theorem performCompress_commandEnd (hi : s.regs.initDone = true) (ha : s.argsOk = true) :
    CommandEnd s (performCompress s) := by
  rw [performCompress_pastChecks_eq hi ha]
  exact ((compressStream_reaches s).mono fun _ h => h.acted).finish fun _ _ h => .ok _ _ h

theorem performChecksum_commandEnd (ha : s.inputOk = true) : CommandEnd s (performChecksum s) := by
  unfold performChecksum
  rw [if_neg (by simp [ha])]
  split
  · exact .ok _ _ (actedIn_refl s)
  · exact (((actedIn_refl s).setCks _).checksumLoop_reaches _ 0).finish fun _ _ h => .ok _ _ h

theorem ActedIn.finalChecks (h : ActedIn s t) : CommandEnd s (finalChecks t) := by
  unfold Machine.finalChecks
  split
  · exact .error _ h
  split
  · exact .error _ h
  · exact .ok _ _ h

/-- A pass of the decode loop acts, or ends the decode. -/
theorem ActedIn.streamStep (h : ActedIn s t) : ActedIn s (streamStep t) ∨ CommandEnd s (streamStep t) := by
  unfold Machine.streamStep
  cases fetchStream t with
  | stop e => exact .inr (h.endStop e)
  | header i n =>
    have hadv : ActedIn s (t.advanceIp n) := h.setUnits rfl rfl
    dsimp only
    cases hi : i.isEos with
    | true => rw [runStream_eos hi]; exact .inr hadv.finalChecks
    | false =>
      have hr := hadv.streamActions_reaches i
      rw [runStream_actions hi]
      cases hact : streamActions i (t.advanceIp n) with
      | ok _ u => rw [hact] at hr; exact .inl hr
      | stop e u => rw [hact] at hr; exact .inr (ActedIn.endStop hr e)

theorem CommandEnd.decoding_eq (h : CommandEnd s u) : u.decoding = false := by
  cases h with
  | ok | error | undefined => rfl

/-- The loop of a decoder begins with the decode and ends it. -/
theorem performDecode_commandEnd (ha : s.argsOk = true) : CommandEnd (startDecode s) (performDecode s) := by
  obtain ⟨t, ht, hd, heq⟩ := performDecode_last ha (actedIn_refl (startDecode s)) fun t ht hd =>
    ht.streamStep.resolve_right fun hend => by rw [hend.decoding_eq] at hd; cases hd
  rw [heq]
  refine ht.streamStep.resolve_left fun hact => ?_
  have : (streamStep t).decoding = true := (congrArg State.decoding hact.kept :)
  rw [this] at hd
  cases hd

/-! ### The output buffer -/

/-- The output bytes of accepted buffers all exist (40_commands.md R163). -/
theorem outCount_of_argsOk (ha : s.argsOk = true) : s.outCount = s.snap.dstN.toNat := by
  have hle : s.snap.dstBase.toNat + s.snap.dstN.toNat ≤ 2 ^ s.platform.xlen := by
    by_contra hbad
    rw [argsOk_eq_false_iff.2 (.inr (.inl (Nat.lt_of_not_le hbad)))] at ha
    cases ha
  exact Nat.min_eq_left (by omega)

/-- What an error after the first access leaves in memory (60_exceptions.md R405). -/
structure OutputFree (s u : State) : Prop where
  bytes : ∀ j < s.snap.dstN.toNat, u.outAt j = Config.freeByte (s.draws + j)
  draws : u.draws = s.draws + s.snap.dstN.toNat

theorem havocOutput_outputFree (ho : hasOutput s.snap.opv = true) (ha : s.argsOk = true) (hwf : s.mem.wf = true) :
    OutputFree s s.havocOutput := by
  rw [State.havocOutput, if_pos ho, outCount_of_argsOk ha]
  exact ⟨fun j hj => Memory.read_havoc_inside _ _ _ _ hwf hj, rfl⟩

theorem ActedIn.raiseLate_outputFree (h : ActedIn s t) (ho : hasOutput s.snap.opv = true) (ha : s.argsOk = true)
    (hwf : s.mem.wf = true) : OutputFree s (t.raiseLate c) := by
  have hargs : t.argsOk = s.argsOk := (congrArg State.argsOk h.kept :)
  have hdraws : t.draws = s.draws := (congrArg State.draws h.kept :)
  obtain ⟨hbytes, hd⟩ := havocOutput_outputFree (s := t) (by rwa [h.snap_eq]) (hargs.trans ha) (h.written.wf hwf)
  rw [h.snap_eq, hdraws] at hbytes hd
  rw [raiseLate_shape]
  refine ⟨fun j hj => ?_, hd⟩
  rw [← hbytes j hj, State.outAt, State.outAt, State.outAddr, State.outAddr, havocOutput_snap]
  rfl

theorem ActedIn.raiseLate_outside (h : ActedIn s t) :
    sameOutside s (t.raiseLate c) s.snap.dstBase.toNat s.snap.dstN.toNat := fun b hb => by
  rw [raiseLate_mem, havocOutput_read_outside _ _ (by rwa [h.snap_eq])]
  exact h.written.outside b hb

end

end Sys2Proof.Machine
end

section
/-! Which registers a completion writes (60_exceptions.md R403), what an error leaves in the output buffer (R405), and the
fault marks (R407, R408). -/

namespace Sys2Proof.Machine

variable {s u : State} {c : Status} {n : Nat} {k : BitVec 32}

/-! ### Results -/

/-- In `u` the command that began in `s` has completed with status `c` and results `n` and `k`. -/
structure WroteResults (s : State) (c : Status) (n : Nat) (k : BitVec 32) (u : State) : Prop where
  regs : u.regs = (s.complete c n k).regs
  view : u.view = s.view.after s.snap
  snap : u.snap = s.snap
  outside : u.decoding = false

theorem wroteResults_complete (s : State) (c : Status) (n : Nat) (k : BitVec 32) :
    WroteResults s c n k (s.complete c n k) := ⟨rfl, viewComplete_eq_after _ _, rfl, rfl⟩

/-- The actions of a command leave all that a completion reads, but memory, as it was. -/
theorem ActedIn.complete_wroteResults {t : State} (h : ActedIn s t) : WroteResults s c n k (t.complete c n k) := by
  have hregs : (t.complete c n k).regs = (s.complete c n k).regs :=
    (congrArg (fun v : State => (v.complete c n k).regs) h.kept :)
  have hview : t.view = s.view := (congrArg State.view h.kept :)
  refine ⟨hregs, ?_, h.snap_eq, rfl⟩
  rw [complete_view, viewComplete_eq_after, hview, h.snap_eq]

theorem ActedIn.raiseLate_wroteResults {t : State} (h : ActedIn s t) :
    WroteResults s c 0 t.regs.cksum (t.raiseLate c) := by
  rw [raiseLate_shape]
  obtain ⟨hregs, hview, hsnap, hd⟩ := h.complete_wroteResults (c := c) (n := 0) (k := t.regs.cksum)
  exact ⟨hregs, hview, hsnap, hd⟩

theorem CommandEnd.wroteResults (h : CommandEnd s u) (hu : u.undefinedMark = false) :
    ∃ c n k, WroteResults s c n k u := by
  cases h with
  | ok n k h => exact ⟨_, _, _, h.complete_wroteResults⟩
  | error c h => exact ⟨_, _, _, h.raiseLate_wroteResults⟩
  | undefined h => cases hu

theorem performCompress_wroteResults (s : State) (hu : (performCompress s).undefinedMark = false) :
    ∃ c n k, WroteResults s c n k (performCompress s) := by
  cases hi : s.regs.initDone with
  | false => rw [performCompress_uninit hi]; exact ⟨_, _, _, wroteResults_complete s _ _ _⟩
  | true =>
    cases ha : s.argsOk with
    | false => rw [performCompress_rejected hi ha]; exact ⟨_, _, _, wroteResults_complete s _ _ _⟩
    | true => exact (performCompress_commandEnd hi ha).wroteResults hu

theorem performChecksum_wroteResults (s : State) (hu : (performChecksum s).undefinedMark = false) :
    ∃ c n k, WroteResults s c n k (performChecksum s) := by
  cases ha : s.inputOk with
  | false => rw [performChecksum_rejected ha]; exact ⟨_, _, _, wroteResults_complete s _ _ _⟩
  | true => exact (performChecksum_commandEnd ha).wroteResults hu

theorem performDecode_wroteResults (s : State) (hu : (performDecode s).undefinedMark = false) :
    ∃ c n k, WroteResults s c n k (performDecode s) := by
  cases ha : s.argsOk with
  | false => rw [performDecode_rejected ha]; exact ⟨_, _, _, wroteResults_complete s _ _ _⟩
  | true =>
    obtain ⟨c, n, k, hregs, hview, hsnap, hd⟩ := (performDecode_commandEnd ha).wroteResults hu
    exact ⟨c, n, k, hregs, hview, hsnap, hd⟩

theorem performInit_wroteResults (t : Bool) (s : State) :
    WroteResults (s.latch 1#4 t) .ok 0 s.regs.cksum (performInit t s) :=
  ⟨rfl, viewComplete_eq_after _ _, rfl, rfl⟩

/-- Every command but NONE writes the results of its completion, unless it is UNDEFINED (60_exceptions.md R403). -/
theorem wroteResults_of_ran {i : Instr} (h : Ran s i u) (hi : i.isCommand = true) (hn : ∀ t, i ≠ .noCommand t)
    (hu : u.undefinedMark = false) :
    ∃ op t, i = commandOf op t ∧ ∃ c n k, WroteResults (s.latch op t) c n k u := by
  cases h with
  | noCommandBusy t | noCommandIdle t => exact absurd rfl (hn t)
  | init t => exact ⟨1#4, t, rfl, _, _, _, performInit_wroteResults t s⟩
  | compress t => exact ⟨2#4, t, rfl, performCompress_wroteResults _ hu⟩
  | decompress t => exact ⟨3#4, t, rfl, performDecode_wroteResults _ hu⟩
  | decompressSafe t => exact ⟨4#4, t, rfl, performDecode_wroteResults _ hu⟩
  | checksum t => exact ⟨5#4, t, rfl, performChecksum_wroteResults _ hu⟩
  | reserved t i op hp =>
    exact ⟨op, t, reserved_eq_commandOf t _ hp, _, _, _, wroteResults_complete (s.latch op t) .notYetImplemented _ _⟩
  | stream i hs => rw [hs] at hi; cases hi

theorem WroteResults.busy_eq (h : WroteResults s c n k u) : u.regs.busy = false := by rw [h.regs]; rfl

/-- An error has no results (60_exceptions.md R403). -/
theorem WroteResults.of_code_ne_zero (h : WroteResults s c n k u) (hne : u.regs.code ≠ 0) :
    u.regs.outLen = 0 ∧ u.regs.cksum = s.regs.cksum ∧ u.regs.initDone = s.regs.initDone := by
  have hc : c ≠ .ok := by
    rintro rfl
    rw [h.regs] at hne
    exact hne rfl
  rw [h.regs, complete_regs]
  simp only [hc, false_and, if_false, and_self]

theorem WroteResults.outLen_eq_zero (h : WroteResults s c n k u) (ho : hasOutput s.snap.opv = false) :
    u.regs.outLen = 0 := by
  rw [h.regs, complete_regs]
  exact if_neg (by simp [ho])

theorem WroteResults.cksum_eq (h : WroteResults s c n k u) (ho : s.snap.opv ≠ 5#4) : u.regs.cksum = s.regs.cksum := by
  rw [h.regs, complete_regs]
  exact if_neg fun hc => ho hc.2

theorem WroteResults.initDone_eq (h : WroteResults s c n k u) (ho : s.snap.opv ≠ 1#4) :
    u.regs.initDone = s.regs.initDone := by
  rw [h.regs, complete_regs]
  exact if_neg fun hc => ho hc.2

/-- The commands with an output buffer (30_encoding.md R110). -/
theorem commandOf_of_hasOutput : ∀ (op : BitVec 4) (t : Bool), hasOutput op = true →
    commandOf op t = .compress t ∨ commandOf op t = .decompress t ∨ commandOf op t = .decompressSafe t := by decide

/-! ### The output buffer after an error -/

/-- Memory after an error of an accepted command whose actions began in `s`. -/
theorem CommandEnd.output_of_error (h : CommandEnd s u) (hu : u.undefinedMark = false) (hne : u.regs.code ≠ 0)
    (ho : hasOutput s.snap.opv = true) (ha : s.argsOk = true) (hwf : s.mem.wf = true) :
    OutputFree s u ∧ sameOutside s u s.snap.dstBase.toNat s.snap.dstN.toNat := by
  cases h with
  | ok n k h => exact absurd rfl hne
  | error c h => exact ⟨h.raiseLate_outputFree ho ha hwf, h.raiseLate_outside⟩
  | undefined h => cases hu

/-- What an error of a command with an output buffer leaves in memory: all of it as it was if a check before the first
access failed (`early`), else free output bytes. -/
structure AfterError (early : Prop) (s u : State) : Prop where
  unchanged : early → u.mem = s.mem
  free : ¬early → OutputFree s u
  outside : sameOutside s u s.snap.dstBase.toNat s.snap.dstN.toNat

section
variable {early : Prop}

theorem afterError_of_early (he : early) (hm : u.mem = s.mem) : AfterError early s u :=
  ⟨fun _ => hm, absurd he, fun b _ => by rw [hm]⟩

theorem afterError_of_late (he : ¬early)
    (h : OutputFree s u ∧ sameOutside s u s.snap.dstBase.toNat s.snap.dstN.toNat) : AfterError early s u :=
  ⟨fun h => absurd h he, fun _ => h.1, h.2⟩

/-- The clauses of 60_exceptions.md R405, for another name `early'` of the checks. -/
theorem AfterError.clauses {early' : Prop} (h : AfterError early s u) (he : early' ↔ early) :
    (early' → u.mem = s.mem) ∧
    (¬early' → (∀ j < s.snap.dstN.toNat, u.outAt j = Config.freeByte (s.draws + j)) ∧
      u.draws = s.draws + s.snap.dstN.toNat) ∧
    sameOutside s u s.snap.dstBase.toNat s.snap.dstN.toNat := by
  refine ⟨fun h' => h.unchanged (he.1 h'), fun h' => ?_, h.outside⟩
  have hfree := h.free (mt he.2 h')
  exact ⟨hfree.bytes, hfree.draws⟩

end

theorem performCompress_afterError (ho : hasOutput s.snap.opv = true) (hwf : s.mem.wf = true)
    (hu : (performCompress s).undefinedMark = false) (hne : (performCompress s).regs.code ≠ 0) :
    AfterError (s.regs.initDone = false ∨ s.argsOk = false) s (performCompress s) := by
  cases hi : s.regs.initDone with
  | false => rw [performCompress_uninit hi]; exact afterError_of_early (.inl rfl) rfl
  | true =>
    cases ha : s.argsOk with
    | false => rw [performCompress_rejected hi ha]; exact afterError_of_early (.inr rfl) rfl
    | true => exact afterError_of_late (by simp) ((performCompress_commandEnd hi ha).output_of_error hu hne ho ha hwf)

theorem performDecode_afterError (ho : hasOutput s.snap.opv = true) (hwf : s.mem.wf = true)
    (hu : (performDecode s).undefinedMark = false) (hne : (performDecode s).regs.code ≠ 0) :
    AfterError (s.argsOk = false) s (performDecode s) := by
  cases ha : s.argsOk with
  | false => rw [performDecode_rejected ha]; exact afterError_of_early rfl rfl
  | true =>
    obtain ⟨⟨hbytes, hdraws⟩, hout⟩ := (performDecode_commandEnd ha).output_of_error hu hne ho ha hwf
    exact afterError_of_late (by simp) ⟨⟨hbytes, hdraws⟩, hout⟩

/-! ### Marked states -/

theorem step_of_marked_reset {rest : List HostEvent} (h : s.marked = true) (hi : s.inbox = .reset :: rest) :
    step s = .next { s with inbox := rest }.resetBlock := by
  simp only [step, nextAction_of_marked h, markedTurn, hi]

theorem step_of_marked_fault (h : s.marked = true) (hi : ∀ rest, s.inbox ≠ .reset :: rest) :
    step s = .fault (if s.hostRace then .hostRace else .undefinedRun) := by
  have hturn : markedTurn s = .stop (if s.hostRace then .hostRace else .undefinedRun) := by
    unfold markedTurn
    split
    · next rest hr => exact absurd hr (hi rest)
    · rfl
  rw [step, nextAction_of_marked h, hturn]

/-- A run with a mark leaves any canonical memory (log 26). -/
theorem resetBlock_wf_of_marked (h : s.marked = true) : s.resetBlock.mem.wf = true := by
  rw [resetBlock_mem, State.abandon, if_pos h]
  exact Memory.wf_ofCells _ _

end Sys2Proof.Machine

namespace Sys2Proof.Proofs
open Sys2Proof.Machine

/-- Settles O19: every command but NONE ends in the completion of R403, with the results of its own OP code. -/
theorem completionWritesResults : Obligations.CompletionWritesResults := by
  unfold Obligations.CompletionWritesResults
  intro i s u hi hn hexec hu
  obtain ⟨op, t, rfl, c, n, k, h⟩ := wroteResults_of_ran (ran_of_exec hexec) hi hn hu
  refine ⟨h.busy_eq, h.outside, ?_, h.of_code_ne_zero, fun hout => h.outLen_eq_zero ?_, fun hck => h.cksum_eq ?_,
    fun hin => h.initDone_eq ?_, ?_⟩
  · rw [h.view, h.snap]; rfl
  · refine Bool.eq_false_iff.2 fun ho => ?_
    obtain ⟨hc, hd, hs⟩ := hout t
    rcases commandOf_of_hasOutput op t ho with h | h | h
    · exact hc h
    · exact hd h
    · exact hs h
  · rintro (rfl : op = 5#4); exact hck t rfl
  · rintro (rfl : op = 1#4); exact hin t rfl
  · rintro ⟨t', ht⟩
    rw [ht, exec_init, performInit_eq] at hexec
    cases hexec
    exact ⟨rfl, rfl⟩

/-- Settles O18: a check that fails comes before the first access, and any other error is raised over free output
bytes. -/
theorem outputAfterErrors : Obligations.OutputAfterErrors := by
  unfold Obligations.OutputAfterErrors
  intro t s u hwf
  refine ⟨fun p hp h => ?_, fun i hi h hu hne => ?_⟩
  · rw [exec_reserved p hp] at h; cases h; rfl
  simp only [List.mem_cons, List.not_mem_nil, or_false] at hi
  rcases hi with rfl | rfl | rfl
  · cases h
    exact (performCompress_afterError (s := s.latch 2#4 t) rfl hwf hu hne).clauses (or_congr_left (and_iff_right rfl))
  · cases h
    exact (performDecode_afterError (s := s.latch 3#4 t) rfl hwf hu hne).clauses (or_iff_right fun h => nomatch h.1)
  · cases h
    exact (performDecode_afterError (s := s.latch 4#4 t) rfl hwf hu hne).clauses (or_iff_right fun h => nomatch h.1)

/-- Settles O53: from a marked state only the platform's reset goes on. -/
theorem markedStatesStop : Obligations.MarkedStatesStop := by
  unfold Obligations.MarkedStatesStop
  intro s
  refine ⟨fun hi => ⟨fun hr => ?_, fun hr hu => ?_⟩, fun rest hi hm => ?_⟩
  · rw [step_of_marked_fault (marked_iff.2 (.inl hr)) hi, if_pos hr]
  · rw [step_of_marked_fault (marked_iff.2 (.inr hu)) hi, if_neg (by simp [hr])]
  · have hm := marked_iff.2 hm
    exact ⟨_, step_of_marked_reset hm hi, ⟨rfl, rfl, rfl⟩, rfl, rfl,
      resetBlock_wf_of_marked (s := { s with inbox := rest }) hm⟩

end Sys2Proof.Proofs
end

section
/-! The platform's reset (70_reset_and_hazards.md R450, R451): the step it makes whatever the block was doing, and what
it leaves of an idle block and of a pending command. -/

namespace Sys2Proof.Machine

variable {s : State} {rest : List HostEvent}

/-! ### The step of a reset -/

/-- A reset waits for the end of an unmarked decode (log 1); at any other time it is the next move, from a marked state
too (log 26). -/
theorem step_of_reset (hi : s.inbox = .reset :: rest)
    (h : s.decoding = false ∨ s.hostRace = true ∨ s.undefinedMark = true) :
    step s = .next { s with inbox := rest }.resetBlock := by
  cases hm : s.marked with
  | true => exact step_of_marked_reset hm hi
  | false =>
    have hmark := mt marked_iff.2 (Bool.eq_false_iff.1 hm)
    obtain ⟨hr, hu⟩ := Bool.or_eq_false_iff.1 hm
    exact step_of_event ⟨hr, hu, h.resolve_right hmark⟩ hi rfl

/-! ### What a reset leaves -/

/-- The reset of an unmarked idle block leaves memory as it is: there is no run to abandon. -/
theorem resetBlock_mem_of_idle (hm : s.marked = false) (hb : s.regs.busy = false) : s.resetBlock.mem = s.mem := by
  rw [resetBlock_mem, abandon_of_idle hm hb]

theorem resetBlock_view_of_idle (hb : s.regs.busy = false) :
    s.resetBlock.view = { s.view with resultsSeen := true, cksumSeen := true } := by
  simp [State.resetBlock, hb]

/-- An abandoned command counts as one whose end the host has not observed, but the registers have no results of it
(log 10). -/
theorem resetBlock_view_of_busy (hb : s.regs.busy = true) :
    s.resetBlock.view = { s.view.after s.snap with resultsSeen := true, cksumSeen := true } := by
  rw [State.resetBlock, if_pos hb, ← viewComplete_eq_after]
  rfl

/-- A reset while BUSY leaves free values in the output buffer, and the rest of memory as it was
(70_reset_and_hazards.md R451). -/
theorem resetBlock_mem_of_busy (hm : s.marked = false) (hb : s.regs.busy = true) :
    s.resetBlock.mem = s.havocOutput.mem := by
  rw [resetBlock_mem, State.abandon, if_neg (Bool.eq_false_iff.1 hm), if_pos hb]

/-- The output bytes that exist hold free values (60_exceptions.md R405 (b)), also where no check has accepted the
buffers. -/
theorem havocOutput_read_inside {j : Nat} (ho : hasOutput s.snap.opv = true) (hwf : s.mem.wf = true)
    (hj : j < s.snap.dstN.toNat) (ha : s.snap.dstBase.toNat + j < 2 ^ s.platform.xlen) :
    s.havocOutput.mem.read (s.snap.dstBase.toNat + j) = Config.freeByte (s.draws + j) := by
  have hcount : j < s.outCount := Nat.lt_min.2 ⟨hj, by omega⟩
  rw [State.havocOutput, if_pos ho]
  exact Memory.read_havoc_inside _ _ _ _ hwf hcount

end Sys2Proof.Machine

namespace Sys2Proof.Proofs
open Sys2Proof.Machine

/-- Settles O57: the reset of a busy block draws the output buffer of the command it abandons, if it has one. -/
theorem resetWhileBusy : Obligations.ResetWhileBusy := by
  unfold Obligations.ResetWhileBusy
  intro s rest hq hwf hi hb
  have hmem : { s with inbox := rest }.resetBlock.mem = { s with inbox := rest }.havocOutput.mem :=
    resetBlock_mem_of_busy (marked_of_quiet hq) hb
  refine ⟨_, step_of_reset hi (.inl hq.2.2), rfl, ⟨rfl, rfl, rfl⟩, resetBlock_view_of_busy hb, rfl,
    fun hn => ?_, fun b hout => ?_, fun ho j hj ha => ?_⟩ <;> rw [hmem]
  · have hno : hasOutput s.snap.opv = false := Bool.eq_false_iff.2 (mt (hasOutput_iff _).1 hn)
    rw [havocOutput_of_no_output (s := { s with inbox := rest }) hno]
  · exact havocOutput_read_outside _ b hout
  · exact havocOutput_read_inside ((hasOutput_iff _).2 ho) hwf hj ha

/-- Settles O56: power-on and every reset event give the same registers; only an idle block with no mark has nothing
to abandon. -/
theorem resetValues : Obligations.ResetValues := by
  unfold Obligations.ResetValues
  refine ⟨⟨rfl, rfl, rfl, rfl, rfl, rfl⟩, fun s rest hi h => ?_⟩
  refine ⟨_, step_of_reset hi h, rfl, rfl, rfl, rfl, rfl, rfl, rfl, rfl, rfl, rfl, fun hq hb => ?_⟩
  exact ⟨resetBlock_mem_of_idle (marked_of_quiet hq) hb, resetBlock_view_of_idle hb⟩

/-- Settles O58: after reset every list is empty, every address and length is 0, and nothing is pending. -/
theorem resetMeetsInv : Obligations.ResetMeetsInv where
  platform := by decide
  memWf := rfl
  memBound := nofun
  tableWf := rfl
  code := .head _
  srcAddr := Nat.two_pow_pos _
  srcLen := Nat.two_pow_pos _
  dstAddr := Nat.two_pow_pos _
  dstLen := Nat.two_pow_pos _
  outLen := Nat.two_pow_pos _
  snapshot := nofun
  command := nofun
  decode := nofun
  unseen := nofun
  peers := ⟨.nil, nofun⟩

end Sys2Proof.Proofs
end
